-- ==== Sys2Proof/Word.lean ====
section
/-! DEFINITION. The word types of the AE-2: bytes, 64-bit words, vector registers, and the numbers
that name the parts of the device. -/

namespace Sys2Proof

/-- One byte of memory. -/
abbrev Byte := BitVec 8

/-- A 64-bit register, address or instruction word (R249, R255). -/
abbrev W64 := BitVec 64

/-- One 32-bit lane of a vector register or one tile element (R249). -/
abbrev Lane := BitVec 32

/-- A 512-bit vector register: 16 lanes, lane i at index i (R249). -/
abbrev V512 := Vector (BitVec 32) 16

/-- A compute core, numbered y*16 + x (R8). -/
abbrev CoreId := Fin 256

/-- A system core (R20). -/
abbrev SysId := Fin 16

/-- A tide engine, numbered across both dies (R19). -/
abbrev TideId := Fin 64

/-- A cluster, which is also its matrix array and its L2 slice (R8). -/
abbrev ClusterId := Fin 64

/-- A partition, which is also its translation space (R31, R189). -/
abbrev PartId := Fin 32

/-- A 12-bit agent identifier (R21). -/
abbrev AgentId := BitVec 12

end Sys2Proof
end

