-- ==== Sys2Proof/Syntax.lean ====
section
/-! DEFINITION. The instructions of the AE-2 as terms: one constructor of `Instr` for each row of
spec/opcode_table.json, the operand layouts they carry (R258, R260, R261, R269, R271), and the
fetched word. The rows that no instruction word names are the device's other indivisible steps
(95_what_each_step_holds.md); each is a constructor too, with what must be said to name one step. -/

namespace Sys2Proof

/-- The processor that runs instruction words: a compute core's CP or a system core (R20). -/
inductive Proc where
  | compute (c : CoreId)
  | system (k : SysId)
  deriving DecidableEq, Repr, Inhabited

/-- The six engine queues of a core, in the order of R123. -/
inductive QueueId where
  | stream | grid | scan | matrix | copy | quay
  deriving DecidableEq, Repr

/-- A scalar slot's fields: [50:46] sd, [45:41] sa, [40:36] sb, [35:32] sx (R258). -/
structure SlotS where
  sd : BitVec 5
  sa : BitVec 5
  sb : BitVec 5
  sx : BitVec 4
  deriving DecidableEq, Repr

/-- A vector slot's fields: [23:20] vd, [19:16] va, [15:12] vb, [11:8] vc, [7:5] type, [4:0] mod (R258). -/
structure SlotV where
  vd : BitVec 4
  va : BitVec 4
  vb : BitVec 4
  vc : BitVec 4
  ty : BitVec 3
  md : BitVec 5
  deriving DecidableEq, Repr

/-- The LA and LC layouts: d, a, imm32, x (R260). -/
structure La where
  d : BitVec 5
  a : BitVec 5
  imm : BitVec 32
  x : BitVec 8
  deriving DecidableEq, Repr

/-- The LB layout: d, a, b, c, the zero field [29:8], x (R260). -/
structure Lb where
  d : BitVec 5
  a : BitVec 5
  b : BitVec 5
  c : BitVec 5
  z : BitVec 22
  x : BitVec 8
  deriving DecidableEq, Repr

/-- The LM layout of the memory operations (R260, R328). -/
structure Lm where
  d : BitVec 5
  a : BitVec 5
  imm : BitVec 24
  size : BitVec 3
  order : BitVec 3
  fe : BitVec 2
  scope : BitVec 3
  x : BitVec 5
  deriving DecidableEq, Repr

/-- The LV layout of the vector and tile operations (R260, R306). -/
structure Lv where
  d : BitVec 13
  a : BitVec 13
  b : BitVec 13
  ty : BitVec 3
  md : BitVec 8
  deriving DecidableEq, Repr

/-- The LS layout of the flag operations (R260, R343). -/
structure Ls where
  d : BitVec 5
  a : BitVec 5
  flag : BitVec 8
  count : BitVec 16
  imm : BitVec 16
  deriving DecidableEq, Repr

/-- An E command: the wait and signal halves of word 0 and the whole of word 1 (R261). -/
structure Ecmd where
  waitFlag : BitVec 8
  waitCount : BitVec 16
  sigFlag : BitVec 8
  sigCount : BitVec 16
  z : BitVec 2
  w1 : BitVec 64
  deriving DecidableEq, Repr

/-- A grid cell word below its cop (R271). -/
structure CellWord where
  srcA : BitVec 4
  srcB : BitVec 4
  srcC : BitVec 4
  outm : BitVec 5
  slice : BitVec 7
  stage : BitVec 3
  ctype : BitVec 2
  slot : BitVec 3
  z : BitVec 10
  imm : BitVec 16
  deriving DecidableEq, Repr

/-- A pattern word of the Step layout (R269). -/
structure PatStep where
  step : BitVec 18
  rep : BitVec 16
  arg : BitVec 8
  deriving DecidableEq, Repr

/-- A pattern word of the Load layout (R269). -/
structure PatLoad where
  imm : BitVec 42
  deriving DecidableEq, Repr

/-- A pattern word of the Sync layout (R269). -/
structure PatSync where
  flag : BitVec 8
  count : BitVec 16
  core : BitVec 8
  z : BitVec 10
  deriving DecidableEq, Repr

/-- An operand specifier, short or long (R253, R254). -/
inductive Spec where
  | lat
  | reg (n : BitVec 3)
  | tile (t : BitVec 5) (dir : BitVec 2) (k : BitVec 4)
  | scalar (g : BitVec 5)
  deriving DecidableEq, Repr

/-- The vector operations, short and long forms alike, in the order of R265 (ops 0x40 to 0x5A). -/
inductive VecOp where
  | add | sub | mul | fma | max | min | abs | neg | and | or | xor | shl | shr | cmp | sel | cvt | mov
  | cacc | twosum | red | exp2 | rcp | rsq | splat | extr | perm | quant
  deriving DecidableEq, Repr

/-- The operands of a vector operation, whichever form they came in (R306, R307). `third` is vc, and
`bRaw` the bits of B or vb. A specifier that names nothing is `none`. -/
structure VecArgs where
  long : Bool
  d : Option Spec
  a : Option Spec
  b : Option Spec
  c : Option Spec
  bRaw : BitVec 13
  third : BitVec 4
  ext : BitVec 3
  rnd : BitVec 2
  sat : Bool
  ops : BitVec 2
  ty : BitVec 3
  deriving DecidableEq, Repr

/-- A register outside the processors' files that a register write can name (R4). -/
inductive RegRef where
  /-- Special register `num` of the processor whose turn it is (R349, R406). -/
  | special (num : BitVec 12)
  /-- The word at `offset` of the trap window of core `c`, as a system core's store reaches it (R223). -/
  | window (c : CoreId) (offset : BitVec 16)
  /-- The BAR0 register of VF `t` at `offset` (R431). -/
  | bar0 (t : PartId) (offset : BitVec 16)
  deriving DecidableEq, Repr

/-- The item source whose next piece is performed: a copy command in flight or a tide program (R116). -/
inductive PieceSource where
  | copy (c : CoreId) (pos : Nat)
  | tide (t : TideId) (slot : Nat)
  deriving DecidableEq, Repr

/-- A request of a port function: the partition whose tables translate it, the peer number (none for
the host), the address, the size in bytes, and the operands (R430). -/
structure PortRequest where
  part : PartId
  peer : Option (Fin 15)
  va : W64
  size : Nat
  data : List Byte
  cmp : BitVec 128
  deriving DecidableEq, Repr

/-- What a mailbox request asks for (R429, R431, R433). -/
inductive MailboxRequest where
  /-- The driver creates a queue whose header lies at `header`, offering `versions` (R433). -/
  | queueCreate (header : W64) (versions : BitVec 64)
  /-- The PF mailbox binds or unbinds the VF of partition `t` (R429). -/
  | bind (t : PartId) (bound : Bool)
  /-- Any other request: bytes of the mailbox area, whose format the manual does not give (R431). -/
  | other (offset : BitVec 8) (v : W64)
  /-- A request to the PF mailbox whose format the manual does not give; it is the recovery mailbox after a failed boot (R441). -/
  | pf (offset : BitVec 8) (v : W64)
  /-- The device's public key and its certificate, by the PF mailbox (R443). -/
  | identity
  deriving DecidableEq, Repr

/-- What the boot ROM finds: the unit tests' result and the flash image (R441, R442). -/
structure BootReport where
  slices : BitVec 64
  channels : BitVec 48
  sysCores : BitVec 16
  feat : List (BitVec 6)
  image : List Byte
  deriving DecidableEq, Repr

/-- One stored checkpoint: its manifest, the public key of the device that signed it, the shards
(R245, R246). -/
structure CheckpointCopy where
  manifest : List Byte
  keyX : Nat
  keyY : Nat
  shards : List (List Byte)
  deriving DecidableEq, Repr

/-- One constructor for each row of the opcode table, in the table's order. -/
inductive Instr where
  /-- R290: Scalar-slot no-operation; all its fields must be zero. -/
  | snop (f : SlotS)
  /-- R285: Writes g[a] plus a register or 5-bit immediate to g[d], modulo 2^64. -/
  | add (f : SlotS)
  /-- R285: Writes g[a] minus B to g[d]. -/
  | sub (f : SlotS)
  /-- R285: Writes the bitwise AND of g[a] and B to g[d]. -/
  | and (f : SlotS)
  /-- R285: Writes the bitwise OR of g[a] and B to g[d]. -/
  | or (f : SlotS)
  /-- R285: Writes the bitwise XOR of g[a] and B to g[d]. -/
  | xor (f : SlotS)
  /-- R285: Writes g[a] AND NOT B to g[d]. -/
  | andn (f : SlotS)
  /-- R285: Shifts g[a] left by B[5:0] into g[d]. -/
  | shl (f : SlotS)
  /-- R285: Shifts g[a] right logically by B[5:0] into g[d]. -/
  | shr (f : SlotS)
  /-- R285: Shifts g[a] right arithmetically by B[5:0] into g[d]. -/
  | sra (f : SlotS)
  /-- R285: Writes the low 64 bits of g[a] times B to g[d]. -/
  | mul (f : SlotS)
  /-- R285: Writes the high 64 bits of the signed product of g[a] and B to g[d]. -/
  | mulh (f : SlotS)
  /-- R285: Writes the high 64 bits of the unsigned product of g[a] and B to g[d]. -/
  | mulhu (f : SlotS)
  /-- R285: Writes the signed minimum of g[a] and B to g[d]. -/
  | min (f : SlotS)
  /-- R285: Writes the signed maximum of g[a] and B to g[d]. -/
  | max (f : SlotS)
  /-- R285: Writes the unsigned minimum of g[a] and B to g[d]. -/
  | minu (f : SlotS)
  /-- R285: Writes the unsigned maximum of g[a] and B to g[d]. -/
  | maxu (f : SlotS)
  /-- R285: Copies a register or 5-bit immediate B into g[d]. -/
  | mov (f : SlotS)
  /-- R286: Adds two 128-bit register-pair values modulo 2^128. -/
  | addq (f : SlotS)
  /-- R286: Shifts a 128-bit register pair left. -/
  | shlq (f : SlotS)
  /-- R286: Shifts a 128-bit register pair right logically. -/
  | shrq (f : SlotS)
  /-- R286: Shifts a 128-bit register pair right arithmetically. -/
  | sraq (f : SlotS)
  /-- R287: Writes the number of leading zero bits of g[a] to g[d]. -/
  | clz (f : SlotS)
  /-- R287: Writes the number of trailing zero bits of g[a] to g[d]. -/
  | ctz (f : SlotS)
  /-- R287: Writes the number of one bits of g[a] to g[d]. -/
  | popc (f : SlotS)
  /-- R288: Selects g[a] or g[sb] into g[d] by a possibly inverted predicate. -/
  | sel (f : SlotS)
  /-- R289: Writes a 64-bit integer comparison of g[a] and B to a predicate. -/
  | setp (f : SlotS)
  /-- R289: Writes a 128-bit integer comparison to a predicate. -/
  | setpq (f : SlotS)
  /-- R290: Writes the AND of two predicates, the second optionally inverted. -/
  | pand (f : SlotS)
  /-- R290: Writes the OR of two predicates, the second optionally inverted. -/
  | por (f : SlotS)
  /-- R290: Writes the XOR of two predicates, the second optionally inverted. -/
  | pxor (f : SlotS)
  /-- R290: Writes the inverse of a predicate. -/
  | pnot (f : SlotS)
  /-- R264: Vector-slot no-operation. -/
  | vnop (f : SlotV)
  /-- R310: Vector-slot elementwise addition of va and vb into vd. -/
  | vaddSlot (f : SlotV)
  /-- R310: Vector-slot elementwise subtraction. -/
  | vsubSlot (f : SlotV)
  /-- R310: Vector-slot elementwise multiplication. -/
  | vmulSlot (f : SlotV)
  /-- R310: Vector-slot fused va times vb plus vc into vd, one rounding. -/
  | vfmaSlot (f : SlotV)
  /-- R310: Vector-slot elementwise maximum. -/
  | vmaxSlot (f : SlotV)
  /-- R310: Vector-slot elementwise minimum. -/
  | vminSlot (f : SlotV)
  /-- R310: Vector-slot elementwise absolute value. -/
  | vabsSlot (f : SlotV)
  /-- R310: Vector-slot elementwise negation. -/
  | vnegSlot (f : SlotV)
  /-- R312: Vector-slot bitwise AND of 512 bits. -/
  | vandSlot (f : SlotV)
  /-- R312: Vector-slot bitwise OR of 512 bits. -/
  | vorSlot (f : SlotV)
  /-- R312: Vector-slot bitwise XOR of 512 bits. -/
  | vxorSlot (f : SlotV)
  /-- R312: Vector-slot elementwise left shift. -/
  | vshlSlot (f : SlotV)
  /-- R312: Vector-slot elementwise right shift, arithmetic or logical by type. -/
  | vshrSlot (f : SlotV)
  /-- R313: Vector-slot elementwise comparison under the condition in vc, giving all-ones or zero elements. -/
  | vcmpSlot (f : SlotV)
  /-- R314: Vector-slot select of va or vb elements by the top bits of mask vc. -/
  | vselSlot (f : SlotV)
  /-- R316: Vector-slot format conversion with the control in vb. -/
  | vcvtSlot (f : SlotV)
  /-- R315: Vector-slot bit-for-bit copy of va to vd. -/
  | vmovSlot (f : SlotV)
  /-- R318: Vector-slot compensated accumulation of an FP32 value into a CF32 pair, with fade. -/
  | vcaccSlot (f : SlotV)
  /-- R319: Vector-slot TwoSum of two FP32 operands into a CF32 pair. -/
  | vtwosumSlot (f : SlotV)
  /-- R320: Vector-slot reduction (sum, max or min selected by vc) into element 0. -/
  | vredSlot (f : SlotV)
  /-- R291: Adds a sign-extended 32-bit immediate to g[a]. -/
  | addi (f : La)
  /-- R291: ANDs g[a] with a sign-extended immediate. -/
  | andi (f : La)
  /-- R291: ORs g[a] with a sign-extended immediate. -/
  | ori (f : La)
  /-- R291: XORs g[a] with a sign-extended immediate. -/
  | xori (f : La)
  /-- R291: Shifts g[a] left by an immediate amount. -/
  | shli (f : La)
  /-- R291: Shifts g[a] right logically by an immediate amount. -/
  | shri (f : La)
  /-- R291: Shifts g[a] right arithmetically by an immediate amount. -/
  | srai (f : La)
  /-- R291: Multiplies g[a] by a sign-extended immediate, keeping the low 64 bits. -/
  | muli (f : La)
  /-- R291: Loads a sign-extended 32-bit immediate into g[d]. -/
  | li (f : La)
  /-- R291: Replaces the upper 32 bits of g[d] with an immediate. -/
  | lui (f : La)
  /-- R291: Sets g[d] to 1 if g[a] is below the immediate, signed or unsigned. -/
  | slti (f : La)
  /-- R291: Writes a comparison of g[a] with an immediate to a predicate. -/
  | setpi (f : La)
  /-- R292: Signed 64-bit division, trapping with 256 on a zero divisor. -/
  | div (f : Lb)
  /-- R292: Unsigned 64-bit division, trapping on a zero divisor. -/
  | divu (f : Lb)
  /-- R292: Signed remainder, trapping on a zero divisor. -/
  | rem (f : Lb)
  /-- R292: Unsigned remainder, trapping on a zero divisor. -/
  | remu (f : Lb)
  /-- R294: Scalar floating-point addition in FP32 or FP64, rounded by RMODE. -/
  | fadd (f : Lb)
  /-- R294: Scalar floating-point subtraction. -/
  | fsub (f : Lb)
  /-- R294: Scalar floating-point multiplication. -/
  | fmul (f : Lb)
  /-- R294: Scalar fused multiply-add with one rounding. -/
  | ffma (f : Lb)
  /-- R294: Scalar floating-point division. -/
  | fdiv (f : Lb)
  /-- R294: Scalar floating-point square root. -/
  | fsqrt (f : Lb)
  /-- R294: Scalar floating-point minimum with −0 below +0. -/
  | fmin (f : Lb)
  /-- R294: Scalar floating-point maximum with −0 below +0. -/
  | fmax (f : Lb)
  /-- R295: Writes a floating-point comparison under an FCond code to a predicate. -/
  | fcmp (f : Lb)
  /-- R296: Converts between FP widths, integers and BF16 by the selected kind. -/
  | fcvt (f : Lb)
  /-- R298: Branches to a PC-relative target. -/
  | br (f : La)
  /-- R298: Writes the return address to g[d] and branches to a PC-relative target. -/
  | call (f : La)
  /-- R298: Decrements g[d] and branches while the result is nonzero. -/
  | loop (f : La)
  /-- R299: Jumps to g[a], popping the return-address predictor. -/
  | ret (f : Lb)
  /-- R299: Jumps to the address in g[a]. -/
  | jmpr (f : Lb)
  /-- R299: Writes the return address and jumps to the old g[a]. -/
  | callr (f : Lb)
  /-- R300: Waits for earlier work and then stops the core asynchronously with cause 327. -/
  | halt (f : Lb)
  /-- R301: Performs a release event, restarts the watchdog and lets the Timetable pre-empt the piece if a candidate exists. -/
  | yield (f : Lb)
  /-- R302: Stops the core precisely with cause 320. -/
  | syscall (f : La)
  /-- R302: Stops the core precisely with cause 321. -/
  | brk (f : La)
  /-- R303: Waits for the bell of the completion combiner. -/
  | wfb (f : Lb)
  /-- R331: Loads 1–8 bytes into g[d] with order, full/empty and scope qualifiers. -/
  | ld (f : Lm)
  /-- R331: Stores 1–8 bytes of g[d] with order, full/empty and scope qualifiers. -/
  | st (f : Lm)
  /-- R331: Loads 16 bytes into a register pair. -/
  | ldp (f : Lm)
  /-- R331: Stores 16 bytes from a register pair. -/
  | stp (f : Lm)
  /-- R331: Loads 64 bytes, or 128 into a pair, into vector registers. -/
  | ldv (f : Lm)
  /-- R331: Stores a vector register or pair. -/
  | stv (f : Lm)
  /-- R333: Loads a 16x16 tile row by row with format conversion. -/
  | ldt (f : Lm)
  /-- R333: Stores a 16x16 tile row by row with format conversion. -/
  | stt (f : Lm)
  /-- R335: Requests a line into L1 and L2 or L2 only, never faulting. -/
  | pref (f : Lm)
  /-- R336: Orders the agent's own accesses by acq, rel, ar or sc. -/
  | fence (f : Lm)
  /-- R337: Performs an atomic read-modify-write at the home slice, returning the old value. -/
  | amo (f : Lm)
  /-- R338: Atomic compare-and-swap at the home slice. -/
  | cas (f : Lm)
  /-- R340: Claims a producer slot of a user-mode queue. -/
  | enq (f : Lm)
  /-- R340: Commits a claimed slot in slot order. -/
  | enqCommit (f : Lm)
  /-- R340: Claims a committed slot of a user-mode queue. -/
  | deq (f : Lm)
  /-- R340: Frees a consumed slot in slot order. -/
  | deqFree (f : Lm)
  /-- R342: Performs a release event and pushes a vector register into a neighbour queue. -/
  | qpush (f : Lb)
  /-- R342: Pops the oldest slot of a neighbour queue into a vector register. -/
  | qpop (f : Lb)
  /-- R310: Long-form elementwise addition. -/
  | vadd (f : Lv)
  /-- R310: Long-form elementwise subtraction. -/
  | vsub (f : Lv)
  /-- R310: Long-form elementwise multiplication. -/
  | vmul (f : Lv)
  /-- R310: Long-form fused A times B plus D into D. -/
  | vfma (f : Lv)
  /-- R310: Long-form elementwise maximum. -/
  | vmax (f : Lv)
  /-- R310: Long-form elementwise minimum. -/
  | vmin (f : Lv)
  /-- R310: Long-form elementwise absolute value. -/
  | vabs (f : Lv)
  /-- R310: Long-form elementwise negation. -/
  | vneg (f : Lv)
  /-- R312: Long-form bitwise AND. -/
  | vand (f : Lv)
  /-- R312: Long-form bitwise OR. -/
  | vor (f : Lv)
  /-- R312: Long-form bitwise XOR. -/
  | vxor (f : Lv)
  /-- R312: Long-form elementwise left shift. -/
  | vshl (f : Lv)
  /-- R312: Long-form elementwise right shift. -/
  | vshr (f : Lv)
  /-- R313: Long-form elementwise comparison under the condition in E. -/
  | vcmp (f : Lv)
  /-- R314: Long-form select by the top bits of the latch mask. -/
  | vsel (f : Lv)
  /-- R316: Long-form format conversion with control C and part selection. -/
  | vcvt (f : Lv)
  /-- R315: Long-form bit copy between registers, tiles and scalar broadcast. -/
  | vmov (f : Lv)
  /-- R318: Long-form compensated accumulation with fade. -/
  | vcacc (f : Lv)
  /-- R319: Long-form TwoSum into a CF32 pair. -/
  | vtwosum (f : Lv)
  /-- R320: Long-form reduction in a fixed tree into element 0. -/
  | vred (f : Lv)
  /-- R321: Computes 2^A per element, rounded once. -/
  | vexp2 (f : Lv)
  /-- R321: Computes 1/A per element, rounded once. -/
  | vrcp (f : Lv)
  /-- R321: Computes 1/sqrt(A) per element, rounded once. -/
  | vrsq (f : Lv)
  /-- R322: Sets every element of D to element j of A. -/
  | vsplat (f : Lv)
  /-- R322: Extracts element j of A into a g register. -/
  | vextr (f : Lv)
  /-- R323: Permutes lanes or bytes of A by indices in B. -/
  | vperm (f : Lv)
  /-- R324: Quantises 64 tile values into one E2M1 block. -/
  | vquant (f : Lv)
  /-- R325: Makes the named tiles empty and zero. -/
  | tclr (f : Lb)
  /-- R325: Makes the named tiles full without changing contents. -/
  | tmark (f : Lb)
  /-- R325: Waits until every named tile is full, or every one empty. -/
  | twait (f : Lb)
  /-- R344: Waits on a flag for a threshold and consumes it. -/
  | fwait (f : Ls)
  /-- R344: Performs a release event and adds an amount to a flag of this or another core. -/
  | fsig (f : Ls)
  /-- R344: Reads a flag's value, window, reserved total or overflow report, clearing the report. -/
  | frd (f : Ls)
  /-- R344: Replaces a flag's value and discards its accounting. -/
  | fset (f : Ls)
  /-- R344: Replaces a flag's window W. -/
  | fwin (f : Ls)
  /-- R345: Releases at system scope, reads a launch descriptor and queues the launch. -/
  | spawn (f : La)
  /-- R346: Seeks work from the Timetable, or acts as DONE inside a piece. -/
  | work (f : Lb)
  /-- R199: Completes a piece: drains queues, stores out-operands, commits, releases and lowers the roll-call counters. -/
  | done (f : Lb)
  /-- R348: Arrives at a barrier over an aligned group of the launch rectangle. -/
  | gbar (f : La)
  /-- R349: Reads a special register into g[d]. -/
  | rdsr (f : La)
  /-- R349: Writes g[a] to a special register under its field access. -/
  | wrsr (f : La)
  /-- R350: Returns FEAT and the partition's required feature mask. -/
  | featq (f : Lb)
  /-- R53: Translates an address and returns its location word without accessing data. -/
  | locq (f : La)
  /-- R350: Returns the common cycle counter. -/
  | cycle (f : Lb)
  /-- R350: Sets tile banks on, in retention or gated. -/
  | regpwr (f : La)
  /-- R408: Returns from a system-core exception, restoring PC and IE. -/
  | trapret (f : Lb)
  /-- R409: Drops every translation in all spaces device-wide. -/
  | tlbinvAll (f : La)
  /-- R409: Drops every translation and walk-cache entry of one space. -/
  | tlbinvSpace (f : La)
  /-- R409: Drops translations of one page and the pointer entries on its walk path. -/
  | tlbinvPage (f : La)
  /-- R410: Maps or unmaps a compute core's trap window in the supervisor space. -/
  | winmap (f : La)
  /-- R410: Installs the root of translation space 32. -/
  | winmapRoot (f : La)
  /-- R412: Assigns or changes a partition from a 128-byte descriptor without draining. -/
  | partcfgAssign (f : La)
  /-- R412: Releases a partition. -/
  | partcfgRelease (f : La)
  /-- R413: Sets a tenant's interactive weight. -/
  | ttcmdWeight (f : La)
  /-- R413: Closes the session set of a launch. -/
  | ttcmdClose (f : La)
  /-- R413: Stops new steps device-wide, waits for running steps and saves resident slates. -/
  | ttcmdQuiesce (f : La)
  /-- R413: Lets session steps start again. -/
  | ttcmdResume (f : La)
  /-- R414: Clears feature bits of a compute core. -/
  | corectlClrfeat (f : La)
  /-- R414: Requests a debug halt of a compute core with cause 327. -/
  | corectlHalt (f : La)
  /-- R414: Returns a compute core's state word. -/
  | corectlState (f : La)
  /-- R415: Writes a signed attestation report over a nonce. -/
  | attest (f : La)
  /-- R361: Starts a stream engine on a pattern program. -/
  | seRun (f : Ecmd)
  /-- R361: Stops one or all stream-engine programs at the next pattern-word boundary. -/
  | seHalt (f : Ecmd)
  /-- R362: Offers a pattern program to a tide engine. -/
  | teRun (f : Ecmd)
  /-- R362: Stops this core's programs on a tide engine at a chunk boundary. -/
  | teHalt (f : Ecmd)
  /-- R363: Joins a source and sink endpoint through a switch queue, or removes the route. -/
  | swRoute (f : Ecmd)
  /-- R364: Writes the source and/or sink format registers of a switch queue. -/
  | swFmt (f : Ecmd)
  /-- R366: Loads a grid image into the free configuration version. -/
  | grCfg (f : Ecmd)
  /-- R367: Starts a grid loop under the most recently loaded version. -/
  | grGo (f : Ecmd)
  /-- R368: Turns off the newest loop's first-stage predicate and stores its next index. -/
  | grDrain (f : Ecmd)
  /-- R369: Copies lane slices to memory. -/
  | grDump (f : Ecmd)
  /-- R369: Copies memory into lane slices. -/
  | grFill (f : Ecmd)
  /-- R371: Scans one chunk of state-transition operators block by block. -/
  | scnChunk (f : Ecmd)
  /-- R373: Loads, stores or zeroes the scan carry register. -/
  | scnCarry (f : Ecmd)
  /-- R375: Sets the lease intent and completes when the matrix lease is held. -/
  | mxLease (f : Ecmd)
  /-- R376: Multiplies and accumulates operand tiles into the core's accumulator set. -/
  | mxMma (f : Ecmd)
  /-- R378: Converts accumulators and writes them to memory or the switch. -/
  | mxDrain (f : Ecmd)
  /-- R375: Clears the lease intent and ends the lease after earlier commands. -/
  | mxFree (f : Ecmd)
  /-- R375: Zeroes accumulators and sets integer or float mode. -/
  | mxZero (f : Ecmd)
  /-- R380: Copies a byte range, byte-counting pieces into its flag. -/
  | xfCopy (f : Ecmd)
  /-- R380: Copies rows with separate source and destination strides. -/
  | xfCopy2d (f : Ecmd)
  /-- R380: Fills a range with an 8-byte pattern. -/
  | xfFill (f : Ecmd)
  /-- R380: Gathers elements by a 32-bit index array. -/
  | xfGather (f : Ecmd)
  /-- R383: Saves a bank's slate to the session frame. -/
  | slSave (f : Ecmd)
  /-- R383: Loads a session frame into a slate bank. -/
  | slLoad (f : Ecmd)
  /-- R383: Writes a bank's slate to snapshot frame n. -/
  | slSnap (f : Ecmd)
  /-- R384: Makes another session's frame a pending copy of snapshot n. -/
  | slFork (f : Ecmd)
  /-- R383: Loads snapshot n into a slate bank. -/
  | slRoll (f : Ecmd)
  /-- R385: Marks a bank empty, or clears a snapshot entry after its pending fork. -/
  | slDrop (f : Ecmd)
  /-- R386: Places a bell marker in the named engine queue. -/
  | note (f : Ecmd)
  /-- R393: Grid cell no-operation. -/
  | cellCnop (f : CellWord)
  /-- R393: Grid cell passes A. -/
  | cellPass (f : CellWord)
  /-- R393: Grid cell floating addition. -/
  | cellFadd (f : CellWord)
  /-- R393: Grid cell floating subtraction. -/
  | cellFsub (f : CellWord)
  /-- R393: Grid cell floating multiplication. -/
  | cellFmul (f : CellWord)
  /-- R393: Grid cell fused multiply-add. -/
  | cellFfma (f : CellWord)
  /-- R393: Grid cell floating maximum. -/
  | cellFmax (f : CellWord)
  /-- R393: Grid cell floating minimum. -/
  | cellFmin (f : CellWord)
  /-- R393: Grid cell clears the sign of A. -/
  | cellFabs (f : CellWord)
  /-- R393: Grid cell computes 2^A. -/
  | cellFexp2 (f : CellWord)
  /-- R393: Grid cell computes 1/A. -/
  | cellFrcp (f : CellWord)
  /-- R393: Grid cell integer addition. -/
  | cellIadd (f : CellWord)
  /-- R393: Grid cell integer subtraction. -/
  | cellIsub (f : CellWord)
  /-- R393: Grid cell low 32-bit integer product. -/
  | cellImul (f : CellWord)
  /-- R393: Grid cell bitwise AND. -/
  | cellAnd (f : CellWord)
  /-- R393: Grid cell bitwise OR. -/
  | cellOr (f : CellWord)
  /-- R393: Grid cell bitwise XOR. -/
  | cellXor (f : CellWord)
  /-- R393: Grid cell left shift by B[4:0]. -/
  | cellShl (f : CellWord)
  /-- R393: Grid cell logical right shift by B[4:0]. -/
  | cellShr (f : CellWord)
  /-- R393: Grid cell selects A or B by the top bit of C. -/
  | cellSel (f : CellWord)
  /-- R393: Grid cell less-than comparison. -/
  | cellCmplt (f : CellWord)
  /-- R393: Grid cell equality comparison. -/
  | cellCmpeq (f : CellWord)
  /-- R393: Grid cell reads a lane-slice row. -/
  | cellSld (f : CellWord)
  /-- R393: Grid cell writes B to a lane-slice row. -/
  | cellSst (f : CellWord)
  /-- R393: Grid cell compensated accumulation into two slice rows. -/
  | cellAcc2 (f : CellWord)
  /-- R393: Grid cell converts by the control in imm16. -/
  | cellCvt (f : CellWord)
  /-- R401: Waits for the program's accesses and ends the pattern program. -/
  | pend (f : PatLoad)
  /-- R401: Sets the source or index cursor. -/
  | pbase (f : PatLoad)
  /-- R401: Sets the destination cursor. -/
  | pdst (f : PatLoad)
  /-- R401: Moves n units of U bytes from S to D. -/
  | pmove (f : PatStep)
  /-- R401: Repeats the next transfer word with a cursor stride. -/
  | pnest (f : PatStep)
  /-- R401: Makes a cursor a ring buffer. -/
  | pwrap (f : PatStep)
  /-- R402: Sets the element conversion of later transfers. -/
  | pfmt (f : PatLoad)
  /-- R401: Stream-engine wait on an own-core flag. -/
  | pwait (f : PatSync)
  /-- R401: Waits for earlier writes, releases and adds to a flag of a named core. -/
  | psig (f : PatSync)
  /-- R401: Binds or unbinds a tide engine's flag for byte counting and admission. -/
  | pwin (f : PatSync)
  /-- R401: Continues the program at a relative word index. -/
  | pjump (f : PatLoad)
  /-- R401: Repeats a range of pattern words n times. -/
  | ploop (f : PatStep)
  /-- R401: Moves elements gathered by 32-bit indices. -/
  | pgath (f : PatStep)
  /-- R401: Sets the fill value V. -/
  | pfillv (f : PatLoad)
  /-- R401: Advances cursors, optionally writing fill bytes. -/
  | pskip (f : PatStep)
  /-- R401: Acts as PSIG on the issuing core's flag. -/
  | pnote (f : PatSync)
  /-- R4: Write to any register without behaviour of its own, under its field access. -/
  | registerWrite (r : RegRef) (v : W64)
  /-- R224: Action word releases the core to continue at the window PC, retrying frozen items. -/
  | resume (c : CoreId)
  /-- R224: Action word continues the CP at TARGET, ending a faulted frozen command. -/
  | resumeAt (c : CoreId) (target : BitVec 61)
  /-- R224: Action word discards the version, rolls back the slate and restarts the piece. -/
  | restartTask (c : CoreId)
  /-- R224: Action word ends the piece failed and lowers the roll-call tree. -/
  | failTask (c : CoreId)
  /-- R224: Action word stops the partition, discards versions and fails launches and sessions. -/
  | killPartition (c : CoreId)
  /-- R222: A held core's trap reaches a system core as a core-trap interrupt. -/
  | coreTrapDelivery (c : CoreId)
  /-- R243: The context's watchdog expires and raises 322, or sets WDX while held. -/
  | watchdogExpiry (c : CoreId)
  /-- R407: A system core takes a pending interrupt between instructions. -/
  | interruptEntry (k : SysId)
  /-- R97: An agent's earlier writes are acknowledged and its release sequence number advances. -/
  | releaseEvent (a : AgentId)
  /-- R30: A walker completes a table walk and fills TLBs or reports a fault. -/
  | pageWalk (a : AgentId) (va : W64)
  /-- R147: A line arrives at its home slice, decoding FBC blocks: for a load, or for a store, of an agent. -/
  | l2MissFill (a : AgentId) (va : W64) (store : Bool)
  /-- R148: A store's indivisible read-modify-write of an FBC block at the slice. -/
  | fbcBlockRmw (block : Nat)
  /-- R151: An item's held block image is encoded once its marked piece merges or it ends. -/
  | fbcHeldImageEncode (block : Nat)
  /-- R109: A ticketed atomic is performed once all lower tickets are performed. -/
  | ticketedAtomic
  /-- R63: A waiting full/empty access is performed once its granules meet the condition. -/
  | fullEmptyAccess (q : Proc)
  /-- R116: A copy or tide piece is performed and its byte count added to the flag. -/
  | piecePerformed (w : PieceSource) (piece : Nat)
  /-- R114: A signal from another agent arrives and is added to a flag. -/
  | flagAddition (c : CoreId)
  /-- R115: A pending wait finds its threshold and subtracts it. -/
  | flagWaitSuccess (c : CoreId) (f : BitVec 8)
  /-- R119: A tideline admits a tide-engine chunk and reserves its bytes. -/
  | tidelineAdmission (t : TideId) (slot : Nat)
  /-- R126: A stalled push is accepted into a freed neighbour-queue slot. -/
  | neighbourPushAccept (c : CoreId)
  /-- R125: A waiting pop takes a slot once its data has arrived. -/
  | neighbourPopComplete (c : CoreId)
  /-- R121: A queue's earlier commands complete and it reaches its NOTE. -/
  | noteReached (c : CoreId) (q : QueueId)
  /-- R122: Every queue holding a NOTE has reached it, so WFB completes and the queues continue. -/
  | bellRing (c : CoreId)
  /-- R356: The head command of an engine queue starts once its wait and start rule allow. -/
  | engineCommandStart (c : CoreId) (q : QueueId)
  /-- R357: An engine command's last access is performed and its signal added. -/
  | engineCommandComplete (c : CoreId) (q : QueueId) (pos : Nat)
  /-- R18: A matrix array is re-arbitrated and granted to a requesting core. -/
  | leaseGrant (k : ClusterId)
  /-- R215: The 20,000-cycle lease limit passes and the running command stops at its boundary. -/
  | leaseCycleLimit (k : ClusterId)
  /-- R215: The lease ends after its 16th command completes. -/
  | leaseCommandLimit (k : ClusterId)
  /-- R422: The operand collector takes a CB3 table once its granule is full. -/
  | cb3TableTake (c : CoreId)
  /-- R216: An array enters or leaves narrowed mode between two commands. -/
  | narrowModeChange (k : ClusterId)
  /-- R79: The Quay has read a bank page, ending its reading state. -/
  | quayPageRead (c : CoreId) (pos : Nat)
  /-- R80: A bank page's bytes arrive, ending its writing state. -/
  | quayPageArrived (c : CoreId) (pos : Nat)
  /-- R231: A guarded slate page is copied to the rollback area, releasing the stalled write. -/
  | guardedPageCopy (c : CoreId) (page : Nat)
  /-- R363: A tile source reads a full tile into a switch queue and sets it empty. -/
  | tileSourceRead (c : CoreId) (sq : BitVec 5)
  /-- R363: A tile sink writes 16 rows into an empty tile and sets it full. -/
  | tileSinkFill (c : CoreId) (sq : BitVec 5)
  /-- R389: The loop pops its in-port tokens and starts an iteration. -/
  | gridIterationStart (c : CoreId) (ver : Bool)
  /-- R389: A column-7 result is pushed as a token to an out port. -/
  | gridTokenPush (c : CoreId) (ver : Bool)
  /-- R348: The last member arrives and every member departs the barrier. -/
  | gbarComplete (c : CoreId)
  /-- R217: The Timetable accepts a queued launch once a roll-call counter set is free. -/
  | launchAccept
  /-- R435: The Timetable takes a launch packet from the partition's launch queue. -/
  | launchPacketTake (part : PartId)
  /-- R203: A core seeking work is given a piece by the dispatch cases. -/
  | dispatch (c : CoreId)
  /-- R208: The other die's Timetable answers a steal request. -/
  | stealAnswer (c : CoreId)
  /-- R210: A session's input queue holds a packet and no step runs. -/
  | sessionReady (part : PartId) (sid : BitVec 24)
  /-- R212: A session's time slice ends, pre-empting the step if a candidate exists. -/
  | timeSliceEnd (c : CoreId)
  /-- R234: The Timetable asks a piece's units to stop at their pre-emption points. -/
  | preemptRequest (c : CoreId)
  /-- R236: Once every unit has stopped, the context is written to its save area. -/
  | contextSave (c : CoreId)
  /-- R237: A saved context is restored on a core and resumed. -/
  | contextRestore (c : CoreId)
  /-- R213: A batch session ready for 10 ms is served as interactive. -/
  | batchPromotion (part : PartId) (sid : BitVec 24)
  /-- R218: Every 1 µs each die's Timetable writes its FORECAST register. -/
  | forecastUpdate (die : Bool)
  /-- R430: A host or peer memory read of partition addresses, as a plain load. -/
  | bar2Read (r : PortRequest)
  /-- R430: A host or peer memory write, as a plain store. -/
  | bar2Write (r : PortRequest)
  /-- R430: A FetchAdd AtomicOp performed as an ar add AMO at system scope. -/
  | bar2Fetchadd (r : PortRequest)
  /-- R430: A Swap AtomicOp performed as an ar swap AMO at system scope. -/
  | bar2Swap (r : PortRequest)
  /-- R430: A CAS AtomicOp performed as an ar CAS at system scope. -/
  | bar2Cas (r : PortRequest)
  /-- R431: A write sets or disables the partition's launch queue. -/
  | lqaddr (part : PartId) (v : W64)
  /-- R431: A request to Aedith through the BAR0 mailbox. -/
  | mailboxRequest (part : PartId) (m : MailboxRequest)
  /-- R431: An FLR of a VF acts as KILL_PARTITION on its partition. -/
  | functionLevelReset (part : PartId)
  /-- R429: A peer device completes link training and takes an identifier, or is refused. -/
  | peerLinkTraining
  /-- R228: The host link goes down, reported with 368. -/
  | hostLinkDown
  /-- R228: The peer link goes down, reported with 369. -/
  | peerLinkDown
  /-- R437: A die-link flit is received and delivered in sequence. -/
  | flitReceive (die : Bool) (bytes : List Byte)
  /-- R437: Sixteen replays of one flit report 370. -/
  | replayLimit
  /-- R437: The die link stays untrained for 1 ms, reporting 371 and failing crossing items. -/
  | dieLinkLost
  /-- R439: A 1 µs interval boundary resets regulators' used counts and admits held requests. -/
  | regulatorInterval
  /-- R439: A soft-mode held request is admitted when no under-budget request waits. -/
  | regulatorSoftAdmit (ctrl : Nat) (part : PartId)
  /-- R441: The module boots: ROM, unit test, firmware verification, Aedith and ports. -/
  | moduleBoot (b : BootReport)
  /-- R444: Power above 1,150 W for 10 µs or coolant over limit raises the alarm. -/
  | powerAlarmRaise
  /-- R444: The alarm clears after 100 µs below 1,050 W with the inlet in limit. -/
  | powerAlarmClear
  /-- R247: A restore checks manifests and restores the newest valid checkpoint. -/
  | checkpointRestore (copies : List CheckpointCopy)
  /-- R248: A spare takes a failed device's shards and every device restores. -/
  | deviceFailover (copies : List CheckpointCopy)
  /-- R228: The host port link trains again after it has gone down, and traffic through the host port resumes. -/
  | hostLinkTraining
  /-- R437: After the replay limit, the die link trains again within 1 ms and its channels resume delivery in sequence. -/
  | dieLinkTraining
  deriving DecidableEq, Repr

/-- A guard: bit [63] negates, bits [62:60] name the predicate (R256). -/
structure Guard where
  neg : Bool
  pred : BitVec 3
  deriving DecidableEq, Repr

/-- A fetched word: a P word's two slots, an L word's operation, or an E command (R255, R256). -/
inductive Fetched where
  | p (g : Guard) (s v : Instr)
  | l (g : Guard) (i : Instr)
  | e (g : Guard) (i : Instr)
  deriving DecidableEq, Repr

end Sys2Proof
end

