-- ==== Sys2Proof/Decode.lean ====
section
/-! DEFINITION. Decoding and encoding of instruction words, cell words and pattern words (R255 to
R272), the decode faults (R226, R257), and the encoder beside the decoder. Total on any bits: what
is no instruction is refused by its cause code. -/

namespace Sys2Proof

/-- Bits [lo + len - 1 : lo] of a word. -/
def fld {n : Nat} (w : BitVec n) (lo len : Nat) : BitVec len := w.extractLsb' lo len

/-- Who decodes: a system core or a compute core, and the compute core's feature bits (R257, R240). -/
structure DecodeEnv where
  sys : Bool
  feat : BitVec 6
  deriving DecidableEq, Repr

/-- A compute core with every feature (R240). -/
def DecodeEnv.full : DecodeEnv := ⟨false, 0x3F⟩

/-- A system core. -/
def DecodeEnv.system : DecodeEnv := ⟨true, 0⟩

/-- The value m << (2s) of a scaled count (R113). -/
def scaled (c : BitVec 16) : Nat := (fld c 4 12).toNat <<< (2 * (fld c 0 4).toNat)

/-- Decode reason 8 for a scaled count above 0xFFFF_FFFF (R113, R226). -/
def scaledReasons (c : BitVec 16) : List Nat := if scaled c > 0xFFFFFFFF then [8] else []

/-- Reason `r` when a check fails. -/
def unlessOk (ok : Bool) (r : Nat) : List Nat := if ok then [] else [r]

/-! ## Operand specifiers -/

/-- A short vector specifier; 9 to 15 name nothing (R253). -/
def Spec.ofShort (s : BitVec 4) : Option Spec :=
  if s.toNat < 8 then some (.reg (fld s 0 3)) else if s = 8 then some .lat else none

/-- A 13-bit specifier; nonzero reserved bits make it name nothing (R254). -/
def Spec.ofLong (s : BitVec 13) : Option Spec :=
  let level := fld s 11 2
  if level = 0 then (if fld s 0 11 = 0 then some .lat else none)
  else if level = 1 then (if fld s 3 8 = 0 then some (.reg (fld s 0 3)) else none)
  else if level = 2 then some (.tile (fld s 6 5) (fld s 4 2) (fld s 0 4))
  else (if fld s 5 6 = 0 then some (.scalar (fld s 0 5)) else none)

/-- The operands of a vector-slot operation (R307). -/
def VecArgs.ofSlot (f : SlotV) : VecArgs :=
  { long := false, d := Spec.ofShort f.vd, a := Spec.ofShort f.va, b := Spec.ofShort f.vb,
    c := Spec.ofShort f.vc, bRaw := f.vb.setWidth 13, third := f.vc, ext := fld f.vc 0 3,
    rnd := fld f.md 3 2, sat := f.md.getLsbD 2, ops := fld f.md 0 2, ty := f.ty }

/-- The operands of a long vector operation (R306). -/
def VecArgs.ofLong (f : Lv) : VecArgs :=
  { long := true, d := Spec.ofLong f.d, a := Spec.ofLong f.a, b := Spec.ofLong f.b,
    c := some .lat, bRaw := f.b, third := 0, ext := fld f.md 5 3,
    rnd := fld f.md 3 2, sat := f.md.getLsbD 2, ops := fld f.md 0 2, ty := f.ty }

/-- Is a type one of the integer types (R262)? -/
def intType (ty : BitVec 3) : Bool := ty = 1 || ty = 2 || ty = 6

/-- Is a type a register pair (R250)? -/
def pairType (ty : BitVec 3) : Bool := ty = 4 || ty = 5

/-- How an operation reads a specifier: not at all, one register, a pair, the scalar destination of
VEXTR, the row tile of VQUANT (R253, R322, R324). -/
inductive Role where
  | unused | single | pair | scalarDest | rowTile
  deriving DecidableEq, Repr

/-- The format code of a conversion's source and destination: 0 to 6 the types, 7 E4M3, 8 E5M2 (R316). -/
def cvtFormats (ty : BitVec 3) (c : Nat) : Nat × Nat :=
  if c < 9 then (ty.toNat, c) else (c - 2, ty.toNat)

/-- Elements of a register or pair in a format of R316. -/
def fmtElems (f : Nat) : Nat := if f = 3 then 32 else if f = 6 || f = 7 || f = 8 then 64 else 16

/-- The roles of D, A and B (R253, R305 to R324). -/
def VecOp.roles (op : VecOp) (v : VecArgs) : Role × Role × Role :=
  let p : Role := if pairType v.ty then .pair else .single
  match op with
  | .abs | .neg | .mov | .exp2 | .rcp | .rsq => (p, p, .unused)
  | .add | .sub | .mul | .fma | .max | .min | .and | .or | .xor | .shl | .shr | .sel => (p, p, p)
  | .cmp => (.single, p, p)
  | .cvt =>
    let (sf, df) := cvtFormats v.ty (fld v.bRaw 0 4).toNat
    ((if df = 4 ∨ df = 5 then .pair else .single), (if sf = 4 ∨ sf = 5 then .pair else .single), .unused)
  | .cacc => (.pair, .single, .unused)
  | .twosum => (.pair, .single, .single)
  | .red => (p, p, .unused)
  | .splat | .perm => (p, p, .single)
  | .extr => (.scalarDest, p, .single)
  | .quant => (.single, .rowTile, .unused)

/-- The types an operation accepts (R310 to R324). -/
def VecOp.accepts (op : VecOp) (v : VecArgs) : Bool :=
  let t := v.ty.toNat
  match op with
  | .add | .sub | .mul | .max | .min | .cmp | .red => [0, 1, 2, 3, 4, 6].contains t
  | .fma => [0, 1, 2, 3, 4].contains t
  | .abs | .neg => [0, 1, 3, 4, 6].contains t
  | .and | .or | .xor | .shl | .shr => [1, 2, 6].contains t
  | .sel | .cvt | .mov | .splat | .extr => t ≤ 6
  | .cacc | .twosum => t = 5
  | .exp2 => [0, 3].contains t
  | .rcp | .rsq => [0, 3, 4].contains t
  | .perm => if v.long && v.ext = 1 then t = 6 else t ≤ 6
  | .quant => [0, 3].contains t

/-- Decode reason of one specifier in its role; `dest` marks D (R250, R253, R254, R322, R324). VQUANT takes the rule of even k
for every type but 0, so that an odd k is 38 and not 45 (log 110: DEDUCED). -/
def specReasons (op : VecOp) (v : VecArgs) (role : Role) (dest : Bool) (s : Option Spec) : List Nat :=
  match role, s with
  | .unused, _ => []
  | _, none => [6]
  | .scalarDest, some (.scalar _) => []
  | .scalarDest, some _ => [6]
  | .rowTile, some (.tile _ dir k) =>
    unlessOk (dir = 0 && (if v.ty = 0 then k.toNat % 4 = 0 else k.toNat % 2 = 0)) 6
  | .rowTile, some _ => [6]
  | .single, some (.scalar _) => if dest then [6] else []
  | .single, some (.tile _ _ _) => if dest && op = .quant then [6] else []
  | .single, some _ => []
  | .pair, some .lat => [6]
  | .pair, some (.reg n) => unlessOk (n.toNat % 2 = 0) 4
  | .pair, some (.tile t _ _) => unlessOk (t.toNat % 2 = 0) 4
  | .pair, some (.scalar _) => if dest then [6] else []

/-- Does the operation round its results in this type (R306, R310 to R321)? (log 81: DEDUCED) -/
def VecOp.rounds (op : VecOp) (v : VecArgs) : Bool :=
  let fp := v.ty = 0 || v.ty = 3 || v.ty = 4
  match op with
  | .add | .sub | .mul | .fma | .exp2 | .rcp | .rsq => fp
  | .red => fp && v.ext = 0
  | _ => false

/-- Reasons 13 of the type and mod fields (R262, R306, R311, R316, R317, R320, R323). -/
def VecOp.modReasons (op : VecOp) (v : VecArgs) : List Nat :=
  unlessOk (op.accepts v) 13 ++
  (match op with
   | .cvt =>
     let c := (fld v.bRaw 0 4).toNat
     let (sf, df) := cvtFormats v.ty c
     let ws := fmtElems sf > 16
     let wd := fmtElems df > 16
     let p := v.ops.toNat
     let ints := (sf = 1 || sf = 2 || sf = 6) && (df = 1 || df = 2 || df = 6)
     unlessOk (c < 11 && sf ≠ df && !(ws && wd) && !(p ≠ 0 && !ws && !wd) &&
       !(ws && 16 * p ≥ fmtElems sf) && !(wd && 16 * p ≥ fmtElems df) &&
       !(v.rnd ≠ 0 && ints) && !(v.sat && !(df = 7 || df = 8 || ints))) 13
   | _ =>
     let satOk := (match op with
       | .add | .sub | .mul | .fma | .max | .min | .abs | .neg | .red => intType v.ty
       | _ => false)
     unlessOk (v.rnd = 0 || op.rounds v) 13 ++ unlessOk (!v.sat || satOk) 13 ++ unlessOk (v.ops = 0) 13) ++
  (if v.long then
    (match op with
     | .cmp => []
     | .red => unlessOk (v.ext.toNat ≤ 2) 13
     | .perm => unlessOk (v.ext.toNat ≤ 1) 13
     | _ => unlessOk (v.ext = 0) 13)
   else
    (match op with
     | .cmp => unlessOk (v.third.toNat ≤ 7) 13
     | .red => unlessOk (v.third.toNat ≤ 2) 13
     | .fma | .sel => []
     | _ => unlessOk (v.third = 0) 2))

/-- All decode reasons of a vector operation's fields (R253, R254, R306, R307, R309, R241). -/
def VecOp.reasons (op : VecOp) (e : DecodeEnv) (v : VecArgs) : List Nat :=
  let (rd, ra, rb) := op.roles v
  op.modReasons v ++ specReasons op v rd true v.d ++ specReasons op v ra false v.a ++
  (match op with
   | .cvt => if v.long then unlessOk (fld v.bRaw 4 9 = 0) 2 else []
   | _ => if rb = .unused then unlessOk (v.bRaw = 0) 2 else specReasons op v rb false v.b) ++
  (if v.long then []
   else match op with
     | .fma => specReasons op v rd false v.c
     | .sel => specReasons op v .single false v.c
     | _ => []) ++
  unlessOk (v.ty ≠ 4 || e.feat.getLsbD 0) 10

/-! ## Scalar fields -/

/-- Reason 4 for an odd register where a pair is named (R250). -/
def oddPair (r : BitVec 5) : List Nat := unlessOk (r.toNat % 2 = 0) 4

/-- Reasons of the memory layout (R328, R105, R63, R106). `sizes` and `orders` list the codes the op
accepts, `load` and `store` say which full/empty values it accepts. -/
def lmReasons (f : Lm) (sizes orders : List Nat) (feLoad feStore : Bool) : List Nat :=
  unlessOk (sizes.contains f.size.toNat) 7 ++ unlessOk (orders.contains f.order.toNat) 7 ++
  unlessOk (f.fe = 0 || (f.fe = 1 && (feLoad || feStore)) || (f.fe = 2 && feLoad) || (f.fe = 3 && feStore)) 7 ++
  unlessOk (f.fe = 0 || f.order = 0) 7 ++ unlessOk (f.scope = 0 || f.order ≠ 0) 7 ++
  unlessOk (f.scope.toNat ≤ 4) 7

/-- Reasons of an atomic's order: tk needs the TICKET feature (R241, R328). -/
def ticketReasons (e : DecodeEnv) (f : Lm) : List Nat :=
  unlessOk (f.order ≠ 6 || e.sys || e.feat.getLsbD 5) 10

/-- Reasons of a flag operation (R343, R351): `coreBits` are the imm16 bits it may use. -/
def lsReasons (f : Ls) (coreBits : BitVec 16) : List Nat :=
  unlessOk (f.d = 0) 2 ++ unlessOk (f.a = 0 || f.count = 0) 2 ++
  unlessOk (f.imm &&& ~~~coreBits = 0) 2 ++ scaledReasons f.count

/-- Reason of a special-register number on this processor (R349, R351, R405). -/
def srReasons (e : DecodeEnv) (num : BitVec 12) : List Nat :=
  let n := num.toNat
  if e.sys then []
  else if n ≥ 0x800 then [9]
  else unlessOk (n ≤ 0x006 || n = 0x008 || (0x010 ≤ n && n ≤ 0x012) || n = 0x018 || n = 0x020 ||
    (0x030 ≤ n && n ≤ 0x037) || n = 0x040 || (0x100 ≤ n && n ≤ 0x13F) || (0x200 ≤ n && n ≤ 0x2FF)) 14

/-- Every field of an LB word zero. -/
def lbZero (f : Lb) : Bool :=
  f.d = 0 && f.a = 0 && f.b = 0 && f.c = 0 && f.z = 0 && f.x = 0

/-- Reasons 2 of the scalar floating-point layout (R293): b and c used or zero, x[7:k] zero. -/
def fpReasons (f : Lb) (useB useC : Bool) (k : Nat) : List Nat :=
  unlessOk ((useB || f.b = 0) && (useC || f.c = 0) && f.z = 0 && f.x.toNat >>> k = 0) 2

/-! ## Engine commands -/

/-- The reasons of an engine command. A count is zero by its value, whatever its encoding (R261, R277). The feature bit a
command needs: GRID 1, SCAN 2, MATRIX 3, QUAY 4 (R240). -/
def ecmdReasons (e : DecodeEnv) (f : Ecmd) (featBit : Option Nat) (used : BitVec 64) : List Nat :=
  unlessOk (f.z = 0) 2 ++ unlessOk (scaled f.waitCount ≠ 0 || f.waitFlag = 0) 2 ++
  unlessOk (scaled f.sigCount ≠ 0 || f.sigFlag = 0) 2 ++ scaledReasons f.waitCount ++ scaledReasons f.sigCount ++
  unlessOk (f.w1 &&& ~~~used = 0) 2 ++
  (match featBit with | none => [] | some b => unlessOk (e.feat.getLsbD b) 10)

/-- A format byte of SW.FMT or of a switch format register at fault (R364). -/
def formatByteFault (b : BitVec 8) (sink : Bool) : Bool :=
  let fmt := (fld b 0 6).toNat
  let quant := b.getLsbD 7
  !([0, 1, 2, 3, 4, 5, 6, 9, 10].contains fmt) || (quant && !sink) || (quant && fmt ≠ 5) ||
  (sink && fmt = 5 && !quant)

/-- May switch endpoint `n` be a source, a sink (R363)? -/
def endpointSource (n : Nat) : Bool := n ≤ 3 || n = 8 || n = 9 || n = 11 || n = 13 || n = 14 || n = 15
def endpointSink (n : Nat) : Bool := n ≤ 7 || n = 10 || n = 12 || n = 14 || n = 15

/-- The fixed rules of a cell word that do not depend on the image around it: a reserved source or CTYPE,
a nonzero zero field (R271, R272). -/
def CellWord.ok (f : CellWord) : Bool :=
  f.srcA.toNat ≤ 12 && f.srcB.toNat ≤ 12 && f.srcC.toNat ≤ 12 && f.ctype ≠ 3 && f.z = 0

/-- The decode reasons of an instruction's fields on this processor: the list of every reason of R226
that its fields meet, empty for a well-formed one (R257). Steps that no word names have none. -/
def Instr.reasons (e : DecodeEnv) : Instr → List Nat
  | .snop f => unlessOk (f.sd = 0 && f.sa = 0 && f.sb = 0 && f.sx = 0) 2
  | .add f => unlessOk (fld f.sx 0 3 = 0) 2
  | .sub f => unlessOk (fld f.sx 0 3 = 0) 2
  | .and f => unlessOk (fld f.sx 0 3 = 0) 2
  | .or f => unlessOk (fld f.sx 0 3 = 0) 2
  | .xor f => unlessOk (fld f.sx 0 3 = 0) 2
  | .andn f => unlessOk (fld f.sx 0 3 = 0) 2
  | .shl f => unlessOk (fld f.sx 0 3 = 0) 2
  | .shr f => unlessOk (fld f.sx 0 3 = 0) 2
  | .sra f => unlessOk (fld f.sx 0 3 = 0) 2
  | .mul f => unlessOk (fld f.sx 0 3 = 0) 2
  | .mulh f => unlessOk (fld f.sx 0 3 = 0) 2
  | .mulhu f => unlessOk (fld f.sx 0 3 = 0) 2
  | .min f => unlessOk (fld f.sx 0 3 = 0) 2
  | .max f => unlessOk (fld f.sx 0 3 = 0) 2
  | .minu f => unlessOk (fld f.sx 0 3 = 0) 2
  | .maxu f => unlessOk (fld f.sx 0 3 = 0) 2
  | .mov f => unlessOk (fld f.sx 0 3 = 0) 2 ++ unlessOk (f.sa = 0) 2
  | .addq f => unlessOk (fld f.sx 0 3 = 0) 2 ++ oddPair f.sd ++ oddPair f.sa ++ (if f.sx.getLsbD 3 then [] else oddPair f.sb)
  | .shlq f => unlessOk (fld f.sx 0 3 = 0) 2 ++ oddPair f.sd ++ oddPair f.sa
  | .shrq f => unlessOk (fld f.sx 0 3 = 0) 2 ++ oddPair f.sd ++ oddPair f.sa
  | .sraq f => unlessOk (fld f.sx 0 3 = 0) 2 ++ oddPair f.sd ++ oddPair f.sa
  | .clz f => unlessOk (f.sb = 0 && f.sx = 0) 2
  | .ctz f => unlessOk (f.sb = 0 && f.sx = 0) 2
  | .popc f => unlessOk (f.sb = 0 && f.sx = 0) 2
  | .sel _ => []
  | .setp f => unlessOk (fld f.sd 3 2 = 0) 2
  | .setpq f => unlessOk (fld f.sd 3 2 = 0) 2 ++ oddPair f.sa ++ (if f.sx.getLsbD 3 then [] else oddPair f.sb)
  | .pand f => unlessOk (fld f.sd 3 2 = 0 && fld f.sa 3 2 = 0 && fld f.sb 3 2 = 0 && fld f.sx 0 3 = 0) 2
  | .por f => unlessOk (fld f.sd 3 2 = 0 && fld f.sa 3 2 = 0 && fld f.sb 3 2 = 0 && fld f.sx 0 3 = 0) 2
  | .pxor f => unlessOk (fld f.sd 3 2 = 0 && fld f.sa 3 2 = 0 && fld f.sb 3 2 = 0 && fld f.sx 0 3 = 0) 2
  | .pnot f => unlessOk (fld f.sd 3 2 = 0 && fld f.sa 3 2 = 0 && f.sb = 0 && f.sx = 0) 2
  | .vnop f => unlessOk (f.vd = 0 && f.va = 0 && f.vb = 0 && f.vc = 0 && f.ty = 0 && f.md = 0) 2
  | .vaddSlot f => unlessOk (!e.sys) 0 ++ VecOp.reasons .add e (VecArgs.ofSlot f)
  | .vsubSlot f => unlessOk (!e.sys) 0 ++ VecOp.reasons .sub e (VecArgs.ofSlot f)
  | .vmulSlot f => unlessOk (!e.sys) 0 ++ VecOp.reasons .mul e (VecArgs.ofSlot f)
  | .vfmaSlot f => unlessOk (!e.sys) 0 ++ VecOp.reasons .fma e (VecArgs.ofSlot f)
  | .vmaxSlot f => unlessOk (!e.sys) 0 ++ VecOp.reasons .max e (VecArgs.ofSlot f)
  | .vminSlot f => unlessOk (!e.sys) 0 ++ VecOp.reasons .min e (VecArgs.ofSlot f)
  | .vabsSlot f => unlessOk (!e.sys) 0 ++ VecOp.reasons .abs e (VecArgs.ofSlot f)
  | .vnegSlot f => unlessOk (!e.sys) 0 ++ VecOp.reasons .neg e (VecArgs.ofSlot f)
  | .vandSlot f => unlessOk (!e.sys) 0 ++ VecOp.reasons .and e (VecArgs.ofSlot f)
  | .vorSlot f => unlessOk (!e.sys) 0 ++ VecOp.reasons .or e (VecArgs.ofSlot f)
  | .vxorSlot f => unlessOk (!e.sys) 0 ++ VecOp.reasons .xor e (VecArgs.ofSlot f)
  | .vshlSlot f => unlessOk (!e.sys) 0 ++ VecOp.reasons .shl e (VecArgs.ofSlot f)
  | .vshrSlot f => unlessOk (!e.sys) 0 ++ VecOp.reasons .shr e (VecArgs.ofSlot f)
  | .vcmpSlot f => unlessOk (!e.sys) 0 ++ VecOp.reasons .cmp e (VecArgs.ofSlot f)
  | .vselSlot f => unlessOk (!e.sys) 0 ++ VecOp.reasons .sel e (VecArgs.ofSlot f)
  | .vcvtSlot f => unlessOk (!e.sys) 0 ++ VecOp.reasons .cvt e (VecArgs.ofSlot f)
  | .vmovSlot f => unlessOk (!e.sys) 0 ++ VecOp.reasons .mov e (VecArgs.ofSlot f)
  | .vcaccSlot f => unlessOk (!e.sys) 0 ++ VecOp.reasons .cacc e (VecArgs.ofSlot f)
  | .vtwosumSlot f => unlessOk (!e.sys) 0 ++ VecOp.reasons .twosum e (VecArgs.ofSlot f)
  | .vredSlot f => unlessOk (!e.sys) 0 ++ VecOp.reasons .red e (VecArgs.ofSlot f)
  | .addi f => unlessOk (f.x = 0) 2
  | .andi f => unlessOk (f.x = 0) 2
  | .ori f => unlessOk (f.x = 0) 2
  | .xori f => unlessOk (f.x = 0) 2
  | .shli f => unlessOk (f.x = 0 && fld f.imm 6 26 = 0) 2
  | .shri f => unlessOk (f.x = 0 && fld f.imm 6 26 = 0) 2
  | .srai f => unlessOk (f.x = 0 && fld f.imm 6 26 = 0) 2
  | .muli f => unlessOk (f.x = 0) 2
  | .li f => unlessOk (f.a = 0 && f.x = 0) 2
  | .lui f => unlessOk (f.a = 0 && f.x = 0) 2
  | .slti f => unlessOk (fld f.x 1 7 = 0) 2
  | .setpi f => unlessOk (fld f.d 3 2 = 0 && fld f.x 3 5 = 0) 2
  | .div f => unlessOk (f.c = 0 && f.z = 0 && f.x = 0) 2
  | .divu f => unlessOk (f.c = 0 && f.z = 0 && f.x = 0) 2
  | .rem f => unlessOk (f.c = 0 && f.z = 0 && f.x = 0) 2
  | .remu f => unlessOk (f.c = 0 && f.z = 0 && f.x = 0) 2
  | .fadd f => fpReasons f true false 1
  | .fsub f => fpReasons f true false 1
  | .fmul f => fpReasons f true false 1
  | .ffma f => fpReasons f true true 1
  | .fdiv f => fpReasons f true false 1
  | .fsqrt f => fpReasons f false false 1
  | .fmin f => fpReasons f true false 1
  | .fmax f => fpReasons f true false 1
  | .fcmp f => fpReasons f true false 4 ++ unlessOk (fld f.d 3 2 = 0) 2
  | .fcvt f => fpReasons f false false 4 ++ unlessOk (fld f.x 1 3 ≠ 7) 13
  | .br f => unlessOk (f.d = 0 && f.a = 0 && f.x = 0) 2
  | .call f => unlessOk (f.a = 0 && f.x = 0) 2
  | .loop f => unlessOk (f.a = 0 && f.x = 0 && f.d ≠ 0) 2
  | .ret f => unlessOk (f.d = 0 && f.b = 0 && f.c = 0 && f.z = 0 && f.x = 0) 2
  | .jmpr f => unlessOk (f.d = 0 && f.b = 0 && f.c = 0 && f.z = 0 && f.x = 0) 2
  | .callr f => unlessOk (f.b = 0 && f.c = 0 && f.z = 0 && f.x = 0) 2
  | .halt f => unlessOk (lbZero f) 2
  | .yield f => unlessOk (lbZero f) 2
  | .syscall f => unlessOk (f.d = 0 && f.a = 0 && f.x = 0) 2
  | .brk f => unlessOk (f.d = 0 && f.a = 0 && f.x = 0) 2
  | .wfb f => unlessOk (lbZero f) 2
  | .ld f => lmReasons f [0, 1, 2, 3] [0, 1, 2, 5] true false ++ unlessOk (fld f.x 1 4 = 0) 2
  | .st f => lmReasons f [0, 1, 2, 3] [0, 1, 3, 5] false true ++ unlessOk (f.x = 0) 2
  | .ldp f => lmReasons f [4] [0, 1, 2, 5] true false ++ unlessOk (f.x = 0) 2 ++ oddPair f.d
  | .stp f => lmReasons f [4] [0, 1, 3, 5] false true ++ unlessOk (f.x = 0) 2 ++ oddPair f.d
  | .ldv f => unlessOk (!e.sys) 0 ++ lmReasons f [5] [0] true false ++ unlessOk (fld f.x 1 4 = 0) 2 ++ unlessOk (fld f.d 3 2 = 0) 6 ++ (if f.x.getLsbD 0 then oddPair f.d else [])
  | .stv f => unlessOk (!e.sys) 0 ++ lmReasons f [5] [0] false true ++ unlessOk (fld f.x 1 4 = 0) 2 ++ unlessOk (fld f.d 3 2 = 0) 6 ++ (if f.x.getLsbD 0 then oddPair f.d else [])
  | .ldt f => unlessOk (!e.sys) 0 ++ lmReasons f [6] [0] true false ++ (if f.x.getLsbD 4 then oddPair f.d else [])
  | .stt f => unlessOk (!e.sys) 0 ++ lmReasons f [6] [0] false true ++ (if f.x.getLsbD 4 then oddPair f.d else [])
  | .pref f => unlessOk (f.size = 0) 2 ++ unlessOk (f.order = 0 && f.fe = 0 && f.scope = 0) 7 ++ unlessOk (f.d = 0 && fld f.x 1 4 = 0) 2
  | .fence f => unlessOk (f.size = 0 && f.fe = 0 && f.d = 0 && f.a = 0 && f.imm = 0 && f.x = 0) 2 ++ unlessOk ([2, 3, 4, 5].contains f.order.toNat) 7 ++ unlessOk (f.scope.toNat ≤ 4) 7
  | .amo f => lmReasons f [2, 3] [1, 2, 3, 4, 5, 6] false false ++ unlessOk (f.x.toNat ≤ 8) 2 ++ ticketReasons e f
  | .cas f => lmReasons f [2, 3, 4] [1, 2, 3, 4, 5, 6] false false ++ (if f.size = 4 then oddPair f.d ++ oddPair f.x else []) ++ ticketReasons e f
  | .enq f => lmReasons f [3] [1, 2, 3, 4, 5] false false ++ unlessOk (f.x = 0) 2
  | .enqCommit f => lmReasons f [3] [1, 2, 3, 4, 5] false false ++ unlessOk (f.x = 1) 2
  | .deq f => lmReasons f [3] [1, 2, 3, 4, 5] false false ++ unlessOk (f.x = 0) 2
  | .deqFree f => lmReasons f [3] [1, 2, 3, 4, 5] false false ++ unlessOk (f.x = 1) 2
  | .qpush f => unlessOk (!e.sys) 0 ++ unlessOk (f.d = 0 && f.b = 0 && f.c = 0 && f.z = 0 && fld f.x 1 7 = 0) 2 ++ unlessOk (fld f.a 3 2 = 0) 6
  | .qpop f => unlessOk (!e.sys) 0 ++ unlessOk (f.a = 0 && f.b = 0 && f.c = 0 && f.z = 0 && fld f.x 1 7 = 0) 2 ++ unlessOk (fld f.d 3 2 = 0) 6
  | .vadd f => unlessOk (!e.sys) 0 ++ VecOp.reasons .add e (VecArgs.ofLong f)
  | .vsub f => unlessOk (!e.sys) 0 ++ VecOp.reasons .sub e (VecArgs.ofLong f)
  | .vmul f => unlessOk (!e.sys) 0 ++ VecOp.reasons .mul e (VecArgs.ofLong f)
  | .vfma f => unlessOk (!e.sys) 0 ++ VecOp.reasons .fma e (VecArgs.ofLong f)
  | .vmax f => unlessOk (!e.sys) 0 ++ VecOp.reasons .max e (VecArgs.ofLong f)
  | .vmin f => unlessOk (!e.sys) 0 ++ VecOp.reasons .min e (VecArgs.ofLong f)
  | .vabs f => unlessOk (!e.sys) 0 ++ VecOp.reasons .abs e (VecArgs.ofLong f)
  | .vneg f => unlessOk (!e.sys) 0 ++ VecOp.reasons .neg e (VecArgs.ofLong f)
  | .vand f => unlessOk (!e.sys) 0 ++ VecOp.reasons .and e (VecArgs.ofLong f)
  | .vor f => unlessOk (!e.sys) 0 ++ VecOp.reasons .or e (VecArgs.ofLong f)
  | .vxor f => unlessOk (!e.sys) 0 ++ VecOp.reasons .xor e (VecArgs.ofLong f)
  | .vshl f => unlessOk (!e.sys) 0 ++ VecOp.reasons .shl e (VecArgs.ofLong f)
  | .vshr f => unlessOk (!e.sys) 0 ++ VecOp.reasons .shr e (VecArgs.ofLong f)
  | .vcmp f => unlessOk (!e.sys) 0 ++ VecOp.reasons .cmp e (VecArgs.ofLong f)
  | .vsel f => unlessOk (!e.sys) 0 ++ VecOp.reasons .sel e (VecArgs.ofLong f)
  | .vcvt f => unlessOk (!e.sys) 0 ++ VecOp.reasons .cvt e (VecArgs.ofLong f)
  | .vmov f => unlessOk (!e.sys) 0 ++ VecOp.reasons .mov e (VecArgs.ofLong f)
  | .vcacc f => unlessOk (!e.sys) 0 ++ VecOp.reasons .cacc e (VecArgs.ofLong f)
  | .vtwosum f => unlessOk (!e.sys) 0 ++ VecOp.reasons .twosum e (VecArgs.ofLong f)
  | .vred f => unlessOk (!e.sys) 0 ++ VecOp.reasons .red e (VecArgs.ofLong f)
  | .vexp2 f => unlessOk (!e.sys) 0 ++ VecOp.reasons .exp2 e (VecArgs.ofLong f)
  | .vrcp f => unlessOk (!e.sys) 0 ++ VecOp.reasons .rcp e (VecArgs.ofLong f)
  | .vrsq f => unlessOk (!e.sys) 0 ++ VecOp.reasons .rsq e (VecArgs.ofLong f)
  | .vsplat f => unlessOk (!e.sys) 0 ++ VecOp.reasons .splat e (VecArgs.ofLong f)
  | .vextr f => unlessOk (!e.sys) 0 ++ VecOp.reasons .extr e (VecArgs.ofLong f)
  | .vperm f => unlessOk (!e.sys) 0 ++ VecOp.reasons .perm e (VecArgs.ofLong f)
  | .vquant f => unlessOk (!e.sys) 0 ++ VecOp.reasons .quant e (VecArgs.ofLong f)
  | .tclr f => unlessOk (!e.sys) 0 ++ unlessOk (f.a = 0 && f.b = 0 && f.z = 0 && f.x = 0) 2 ++ unlessOk (f.d.toNat + f.c.toNat ≤ 31) 5
  | .tmark f => unlessOk (!e.sys) 0 ++ unlessOk (f.a = 0 && f.b = 0 && f.z = 0 && f.x = 0) 2 ++ unlessOk (f.d.toNat + f.c.toNat ≤ 31) 5
  | .twait f => unlessOk (!e.sys) 0 ++ unlessOk (f.a = 0 && f.b = 0 && f.z = 0 && fld f.x 1 7 = 0) 2 ++ unlessOk (f.d.toNat + f.c.toNat ≤ 31) 5
  | .fwait f => lsReasons f 0
  | .fsig f => lsReasons f 0x1FF
  | .frd f => unlessOk (f.a = 0 && f.count = 0 && (f.imm &&& ~~~(if e.sys then (0x1FF : BitVec 16) else 3)) = 0) 2
  | .fset f => lsReasons f (if e.sys then 0x1FF else 0)
  | .fwin f => lsReasons f (if e.sys then 0x1FF else 0)
  | .spawn f => unlessOk (if e.sys then fld f.x 5 3 = 0 else f.x = 0) 2
  | .work f => unlessOk (lbZero f) 2
  | .done f => unlessOk (lbZero f) 2
  | .gbar f => unlessOk (f.d = 0 && f.a = 0 && fld f.x 1 7 = 0 && f.imm &&& 0xFFFFFF88 = 0 && (!f.x.getLsbD 0 || f.imm = 0) && (fld f.imm 0 3).toNat ≤ 4 && (fld f.imm 4 3).toNat ≤ 4) 2
  | .rdsr f => unlessOk (f.a = 0 && fld f.imm 12 20 = 0 && f.x = 0) 2 ++ srReasons e (fld f.imm 0 12)
  | .wrsr f => unlessOk (f.d = 0 && fld f.imm 12 20 = 0 && f.x = 0) 2 ++ srReasons e (fld f.imm 0 12)
  | .featq f => unlessOk (!e.sys) 0 ++ unlessOk (f.a = 0 && f.b = 0 && f.c = 0 && f.z = 0 && f.x = 0) 2
  | .locq f => unlessOk (f.x = 0) 2
  | .cycle f => unlessOk (f.a = 0 && f.b = 0 && f.c = 0 && f.z = 0 && f.x = 0) 2
  | .regpwr f => unlessOk (f.d = 0 && f.a = 0 && f.x = 0 && fld f.imm 24 8 = 0) 2 ++ unlessOk ((List.range 8).all fun k => !f.imm.getLsbD (16 + k) || fld f.imm (2 * k) 2 ≠ 3) 2
  | .trapret f => unlessOk e.sys 9 ++ unlessOk (lbZero f) 2
  | .tlbinvAll f => unlessOk e.sys 9 ++ unlessOk (f.d = 0 && f.a = 0 && fld f.imm 6 26 = 0 && f.imm.toNat ≤ 32 && f.x = 0) 2
  | .tlbinvSpace f => unlessOk e.sys 9 ++ unlessOk (f.d = 0 && f.a = 0 && fld f.imm 6 26 = 0 && f.imm.toNat ≤ 32 && f.x = 1) 2
  | .tlbinvPage f => unlessOk e.sys 9 ++ unlessOk (f.d = 0 && fld f.imm 6 26 = 0 && f.imm.toNat ≤ 32 && f.x = 2) 2
  | .winmap f => unlessOk e.sys 9 ++ unlessOk (f.d = 0 && fld f.imm 8 24 = 0 && f.x = 0) 2
  | .winmapRoot f => unlessOk e.sys 9 ++ unlessOk (f.d = 0 && f.imm = 0 && f.x = 1) 2
  | .partcfgAssign f => unlessOk e.sys 9 ++ unlessOk (fld f.x 5 3 = 0) 2
  | .partcfgRelease f => unlessOk e.sys 9 ++ unlessOk (fld f.x 5 3 = 1) 2
  | .ttcmdWeight f => unlessOk e.sys 9 ++ unlessOk (f.x = 0 && f.imm &&& 0xFFFFE0E0 = 0) 2
  | .ttcmdClose f => unlessOk e.sys 9 ++ unlessOk (f.x = 1 && fld f.imm 5 27 = 0) 2
  | .ttcmdQuiesce f => unlessOk e.sys 9 ++ unlessOk (f.x = 2 && f.imm = 0) 2
  | .ttcmdResume f => unlessOk e.sys 9 ++ unlessOk (f.x = 3 && f.imm = 0) 2
  | .corectlClrfeat f => unlessOk e.sys 9 ++ unlessOk (fld f.imm 8 24 = 0 && f.x = 0) 2
  | .corectlHalt f => unlessOk e.sys 9 ++ unlessOk (fld f.imm 8 24 = 0 && f.x = 1) 2
  | .corectlState f => unlessOk e.sys 9 ++ unlessOk (fld f.imm 8 24 = 0 && f.x = 2) 2
  | .attest f => unlessOk e.sys 9 ++ unlessOk (f.imm = 0 && f.x = 0) 2
  | .seRun f => unlessOk (!e.sys) 0 ++ ecmdReasons e f none 0x7F
  | .seHalt f => unlessOk (!e.sys) 0 ++ ecmdReasons e f none 0xE0 ++ unlessOk (!f.w1.getLsbD 7 || fld f.w1 5 2 = 0) 2
  | .teRun f => unlessOk (!e.sys) 0 ++ ecmdReasons e f none 0x3F1F
  | .teHalt f => unlessOk (!e.sys) 0 ++ ecmdReasons e f none 0x3F9F ++ unlessOk (!f.w1.getLsbD 7 || fld f.w1 0 5 = 0) 2
  | .swRoute f => unlessOk (!e.sys) 0 ++ ecmdReasons e f none 0x9F1F1F1F ++ (if f.w1.getLsbD 31 then unlessOk (fld f.w1 8 5 = 0 && fld f.w1 16 5 = 0 && fld f.w1 24 5 = 0) 2 else unlessOk (endpointSource (fld f.w1 8 5).toNat && endpointSink (fld f.w1 16 5).toNat) 2)
  | .swFmt f => unlessOk (!e.sys) 0 ++ ecmdReasons e f none 0x3FFFF1F ++ unlessOk (!(f.w1.getLsbD 24 && formatByteFault (fld f.w1 8 8) false) && !(f.w1.getLsbD 25 && formatByteFault (fld f.w1 16 8) true)) 2
  | .grCfg f => unlessOk (!e.sys) 0 ++ ecmdReasons e f (some 1) 0x1F
  | .grGo f => unlessOk (!e.sys) 0 ++ ecmdReasons e f (some 1) 0x1F
  | .grDrain f => unlessOk (!e.sys) 0 ++ ecmdReasons e f (some 1) 0x1F
  | .grDump f => unlessOk (!e.sys) 0 ++ ecmdReasons e f (some 1) 0x3F3F1F ++ unlessOk ((fld f.w1 8 6).toNat + (fld f.w1 16 6).toNat + 1 ≤ 64) 2
  | .grFill f => unlessOk (!e.sys) 0 ++ ecmdReasons e f (some 1) 0x3F3F1F ++ unlessOk ((fld f.w1 8 6).toNat + (fld f.w1 16 6).toNat + 1 ≤ 64) 2
  | .scnChunk f => unlessOk (!e.sys) 0 ++ ecmdReasons e f (some 2) 0xFFFF7FFFFFFF ++ unlessOk ((fld f.w1 20 4).toNat ≤ 8 && fld f.w1 24 2 ≠ 3) 2
  | .scnCarry f => unlessOk (!e.sys) 0 ++ ecmdReasons e f (some 2) 0xFFFF0000007F
  | .mxLease f => unlessOk (!e.sys) 0 ++ ecmdReasons e f (some 3) 0
  | .mxMma f => unlessOk (!e.sys) 0 ++ ecmdReasons e f (some 3) 0x3FFFFFFFFFFFF
  | .mxDrain f => unlessOk (!e.sys) 0 ++ ecmdReasons e f (some 3) 0x3FFF303FF
  | .mxFree f => unlessOk (!e.sys) 0 ++ ecmdReasons e f (some 3) 0
  | .mxZero f => unlessOk (!e.sys) 0 ++ ecmdReasons e f (some 3) 0x7FFF00000
  | .xfCopy f => unlessOk (!e.sys) 0 ++ ecmdReasons e f none 0x7FFF
  | .xfCopy2d f => unlessOk (!e.sys) 0 ++ ecmdReasons e f none 0xFFFFF
  | .xfFill f => unlessOk (!e.sys) 0 ++ ecmdReasons e f none 0xFFC1F
  | .xfGather f => unlessOk (!e.sys) 0 ++ ecmdReasons e f none 0x70FFFFF ++ unlessOk (fld f.w1 24 3 ≠ 7) 2
  | .slSave f => unlessOk (!e.sys) 0 ++ ecmdReasons e f (some 4) 0xF7FF ++ unlessOk (fld f.w1 12 4 = 0) 2
  | .slLoad f => unlessOk (!e.sys) 0 ++ ecmdReasons e f (some 4) 0xF7FF ++ unlessOk (fld f.w1 12 4 = 0) 2
  | .slSnap f => unlessOk (!e.sys) 0 ++ ecmdReasons e f (some 4) 0xF7FF
  | .slFork f => unlessOk (!e.sys) 0 ++ ecmdReasons e f (some 4) 0xF7FF
  | .slRoll f => unlessOk (!e.sys) 0 ++ ecmdReasons e f (some 4) 0xF7FF
  | .slDrop f => unlessOk (!e.sys) 0 ++ ecmdReasons e f (some 4) 0x1F7FF ++ unlessOk (f.w1.getLsbD 16 || fld f.w1 12 4 = 0) 2
  | .note f => unlessOk (!e.sys) 0 ++ ecmdReasons e f none 0x7 ++ unlessOk ((fld f.w1 0 3).toNat ≤ 5) 2
  | .cellCnop f => unlessOk (CellWord.ok f) 2
  | .cellPass f => unlessOk (CellWord.ok f) 2
  | .cellFadd f => unlessOk (CellWord.ok f) 2
  | .cellFsub f => unlessOk (CellWord.ok f) 2
  | .cellFmul f => unlessOk (CellWord.ok f) 2
  | .cellFfma f => unlessOk (CellWord.ok f) 2
  | .cellFmax f => unlessOk (CellWord.ok f) 2
  | .cellFmin f => unlessOk (CellWord.ok f) 2
  | .cellFabs f => unlessOk (CellWord.ok f) 2
  | .cellFexp2 f => unlessOk (CellWord.ok f) 2
  | .cellFrcp f => unlessOk (CellWord.ok f) 2
  | .cellIadd f => unlessOk (CellWord.ok f) 2
  | .cellIsub f => unlessOk (CellWord.ok f) 2
  | .cellImul f => unlessOk (CellWord.ok f) 2
  | .cellAnd f => unlessOk (CellWord.ok f) 2
  | .cellOr f => unlessOk (CellWord.ok f) 2
  | .cellXor f => unlessOk (CellWord.ok f) 2
  | .cellShl f => unlessOk (CellWord.ok f) 2
  | .cellShr f => unlessOk (CellWord.ok f) 2
  | .cellSel f => unlessOk (CellWord.ok f) 2
  | .cellCmplt f => unlessOk (CellWord.ok f) 2
  | .cellCmpeq f => unlessOk (CellWord.ok f) 2
  | .cellSld f => unlessOk (CellWord.ok f) 2
  | .cellSst f => unlessOk (CellWord.ok f) 2
  | .cellAcc2 f => unlessOk (CellWord.ok f) 2
  | .cellCvt f => unlessOk (CellWord.ok f) 2
  | .pend f => unlessOk (f.imm = 0) 2
  | .pbase _ => []
  | .pdst _ => []
  | .pmove _ => []
  | .pnest _ => []
  | .pwrap _ => []
  | .pfmt _ => []
  | .pwait f => unlessOk (f.z = 0) 2
  | .psig f => unlessOk (f.z = 0) 2
  | .pwin f => unlessOk (f.z = 0) 2
  | .pjump _ => []
  | .ploop _ => []
  | .pgath _ => []
  | .pfillv _ => []
  | .pskip _ => []
  | .pnote f => unlessOk (f.z = 0) 2
  | .registerWrite _ _ => []
  | .resume _ => []
  | .resumeAt _ _ => []
  | .restartTask _ => []
  | .failTask _ => []
  | .killPartition _ => []
  | .coreTrapDelivery _ => []
  | .watchdogExpiry _ => []
  | .interruptEntry _ => []
  | .releaseEvent _ => []
  | .pageWalk _ _ => []
  | .l2MissFill _ _ _ => []
  | .fbcBlockRmw _ => []
  | .fbcHeldImageEncode _ => []
  | .ticketedAtomic => []
  | .fullEmptyAccess _ => []
  | .piecePerformed _ _ => []
  | .flagAddition _ => []
  | .flagWaitSuccess _ _ => []
  | .tidelineAdmission _ _ => []
  | .neighbourPushAccept _ => []
  | .neighbourPopComplete _ => []
  | .noteReached _ _ => []
  | .bellRing _ => []
  | .engineCommandStart _ _ => []
  | .engineCommandComplete _ _ _ => []
  | .leaseGrant _ => []
  | .leaseCycleLimit _ => []
  | .leaseCommandLimit _ => []
  | .cb3TableTake _ => []
  | .narrowModeChange _ => []
  | .quayPageRead _ _ => []
  | .quayPageArrived _ _ => []
  | .guardedPageCopy _ _ => []
  | .tileSourceRead _ _ => []
  | .tileSinkFill _ _ => []
  | .gridIterationStart _ _ => []
  | .gridTokenPush _ _ => []
  | .gbarComplete _ => []
  | .launchAccept => []
  | .launchPacketTake _ => []
  | .dispatch _ => []
  | .stealAnswer _ => []
  | .sessionReady _ _ => []
  | .timeSliceEnd _ => []
  | .preemptRequest _ => []
  | .contextSave _ => []
  | .contextRestore _ => []
  | .batchPromotion _ _ => []
  | .forecastUpdate _ => []
  | .bar2Read _ => []
  | .bar2Write _ => []
  | .bar2Fetchadd _ => []
  | .bar2Swap _ => []
  | .bar2Cas _ => []
  | .lqaddr _ _ => []
  | .mailboxRequest _ _ => []
  | .functionLevelReset _ => []
  | .peerLinkTraining => []
  | .hostLinkDown => []
  | .peerLinkDown => []
  | .flitReceive _ _ => []
  | .replayLimit => []
  | .dieLinkLost => []
  | .regulatorInterval => []
  | .regulatorSoftAdmit _ _ => []
  | .moduleBoot _ => []
  | .powerAlarmRaise => []
  | .powerAlarmClear => []
  | .checkpointRestore _ => []
  | .deviceFailover _ => []
  | .hostLinkTraining => []
  | .dieLinkTraining => []

/-! ## Building instructions from fields -/

/-- The scalar-slot operation `sop` with its fields; none for a reserved one (R263). -/
def scalarOfOp (sop : Nat) (f : SlotS) : Option Instr :=
  match sop with
  | 0x00 => some (.snop f)
  | 0x01 => some (.add f)
  | 0x02 => some (.sub f)
  | 0x03 => some (.and f)
  | 0x04 => some (.or f)
  | 0x05 => some (.xor f)
  | 0x06 => some (.andn f)
  | 0x07 => some (.shl f)
  | 0x08 => some (.shr f)
  | 0x09 => some (.sra f)
  | 0x0A => some (.mul f)
  | 0x0B => some (.mulh f)
  | 0x0C => some (.mulhu f)
  | 0x0D => some (.min f)
  | 0x0E => some (.max f)
  | 0x0F => some (.minu f)
  | 0x10 => some (.maxu f)
  | 0x11 => some (.mov f)
  | 0x12 => some (.addq f)
  | 0x13 => some (.shlq f)
  | 0x14 => some (.shrq f)
  | 0x15 => some (.sraq f)
  | 0x16 => some (.clz f)
  | 0x17 => some (.ctz f)
  | 0x18 => some (.popc f)
  | 0x19 => some (.sel f)
  | 0x1A => some (.setp f)
  | 0x1B => some (.setpq f)
  | 0x1C => some (.pand f)
  | 0x1D => some (.por f)
  | 0x1E => some (.pxor f)
  | 0x1F => some (.pnot f)
  | _ => none

/-- The vector-slot operation `vop` with its fields; none for a reserved one (R264). -/
def vectorOfOp (vop : Nat) (f : SlotV) : Option Instr :=
  match vop with
  | 0x00 => some (.vnop f)
  | 0x01 => some (.vaddSlot f)
  | 0x02 => some (.vsubSlot f)
  | 0x03 => some (.vmulSlot f)
  | 0x04 => some (.vfmaSlot f)
  | 0x05 => some (.vmaxSlot f)
  | 0x06 => some (.vminSlot f)
  | 0x07 => some (.vabsSlot f)
  | 0x08 => some (.vnegSlot f)
  | 0x09 => some (.vandSlot f)
  | 0x0A => some (.vorSlot f)
  | 0x0B => some (.vxorSlot f)
  | 0x0C => some (.vshlSlot f)
  | 0x0D => some (.vshrSlot f)
  | 0x0E => some (.vcmpSlot f)
  | 0x0F => some (.vselSlot f)
  | 0x10 => some (.vcvtSlot f)
  | 0x11 => some (.vmovSlot f)
  | 0x12 => some (.vcaccSlot f)
  | 0x13 => some (.vtwosumSlot f)
  | 0x14 => some (.vredSlot f)
  | _ => none

/-- The layouts of an L word's bits [49:0] (R260). -/
def La.of (w : W64) : La := ⟨fld w 45 5, fld w 40 5, fld w 8 32, fld w 0 8⟩
def Lb.of (w : W64) : Lb := ⟨fld w 45 5, fld w 40 5, fld w 35 5, fld w 30 5, fld w 8 22, fld w 0 8⟩
def Lm.of (w : W64) : Lm :=
  ⟨fld w 45 5, fld w 40 5, fld w 16 24, fld w 13 3, fld w 10 3, fld w 8 2, fld w 5 3, fld w 0 5⟩
def Lv.of (w : W64) : Lv := ⟨fld w 37 13, fld w 24 13, fld w 11 13, fld w 8 3, fld w 0 8⟩
def Ls.of (w : W64) : Ls := ⟨fld w 45 5, fld w 40 5, fld w 32 8, fld w 16 16, fld w 0 16⟩
def SlotS.of (w : W64) : SlotS := ⟨fld w 46 5, fld w 41 5, fld w 36 5, fld w 32 4⟩
def SlotV.of (w : W64) : SlotV := ⟨fld w 20 4, fld w 16 4, fld w 12 4, fld w 8 4, fld w 5 3, fld w 0 5⟩
/-- An E command from its two words (R261). -/
def Ecmd.of (w0 w1 : W64) : Ecmd := ⟨fld w0 42 8, fld w0 26 16, fld w0 18 8, fld w0 2 16, fld w0 0 2, w1⟩
/-- A cell word's fields below its cop (R271). -/
def CellWord.of (w : W64) : CellWord :=
  ⟨fld w 54 4, fld w 50 4, fld w 46 4, fld w 41 5, fld w 34 7, fld w 31 3, fld w 29 2, fld w 26 3,
   fld w 16 10, fld w 0 16⟩
/-- The layouts of a pattern word (R269). -/
def PatStep.of (w : BitVec 48) : PatStep := ⟨fld w 24 18, fld w 8 16, fld w 0 8⟩
def PatLoad.of (w : BitVec 48) : PatLoad := ⟨fld w 0 42⟩
def PatSync.of (w : BitVec 48) : PatSync := ⟨fld w 34 8, fld w 18 16, fld w 10 8, fld w 0 10⟩

/-- The long operation `op` of word `w`; none for a reserved op (R265). Where x selects a form, a
selection that is no form takes the last one, whose fields then raise reason 2 (R405). -/
def longOfOp (op : Nat) (w : W64) : Option Instr :=
  match op with
  | 0x00 => some (.addi (.of w))
  | 0x01 => some (.andi (.of w))
  | 0x02 => some (.ori (.of w))
  | 0x03 => some (.xori (.of w))
  | 0x04 => some (.shli (.of w))
  | 0x05 => some (.shri (.of w))
  | 0x06 => some (.srai (.of w))
  | 0x07 => some (.muli (.of w))
  | 0x08 => some (.li (.of w))
  | 0x09 => some (.lui (.of w))
  | 0x0A => some (.slti (.of w))
  | 0x0B => some (.setpi (.of w))
  | 0x0C => some (.div (.of w))
  | 0x0D => some (.divu (.of w))
  | 0x0E => some (.rem (.of w))
  | 0x0F => some (.remu (.of w))
  | 0x10 => some (.fadd (.of w))
  | 0x11 => some (.fsub (.of w))
  | 0x12 => some (.fmul (.of w))
  | 0x13 => some (.ffma (.of w))
  | 0x14 => some (.fdiv (.of w))
  | 0x15 => some (.fsqrt (.of w))
  | 0x16 => some (.fmin (.of w))
  | 0x17 => some (.fmax (.of w))
  | 0x18 => some (.fcmp (.of w))
  | 0x19 => some (.fcvt (.of w))
  | 0x20 => some (.br (.of w))
  | 0x21 => some (.call (.of w))
  | 0x22 => some (.ret (.of w))
  | 0x23 => some (.jmpr (.of w))
  | 0x24 => some (.callr (.of w))
  | 0x25 => some (.loop (.of w))
  | 0x26 => some (.halt (.of w))
  | 0x27 => some (.yield (.of w))
  | 0x28 => some (.syscall (.of w))
  | 0x29 => some (.brk (.of w))
  | 0x2A => some (.wfb (.of w))
  | 0x30 => some (.ld (.of w))
  | 0x31 => some (.st (.of w))
  | 0x32 => some (.ldp (.of w))
  | 0x33 => some (.stp (.of w))
  | 0x34 => some (.ldv (.of w))
  | 0x35 => some (.stv (.of w))
  | 0x36 => some (.ldt (.of w))
  | 0x37 => some (.stt (.of w))
  | 0x38 => some (.pref (.of w))
  | 0x39 => some (.fence (.of w))
  | 0x3A => some (.amo (.of w))
  | 0x3B => some (.cas (.of w))
  | 0x3C => some (if w.getLsbD 0 then .enqCommit (.of w) else .enq (.of w))
  | 0x3D => some (if w.getLsbD 0 then .deqFree (.of w) else .deq (.of w))
  | 0x3E => some (.qpush (.of w))
  | 0x3F => some (.qpop (.of w))
  | 0x40 => some (.vadd (.of w))
  | 0x41 => some (.vsub (.of w))
  | 0x42 => some (.vmul (.of w))
  | 0x43 => some (.vfma (.of w))
  | 0x44 => some (.vmax (.of w))
  | 0x45 => some (.vmin (.of w))
  | 0x46 => some (.vabs (.of w))
  | 0x47 => some (.vneg (.of w))
  | 0x48 => some (.vand (.of w))
  | 0x49 => some (.vor (.of w))
  | 0x4A => some (.vxor (.of w))
  | 0x4B => some (.vshl (.of w))
  | 0x4C => some (.vshr (.of w))
  | 0x4D => some (.vcmp (.of w))
  | 0x4E => some (.vsel (.of w))
  | 0x4F => some (.vcvt (.of w))
  | 0x50 => some (.vmov (.of w))
  | 0x51 => some (.vcacc (.of w))
  | 0x52 => some (.vtwosum (.of w))
  | 0x53 => some (.vred (.of w))
  | 0x54 => some (.vexp2 (.of w))
  | 0x55 => some (.vrcp (.of w))
  | 0x56 => some (.vrsq (.of w))
  | 0x57 => some (.vsplat (.of w))
  | 0x58 => some (.vextr (.of w))
  | 0x59 => some (.vperm (.of w))
  | 0x5A => some (.vquant (.of w))
  | 0x5B => some (.tclr (.of w))
  | 0x5C => some (.tmark (.of w))
  | 0x5D => some (.twait (.of w))
  | 0x60 => some (.fwait (.of w))
  | 0x61 => some (.fsig (.of w))
  | 0x62 => some (.frd (.of w))
  | 0x63 => some (.fset (.of w))
  | 0x64 => some (.fwin (.of w))
  | 0x65 => some (.spawn (.of w))
  | 0x66 => some (.work (.of w))
  | 0x67 => some (.done (.of w))
  | 0x68 => some (.gbar (.of w))
  | 0x69 => some (.rdsr (.of w))
  | 0x6A => some (.wrsr (.of w))
  | 0x6B => some (.featq (.of w))
  | 0x6C => some (.locq (.of w))
  | 0x6D => some (.cycle (.of w))
  | 0x6E => some (.regpwr (.of w))
  | 0x70 => some (.trapret (.of w))
  | 0x71 => some (if fld w 0 3 = 0 then .tlbinvAll (.of w) else if fld w 0 3 = 1 then .tlbinvSpace (.of w) else .tlbinvPage (.of w))
  | 0x72 => some (if w.getLsbD 0 then .winmapRoot (.of w) else .winmap (.of w))
  | 0x73 => some (if fld w 5 3 = 0 then .partcfgAssign (.of w) else .partcfgRelease (.of w))
  | 0x74 => some (if fld w 0 8 = 0 then .ttcmdWeight (.of w) else if fld w 0 8 = 1 then .ttcmdClose (.of w) else if fld w 0 8 = 2 then .ttcmdQuiesce (.of w) else .ttcmdResume (.of w))
  | 0x75 => some (if fld w 0 3 = 0 then .corectlClrfeat (.of w) else if fld w 0 3 = 1 then .corectlHalt (.of w) else .corectlState (.of w))
  | 0x76 => some (.attest (.of w))
  | _ => none

/-- The engine command `eop`; none for a reserved one (R266). -/
def engineOfOp (eop : Nat) (f : Ecmd) : Option Instr :=
  match eop with
  | 0x00 => some (.seRun f)
  | 0x01 => some (.seHalt f)
  | 0x08 => some (.grCfg f)
  | 0x09 => some (.grGo f)
  | 0x0A => some (.grDrain f)
  | 0x0B => some (.grDump f)
  | 0x0C => some (.grFill f)
  | 0x10 => some (.scnChunk f)
  | 0x11 => some (.scnCarry f)
  | 0x18 => some (.mxLease f)
  | 0x19 => some (.mxMma f)
  | 0x1A => some (.mxDrain f)
  | 0x1B => some (.mxFree f)
  | 0x1C => some (.mxZero f)
  | 0x20 => some (.xfCopy f)
  | 0x21 => some (.xfCopy2d f)
  | 0x22 => some (.xfFill f)
  | 0x23 => some (.xfGather f)
  | 0x28 => some (.slSave f)
  | 0x29 => some (.slLoad f)
  | 0x2A => some (.slSnap f)
  | 0x2B => some (.slFork f)
  | 0x2C => some (.slRoll f)
  | 0x2D => some (.slDrop f)
  | 0x30 => some (.teRun f)
  | 0x31 => some (.teHalt f)
  | 0x38 => some (.swRoute f)
  | 0x39 => some (.swFmt f)
  | 0x3F => some (.note f)
  | _ => none

/-- The cell operation `cop`; none for a reserved one (R267). -/
def cellOfOp (cop : Nat) (f : CellWord) : Option Instr :=
  match cop with
  | 0x00 => some (.cellCnop f)
  | 0x01 => some (.cellPass f)
  | 0x02 => some (.cellFadd f)
  | 0x03 => some (.cellFsub f)
  | 0x04 => some (.cellFmul f)
  | 0x05 => some (.cellFfma f)
  | 0x06 => some (.cellFmax f)
  | 0x07 => some (.cellFmin f)
  | 0x08 => some (.cellFabs f)
  | 0x09 => some (.cellFexp2 f)
  | 0x0A => some (.cellFrcp f)
  | 0x0B => some (.cellIadd f)
  | 0x0C => some (.cellIsub f)
  | 0x0D => some (.cellImul f)
  | 0x0E => some (.cellAnd f)
  | 0x0F => some (.cellOr f)
  | 0x10 => some (.cellXor f)
  | 0x11 => some (.cellShl f)
  | 0x12 => some (.cellShr f)
  | 0x13 => some (.cellSel f)
  | 0x14 => some (.cellCmplt f)
  | 0x15 => some (.cellCmpeq f)
  | 0x16 => some (.cellSld f)
  | 0x17 => some (.cellSst f)
  | 0x18 => some (.cellAcc2 f)
  | 0x19 => some (.cellCvt f)
  | _ => none

/-- The pattern operation of a 48-bit word; none for a reserved pop (R268). -/
def patternOfOp (pop : Nat) (w : BitVec 48) : Option Instr :=
  match pop with
  | 0x00 => some (.pend (.of w))
  | 0x01 => some (.pbase (.of w))
  | 0x02 => some (.pdst (.of w))
  | 0x03 => some (.pmove (.of w))
  | 0x04 => some (.pnest (.of w))
  | 0x05 => some (.pwrap (.of w))
  | 0x06 => some (.pfmt (.of w))
  | 0x07 => some (.pwait (.of w))
  | 0x08 => some (.psig (.of w))
  | 0x09 => some (.pwin (.of w))
  | 0x0A => some (.pjump (.of w))
  | 0x0B => some (.ploop (.of w))
  | 0x0C => some (.pgath (.of w))
  | 0x0D => some (.pfillv (.of w))
  | 0x0E => some (.pskip (.of w))
  | 0x0F => some (.pnote (.of w))
  | _ => none

/-! ## Decoding -/

/-- The lowest of a slot's reasons (R257). -/
def lowest : List Nat → Option Nat
  | [] => none
  | r :: rs => match lowest rs with
    | none => some r
    | some q => some (min r q)

/-- One slot: the instruction, or its lowest reason as a cause code (R226, R257). -/
def slotResult (e : DecodeEnv) (slot : Nat) (i : Option Instr) : Except Nat Instr :=
  match i with
  | none => .error (16 * slot)
  | some i => match lowest (i.reasons e) with
    | none => .ok i
    | some r => .error (16 * slot + r)

/-- The guard of a word (R256). -/
def Guard.of (w : W64) : Guard := ⟨w.getLsbD 63, fld w 60 3⟩

/-- Decode a word at a control position; `w1` is the word after it, which an E command takes. The
error is the cause code (R226, R255 to R261) (log 17: DEDUCED) (log 80: DEDUCED). -/
def decodeWord (e : DecodeEnv) (w w1 : W64) : Except Nat Fetched :=
  let g := Guard.of w
  let fmt := (fld w 58 2).toNat
  if fmt = 3 then .error 1
  else if fmt = 0 then
    if g.neg && g.pred = 0 then .error 3
    else do
      let s ← slotResult e 0 (scalarOfOp (fld w 51 7).toNat (.of w))
      let v ← slotResult e 1 (vectorOfOp (fld w 24 8).toNat (.of w))
      pure (.p g s v)
  else if fmt = 1 then
    if g.neg && g.pred = 0 then .error (32 + 3)
    else do
      let i ← slotResult e 2 (longOfOp (fld w 50 8).toNat w)
      pure (.l g i)
  else if g.neg && g.pred = 0 then .error (48 + 3)
    else do
      let i ← slotResult e 3 (engineOfOp (fld w 50 8).toNat (.of w w1))
      pure (.e g i)

/-- Length in bytes of a word with this first word: 16 for an E command, 8 otherwise (R255). -/
def wordLength (w : W64) : Nat := if fld w 58 2 = 2 then 16 else 8

/-- A little-endian number from bytes (R1). -/
def leNat : List Byte → Nat
  | [] => 0
  | b :: bs => b.toNat + 256 * leNat bs

/-- The n bytes of a number, little-endian (R1). -/
def leBytes : Nat → Nat → List Byte
  | 0, _ => []
  | n + 1, v => BitVec.ofNat 8 v :: leBytes n (v / 256)

/-- Decode from bytes as stored (R255): the fetched word and the bytes after it. Fewer bytes than the
word needs read as zero. -/
def decodeBytes (e : DecodeEnv) (bs : List Byte) : Except Nat (Fetched × List Byte) := do
  let w := BitVec.ofNat 64 (leNat (bs.take 8))
  let w1 := BitVec.ofNat 64 (leNat ((bs.drop 8).take 8))
  let f ← decodeWord e w w1
  pure (f, bs.drop (wordLength w))

/-- Decode a cell word (R267, R271); none for a reserved cop. -/
def decodeCell (w : W64) : Option Instr := cellOfOp (fld w 58 6).toNat (.of w)

/-- Decode a pattern word (R268, R269); none where it makes the program malformed by its own bits. -/
def decodePattern (w : BitVec 48) : Option Instr :=
  match patternOfOp (fld w 42 6).toNat w with
  | none => none
  | some i => if i.reasons .full = [] then some i else none

/-- Is this the scalar slot's no-operation? -/
def Instr.isSnop : Instr → Bool
  | .snop _ => true
  | _ => false

/-- The instruction of the table's word `w` of `nbits` bits, read by the decoder from the bytes as the
hardware stores them. A P word whose scalar slot is SNOP stands for its vector slot. Supervisor words
are read as a system core reads them. -/
def decodeTableWord (nbits w : Nat) : Option Instr :=
  let bs := leBytes 16 (w % 2 ^ nbits)
  let pick : Fetched → Instr
    | .p _ s v => if s.isSnop then v else s
    | .l _ i => i
    | .e _ i => i
  match decodeBytes .full bs with
  | .ok (f, _) => some (pick f)
  | .error _ => match decodeBytes .system bs with
    | .ok (f, _) => some (pick f)
    | .error _ => none

/-! ## Encoding -/

/-- The sop and fields of a scalar-slot operation (R258, R263). -/
def Instr.scalarCode : Instr → Option (Nat × SlotS)
  | .snop f => some (0x00, f)
  | .add f => some (0x01, f)
  | .sub f => some (0x02, f)
  | .and f => some (0x03, f)
  | .or f => some (0x04, f)
  | .xor f => some (0x05, f)
  | .andn f => some (0x06, f)
  | .shl f => some (0x07, f)
  | .shr f => some (0x08, f)
  | .sra f => some (0x09, f)
  | .mul f => some (0x0A, f)
  | .mulh f => some (0x0B, f)
  | .mulhu f => some (0x0C, f)
  | .min f => some (0x0D, f)
  | .max f => some (0x0E, f)
  | .minu f => some (0x0F, f)
  | .maxu f => some (0x10, f)
  | .mov f => some (0x11, f)
  | .addq f => some (0x12, f)
  | .shlq f => some (0x13, f)
  | .shrq f => some (0x14, f)
  | .sraq f => some (0x15, f)
  | .clz f => some (0x16, f)
  | .ctz f => some (0x17, f)
  | .popc f => some (0x18, f)
  | .sel f => some (0x19, f)
  | .setp f => some (0x1A, f)
  | .setpq f => some (0x1B, f)
  | .pand f => some (0x1C, f)
  | .por f => some (0x1D, f)
  | .pxor f => some (0x1E, f)
  | .pnot f => some (0x1F, f)
  | _ => none

/-- The vop and fields of a vector-slot operation (R258, R264). -/
def Instr.vectorCode : Instr → Option (Nat × SlotV)
  | .vnop f => some (0x00, f)
  | .vaddSlot f => some (0x01, f)
  | .vsubSlot f => some (0x02, f)
  | .vmulSlot f => some (0x03, f)
  | .vfmaSlot f => some (0x04, f)
  | .vmaxSlot f => some (0x05, f)
  | .vminSlot f => some (0x06, f)
  | .vabsSlot f => some (0x07, f)
  | .vnegSlot f => some (0x08, f)
  | .vandSlot f => some (0x09, f)
  | .vorSlot f => some (0x0A, f)
  | .vxorSlot f => some (0x0B, f)
  | .vshlSlot f => some (0x0C, f)
  | .vshrSlot f => some (0x0D, f)
  | .vcmpSlot f => some (0x0E, f)
  | .vselSlot f => some (0x0F, f)
  | .vcvtSlot f => some (0x10, f)
  | .vmovSlot f => some (0x11, f)
  | .vcaccSlot f => some (0x12, f)
  | .vtwosumSlot f => some (0x13, f)
  | .vredSlot f => some (0x14, f)
  | _ => none

/-- The bits [49:0] of each L layout (R260). -/
def La.bits (f : La) : BitVec 50 := f.d ++ f.a ++ f.imm ++ f.x
def Lb.bits (f : Lb) : BitVec 50 := f.d ++ f.a ++ f.b ++ f.c ++ f.z ++ f.x
def Lm.bits (f : Lm) : BitVec 50 := f.d ++ f.a ++ f.imm ++ f.size ++ f.order ++ f.fe ++ f.scope ++ f.x
def Lv.bits (f : Lv) : BitVec 50 := f.d ++ f.a ++ f.b ++ f.ty ++ f.md
def Ls.bits (f : Ls) : BitVec 50 := f.d ++ f.a ++ f.flag ++ f.count ++ f.imm

/-- The op and the bits [49:0] of a long operation (R260, R265). -/
def Instr.longCode : Instr → Option (Nat × BitVec 50)
  | .addi f => some (0x00, f.bits)
  | .andi f => some (0x01, f.bits)
  | .ori f => some (0x02, f.bits)
  | .xori f => some (0x03, f.bits)
  | .shli f => some (0x04, f.bits)
  | .shri f => some (0x05, f.bits)
  | .srai f => some (0x06, f.bits)
  | .muli f => some (0x07, f.bits)
  | .li f => some (0x08, f.bits)
  | .lui f => some (0x09, f.bits)
  | .slti f => some (0x0A, f.bits)
  | .setpi f => some (0x0B, f.bits)
  | .div f => some (0x0C, f.bits)
  | .divu f => some (0x0D, f.bits)
  | .rem f => some (0x0E, f.bits)
  | .remu f => some (0x0F, f.bits)
  | .fadd f => some (0x10, f.bits)
  | .fsub f => some (0x11, f.bits)
  | .fmul f => some (0x12, f.bits)
  | .ffma f => some (0x13, f.bits)
  | .fdiv f => some (0x14, f.bits)
  | .fsqrt f => some (0x15, f.bits)
  | .fmin f => some (0x16, f.bits)
  | .fmax f => some (0x17, f.bits)
  | .fcmp f => some (0x18, f.bits)
  | .fcvt f => some (0x19, f.bits)
  | .br f => some (0x20, f.bits)
  | .call f => some (0x21, f.bits)
  | .ret f => some (0x22, f.bits)
  | .jmpr f => some (0x23, f.bits)
  | .callr f => some (0x24, f.bits)
  | .loop f => some (0x25, f.bits)
  | .halt f => some (0x26, f.bits)
  | .yield f => some (0x27, f.bits)
  | .syscall f => some (0x28, f.bits)
  | .brk f => some (0x29, f.bits)
  | .wfb f => some (0x2A, f.bits)
  | .ld f => some (0x30, f.bits)
  | .st f => some (0x31, f.bits)
  | .ldp f => some (0x32, f.bits)
  | .stp f => some (0x33, f.bits)
  | .ldv f => some (0x34, f.bits)
  | .stv f => some (0x35, f.bits)
  | .ldt f => some (0x36, f.bits)
  | .stt f => some (0x37, f.bits)
  | .pref f => some (0x38, f.bits)
  | .fence f => some (0x39, f.bits)
  | .amo f => some (0x3A, f.bits)
  | .cas f => some (0x3B, f.bits)
  | .enq f => some (0x3C, f.bits)
  | .enqCommit f => some (0x3C, f.bits)
  | .deq f => some (0x3D, f.bits)
  | .deqFree f => some (0x3D, f.bits)
  | .qpush f => some (0x3E, f.bits)
  | .qpop f => some (0x3F, f.bits)
  | .vadd f => some (0x40, f.bits)
  | .vsub f => some (0x41, f.bits)
  | .vmul f => some (0x42, f.bits)
  | .vfma f => some (0x43, f.bits)
  | .vmax f => some (0x44, f.bits)
  | .vmin f => some (0x45, f.bits)
  | .vabs f => some (0x46, f.bits)
  | .vneg f => some (0x47, f.bits)
  | .vand f => some (0x48, f.bits)
  | .vor f => some (0x49, f.bits)
  | .vxor f => some (0x4A, f.bits)
  | .vshl f => some (0x4B, f.bits)
  | .vshr f => some (0x4C, f.bits)
  | .vcmp f => some (0x4D, f.bits)
  | .vsel f => some (0x4E, f.bits)
  | .vcvt f => some (0x4F, f.bits)
  | .vmov f => some (0x50, f.bits)
  | .vcacc f => some (0x51, f.bits)
  | .vtwosum f => some (0x52, f.bits)
  | .vred f => some (0x53, f.bits)
  | .vexp2 f => some (0x54, f.bits)
  | .vrcp f => some (0x55, f.bits)
  | .vrsq f => some (0x56, f.bits)
  | .vsplat f => some (0x57, f.bits)
  | .vextr f => some (0x58, f.bits)
  | .vperm f => some (0x59, f.bits)
  | .vquant f => some (0x5A, f.bits)
  | .tclr f => some (0x5B, f.bits)
  | .tmark f => some (0x5C, f.bits)
  | .twait f => some (0x5D, f.bits)
  | .fwait f => some (0x60, f.bits)
  | .fsig f => some (0x61, f.bits)
  | .frd f => some (0x62, f.bits)
  | .fset f => some (0x63, f.bits)
  | .fwin f => some (0x64, f.bits)
  | .spawn f => some (0x65, f.bits)
  | .work f => some (0x66, f.bits)
  | .done f => some (0x67, f.bits)
  | .gbar f => some (0x68, f.bits)
  | .rdsr f => some (0x69, f.bits)
  | .wrsr f => some (0x6A, f.bits)
  | .featq f => some (0x6B, f.bits)
  | .locq f => some (0x6C, f.bits)
  | .cycle f => some (0x6D, f.bits)
  | .regpwr f => some (0x6E, f.bits)
  | .trapret f => some (0x70, f.bits)
  | .tlbinvAll f => some (0x71, f.bits)
  | .tlbinvSpace f => some (0x71, f.bits)
  | .tlbinvPage f => some (0x71, f.bits)
  | .winmap f => some (0x72, f.bits)
  | .winmapRoot f => some (0x72, f.bits)
  | .partcfgAssign f => some (0x73, f.bits)
  | .partcfgRelease f => some (0x73, f.bits)
  | .ttcmdWeight f => some (0x74, f.bits)
  | .ttcmdClose f => some (0x74, f.bits)
  | .ttcmdQuiesce f => some (0x74, f.bits)
  | .ttcmdResume f => some (0x74, f.bits)
  | .corectlClrfeat f => some (0x75, f.bits)
  | .corectlHalt f => some (0x75, f.bits)
  | .corectlState f => some (0x75, f.bits)
  | .attest f => some (0x76, f.bits)
  | _ => none

/-- The eop and halves of an engine command (R261, R266). -/
def Instr.engineCode : Instr → Option (Nat × Ecmd)
  | .seRun f => some (0x00, f)
  | .seHalt f => some (0x01, f)
  | .grCfg f => some (0x08, f)
  | .grGo f => some (0x09, f)
  | .grDrain f => some (0x0A, f)
  | .grDump f => some (0x0B, f)
  | .grFill f => some (0x0C, f)
  | .scnChunk f => some (0x10, f)
  | .scnCarry f => some (0x11, f)
  | .mxLease f => some (0x18, f)
  | .mxMma f => some (0x19, f)
  | .mxDrain f => some (0x1A, f)
  | .mxFree f => some (0x1B, f)
  | .mxZero f => some (0x1C, f)
  | .xfCopy f => some (0x20, f)
  | .xfCopy2d f => some (0x21, f)
  | .xfFill f => some (0x22, f)
  | .xfGather f => some (0x23, f)
  | .slSave f => some (0x28, f)
  | .slLoad f => some (0x29, f)
  | .slSnap f => some (0x2A, f)
  | .slFork f => some (0x2B, f)
  | .slRoll f => some (0x2C, f)
  | .slDrop f => some (0x2D, f)
  | .teRun f => some (0x30, f)
  | .teHalt f => some (0x31, f)
  | .swRoute f => some (0x38, f)
  | .swFmt f => some (0x39, f)
  | .note f => some (0x3F, f)
  | _ => none

/-- The cop and fields of a cell operation (R267, R271). -/
def Instr.cellCode : Instr → Option (Nat × CellWord)
  | .cellCnop f => some (0x00, f)
  | .cellPass f => some (0x01, f)
  | .cellFadd f => some (0x02, f)
  | .cellFsub f => some (0x03, f)
  | .cellFmul f => some (0x04, f)
  | .cellFfma f => some (0x05, f)
  | .cellFmax f => some (0x06, f)
  | .cellFmin f => some (0x07, f)
  | .cellFabs f => some (0x08, f)
  | .cellFexp2 f => some (0x09, f)
  | .cellFrcp f => some (0x0A, f)
  | .cellIadd f => some (0x0B, f)
  | .cellIsub f => some (0x0C, f)
  | .cellImul f => some (0x0D, f)
  | .cellAnd f => some (0x0E, f)
  | .cellOr f => some (0x0F, f)
  | .cellXor f => some (0x10, f)
  | .cellShl f => some (0x11, f)
  | .cellShr f => some (0x12, f)
  | .cellSel f => some (0x13, f)
  | .cellCmplt f => some (0x14, f)
  | .cellCmpeq f => some (0x15, f)
  | .cellSld f => some (0x16, f)
  | .cellSst f => some (0x17, f)
  | .cellAcc2 f => some (0x18, f)
  | .cellCvt f => some (0x19, f)
  | _ => none

/-- The pop and bits [41:0] of a pattern operation (R268, R269). -/
def Instr.patternCode : Instr → Option (Nat × BitVec 42)
  | .pend f => some (0x00, f.imm)
  | .pbase f => some (0x01, f.imm)
  | .pdst f => some (0x02, f.imm)
  | .pmove f => some (0x03, (f.step ++ f.rep ++ f.arg : BitVec 42))
  | .pnest f => some (0x04, (f.step ++ f.rep ++ f.arg : BitVec 42))
  | .pwrap f => some (0x05, (f.step ++ f.rep ++ f.arg : BitVec 42))
  | .pfmt f => some (0x06, f.imm)
  | .pwait f => some (0x07, (f.flag ++ f.count ++ f.core ++ f.z : BitVec 42))
  | .psig f => some (0x08, (f.flag ++ f.count ++ f.core ++ f.z : BitVec 42))
  | .pwin f => some (0x09, (f.flag ++ f.count ++ f.core ++ f.z : BitVec 42))
  | .pjump f => some (0x0A, f.imm)
  | .ploop f => some (0x0B, (f.step ++ f.rep ++ f.arg : BitVec 42))
  | .pgath f => some (0x0C, (f.step ++ f.rep ++ f.arg : BitVec 42))
  | .pfillv f => some (0x0D, f.imm)
  | .pskip f => some (0x0E, (f.step ++ f.rep ++ f.arg : BitVec 42))
  | .pnote f => some (0x0F, (f.flag ++ f.count ++ f.core ++ f.z : BitVec 42))
  | _ => none

/-- Bits [63:58] of a word: the guard and the format (R256). -/
def headBits (g : Guard) (fmt : BitVec 2) : BitVec 6 := BitVec.ofBool g.neg ++ g.pred ++ fmt

/-- A P word from its two slots (R258). -/
def pWord (g : Guard) (sop : Nat) (s : SlotS) (vop : Nat) (v : SlotV) : W64 :=
  headBits g 0 ++ BitVec.ofNat 7 sop ++ s.sd ++ s.sa ++ s.sb ++ s.sx ++
    (BitVec.ofNat 8 vop ++ v.vd ++ v.va ++ v.vb ++ v.vc ++ v.ty ++ v.md : BitVec 32)

/-- An L word (R260). -/
def lWord (g : Guard) (op : Nat) (b : BitVec 50) : W64 := headBits g 1 ++ BitVec.ofNat 8 op ++ b

/-- Word 0 of an E command (R261). -/
def eWord0 (g : Guard) (eop : Nat) (f : Ecmd) : W64 :=
  headBits g 2 ++ BitVec.ofNat 8 eop ++ f.waitFlag ++ f.waitCount ++ f.sigFlag ++ f.sigCount ++ f.z

/-- The words of a fetched word; none where a slot holds what no such slot can (R258 to R261). -/
def Fetched.encode : Fetched → Option (List W64)
  | .p g s v => match s.scalarCode, v.vectorCode with
    | some (sop, fs), some (vop, fv) => some [pWord g sop fs vop fv]
    | _, _ => none
  | .l g i => i.longCode.map fun (op, b) => [lWord g op b]
  | .e g i => i.engineCode.map fun (eop, f) => [eWord0 g eop f, f.w1]

/-- A cell word (R271). -/
def Instr.encodeCell (i : Instr) : Option W64 :=
  i.cellCode.map fun (cop, f) =>
    BitVec.ofNat 6 cop ++ f.srcA ++ f.srcB ++ f.srcC ++ f.outm ++ f.slice ++ f.stage ++ f.ctype ++
      f.slot ++ f.z ++ f.imm

/-- A pattern word (R269). -/
def Instr.encodePattern (i : Instr) : Option (BitVec 48) :=
  i.patternCode.map fun (pop, b) => BitVec.ofNat 6 pop ++ b

/-- The guard that always holds (R249, R256). -/
def Guard.always : Guard := ⟨false, 0⟩

/-- The words of one instruction under the guard p0, the other slot of a P word empty (R275). -/
def Instr.encode (i : Instr) : Option (List W64) :=
  match i.scalarCode with
  | some _ => (Fetched.p .always i (.vnop ⟨0, 0, 0, 0, 0, 0⟩)).encode
  | none => match i.vectorCode with
    | some _ => (Fetched.p .always (.snop ⟨0, 0, 0, 0⟩) i).encode
    | none => match i.longCode with
      | some _ => (Fetched.l .always i).encode
      | none => (Fetched.e .always i).encode

end Sys2Proof
end

