-- ==== Sys2Proof/Machine/Float.lean ====
section
/-! DEFINITION. Exact floating-point arithmetic: a value is a NaN, an infinity or a sign with an exact
dyadic magnitude; every operation is exact and then rounds once (R163, R166 to R172, R183). -/

namespace Sys2Proof.Machine

/-- FPSTAT bits: [5] SAT, [4] NV, [3] DZ, [2] OF, [1] UF, [0] NX (R165). -/
abbrev FpFlags := BitVec 6

def fNX : FpFlags := 0x01
def fUF : FpFlags := 0x02
def fOF : FpFlags := 0x04
def fDZ : FpFlags := 0x08
def fNV : FpFlags := 0x10
def fSAT : FpFlags := 0x20

/-- The flag when the condition holds. -/
def flagIf (b : Bool) (f : FpFlags) : FpFlags := if b then f else 0

/-- A floating-point value: NaN (signalling or not), infinity, or (-1)^neg * m * 2^e exactly. -/
inductive FVal where
  | nan (signalling : Bool)
  | inf (neg : Bool)
  | fin (neg : Bool) (m : Nat) (e : Int)
  deriving DecidableEq, Repr

/-- A binary format: precision with the hidden bit, exponent bits (R169, R170, R183). -/
structure FFmt where
  p : Nat
  eb : Nat
  deriving DecidableEq, Repr

def FFmt.f64 : FFmt := ⟨53, 11⟩
def FFmt.f32 : FFmt := ⟨24, 8⟩
def FFmt.bf16 : FFmt := ⟨8, 8⟩
def FFmt.a48 : FFmt := ⟨40, 8⟩
def FFmt.e5m2 : FFmt := ⟨3, 5⟩
/-- E4M3 without its top rule, which `roundE4M3` and `decodeE4M3` add (R170). -/
def FFmt.e4m3 : FFmt := ⟨4, 4⟩

def FFmt.bias (f : FFmt) : Nat := 2 ^ (f.eb - 1) - 1
/-- The exponent of the least subnormal. -/
def FFmt.emin (f : FFmt) : Int := 2 - (f.bias : Int) - f.p
def FFmt.width (f : FFmt) : Nat := f.p + f.eb
/-- The largest exponent field. -/
def FFmt.emax (f : FFmt) : Nat := 2 ^ f.eb - 1
def FFmt.signBit (f : FFmt) (neg : Bool) : Nat := if neg then 2 ^ (f.width - 1) else 0
def FFmt.infCode (f : FFmt) (neg : Bool) : Nat := f.signBit neg + f.emax * 2 ^ (f.p - 1)
/-- The canonical NaN (R166, R183): quiet, positive, no payload. -/
def FFmt.nanCode (f : FFmt) : Nat :=
  f.emax * 2 ^ (f.p - 1) + (if f = .e5m2 then 2 else 2 ^ (f.p - 2))
/-- The largest finite code. -/
def FFmt.maxCode (f : FFmt) (neg : Bool) : Nat := f.signBit neg + f.emax * 2 ^ (f.p - 1) - 1

/-- The value of a code of a binary interchange format (R166, R169). -/
def FFmt.decode (f : FFmt) (c : Nat) : FVal :=
  let frac := c % 2 ^ (f.p - 1)
  let ex := c / 2 ^ (f.p - 1) % 2 ^ f.eb
  let neg := c / 2 ^ (f.width - 1) % 2 = 1
  if ex = f.emax then
    (if frac = 0 then .inf neg else .nan (f ≠ .e5m2 && frac / 2 ^ (f.p - 2) = 0))
  else if ex = 0 then .fin neg frac f.emin
  else .fin neg (2 ^ (f.p - 1) + frac) (f.emin + (ex - 1 : Nat))

/-- The number of bits of a number, 0 for 0. -/
def bitLength (m : Nat) : Nat := if m = 0 then 0 else Nat.log2 m + 1

/-- Does the magnitude quotient q, remainder r of 2^s, round away from zero (R163)? -/
def roundsUp (mode : BitVec 2) (neg : Bool) (q r s : Nat) : Bool :=
  if r = 0 then false
  else if mode = 0 then
    let half := 2 ^ (s - 1)
    decide (r > half) || (decide (r = half) && decide (q % 2 = 1))
  else if mode = 1 then false
  else if mode = 2 then neg
  else !neg

/-- Round m * 2^e to a multiple of 2^qe: the quotient and whether it is inexact. -/
def roundAt (mode : BitVec 2) (neg : Bool) (m : Nat) (e qe : Int) : Nat × Bool :=
  if qe ≤ e then (m <<< (e - qe).toNat, false)
  else
    let s := (qe - e).toNat
    let q := m >>> s
    let r := m % 2 ^ s
    ((if roundsUp mode neg q r s then q + 1 else q), r ≠ 0)

/-- A rounded magnitude q * 2^qe with its flags of inexactness and tininess (R167). -/
structure Rounded where
  q : Nat
  qe : Int
  inexact : Bool
  tiny : Bool
  deriving DecidableEq, Repr

/-- Round to p bits with no upper limit of the exponent (R167, R171). -/
def roundMag (f : FFmt) (mode : BitVec 2) (neg : Bool) (m : Nat) (e : Int) : Rounded :=
  let free : Int := e + bitLength m - f.p
  let qe := max free f.emin
  let (q, ix) := roundAt mode neg m e qe
  let (qf, _) := roundAt mode neg m e free
  -- the result rounded without a lower limit lies below the least normal 2^(emin + p - 1)
  let tiny := decide ((bitLength qf : Int) + free < f.emin + f.p)
  ⟨q, qe, ix, tiny⟩

/-- The code of a rounded finite magnitude that does not overflow. -/
def FFmt.packFin (f : FFmt) (neg : Bool) (q : Nat) (qe : Int) : Nat :=
  if q = 0 then f.signBit neg
  else
    -- normalise q = 2^p to 2^(p-1)
    let (q, qe) := if q = 2 ^ f.p then (2 ^ (f.p - 1), qe + 1) else (q, qe)
    if q < 2 ^ (f.p - 1) then f.signBit neg + q
    else f.signBit neg + (qe - f.emin + 1).toNat * 2 ^ (f.p - 1) + (q - 2 ^ (f.p - 1))

/-- Is q * 2^qe beyond the largest finite value of the format? -/
def FFmt.overflows (f : FFmt) (q : Nat) (qe : Int) : Bool :=
  (bitLength q : Int) + qe > f.emin + f.p - 1 + (f.emax - 1 : Nat)

/-- Round a value to a binary interchange format: code and flags (R163, R165, R166, R171). Flags of
operands are the operation's own. -/
def FFmt.round (f : FFmt) (mode : BitVec 2) (v : FVal) : Nat × FpFlags :=
  match v with
  | .nan _ => (f.nanCode, 0)
  | .inf neg => (f.infCode neg, 0)
  | .fin neg m e =>
    if m = 0 then (f.signBit neg, 0)
    else
      let r := roundMag f mode neg m e
      if f.overflows r.q r.qe then
        let toInf := mode = 0 || (mode = 2 && neg) || (mode = 3 && !neg)
        ((if toInf then f.infCode neg else f.maxCode neg), fOF ||| fNX)
      else (f.packFin neg r.q r.qe, flagIf r.inexact fNX ||| flagIf (r.inexact && r.tiny) fUF)

/-- The value of an E4M3 code (R170). -/
def decodeE4M3 (c : Nat) : FVal :=
  let m := c % 8
  let ex := c / 8 % 16
  let neg := c / 128 % 2 = 1
  if ex = 15 && m = 7 then .nan false
  else if ex = 0 then .fin neg m (-9)
  else .fin neg (8 + m) (ex - 10)

/-- Round to E4M3 (R170, R171). -/
def roundE4M3 (mode : BitVec 2) (sat : Bool) (v : FVal) : Nat × FpFlags :=
  match v with
  | .nan _ => (0x7F, 0)
  | .inf neg => if sat then ((if neg then 0xFE else 0x7E), fSAT) else (0x7F, fNV)
  | .fin neg m e =>
    if m = 0 then ((if neg then 0x80 else 0), 0)
    else
      let r := roundMag .e4m3 mode neg m e
      -- 448 = 7 * 2^6
      if (if r.qe ≥ 5 then r.q <<< (r.qe - 5).toNat > 14 else false) then
        (if sat then ((if neg then 0xFE else 0x7E), fSAT ||| fNX) else (0x7F, fOF ||| fNX))
      else (FFmt.e4m3.packFin neg r.q r.qe, flagIf r.inexact fNX ||| flagIf (r.inexact && r.tiny) fUF)

/-- Round to E5M2 (R170, R171). -/
def roundE5M2 (mode : BitVec 2) (sat : Bool) (v : FVal) : Nat × FpFlags :=
  match v with
  | .inf neg => if sat then (FFmt.e5m2.maxCode neg, fSAT) else (FFmt.e5m2.infCode neg, 0)
  | _ =>
    let (c, fl) := FFmt.e5m2.round mode v
    if sat && fl &&& fOF ≠ 0 then
      (FFmt.e5m2.maxCode (match v with | .fin n _ _ => n | _ => false), fSAT ||| fNX)
    else (c, fl)

/-! ## Exact operations -/

def FVal.isNan : FVal → Bool
  | .nan _ => true
  | _ => false

def FVal.isSig : FVal → Bool
  | .nan s => s
  | _ => false

def FVal.isZero : FVal → Bool
  | .fin _ m _ => m = 0
  | _ => false

def FVal.isInf : FVal → Bool
  | .inf _ => true
  | _ => false

def FVal.neg? : FVal → Bool
  | .nan _ => false
  | .inf n => n
  | .fin n _ _ => n

def FVal.negate : FVal → FVal
  | .nan s => .nan s
  | .inf n => .inf !n
  | .fin n m e => .fin (!n) m e

/-- The signed integer m * 2^(e - base), for base at most e. -/
def FVal.scaledInt (neg : Bool) (m : Nat) (e base : Int) : Int :=
  let v : Int := ((m <<< (e - base).toNat : Nat) : Int)
  if neg then -v else v

/-- An exact sum of two finite values; a zero sum keeps the sign rule of R294. -/
def addFin (mode : BitVec 2) (n1 : Bool) (m1 : Nat) (e1 : Int) (n2 : Bool) (m2 : Nat) (e2 : Int) : FVal :=
  let base := min e1 e2
  let s := FVal.scaledInt n1 m1 e1 base + FVal.scaledInt n2 m2 e2 base
  if s = 0 then .fin (if n1 = n2 && m1 = 0 && m2 = 0 then n1 else mode = 2) 0 0
  else .fin (s < 0) s.natAbs base

/-- Exact addition: the value and NV for an invalid one (R166, R294). -/
def FVal.add (mode : BitVec 2) : FVal → FVal → FVal × Bool
  | .nan _, _ => (.nan false, false)
  | _, .nan _ => (.nan false, false)
  | .inf a, .inf b => if a = b then (.inf a, false) else (.nan false, true)
  | .inf a, _ => (.inf a, false)
  | _, .inf b => (.inf b, false)
  | .fin n1 m1 e1, .fin n2 m2 e2 => (addFin mode n1 m1 e1 n2 m2 e2, false)

/-- Exact multiplication. -/
def FVal.mul : FVal → FVal → FVal × Bool
  | .nan _, _ => (.nan false, false)
  | _, .nan _ => (.nan false, false)
  | .inf a, .inf b => (.inf (a != b), false)
  | .inf a, .fin n m _ => if m = 0 then (.nan false, true) else (.inf (a != n), false)
  | .fin n m _, .inf b => if m = 0 then (.nan false, true) else (.inf (n != b), false)
  | .fin n1 m1 e1, .fin n2 m2 e2 => (.fin (n1 != n2) (m1 * m2) (e1 + e2), false)

/-- Exact a * b + c. NV marks a NaN made from operands none of which is one (R165). -/
def FVal.fma (mode : BitVec 2) (a b c : FVal) : FVal × Bool :=
  let (p, nv1) := a.mul b
  let (r, nv2) := p.add mode c
  (r, (nv1 && !c.isNan) || nv2)

/-- Integer square root by bits, k bits still to place. -/
def isqrtFrom (n : Nat) : Nat → Nat → Nat
  | 0, r => r
  | k + 1, r =>
    let t := r + 2 ^ k
    isqrtFrom n k (if t * t ≤ n then t else r)

/-- The integer square root. -/
def isqrt (n : Nat) : Nat := isqrtFrom n (bitLength n / 2 + 1) 0

/-- A quotient n / d in enough bits that one more rounding to at most 53 bits is exact: 2^k * n / d with
a last bit that stands for a remainder. -/
def quotient (n d : Nat) : Nat × Int :=
  let k := 60 + bitLength d
  let q := (n <<< k) / d
  let r := (n <<< k) % d
  (2 * q + (if r = 0 then 0 else 1), -(k : Int) - 1)

/-- Exact division up to rounding: value, NV, DZ (R294). -/
def FVal.div : FVal → FVal → FVal × Bool × Bool
  | .nan _, _ => (.nan false, false, false)
  | _, .nan _ => (.nan false, false, false)
  | .inf _, .inf _ => (.nan false, true, false)
  | .inf a, .fin n _ _ => (.inf (a != n), false, false)
  | .fin n _ _, .inf b => (.fin (n != b) 0 0, false, false)
  | .fin n1 m1 e1, .fin n2 m2 e2 =>
    if m2 = 0 then (if m1 = 0 then (.nan false, true, false) else (.inf (n1 != n2), false, true))
    else
      let (q, e) := quotient m1 m2
      (.fin (n1 != n2) q (e + e1 - e2), false, false)

/-- A square root of m * 2^e in enough bits, with a last bit for a remainder. -/
def sqrtMag (m : Nat) (e : Int) : Nat × Int :=
  let k := 130 + (if e % 2 = 0 then 0 else 1)
  let n := m <<< k
  let r := isqrt n
  (2 * r + (if r * r = n then 0 else 1), (e - k) / 2 - 1)

/-- Square root up to rounding: value and NV (R294). -/
def FVal.sqrt : FVal → FVal × Bool
  | .nan _ => (.nan false, false)
  | .inf n => if n then (.nan false, true) else (.inf false, false)
  | .fin n m e =>
    if m = 0 then (.fin n 0 0, false)
    else if n then (.nan false, true)
    else let (r, e') := sqrtMag m e; (.fin false r e', false)

/-- One over a value, up to rounding: value and DZ (R321). -/
def FVal.recip : FVal → FVal × Bool
  | .nan _ => (.nan false, false)
  | .inf n => (.fin n 0 0, false)
  | .fin n m e =>
    if m = 0 then (.inf n, true)
    else let (q, e') := quotient 1 m; (.fin n q (e' - e), false)

/-- One over the square root, up to rounding: value, NV, DZ (R321). The square root of 2^k / m. -/
def FVal.rsqrt : FVal → FVal × Bool × Bool
  | .nan _ => (.nan false, false, false)
  | .inf n => if n then (.nan false, true, false) else (.fin false 0 0, false, false)
  | .fin n m e =>
    if m = 0 then (.inf n, false, true)
    else if n then (.nan false, true, false)
    else
      -- 1 / (m 2^e) = (2^k / m) 2^(-e-k), k chosen so that the exponent is even
      let k := 2 * bitLength m + 260 + (if e % 2 = 0 then 0 else 1)
      let q := 2 ^ k / m
      let exact := 2 ^ k % m = 0
      let r := isqrt q
      (.fin false (2 * r + (if exact && r * r = q then 0 else 1)) ((-e - k) / 2 - 1), false, false)

/-- ln 2 in units of 2^-256, rounded down. -/
def ln2Fixed : Nat := 0xB17217F7D1CF79ABC9E3B39803F2F6AF40F343267298B62D8A0D175B8BAAFA2B

/-- The sum of the terms x^k / k!, k from `k` on, for n terms, in units of 2^-256. -/
def expTerms (x : Nat) : Nat → Nat → Nat → Nat
  | 0, _, _ => 0
  | n + 1, k, t => t + expTerms x n (k + 1) (t * x / 2 ^ 256 / (k + 1))

/-- 2 to the power f / 2^256, f below 2^256, in units of 2^-256 (log 13: DEDUCED). -/
def exp2Frac (f : Nat) : Nat := expTerms (f * ln2Fixed / 2 ^ 256) 60 0 (2 ^ 256)

/-- 2 to the power of a value, up to rounding (R321). A magnitude of 2^12 or more overflows or vanishes
in every format, and is capped there. -/
def FVal.exp2 : FVal → FVal
  | .nan _ => .nan false
  | .inf n => if n then .fin false 0 0 else .inf false
  | .fin n m e =>
    if m = 0 then .fin false 1 0
    else if (bitLength m : Int) + e > 12 then (if n then .fin false 1 (-4096) else .fin false 1 4096)
    else
      -- x in units of 2^-256, exact for every BF16 and FP32 value
      let x : Int := if e + 256 ≥ 0 then FVal.scaledInt n m (e + 256) 0 else 0
      let i := x / (2 ^ 256 : Nat)
      let f := (x % (2 ^ 256 : Nat)).toNat
      if f = 0 then .fin false 1 i
      else .fin false (2 * exp2Frac f + 1) (i - 257)

/-! ## Comparison -/

/-- Is a less than b, for values that are not NaN; -0 equals +0. -/
def FVal.lt : FVal → FVal → Bool
  | .nan _, _ => false
  | _, .nan _ => false
  | .inf a, .inf b => a && !b
  | .inf a, .fin _ _ _ => a
  | .fin _ _ _, .inf b => !b
  | .fin n1 m1 e1, .fin n2 m2 e2 =>
    let base := min e1 e2
    FVal.scaledInt n1 m1 e1 base < FVal.scaledInt n2 m2 e2 base

/-- Equality of values; -0 equals +0, NaN equals nothing (R295). -/
def FVal.eqv : FVal → FVal → Bool
  | .nan _, _ => false
  | _, .nan _ => false
  | a, b => !(a.lt b) && !(b.lt a)

/-- Is a below b in the order of FMIN and FMAX, where -0 lies below +0 (R294)? -/
def FVal.below (a b : FVal) : Bool := a.lt b || (a.eqv b && a.neg? && !b.neg?)

/-! ## Integers -/

/-- Round to an integer by the mode: the integer and whether it is inexact. -/
def roundInt (mode : BitVec 2) (neg : Bool) (m : Nat) (e : Int) : Int × Bool :=
  let (q, ix) := roundAt mode neg m e 0
  ((if neg then -(q : Int) else q), ix)

/-- Convert to an integer between lo and hi (R172): rounds, clamps, NaN gives 0. -/
def FVal.toInt (mode : BitVec 2) (lo hi : Int) : FVal → Int × FpFlags
  | .nan _ => (0, fNV)
  | .inf n => ((if n then lo else hi), fNV)
  | .fin n m e =>
    -- a magnitude of 2^70 or more clamps whatever it is
    if m ≠ 0 && (bitLength m : Int) + e > 70 then ((if n then lo else hi), fNV)
    else
      let (i, ix) := roundInt mode n m e
      if i < lo then (lo, fNV) else if i > hi then (hi, fNV) else (i, flagIf ix fNX)

/-- The exact value of an integer. -/
def FVal.ofInt (i : Int) : FVal := .fin (i < 0) i.natAbs 0

/-- NV for a signalling operand (R166). -/
def sigFlag (vs : List FVal) : FpFlags := flagIf (vs.any FVal.isSig) fNV

end Sys2Proof.Machine
end

