-- ==== Sys2Proof/Machine/Formats.lean ====
section
/-! DEFINITION. The element formats of registers and pages, conversion between them, the E2M1 block
and its quantiser, CB3 indices, the CF32 sequences with the fade rule, A48 and INT8 accumulation, and
the scan combine (R168, R171 to R188, R317). -/

namespace Sys2Proof.Machine

/-- The low w bits of an integer as a number. -/
def intCode (w : Nat) (i : Int) : Nat := (i % (2 ^ w : Nat)).toNat

/-- The signed value of the low w bits. -/
def signedOf (w : Nat) (c : Nat) : Int :=
  let c := c % 2 ^ w
  if c < 2 ^ (w - 1) then c else (c : Int) - (2 ^ w : Nat)

/-- The bits of format codes 0 to 8 of R316: FP32, INT32, UINT32, BF16, FP64, CF32, INT8, E4M3, E5M2. -/
def fmtBits (f : Nat) : Nat :=
  match f with
  | 3 => 16
  | 4 | 5 => 64
  | 6 | 7 | 8 => 8
  | _ => 32

def fmtIsInt (f : Nat) : Bool := f = 1 || f = 2 || f = 6

/-- The range of an integer format (R172). -/
def fmtRange (f : Nat) : Int × Int :=
  match f with
  | 2 => (0, 4294967295)
  | 6 => (-128, 127)
  | _ => (-2147483648, 2147483647)

/-- The integer of a code of format 1, 2 or 6. -/
def fmtInt (f c : Nat) : Int := if f = 2 then c % 2 ^ 32 else signedOf (fmtBits f) c

/-- The exact value of a CF32 pair, hi in the low half; NV where the sum is invalid (R178, R317). A zero out of two halves that
cancel is +0 in every rounding mode (log 109: DEDUCED). -/
def cf32Value (c : Nat) : FVal × Bool :=
  FVal.add 0 (FFmt.f32.decode (c % 2 ^ 32)) (FFmt.f32.decode (c / 2 ^ 32))

/-- The exact value of a code in format 0 to 8, with NV of an invalid pair. -/
def fmtValue (f c : Nat) : FVal × Bool :=
  match f with
  | 0 => (FFmt.f32.decode c, false)
  | 3 => (FFmt.bf16.decode c, false)
  | 4 => (FFmt.f64.decode c, false)
  | 5 => cf32Value c
  | 7 => (decodeE4M3 c, false)
  | 8 => (FFmt.e5m2.decode c, false)
  | _ => (FVal.ofInt (fmtInt f c), false)

/-- Does the code hold a signalling NaN (R166)? -/
def fmtSig (f c : Nat) : Bool :=
  match f with
  | 5 => (FFmt.f32.decode (c % 2 ^ 32)).isSig || (FFmt.f32.decode (c / 2 ^ 32)).isSig
  | _ => (fmtValue f c).1.isSig

/-- The binary format of codes 0, 3 and 4. -/
def fmtFloat (f : Nat) : FFmt := if f = 3 then .bf16 else if f = 4 then .f64 else .f32

/-- The pair a value rounds to, hi in the low half, and its flags as one result (R317). Where nothing is left for lo it is a
zero of the sign that the rounding mode gives a difference of zero: -0 when RND is down (log 109: DEDUCED). -/
def toCF32 (mode : BitVec 2) (v : FVal) : Nat × FpFlags :=
  match v with
  | .nan _ => (FFmt.f32.nanCode, 0)
  | .inf n => (FFmt.f32.infCode n, 0)
  | .fin _ _ _ =>
    let (hi, _) := FFmt.f32.round mode v
    match FFmt.f32.decode hi with
    | .fin nh mh eh =>
      let (d, _) := FVal.add mode v (.fin (!nh) mh eh)
      let (lo, lf) := FFmt.f32.round mode d
      let below := match d with
        | .fin _ m e => m ≠ 0 && (bitLength m : Int) + e < -125
        | _ => false
      let inexact := lf &&& fNX ≠ 0
      (hi + lo * 2 ^ 32, flagIf inexact fNX ||| flagIf (inexact && below) fUF)
    | _ => (hi, fOF ||| fNX)

/-- Convert one element between formats 0 to 8 (R171, R172, R317): the code and its flags. -/
def convertElem (sf df : Nat) (mode : BitVec 2) (sat : Bool) (c : Nat) : Nat × FpFlags :=
  if fmtIsInt sf && fmtIsInt df then
    let i := fmtInt sf c
    let (lo, hi) := fmtRange df
    if sat then
      (if i < lo then (intCode (fmtBits df) lo, fSAT)
       else if i > hi then (intCode (fmtBits df) hi, fSAT)
       else (intCode (fmtBits df) i, 0))
    else (intCode (fmtBits df) i, 0)
  else
    let (v, nv) := fmtValue sf c
    let op := flagIf (nv || fmtSig sf c) fNV
    let (r, fl) :=
      if fmtIsInt df then
        let (lo, hi) := fmtRange df
        let (i, fl) := v.toInt mode lo hi
        (intCode (fmtBits df) i, fl)
      else match df with
        | 5 => toCF32 mode v
        | 7 => roundE4M3 mode sat v
        | 8 => roundE5M2 mode sat v
        | _ => (fmtFloat df).round mode v
    (r, op ||| fl)

/-! ## Page formats (R33, R178, R183) -/

/-- The register format code of a page format 1, 2, 3, 4, 6, 9 or 10 (R33). -/
def pageFmtElem (fmt : Nat) : Option Nat :=
  match fmt with
  | 1 => some 0
  | 2 => some 3
  | 3 => some 7
  | 4 => some 8
  | 6 => some 6
  | 9 => some 5
  | 10 => some 4
  | _ => none

/-- Bytes of an element of a page format. -/
def pageFmtBytes (fmt : Nat) : Nat :=
  match fmt with
  | 2 => 2
  | 3 | 4 | 6 => 1
  | 9 | 10 => 8
  | _ => 4

/-! ## E2M1 -/

/-- Twice the magnitude of a grid code's low three bits (R174). -/
def gridHalves (c : Nat) : Nat :=
  match c % 8 with
  | 0 => 0 | 1 => 1 | 2 => 2 | 3 => 3 | 4 => 4 | 5 => 6 | 6 => 8 | _ => 12

/-- The exact value of element code c under scale byte s and special byte p (R174). -/
def e2m1Value (s p c : Nat) : FVal :=
  if s = 255 then .nan false
  else if c % 16 = 8 then
    match decodeE4M3 p with
    | .fin n m e => .fin n m (e + s - 127)
    | v => v
  else .fin (c % 16 ≥ 8) (gridHalves c) ((s : Int) - 128)

/-- Element code i of a block's 32 element bytes (R173). -/
def e2m1Code (bytes : List Byte) (i : Nat) : Nat :=
  let b := (bytes.getD (i / 2) 0).toNat
  if i % 2 = 0 then b % 16 else b / 16

/-- The 15 grid codes and their values in units of one half (R174). -/
def gridCodes : List (Nat × Int) :=
  [(0, 0), (1, 1), (2, 2), (3, 3), (4, 4), (5, 6), (6, 8), (7, 12),
   (9, -1), (10, -2), (11, -3), (12, -4), (13, -6), (14, -8), (15, -12)]

/-- The best of candidates (code, value, is P) for u: least distance, a grid value before P, mantissa 0
before mantissa 1 (R175). -/
def nearestCode (u : Int) : List (Nat × Int × Bool) → Nat × Int × Bool → Nat × Int × Bool
  | [], best => best
  | c :: cs, best =>
    let dc := (u - c.2.1).natAbs
    let db := (u - best.2.1).natAbs
    let better := dc < db ||
      (dc = db && ((!c.2.2 && best.2.2) || (c.2.2 = best.2.2 && c.1 % 2 < best.1 % 2)))
    nearestCode u cs (if better then c else best)

/-- The index of the first largest number, `i` the index of the list's head. -/
def argMax : List Nat → Nat → Nat × Nat → Nat
  | [], _, best => best.1
  | x :: xs, i, best => argMax xs (i + 1) (if x > best.2 then (i, x) else best)

/-- A scaled value: exact, but one below the FP32 subnormal range rounds to it by RNE (R175, log 16: DEDUCED). -/
def scaleDown (v : FVal) (k : Int) : Int × Int :=
  match v with
  | .fin n m e =>
    let e' := e - k
    if m ≠ 0 && (bitLength m : Int) + e' ≤ -149 then
      let (q, _) := roundAt 0 n m e' (-149)
      ((if n then -(q : Int) else q), -149)
    else ((if n then -(m : Int) else m), e')
  | _ => (0, 0)

/-- Quantise 64 values (R175): element codes, S, P. -/
def quantise (vs : List FVal) : List Nat × Nat × Nat :=
  if vs.any fun v => v.isNan || v.isInf then (vs.map fun _ => 0, 255, 0)
  else if vs.all FVal.isZero then (vs.map fun _ => 0, 0, 0)
  else
    let tops := vs.map fun v => match v with
      | .fin _ m e => if m = 0 then (-100000 : Int) else (bitLength m : Int) + e - 1
      | _ => -100000
    let top := tops.foldl max (-100000)
    let k := min (max (top - 2) (-127)) 127
    let us := vs.map (scaleDown · k)
    -- one common unit 2^base for values, grid and P
    let base := us.foldl (fun b u => if u.1 = 0 then b else min b u.2) (-9)
    let ints := us.map fun u => u.1 * ((2 ^ (u.2 - base).toNat : Nat) : Int)
    let half : Nat := 2 ^ (-1 - base).toNat
    let grid : List (Nat × Int × Bool) := gridCodes.map fun c => (c.1, c.2 * (half : Int), false)
    let errs := ints.map fun u => (u - (nearestCode u grid (0, 0, false)).2.1).natAbs
    let j := argMax errs 0 (0, 0)
    let uj := ints.getD j 0
    let p0 := (roundE4M3 0 true (.fin (uj < 0) uj.natAbs base)).1
    let p := if p0 = 0x80 then 0 else p0
    let pv : Int := match decodeE4M3 p with
      | .fin n m e => (if n then -(m : Int) else m) * ((2 ^ (e - base).toNat : Nat) : Int)
      | _ => 0
    (ints.map fun u => (nearestCode u (grid ++ [(8, pv, true)]) (0, 0, false)).1, (k + 127).toNat, p)

/-- The 32 element bytes of 64 codes (R173). -/
def packCodes : List Nat → List Byte
  | a :: b :: rest => BitVec.ofNat 8 (a + 16 * b) :: packCodes rest
  | _ => []

/-- A quantised block as 34 bytes: element bytes, S, P. -/
def quantiseBytes (vs : List FVal) : List Byte :=
  let (cs, s, p) := quantise vs
  packCodes cs ++ [BitVec.ofNat 8 s, BitVec.ofNat 8 p]

/-- Does a decoded block differ from its inputs (R324)? A NaN equals a NaN, +0 equals -0. -/
def quantiseInexact (vs : List FVal) : Bool :=
  let (cs, s, p) := quantise vs
  (vs.zip cs).any fun (v, c) =>
    let d := e2m1Value s p c
    !(v.eqv d || (v.isNan && d.isNan))

/-! ## CB3 -/

/-- Index i of a CB3 block read as one little-endian integer (R176). -/
def cb3Index (block i : Nat) : Nat := block >>> (3 * i) % 8

/-- Entry n of a table of 8 BF16 values (R176). -/
def cb3Entry (table : BitVec 128) (n : Nat) : FVal := FFmt.bf16.decode (table.toNat >>> (16 * n) % 65536)

/-! ## CF32 sequences, always RNE in FP32 (R179, R180) -/

def f32v (a : Lane) : FVal := FFmt.f32.decode a.toNat

/-- Round to FP32 by RNE. -/
def rne32 (v : FVal) : Lane := BitVec.ofNat 32 (FFmt.f32.round 0 v).1

def cfAdd (a b : Lane) : Lane := rne32 (FVal.add 0 (f32v a) (f32v b)).1
def cfSub (a b : Lane) : Lane := rne32 (FVal.add 0 (f32v a) (f32v b).negate).1
def cfMul (a b : Lane) : Lane := rne32 (FVal.mul (f32v a) (f32v b)).1
def cfFma (a b c : Lane) : Lane := rne32 (FVal.fma 0 (f32v a) (f32v b) (f32v c)).1

/-- Is an FP32 code infinite or NaN? -/
def nonFinite (a : Lane) : Bool := (a >>> 23) &&& 0xFF = 0xFF

def twoSum (a b : Lane) : Lane × Lane :=
  let s := cfAdd a b
  if nonFinite s then (s, 0)
  else
    let a1 := cfSub s b
    let b1 := cfSub s a1
    (s, cfAdd (cfSub a a1) (cfSub b b1))

def fast2Sum (a b : Lane) : Lane × Lane :=
  let s := cfAdd a b
  if nonFinite s then (s, 0) else (s, cfSub b (cfSub s a))

def cAcc (p : Lane × Lane) (x : Lane) : Lane × Lane :=
  let (s, e) := twoSum p.1 x
  fast2Sum s (cfAdd p.2 e)

def exactProduct (a : Lane) (b : Lane × Lane) : Lane × Lane :=
  let ph := cfMul a b.1
  let pl := cfFma a b.1 (ph ^^^ 0x80000000)
  fast2Sum ph (cfFma a b.2 pl)

/-- FADE's enable and floor exponent as its word holds them (R181). -/
def fadeEnabled (fade : W64) : Bool := fade.getLsbD 0
def fadeFloor (fade : W64) : Int := (fade.extractLsb' 8 8).toInt

/-- Fade (R180): the pair, and whether it was faded from a pair other than (+0, +0). -/
def fadePair (fade : W64) (p : Lane × Lane) : (Lane × Lane) × Bool :=
  let small := match f32v p.1 with
    | .fin _ m e => m = 0 || (bitLength m : Int) + e ≤ fadeFloor fade
    | _ => false
  if fadeEnabled fade && small then ((0, 0), p ≠ (0, 0)) else (p, false)

/-- FADE with n more counted pairs, saturating (R181). -/
def fadeCount (fade : W64) (n : Nat) : W64 :=
  let c := min (fade.toNat / 2 ^ 32 + n) 0xFFFFFFFF
  BitVec.ofNat 32 c ++ fade.extractLsb' 0 32

/-- Flags of a CF32 sequence's result from its operands: OF for an infinite hi from finite operands, NV by
R165, where a NaN arises in either half (R318). -/
def cfFlags (operands : List Lane) (r : Lane × Lane) : FpFlags :=
  let vs := operands.map f32v
  let h := f32v r.1
  flagIf (h.isInf && vs.all fun v => !v.isNan && !v.isInf) fOF |||
    flagIf (vs.any FVal.isSig || ((h.isNan || (f32v r.2).isNan) && vs.all fun v => !v.isNan)) fNV

/-- Combine of a later operator after an earlier one (R187): the result, and whether a pair was faded. -/
def combine (fade : W64) (o2 o1 : Lane × Lane × Lane) : (Lane × Lane × Lane) × Bool :=
  let p := exactProduct o2.1 o1.2
  let p := cAcc (cAcc p o2.2.1) o2.2.2
  let (q, c) := fadePair fade p
  ((cfMul o2.1 o1.1, q), c)

/-! ## Accumulation (R183 to R185) -/

/-- The exact sum of products of one group; NaN for a NaN operand or infinities of opposite signs. -/
def groupSum (ps : List (FVal × FVal)) : FVal :=
  let s := ps.foldl (fun acc p => (FVal.add 0 acc (FVal.mul p.1 p.2).1).1) (.fin false 0 0)
  if s.isZero then .fin false 0 0 else s

/-- acc := RNE_A48(acc + S); an exact zero result is +0 (R184). -/
def a48Add (acc : BitVec 48) (s : FVal) : BitVec 48 :=
  let r := (FVal.add 0 (FFmt.a48.decode acc.toNat) s).1
  if r.isZero then 0 else BitVec.ofNat 48 (FFmt.a48.round 0 r).1

/-- The INT8 accumulation step: the clamped sum and whether it clamped (R185). -/
def intAdd (acc : BitVec 48) (s : Int) : BitVec 48 × Bool :=
  let v := acc.toInt + s
  if v > 2 ^ 47 - 1 then (BitVec.ofInt 48 (2 ^ 47 - 1), true)
  else if v < -(2 ^ 47) then (BitVec.ofInt 48 (-(2 ^ 47)), true)
  else (BitVec.ofInt 48 v, false)

end Sys2Proof.Machine
end

