-- ==== Sys2Proof/Machine/Codec.lean ====
section
/-! DEFINITION. The Ferrik Block Codec: sixteen FP64 lanes coded into 2B bytes and back, and the largest
difference of an encode (R130 to R145, R156, R159, R161). -/

namespace Sys2Proof.Machine

/-- Bits per value of a budget field (R131). -/
def budBits (bud : Nat) : Nat := [4, 6, 8, 12, 16, 24, 32].getD bud 32

/-- Position P_k of rank k (R139). -/
def rankPos (geo : Bool) : List Nat :=
  if geo then [0, 1, 4, 5, 2, 3, 8, 12, 6, 7, 9, 13, 10, 11, 14, 15]
  else [0, 4, 8, 12, 1, 5, 9, 13, 2, 3, 6, 7, 10, 11, 14, 15]

/-- The fixed maximum width of position p (R138). -/
def maxWidth (geo : Bool) (p : Nat) : Nat :=
  if p = 0 then 54
  else if !geo || [1, 2, 3, 4, 8, 12].contains p then 55 else 56

/-- The six columns of R140 and R141 spread over the sixteen ranks. -/
def spread (a b c d e f : Nat) : List Nat := [a, b, c, c, d, d, d, d, e, e, e, e, f, f, f, f]

/-- The widths of the ranks: normal form (R140) and escape form (R141). -/
def rankWidths (escape : Bool) (bits : Nat) : List Nat :=
  if escape then
    match bits with
    | 6 => spread 8 8 4 2 0 0
    | 8 => spread 12 8 6 4 4 0
    | 12 => spread 16 12 10 8 6 6
    | 16 => spread 24 20 14 12 10 8
    | 24 => spread 32 28 22 20 18 16
    | 32 => spread 40 36 30 28 26 24
    | _ => spread 0 0 0 0 0 0
  else
    match bits with
    | 6 => spread 14 10 8 6 4 0
    | 8 => spread 16 12 10 8 6 2
    | 12 => spread 20 16 14 12 10 6
    | 16 => spread 24 20 18 16 14 10
    | 24 => spread 32 28 26 24 22 18
    | 32 => spread 40 36 34 32 30 26
    | _ => spread 12 8 6 4 0 0

/-- Arithmetic shift right by one. -/
def half (i : Int) : Int := i / 2

/-- The lifting step and its inverse (R136). -/
def lift (a b c d : Int) : Int × Int × Int × Int :=
  let h0 := a - b
  let l0 := b + half h0
  let h1 := c - d
  let l1 := d + half h1
  let h := l0 - l1
  (l1 + half h, h, h0, h1)

def unlift (l h h0 h1 : Int) : Int × Int × Int × Int :=
  let l1 := l - half h
  let l0 := h + l1
  let d := l1 - half h1
  let c := h1 + d
  let b := l0 - half h0
  (h0 + b, b, c, d)

/-- Apply a step of four integers at positions i, j, k, l. -/
def at4 (f : Int → Int → Int → Int → Int × Int × Int × Int) (q : List Int) (i j k l : Nat) : List Int :=
  let (a, b, c, d) := f (q.getD i 0) (q.getD j 0) (q.getD k 0) (q.getD l 0)
  (((q.set i a).set j b).set k c).set l d

/-- The first pass, the same in both geometries, and the second (R137). -/
def pass1 (f : Int → Int → Int → Int → Int × Int × Int × Int) (q : List Int) : List Int :=
  [0, 4, 8, 12].foldl (fun q i => at4 f q i (i + 1) (i + 2) (i + 3)) q
def pass2 (f : Int → Int → Int → Int → Int × Int × Int × Int) (geo : Bool) (q : List Int) : List Int :=
  (if geo then [0, 1, 2, 3] else [0]).foldl (fun q c => at4 f q c (c + 4) (c + 8) (c + 12)) q

def forward (geo : Bool) (q : List Int) : List Int := pass2 lift geo (pass1 lift q)
def inverse (geo : Bool) (t : List Int) : List Int := pass1 unlift (pass2 unlift geo t)

/-- The exponent field of a nonzero lane, a subnormal counting as 1 (R133). -/
def laneField (x : Nat) : Nat := if x % 2 ^ 63 = 0 then 0 else max (x / 2 ^ 52 % 2048) 1

/-- Is the lane NaN or infinite? -/
def laneNonFinite (x : Nat) : Bool := x / 2 ^ 52 % 2048 = 2047

/-- RNE(x * 2^(52 - e)) of a finite lane, e = f - 1023 (R135). -/
def laneFixed (f x : Nat) : Int :=
  match FFmt.f64.decode x with
  | .fin n m e => (roundInt 0 n m (e + 52 - ((f : Int) - 1023))).1
  | _ => 0

/-- One stored coefficient (R142): rounded, shifted, clamped to w bits. -/
def storedCoeff (t : Int) (s w : Nat) : Nat :=
  let c := (t + (2 ^ (s - 1) : Nat)) / (2 ^ s : Nat)
  let c := max (min c ((2 ^ (w - 1) : Nat) - 1)) (-(2 ^ (w - 1) : Nat))
  intCode w c

/-- The coefficient fields from position pos on. -/
def putCoeffs (geo : Bool) (t : List Int) : List (Nat × Nat) → Nat → Nat → Nat
  | [], _, e => e
  | (p, w) :: r, pos, e =>
    let e := if w = 0 then e else e + storedCoeff (t.getD p 0) (maxWidth geo p - w) w * 2 ^ pos
    putCoeffs geo t r (pos + w) e

/-- Sum of flag bits of the lanes from position pos on. -/
def putMask (b : Nat → Bool) : List Nat → Nat → Nat
  | [], _ => 0
  | x :: r, pos => (if b x then 2 ^ pos else 0) + putMask b r (pos + 1)

/-- Encode sixteen lanes (R134, R142). -/
def fbcEncode (bits : Nat) (geo : Bool) (x : List Nat) : Nat :=
  let esc := x.any laneNonFinite
  let y := x.map fun v => if laneNonFinite v then 0 else v
  if !esc && y.all (fun v => v % 2 ^ 63 = 0) then 2 ^ 14
  else
    let f := (y.map laneField).foldl max 0
    let q := y.map fun v => if f = 0 then 0 else laneFixed f v
    let t := forward geo q
    let head := (if esc then 2 ^ 15 else 0) + f * 8
    let masks := if esc then
        putMask laneNonFinite x 16 +
        putMask (fun v => laneNonFinite v && v % 2 ^ 52 ≠ 0) x 32 +
        putMask (fun v => laneNonFinite v && v % 2 ^ 52 = 0 && v / 2 ^ 63 % 2 = 1) x 48
      else 0
    putCoeffs geo t ((rankPos geo).zip (rankWidths esc bits)) (if esc then 64 else 16) (head + masks)

/-- Is the block malformed (R145)? -/
def fbcMalformed (e : Nat) : Bool :=
  let form := e / 2 ^ 14 % 4
  let f := e / 8 % 2048
  form = 3 || e % 8 ≠ 0 || f = 2047 || (form = 0 && f = 0)

/-- The stored coefficients, shifted back to their places. -/
def getCoeffs (geo : Bool) (e : Nat) : List (Nat × Nat) → Nat → List Int → List Int
  | [], _, t => t
  | (p, w) :: r, pos, t =>
    let t := if w = 0 then t
      else t.set p (signedOf w (e / 2 ^ pos) * ((2 ^ (maxWidth geo p - w) : Nat) : Int))
    getCoeffs geo e r (pos + w) t

/-- One decoded lane of value q * 2^(e - 52). -/
def laneValue (f : Nat) (q : Int) : Nat :=
  let lim : Int := ((2 ^ 53 - 1 : Nat) : Int)
  let q := max (min q lim) (-lim)
  if f = 0 || q = 0 then 0 else (FFmt.f64.round 0 (.fin (q < 0) q.natAbs ((f : Int) - 1075))).1

/-- Decode a block into sixteen lanes (R143, R145). -/
def fbcDecode (bits : Nat) (geo : Bool) (e : Nat) : List Nat :=
  if fbcMalformed e then List.replicate 16 0x7FF8000000000000
  else
    let form := e / 2 ^ 14 % 4
    let f := e / 8 % 2048
    if form = 1 then List.replicate 16 0
    else
      let esc := form = 2
      let t := getCoeffs geo e ((rankPos geo).zip (rankWidths esc bits)) (if esc then 64 else 16)
        (List.replicate 16 0)
      let lanes := (inverse geo t).map (laneValue f)
      if esc then
        (List.range 16).map fun i =>
          if e / 2 ^ (16 + i) % 2 = 1 then
            (if e / 2 ^ (32 + i) % 2 = 1 then 0x7FF8000000000000
             else if e / 2 ^ (48 + i) % 2 = 1 then 0xFFF0000000000000 else 0x7FF0000000000000)
          else lanes.getD i 0
      else lanes

/-- The lanes of 128 decoded bytes (R130). -/
def lanesOf (bs : List Byte) : List Nat := (List.range 16).map fun i => leNat ((bs.drop (8 * i)).take 8)

/-- The 128 bytes of sixteen lanes. -/
def bytesOfLanes (x : List Nat) : List Byte := x.flatMap (leBytes 8)

/-- Are two lanes equal by value (R156)? -/
def laneSame (a b : Nat) : Bool :=
  let va := FFmt.f64.decode a
  let vb := FFmt.f64.decode b
  (va.isNan && vb.isNan) || va.eqv vb

/-- The difference of two finite lanes rounded toward +infinity, as an FP64 code (R156). -/
def laneDiff (x d : Nat) : Nat :=
  match FFmt.f64.decode x, FFmt.f64.decode d with
  | .fin n1 m1 e1, .fin n2 m2 e2 =>
    match addFin 0 n1 m1 e1 (!n2) m2 e2 with
    | .fin _ m e => (FFmt.f64.round 3 (.fin false m e)).1
    | _ => 0
  | _, _ => 0

/-- The larger of two FP64 codes under FMAX (R156, R294). -/
def fp64Max (a b : Nat) : Nat :=
  let va := FFmt.f64.decode a
  let vb := FFmt.f64.decode b
  if va.isNan then (if vb.isNan then FFmt.f64.nanCode else b)
  else if vb.isNan then a
  else if va.below vb then b else a

/-- What an encode adds to its region (R156): whether it is lossy, and its largest difference. -/
def encodeLoss (x d : List Nat) : Bool × Nat :=
  ((x.zip d).any fun p => !laneSame p.1 p.2, ((x.zip d).map fun p => laneDiff p.1 p.2).foldl max 0)

/-- An archived lane of a CF32 pair: RNE(hi + lo) (R159). -/
def archiveLane (c : Nat) : Nat := (FFmt.f64.round 0 (cf32Value c).1).1

/-- The CF32 pair of an archived lane (R161). -/
def restoreLane (v : Nat) : Nat := (toCF32 0 (FFmt.f64.decode v)).1

end Sys2Proof.Machine
end

