-- ==== Sys2Proof/Machine/State.lean ====
section
/-! DEFINITION. The state of the AE-2 as plain data: everything the manual names, the model's own
schedule, and the state after device reset. A table is a list of (key, value) pairs in rising key
order that lists no default value; Machine/Table.lean reads and writes it. -/

namespace Sys2Proof.Machine

/-- A table: pairs in rising key order, none of them the table's default. -/
abbrev Table (α : Type) := List (Nat × α)

/-! ## Processors -/

/-- What a ticketed atomic answered: its old value, or the cause, address and detail word of its fault (R104, R109). -/
structure TicketReply where
  value : BitVec 128
  fault : Option (Nat × W64 × Option W64)
  deriving DecidableEq, Repr

/-- What every processor has (R249, R255, R164, R165, R232). `npc` is where the next word is fetched
once the current one is done; `blocked` holds an instruction that has issued and waits, and its address. -/
structure Cpu where
  g : Vector W64 32
  p : Vector Bool 8
  pc : W64
  npc : W64
  rmode : BitVec 2
  fpstat : BitVec 6
  cycle : W64
  blocked : Option (Instr × W64)
  /-- A ticket taken and not yet answered, and its answer (R109). -/
  ticket : Option W64
  reply : Option TicketReply
  /-- Words fetched ahead and not rechecked: address and the two words from it (R71). -/
  fetched : List (W64 × W64 × W64)
  /-- How many words the fetch path runs ahead, at most 16 (R71): the model's own free value. -/
  ahead : Nat
  /-- A QPUSH that waits for credit has made its release event (R342). -/
  pushing : Bool
  /-- The guard of the engine command that issues (R261). -/
  guard : Guard
  deriving DecidableEq, Repr

def Cpu.reset : Cpu :=
  { g := Vector.replicate 32 0, p := Vector.replicate 8 false, pc := 0, npc := 0, rmode := 0,
    fpstat := 0, cycle := 0, blocked := none, ticket := none, reply := none, fetched := [], ahead := 0, pushing := false,
    guard := ⟨false, 0⟩ }

/-! ## Flags and queues of a core -/

/-- What an agent knows of plain writes: for each processor's agent, every write with a stamp below the number happens
before what the agent does next; for a full/empty granule, at 4,096 above its home, every write to it with such a stamp
(R91, R92, R101). -/
abbrev Known := Table Nat

/-- A release side: the agent, its scope, and what it passes on (R91, R93). -/
structure Release where
  agent : AgentId
  scope : Nat
  know : Known
  deriving DecidableEq, Repr

/-- An addition to a flag: agent, amount, and what its consumer learns (R91, R117). -/
structure Addition where
  agent : AgentId
  amount : Nat
  know : Known
  deriving DecidableEq, Repr

/-- A counting flag (R112): value, window W, reserved total RES, the additions since the last FSET, the
consumed total C, and the agent of the first addition that saturated (R117, R344). -/
structure Flag where
  value : BitVec 32
  window : BitVec 32
  res : BitVec 32
  adds : List Addition
  consumed : Nat
  overflow : Option AgentId
  deriving DecidableEq, Repr

def Flag.zero : Flag := ⟨0, 0, 0, [], 0, none⟩

/-- Who waits on a flag of its own core (R112): the CP, a queue's head command, a stream engine at PWAIT. -/
inductive Waiter where
  | cp | queue (q : QueueId) | engine (e : Fin 4)
  deriving DecidableEq, Repr

/-- A pending wait (R115). -/
structure Wait where
  flag : BitVec 8
  threshold : Nat
  who : Waiter
  deriving DecidableEq, Repr

/-- An addition on its way to a flag: its target, amount, agent (R114), what it passes on. -/
structure Signal where
  flag : BitVec 8
  amount : Nat
  agent : AgentId
  know : Known
  deriving DecidableEq, Repr

/-- A command in an engine queue: the instruction, its halves, the register values read when it was
enqueued, its queue position (R194, R261, R354), the stamp of its issue (R91), and the guard in its word 0 (R261). -/
structure Cmd where
  instr : Instr
  f : Ecmd
  ops : List W64
  pos : Nat
  issued : Nat
  /-- The NOTE has been reached (R121). -/
  reached : Bool
  guard : Guard
  deriving DecidableEq, Repr

/-- A Quay command's operands read at its start (R382), its pages done, and, of a save, the bank pages read and those in
the staging buffers, with the cause of a failed read (R78). -/
structure QuayJob where
  desc : W64
  bank : Bool
  frame : W64
  ffmt : Nat
  size : Nat
  writesBank : Bool
  pagesDone : Nat
  read : Nat
  staged : List (List Byte × Option Nat)
  deriving DecidableEq, Repr

/-- A slate that the Timetable has the Quay move for a bank (R210): the item of its writes, the job, whether its pending
forks have been settled (R384), whether the bank keeps the slate after a save (R245), whether a page has failed. -/
structure SlateMove where
  item : Nat
  job : QuayJob
  begun : Bool
  keeps : Bool
  failed : Bool
  deriving DecidableEq, Repr

/-- How far a command in flight has come. -/
inductive Progress where
  /-- Started; nothing more than its own end remains. -/
  | plain
  /-- XF: pieces in all, the pieces done (R116), the code of an overlap with a copy whose completion was signalled first
  (R127), and whether its own has been signalled. -/
  | copy (total : Nat) (done : List Nat) (overlap : Option Nat) (signalled : Bool)
  /-- GR.DUMP and GR.FILL: the next 64-byte piece (R369). -/
  | pieces (next : Nat)
  /-- GR.DRAIN: the loop it drains, by item, and the index of its first iteration not started (R368). -/
  | drain (loop : Option Nat) (index : Nat)
  /-- MX.MMA and MX.DRAIN: the row-progress word, and the CB3 tables taken for the running segment (R233, R422). -/
  | matrix (row group : Nat) (tables : List (Nat × BitVec 128))
  /-- SCN.CHUNK: the next block and the FADE sampled at the start (R182, R372). -/
  | scan (block : Nat) (fade : W64)
  | quay (job : QuayJob)
  deriving DecidableEq, Repr

/-- A command that has started and not completed (R356, R357). `item` names its writes in writer tags; `inb`
and `outb` are bytes it has taken from a switch queue, and bytes it has still to push into one; `know` is
what happens before its accesses (R91, R99). -/
structure Flight where
  cmd : Cmd
  item : Nat
  prog : Progress
  finished : Bool
  inb : List Byte
  outb : List Byte
  know : Known
  told : Bool
  deriving DecidableEq, Repr

/-- One queue's status register (R359). -/
structure QStat where
  failed : BitVec 16
  arith : BitVec 5
  cause : BitVec 9
  pos : BitVec 5
  item : BitVec 27
  deriving DecidableEq, Repr

def QStat.zero : QStat := ⟨0, 0, 0, 0, 0⟩

/-- An engine queue (R194, R356): waiting commands oldest first, commands in flight, next position,
and the status register. `granted` is set when the head's wait has succeeded. -/
structure Queue where
  waiting : List Cmd
  flights : List Flight
  nextPos : Nat
  granted : Bool
  stat : QStat
  deriving DecidableEq, Repr

def Queue.empty : Queue := ⟨[], [], 0, false, QStat.zero⟩

/-! ## Pattern programs -/

/-- A cursor of a pattern program (R398, R399): an address, one in the cluster memory of a named core, the
engine's switch endpoint, or unset. -/
inductive Cursor where
  | mem (a : W64) | cluster (c : CoreId) (a : W64) | switch | unset
  deriving DecidableEq, Repr

/-- A piece a tide unit has sent and that has not landed: its unit as an item, destination, bytes, the cause
of its failure while it was read, its unit's index, whether its chunk carries a reservation, and the flag
that counts it (R116, R119). -/
structure TidePiece where
  item : Nat
  dst : Cursor
  bytes : List Byte
  failed : Option Nat
  unit : Nat
  reserved : Bool
  bound : Option (BitVec 8 × CoreId)
  deriving DecidableEq, Repr

/-- A PNEST in force: repeat count, the run, selected cursor (true D), step, value at the start of run 0. -/
structure Nest where
  reps : Nat
  run : Nat
  selD : Bool
  step : BitVec 18
  base : Cursor
  deriving DecidableEq, Repr

/-- A pattern program that runs (R398): its start and space, index, cursors, wraps, bound flag, fill
value, conversion, PLOOP counters, PNEST stack (innermost first), units left of the current word, the
destination bytes of the current unit that are done (none while it is read), pieces in flight, bytes taken
from a switch queue and bytes of the unit not yet written; the words it has reached, by index, as it read them (R398), the
units, as items, that have reported a failure (R359), and what happens before its accesses (R91, R99). -/
structure Prog where
  start : W64
  space : Nat
  issuer : CoreId
  cmdPos : Nat
  item : Nat
  index : Int
  s : Cursor
  x : Cursor
  d : Cursor
  wrapS : Option (W64 × Nat)
  wrapD : Option (W64 × Nat)
  bound : Option (BitVec 8 × CoreId)
  fill : BitVec 32
  conv : BitVec 15
  loops : List (Int × Nat)
  nests : List Nest
  left : Option Nat
  unitIndex : Nat
  unitItem : Nat
  off : Option Nat
  inb : List Byte
  outb : List Byte
  asked : Bool
  admitted : Bool
  reserved : Bool
  inflight : List TidePiece
  waiting : Bool
  halting : Bool
  ended : Bool
  words : List (Int × BitVec 48)
  told : List Nat
  know : Known
  deriving DecidableEq, Repr

/-! ## Switch, grid, scan, matrix, banks of a core -/

/-- A beat of a switch queue (R447): its valid bytes, how many more the pushing unit may still fill (0 once
the beat is pushed), whether a command ended with it, and the formats in force when it was begun (R364). -/
structure Beat where
  bytes : List Byte
  room : Nat
  last : Bool
  src : BitVec 8
  snk : BitVec 8
  deriving DecidableEq, Repr

/-- A switch queue (R16, R363, R364): route, tile, up to eight beats, the format registers, converted bytes
that the sink has not taken and the bytes at the head that they stand for, the tile rows moved by a tile source or sink in
progress. -/
structure SwitchQueue where
  src : Option Nat
  snk : Option Nat
  tile : BitVec 5
  beats : List Beat
  srcFmt : BitVec 8
  snkFmt : BitVec 8
  out : List Byte
  outOf : Nat
  srcRow : Option Nat
  snkRow : Option Nat
  deriving DecidableEq, Repr

def SwitchQueue.empty : SwitchQueue := ⟨none, none, 0, [], 0, 0, [], 0, none, none⟩

/-- A result of a cell on its way to, or in, its result register (R387, R390). -/
structure CellResult where
  cell : Nat
  ready : Nat
  lanes : Vector (BitVec 32) 8
  deriving DecidableEq, Repr

/-- A slice write that takes effect at its ready cycle, with the row that each lane writes (R394). -/
structure SliceWrite where
  cell : Nat
  ready : Nat
  rows : List Nat
  lanes : Vector (BitVec 32) 8
  deriving DecidableEq, Repr

/-- A grid loop that runs (R388): version, trip count, index of its first iteration, loop clock, next
cell of the clock, iterations started, whether the first-stage predicate is off, its results, slice
writes, the tokens of its iterations, and the tokens it still has to push. -/
structure GridLoop where
  ver : Bool
  trip : Nat
  first : Nat
  clock : Nat
  cell : Nat
  started : Nat
  off : Bool
  stopAsked : Bool
  results : List CellResult
  slices : List SliceWrite
  /-- Whether this clock's iteration has been decided (R388). -/
  decided : Bool
  /-- The tokens of iterations: iteration from 0, in port, lanes (R389). -/
  tokens : List (Nat × Nat × Vector (BitVec 32) 8)
  /-- Tokens to push: ready cycle, iteration, row, out port, lanes (R389). -/
  pushes : List (Nat × Nat × Nat × Bool × Vector (BitVec 32) 8)
  cmdPos : Nat
  item : Nat
  deriving DecidableEq, Repr

/-- What is wrong with a 64-bit word of storage: an uncorrectable error (R86), or an end-to-end check value that does not
match (R436). -/
inductive Flaw where
  | ecc | check
  deriving DecidableEq, Repr

/-- A neighbour queue held at its consumer (R83, R223): slots oldest first, and the head index; whether the oldest
slot's data is bad, and how (R86, R220, R436). -/
structure NeighbourQueue where
  slots : List V512
  head : BitVec 3
  bad : Option Flaw := none
  deriving DecidableEq, Repr

def NeighbourQueue.empty : NeighbourQueue := ⟨[], 0, none⟩

/-! ## Pieces and traps -/

/-- The writer tag of a detection granule (R98, R99): agent, atomic or not, the writer's release number,
the item (command or program) that wrote it, whether an event has released it, whether the write set
its granules full, the core in whose uncommitted version it lies, the stamp of a processor's write, and
the agents that took the bytes of a full/empty granule by a waiting load (R91, R101). -/
structure Tag where
  agent : AgentId
  atomic : Bool
  seq : W64
  item : Option Nat
  released : Bool
  filled : Bool
  version : Option CoreId
  stamp : Nat
  took : List (AgentId × Nat)
  deriving DecidableEq, Repr

/-- A declared tile operand of a node (R196). -/
structure Operand where
  addr : W64
  stride : BitVec 32
  cols : Nat
  rows : Nat
  tile : BitVec 5
  out : Bool
  fmt : Nat
  deriving DecidableEq, Repr

/-- A block of an FBC page held in a version line: its encoding address, leaf attributes, the new encoding, its decoded
bytes, and the encodes it holds with their largest differences (R153). -/
structure VersionBlock where
  enc : Nat
  attrs : W64
  code : Nat
  bytes : List Byte
  encodes : Nat
  lossy : Nat
  maxerr : W64
  deriving DecidableEq, Repr

/-- The piece a core runs (R192 to R206, R229, R231): launch, instance, node, piece number, entry,
dispatch range, operands, whether these are still to be loaded (R198), whether it is versioned, its version lines, its
session and the guarded pages of its slate, and the watchdog limit and context region of its dispatch (R412). -/
structure Piece where
  launch : Nat
  inst : Nat
  node : Nat
  number : Nat
  entry : W64
  desc : W64
  lo : W64
  stack : W64
  opnds : List Operand
  loading : Bool
  versioned : Bool
  vbytes : List Host.Cell
  vblocks : List VersionBlock
  /-- The writer tags that the version's writes displaced, restored at a discard. -/
  vtags : List (Nat × Option Tag)
  session : Option (BitVec 24 × W64)
  guarded : List Nat
  rolled : List Nat
  rt : Bool
  wdog : BitVec 32
  ctxbase : W64
  ctxn : Nat
  deriving DecidableEq, Repr

/-- How a core was stopped (R220). -/
inductive StopClass where
  | precise | freeze | async
  deriving DecidableEq, Repr

/-- A held trap (R221 to R223): `edits` are the bytes a handler has written to RW fields of the window,
by offset, which take effect at resumption (R223). -/
structure Hold where
  cls : StopClass
  cause : Nat
  addr : W64
  detail : W64
  wdx : Bool
  delivered : Option SysId
  edits : Table (Option Byte)
  deriving DecidableEq, Repr

/-- What a CP stream does: nothing (it has ended or was never started), runs, or seeks work (R346, R224). -/
inductive Run where
  | off | run | seek
  deriving DecidableEq, Repr

/-- A compute core (R14, R249). -/
structure Core where
  x : Cpu
  run : Run
  held : Option Hold
  v : Vector V512 8
  lat : V512
  /-- Tile elements, key 256 t + 16 i + j (R249). -/
  tiles : Table Lane
  /-- Tile full/empty bits (R67). -/
  tfull : BitVec 32
  /-- State of each tile bank: 0 on, 1 retention, 2 gated (R242, R350). -/
  power : Vector (BitVec 2) 8
  flags : Table Flag
  waits : List Wait
  granted : List Waiter
  signals : List Signal
  queues : Vector Queue 6
  engines : Vector (Option Prog) 4
  switch : Table SwitchQueue
  /-- The two configuration versions, word lists of 65 (R270), and the one most recently loaded. -/
  gridCfg : Vector (Option (List W64)) 2
  gridLast : Option Bool
  loops : List GridLoop
  /-- The cell operation that executes: version, cell and iteration (R388). -/
  cellAt : Bool × Nat × Nat
  /-- The carry register, key 2 i for hi and 2 i + 1 for lo, and NHELD (R371). -/
  carry : Table (BitVec 32)
  nheld : Nat
  /-- The accumulator set, key 128 i + j, and its mode (R183, R214, R375). -/
  acc : Table (BitVec 48)
  accInt : Bool
  intent : Bool
  /-- The slate each bank holds, as the address of its descriptor (R82, R210). -/
  banks : Vector (Option W64) 2
  forks : List (W64 × W64)
  /-- The slates that the Timetable has the Quay move for the banks, oldest first (R210). -/
  moves : List SlateMove
  down : NeighbourQueue
  up : NeighbourQueue
  creditDown : Nat
  creditUp : Nat
  ringRect : BitVec 16
  piece : Option Piece
  part : Option PartId
  lrect : BitVec 16
  rangeLo : W64
  rangeHi : W64
  taskId : W64
  session : BitVec 33
  fade : W64
  rings : BitVec 32
  bellErr : Bool
  /-- The queues that have reported a failed item since the last ring (R123). -/
  bellFail : BitVec 6
  faultpc : BitVec 61
  bankloss : Vector (BitVec 32) 8
  telemetry : Vector W64 10
  codecsel : BitVec 6
  feat : BitVec 6
  /-- Pre-emption asked for, and whether the units have stopped (R234). -/
  preempt : Bool
  /-- The guarded slate pages for which writes wait (R231). -/
  guardWait : List Nat
  /-- The slate pages on which writes stall while the Quay reads them: a CP's, or an item's at an address (R79, R81). -/
  slateWait : List (Option (Nat × W64) × Nat)
  /-- The piece of this core was dispatched before PARTCFG took the core out of its rectangle (R412). -/
  leaving : Bool
  /-- The microsecond at which the watchdog last started, or, under a debug halt, what it has counted (R243). -/
  dog : Nat
  /-- The microsecond at which the running time slice began; the step that the core ran last, by launch and instance, with
  the microseconds of its slice that have passed (R212). -/
  sliceAt : Nat
  sliceOf : Option (Nat × Nat × Nat)
  /-- The launch and session whose context the telemetry counts belong to (R417). -/
  countsOf : Option (Nat × Option (BitVec 24))
  /-- The word after the WORK in which the core's own stream waits, while pieces run on it (R346). -/
  workAt : Option W64
  deriving DecidableEq, Repr

def Core.reset : Core :=
  { x := Cpu.reset, run := .off, held := none, v := Vector.replicate 8 (Vector.replicate 16 0),
    lat := Vector.replicate 16 0, tiles := [], tfull := 0, power := Vector.replicate 8 0, flags := [],
    waits := [], granted := [], signals := [], queues := Vector.replicate 6 Queue.empty,
    engines := Vector.replicate 4 none, switch := [], gridCfg := Vector.replicate 2 none,
    gridLast := none, loops := [], cellAt := (false, 0, 0), carry := [], nheld := 0, acc := [],
    accInt := false, intent := false, banks := Vector.replicate 2 none, forks := [], moves := [],
    down := NeighbourQueue.empty, up := NeighbourQueue.empty, creditDown := 8, creditUp := 8,
    ringRect := 0, piece := none, part := none, lrect := 0, rangeLo := 0, rangeHi := 0, taskId := 0,
    session := 0, fade := 0, rings := 0, bellErr := false, bellFail := 0, faultpc := 0,
    bankloss := Vector.replicate 8 0, telemetry := Vector.replicate 10 0, codecsel := 0, feat := 0x3F,
    preempt := false, guardWait := [], slateWait := [], leaving := false,
    dog := 0, sliceAt := 0, sliceOf := none, countsOf := none, workAt := none }

/-! ## System cores -/

/-- A system core (R20, R249, R406, R407). `reports` are Timetable and link causes that wait. -/
structure Sys where
  x : Cpu
  enabled : Bool
  running : Bool
  svec : BitVec 61
  sepc : BitVec 61
  scause : BitVec 10
  ie : Bool
  pie : Bool
  sscratch : W64
  sfaddr : W64
  ctpend : BitVec 256
  reports : List Nat
  deriving DecidableEq, Repr

def Sys.reset : Sys :=
  { x := Cpu.reset, enabled := true, running := false, svec := 0, sepc := 0, scause := 0, ie := false,
    pie := false, sscratch := 0, sfaddr := 0, ctpend := 0, reports := [] }

/-! ## Memory side -/

/-- Who holds translations: the structures of a core for its CP's fetches and data accesses, its stream engines, its copy
engine and its Quay, with the second level behind them; a matrix array, a tide engine, a system core, a port (R44). -/
inductive Holder where
  | fetch (c : CoreId) | data (c : CoreId) | stream (c : CoreId) | copy (c : CoreId) | quay (c : CoreId) | second (c : CoreId)
  | array (k : ClusterId) | tide (t : TideId) | sys (k : SysId) | port
  deriving DecidableEq, Repr

/-- A cached leaf (R44, R46): holder, space, first address, log2 size, the entry. -/
structure TlbEntry where
  holder : Holder
  space : Nat
  base : Nat
  log2 : Nat
  leaf : W64
  deriving DecidableEq, Repr

/-- A cached pointer entry of a slice's walk cache: slice, space, level, VA prefix, next table (R44). -/
structure WalkEntry where
  slice : Nat
  space : Nat
  level : Nat
  tag : Nat
  next : Nat
  deriving DecidableEq, Repr

/-- An L2 line (R41, R72, R76): the attributes that it was filled with, decoded or not, FMT, GEO, BUD, CREG, CPOL; the way
that it takes in its set; the partition whose space filled it (R439), and whether a write has changed it since. -/
structure LineAttrs where
  decoded : Bool
  attrs : BitVec 18
  way : Nat
  part : Option PartId
  dirty : Bool
  deriving DecidableEq, Repr

/-- The page through which an access was translated: its space, first address and log2 size (R48). -/
structure PageId where
  space : Nat
  base : Nat
  log2 : Nat
  deriving DecidableEq, Repr

/-- How a walk ends (R30, R445). -/
inductive WalkEnd where
  | leaf (e : W64) (level : Nat)
  | unmapped
  | fault (reason : Nat)
  deriving DecidableEq, Repr

/-- A walk in flight (R44, R45): the slice of its walker, the page that it is for, its end, and the core whose second level
has missed. -/
structure Walk where
  slice : Nat
  page : PageId
  result : WalkEnd
  core : Option CoreId
  deriving DecidableEq, Repr

/-- A request to a memory controller (R439): the agent for whose access it is made, none for a write-back; the line, by its
L2 key; the regulator, by controller and partition; the bytes that it is charged. -/
structure MemRequest where
  agent : Option AgentId
  line : Nat
  reg : Nat
  bytes : Nat
  deriving DecidableEq, Repr

/-- The requests to the memory controllers (R439): the model's own, those that the step has been charged for, and one of the
Timetable's in the step that is not admitted; those that are held, in the order of their arrival; those admitted whose access
is still to be performed, by agent and line. -/
structure Requests where
  paid : List MemRequest
  unpaid : Option MemRequest
  held : List MemRequest
  granted : List (AgentId × Nat)
  deriving DecidableEq, Repr

def Requests.none : Requests := ⟨[], .none, [], []⟩

/-- A slot of a user-mode queue that the Timetable has claimed and not yet committed, or freed, because earlier ones are not:
partition, header, slot, whether it was taken (R340, R435). -/
structure OpenSlot where
  part : PartId
  header : W64
  slot : W64
  taken : Bool
  deriving DecidableEq, Repr

/-- A store to an FBC block that the slice has not yet performed (R148, R149): key, leaf, page, named bytes. -/
structure FbcStore where
  enc : Nat
  leaf : W64
  page : PageId
  agent : AgentId
  named : List (Nat × Byte)
  owner : Option CoreId
  deriving DecidableEq, Repr

/-- A byte count on its way to a flag of a core (R116): whether it ends a reservation (R119), and as what an overflow is
reported: core, queue, cause, command position, item (R114). -/
structure Count where
  core : CoreId
  signal : Signal
  reserved : Bool
  src : CoreId
  queue : QueueId
  cause : Nat
  pos : Nat
  item : Nat
  deriving DecidableEq, Repr

/-- A held image of an FBC block (R151): its page, the item that writes it, the merged bytes, whether the marked
piece has merged or the item has ended, and the byte counts that follow its encode. -/
structure HeldImage where
  enc : Nat
  leaf : W64
  page : PageId
  item : Nat
  tagItem : Nat
  bytes : List Byte
  due : Bool
  counts : List Count
  owner : Option CoreId
  deriving DecidableEq, Repr

/-- A codec region (R155, R156): the space it is assigned to, and the SPACE bits last written. -/
structure Region where
  space : Option (BitVec 6)
  spaceBits : BitVec 6
  enc : W64
  lossy : W64
  maxerr : W64
  deriving DecidableEq, Repr

def Region.zero : Region := ⟨none, 0, 0, 0, 0⟩

/-- A matrix array (R18, R215, R216): holder, last holder, commands left, the cycle limit has passed,
narrowed mode. -/
structure MxArray where
  holder : Option (Fin 4)
  last : Fin 4
  cmds : Nat
  expired : Bool
  narrow : Bool
  deriving DecidableEq, Repr

def MxArray.reset : MxArray := ⟨none, 3, 0, false, false⟩

/-- A bandwidth regulator of one controller and partition (R439, R440). -/
structure Regulator where
  en : Bool
  hard : Bool
  budget : BitVec 16
  next : BitVec 16
  used : Nat
  /-- A request was held in this interval. -/
  throttled : Bool
  deriving DecidableEq, Repr

def Regulator.zero : Regulator := ⟨false, false, 0, 0, 0, false⟩

/-! ## Timetable -/

/-- A node of an accepted launch (R196). -/
structure Node where
  entry : W64
  lo : W64
  hi : W64
  grain : Nat
  opnds : List Operand
  mxuse : Bool
  die : Bool
  unver : Bool
  npred : Nat
  succ : List Nat
  deriving DecidableEq, Repr

/-- One run of a launch's graph: the one-shot run, or a step of a session (R201). `pieces` counts the
pieces of a node that have not completed, `made` those ever made, `know` is what a node's dispatch acquires
(R347), `guarded` and `rolled` the slate pages of a versioned step that are guarded and copied (R231). -/
structure Inst where
  session : Option (BitVec 24)
  remaining : List Int
  pieces : List Nat
  made : List Nat
  complete : List Bool
  startUs : Nat
  live : Bool
  know : List Known
  guarded : List Nat
  rolled : List Nat
  /-- The microsecond at which the step's input packet arrived (R211). -/
  arrived : Nat
  /-- Microseconds for which no piece of the step ran, and since when none has (R213, R236). -/
  paused : Nat
  pausedAt : Option Nat
  deriving DecidableEq, Repr

/-- A ready node in a die's pool, and the microsecond at which it became ready (R200, R203). -/
structure Ready where
  launch : Nat
  inst : Nat
  node : Nat
  die : Bool
  at_ : Nat
  deriving DecidableEq, Repr

/-- A launch in flight (R195, R217): partition, number, fields, nodes, instances, roll-call counters by
core, cluster and die, the launch counter, first cause, whether it has a session set, that set closed; what its SPAWN passed on, and
what the steps of each session have (R347). -/
structure Launch where
  part : PartId
  number : BitVec 16
  rect : BitVec 16
  stack : W64
  doneq : W64
  graph : W64
  sids : List (BitVec 24)
  nodes : List Node
  insts : List Inst
  byCore : Table Nat
  byCluster : Table Nat
  byDie : Table Nat
  total : Nat
  cause : Option Nat
  perSession : Bool
  closed : Bool
  ended : Bool
  know : Known
  stepKnow : Table Known
  deriving DecidableEq, Repr

/-- A launch waiting to be accepted (R345, R217): partition, number, the 64 bytes of its descriptor, what its
SPAWN passed on. -/
structure QueuedLaunch where
  part : PartId
  number : BitVec 16
  desc : List Byte
  know : Known
  deriving DecidableEq, Repr

/-- A ready session and the device time in microseconds at which it became ready (R209, R213). -/
structure ReadySession where
  part : PartId
  sid : BitVec 24
  at_ : Nat
  promoted : Bool
  deriving DecidableEq, Repr

/-- A context saved to memory (R236): the core it ran on, the save area, what the area's implementation
part stands for, whether data that went into the area was bad (R86), and its paused tide programs. -/
structure SavedContext where
  core : CoreId
  area : Nat
  image : Core
  bad : Bool
  tides : List (TideId × Prog)
  /-- Block images that its version holds (R151, R153). -/
  images : List HeldImage
  deriving DecidableEq, Repr

/-- A member at a barrier: its core, and the piece that has arrived there (R348). -/
structure Member where
  core : CoreId
  inst : Nat
  node : Nat
  number : Nat
  deriving DecidableEq, Repr

/-- Arrivals at a barrier: launch, group code, members arrived, what they pass on (R348, R91). Of one launch and group an
earlier barrier stands before a later one. -/
structure Barrier where
  launch : Nat
  group : BitVec 16
  arrived : List Member
  know : Known
  deriving DecidableEq, Repr

/-- A partition (R189, R411) with its port registers (R431). -/
structure Partition where
  assigned : Bool
  place : Bool
  rect : BitVec 16
  root : Nat
  base : Nat
  limit : Nat
  reqfeat : BitVec 6
  ways : BitVec 16
  sesstab : W64
  ctxbase : W64
  ctxn : Nat
  rbase : W64
  wdog : BitVec 32
  nextLaunch : BitVec 16
  weights : Table (BitVec 8)
  deficits : Table Int
  pointer : Nat
  lqaddr : W64
  hfault : W64
  pktfail : W64
  rtmiss : Table W64
  bwthr : W64
  mailbox : Table W64
  vf : Bool
  deriving DecidableEq, Repr

def Partition.reset : Partition :=
  { assigned := false, place := false, rect := 0, root := 0, base := 0, limit := 0, reqfeat := 0,
    ways := 0, sesstab := 0, ctxbase := 0, ctxn := 0, rbase := 0, wdog := 0, nextLaunch := 0,
    weights := [], deficits := [], pointer := 0, lqaddr := 0, hfault := 0, pktfail := 0, rtmiss := [],
    bwthr := 0, mailbox := [], vf := false }

/-! ## Links and the whole -/

/-- A line that crosses the die link: the header of its request, its bytes, the check values of its two halves, its two writer
tags, and the FMT of its page (R436 to R438). -/
structure LinkLine where
  header : List Byte
  bytes : List Byte
  checks : List Byte
  tags : List Byte
  fmt : Nat
  deriving DecidableEq, Repr, Inhabited

/-- What a flit carries: up to four requests, one or two lines, or credits alone (R437). -/
inductive LinkLoad where
  | requests (rs : List (List Byte))
  | lines (ls : List LinkLine)
  | credits
  deriving DecidableEq, Repr, Inhabited

/-- A flit that its sender keeps until the other die has it: its sequence number, its bytes and its lines (R128, R437). -/
structure SentFlit where
  seq : BitVec 16
  flit : List Byte
  lines : List LinkLine
  deriving DecidableEq, Repr

/-- One direction of one die-link channel. At the receiver: next sequence number to receive, replays of the flit now
failing, the exponent table, what has been delivered, the request headers of the items that failed, credits not returned yet.
At the sender: next sequence number, the exponent table, the flits that the other die does not have yet, credits used and
credits returned (R437, R438). -/
structure Channel where
  seq : BitVec 16
  replays : Nat
  table : List (BitVec 8)
  delivered : List LinkLoad
  failed : List (List Byte)
  owed : Nat
  sendSeq : BitVec 16
  sendTable : List (BitVec 8)
  sent : List SentFlit
  used : Nat
  returned : Nat
  deriving DecidableEq, Repr

/-- The exponents with which a channel begins (R438). -/
def firstExponents : List (BitVec 8) := [127, 126, 128, 125, 129, 124, 130, 0]

def Channel.reset : Channel := ⟨0, 0, firstExponents, [], [], 0, 0, firstExponents, [], 0, 0⟩

/-- An event that the PF shows (R222, R443): a system core that has stopped, a link event, a core whose trap no
system core can take, which a bound VF shows too. -/
inductive PfEvent where
  | systemCore (k : SysId)
  | link (cause : Nat)
  | internalError (c : CoreId) (vf : Option PartId)
  deriving DecidableEq, Repr

/-- How far the boot has come (R441): never booted, stopped by a failed check, up. -/
inductive Boot where
  | cold | stopped | up
  deriving DecidableEq, Repr

/-- What can go wrong with storage, or be counted, at a time of its own: a double-bit error in the word at a home address,
a check value that does not match its 64-byte unit, a double-bit error in the full/empty bits of a granule, in the
oldest slot of a neighbour queue, in a core's register storage (R86, R228, R436), a single-bit error that is corrected
(R417), a tile read that loses arbitration (R252). -/
inductive Mishap where
  | doubleBit (home : Nat)
  | badCheck (home : Nat)
  | fullBits (home : Nat)
  | slot (c : CoreId) (up : Bool) (f : Flaw)
  | registers (c : CoreId)
  | corrected (c : CoreId)
  | tileReadLost (c : CoreId) (bank : Fin 8)
  deriving DecidableEq, Repr

/-- What a port function asks for in BAR2 (R430). -/
inductive PortOp where
  | read | write | fetchadd | swap | cas
  deriving DecidableEq, Repr

/-- Who waits on full/empty bits: a processor's access, the matrix collector's take of a table (R65, R422). -/
inductive FeWaiter where
  | proc (q : Proc)
  | table (c : CoreId)
  deriving DecidableEq, Repr

/-- What can move next: a processor issues a word, an engine works on a command in flight, the Quay
moves a page of a slate for the Timetable, a pattern program runs its next word, a grid loop executes its next
cell operation, a walk for an agent's address begins, one of the device's other steps takes place, a waiting port request is
made again, the host reads BAR0, a die sends a flit, or storage fails or gives way. -/
inductive Turn where
  | cp (q : Proc)
  | engine (c : CoreId) (q : QueueId) (pos : Nat)
  | slateMove (c : CoreId) (n : Nat) (ahead : Bool)
  | streamProg (c : CoreId) (e : Fin 4)
  | tideProg (t : TideId) (slot : Nat)
  | grid (c : CoreId) (ver : Bool)
  | walkBegin (a : AgentId) (va : W64)
  | event (i : Instr)
  | port (n : Nat)
  | bar0Read (t : PartId) (o : Nat)
  | linkSend (die : Bool) (ch : Fin 11) (what : LinkLoad)
  | mishap (m : Mishap)
  deriving DecidableEq, Repr, Inhabited

/-- The unit whose step is being taken: the processor itself, a command in flight at queue position
`pos`, a pattern program, a grid cell. -/
inductive Unit' where
  | cp
  | queue (q : QueueId) (pos : Nat)
  | streamProg (e : Fin 4)
  | tideProg (t : TideId) (slot : Nat)
  | cell
  deriving DecidableEq, Repr

/-- The whole device. -/
structure State where
  /-- The model's own: the turns that come next, and the count that free choices are drawn by. -/
  agenda : List Turn
  moment : Nat
  /-- The model's own: the processor and the unit whose step is being taken. -/
  cur : Proc
  unit : Unit'
  cores : Vector Core 256
  sys : Vector Sys 16
  /-- Every byte the device holds, by home address (Machine/Ops.lean). -/
  mem : List Host.Cell
  /-- The storage words whose data is bad, key home address / 8; those of full/empty bits as Machine/Ops.lean numbers
  them (R86, R436). -/
  flaws : List (Nat × Flaw)
  /-- Full/empty bits of 16-byte granules, key home address / 16; listed ones are full (R56). -/
  full : Table Bool
  /-- Writer tags, key the granule's home address (R95, R98). -/
  tags : Table Tag
  /-- Release sequence numbers by agent (R97). -/
  seqs : Table W64
  /-- The stamp of writes, what each agent knows, the release sides that an acquirer of a byte meets, those that an agent's
  atomic loads have read, those of its release fences (R91, R93, R101, R107). -/
  stamp : Nat
  know : Table Known
  sync : Table (List Release)
  seen : Table (List Release)
  fences : Table (List Release)
  /-- Agents whose release event takes place once their writes are acknowledged (R97, R221). -/
  releases : List AgentId
  nextItem : Nat
  tlb : List TlbEntry
  walkCache : List WalkEntry
  walks : List Walk
  lines : Table LineAttrs
  /-- The tree bits of the replacement in each set of each slice (R73). -/
  plru : Table (BitVec 16)
  /-- The L2 misses, the accesses to the other die and the bytes from tide engines of each core, at 4 c, 4 c + 1 and 4 c + 2,
  that its telemetry has still to take in (R417). -/
  events : Table Nat
  fbcStores : List FbcStore
  held : List HeldImage
  /-- The accesses that wait on full/empty bits, in the order of their arrival (R65). -/
  feQueue : List FeWaiter
  ticketNext : W64
  /-- Ticketed atomics that are not performed: ticket, processor, instruction, its registers at issue (R109). -/
  tickets : List (W64 × Proc × Instr × Vector W64 32)
  tides : Vector (List Prog) 64
  arrays : Vector MxArray 64
  regions : Vector Region 64
  parts : Vector Partition 32
  superRoot : Option Nat
  windows : List (Nat × CoreId)
  /-- The model's own: action words that the step's store has written and that act before it ends. -/
  actions : List (CoreId × W64)
  launchQueue : List QueuedLaunch
  launches : List Launch
  pool : List Ready
  readySessions : List ReadySession
  steps : List (PartId × BitVec 24)
  barriers : List Barrier
  steals : List CoreId
  saved : List SavedContext
  quiesced : Bool
  /-- The number of slates that the running quiesce saves (R413). -/
  saving : Option Nat
  /-- The slots of queues that the Timetable has still to commit or free (R435). -/
  openSlots : List OpenSlot
  /-- The microseconds at which the packets that wait in the sessions' input queues arrived, oldest first (R211). -/
  arrivals : List (PartId × BitVec 24 × Nat)
  pins : List (CoreId × PartId × BitVec 24)
  us : Nat
  regulators : Table Regulator
  requests : Requests
  bwsel : BitVec 14
  forecast : Vector (BitVec 14) 2
  alarm : Bool
  /-- The words of the PF mailbox, 0 at reset (R441, R443) (log 2: DESIGN CHOICE). -/
  pfMailbox : Table W64
  hostLink : Bool
  peerLink : Bool
  dieLink : Bool
  dieLost : Bool
  channels : Vector Channel 22
  peers : Nat
  pfEvents : List PfEvent
  boot : Boot
  slices : BitVec 64
  ctrls : BitVec 48
  checkpoint : Option Nat
  /-- Manifests refused at a restore: the cause, and the step that the report names (R247). -/
  ckptReports : List (Nat × Nat)
  /-- The requests of port functions that wait, in the order of their arrival (R430). -/
  ports : List (PortOp × PortRequest)
  /-- What a port last answered: the data of a read or AtomicOp, none for Unsupported Request (R430). -/
  portReply : Option (List Byte)
  /-- The SHA-256 digest of the running firmware image (R415, R442). -/
  fwDigest : List Byte
  deriving DecidableEq, Repr

/-- Why the machine stops. -/
inductive Fault where
  /-- Raised by every step after a boot whose firmware check failed: "A failed check stops the boot at
  step 3, and only the PF's recovery mailbox answers" (R441). Safe: nothing runs. -/
  | bootStopped
  deriving DecidableEq, Repr

/-- Why a step has no meaning. -/
inductive Refusal where
  /-- An instruction that the model has not been given yet. Safe. -/
  | notModelled (mnemonic : String)
  deriving DecidableEq, Repr

/-- The device right after device reset: every field at the value the manual gives, zero or empty
where it gives none (log 1, 2, 3: DESIGN CHOICE). -/
def State.reset : State :=
  { agenda := [], moment := 0, cur := .compute 0, unit := .cp, cores := Vector.replicate 256 Core.reset,
    sys := Vector.replicate 16 Sys.reset, mem := [], flaws := [], full := [], tags := [], seqs := [], stamp := 0, know := [], sync := [],
    seen := [], fences := [], releases := [], nextItem := 0,
    tlb := [], walkCache := [], walks := [], lines := [], plru := [], events := [], fbcStores := [], held := [], feQueue := [], ticketNext := 0,
    tickets := [], tides := Vector.replicate 64 [], arrays := Vector.replicate 64 MxArray.reset,
    regions := Vector.replicate 64 Region.zero, parts := Vector.replicate 32 Partition.reset,
    superRoot := none, windows := [], actions := [], launchQueue := [], launches := [], pool := [], readySessions := [],
    steps := [], barriers := [], steals := [], saved := [], quiesced := false, saving := none, arrivals := [], pins := [], us := 0,
    regulators := [], requests := Requests.none, openSlots := [], bwsel := 0, forecast := Vector.replicate 2 0, alarm := false, pfMailbox := [], hostLink := true,
    peerLink := true, dieLink := true, dieLost := false, channels := Vector.replicate 22 Channel.reset,
    peers := 0, pfEvents := [], boot := .cold, slices := BitVec.allOnes 64, ctrls := BitVec.allOnes 48,
    checkpoint := none, ckptReports := [], ports := [], portReply := none, fwDigest := [] }

end Sys2Proof.Machine
end

