-- ==== Sys2Proof/Config.lean ====
section
/-! DEFINITION. What the manual leaves to the device and to chance: constants with no body, so that no
proof can see a value of them. Each is named in the assumption log. -/

namespace Sys2Proof.Config

/-- The turn that comes next once the agenda is empty, by the model's count of free choices (log 4: DESIGN CHOICE). -/
opaque schedule : Nat → Machine.Turn

/-- Which of several agents' signals reaches a flag next (R114, log 4: DESIGN CHOICE). -/
opaque arrival : Nat → Nat

/-- How many further signals reach a core's flags in the same cycle (R114, log 4: DESIGN CHOICE). -/
opaque together : Nat → Nat

/-- Whether a granule of a copy's piece keeps what another copy in flight has written there (R127, log 96: DESIGN CHOICE). -/
opaque copyKept : Nat → Nat → Bool

/-- Microseconds that pass during a step of the machine (R212, R213, log 7: DESIGN CHOICE). -/
opaque microseconds : Nat → Nat

/-- Cycles that pass before a cycle counter is read (R232, log 7: DESIGN CHOICE). -/
opaque cyclesPassed : Nat → BitVec 64

/-- How many words a fetch path runs ahead next, taken modulo 17 (R71, log 8: DEDUCED). -/
opaque fetchAhead : Nat → Nat

/-- Which of the entries of a full set gives way to a new translation or walk pointer (R44, log 9: DESIGN CHOICE). -/
opaque tlbVictim : List Machine.TlbEntry → Nat
opaque walkVictim : List Machine.WalkEntry → Nat

/-- The set of a translation in an 8-way structure (R44), and that of a line in its slice, by its key (R76)
(log 9: DESIGN CHOICE). -/
opaque tlbSet : Machine.TlbEntry → Nat
opaque lineSet : Nat → Nat

/-- Cycles left of a matrix lease, as MXSTAT shows them (R214, log 7: DESIGN CHOICE). -/
opaque leaseCycles : Nat → BitVec 64

/-- Telemetry counts of cycles, misses and bytes, by register and moment (R417, log 7: DESIGN CHOICE). -/
opaque telemetry : Nat → Nat → BitVec 64

/-- The bytes of the engine state in a save area past the mode word: implementation state (R236, log 24: DESIGN CHOICE). -/
opaque saveByte : Nat → Nat → Byte

/-- What a free slot of a neighbour queue shows in the trap window, by offset (R223, log 26: DESIGN CHOICE). -/
opaque staleSlot : Nat → Byte

/-- The device serial number (R415, R443, log 14: DESIGN CHOICE). -/
opaque serial : BitVec 64

/-- Byte i of the 32-byte fused device secret, from which the identity key is made (R443, log 14: DESIGN CHOICE). -/
opaque secretByte : Nat → Byte

/-- The public keys of the other devices of the system that may coordinate a checkpoint (R246, R443, log 53: DEDUCED). -/
opaque coordinators : List (Nat × Nat)

/-- The firmware key digest fused into the device (R442, log 14: DESIGN CHOICE). -/
opaque firmwareKeyDigest : List Byte

/-- The minimum firmware version of the fuses (R442, log 14: DESIGN CHOICE). -/
opaque firmwareMinVersion : Nat

/-- What the mailbox firmware answers to a request whose format the manual does not give (R431, log 15: DESIGN CHOICE). -/
opaque mailboxAnswer : Nat → BitVec 64 → BitVec 64

/-- The FMT of line i of a die-link flit, whose place in the flit the manual does not give (R437, R438)
(log 55: DESIGN CHOICE). -/
opaque flitFormat : List Byte → Nat → Nat

/-- Does a flit of coded lines hold two of them (R437)? (log 55: DESIGN CHOICE) -/
opaque flitPair : List Byte → Bool

/-- Does coded line i of a flit pass its check value, whose place the manual does not give (R438)? (log 55: DESIGN CHOICE) -/
opaque flitCheck : List Byte → Nat → Bool

/-- How many flits a sender may have beyond the credits that have been returned, by channel (R437) (log 55: DESIGN CHOICE). -/
opaque linkCredits : Nat → Nat

/-- The address, in the supervisor space, at which the body of a firmware image begins (R441, R442) (log 56: DESIGN CHOICE). -/
opaque bootBase : List Byte → BitVec 64

/-- The physical address at which the ROM puts the body of a firmware image (R441, R442) (log 56: DESIGN CHOICE). -/
opaque bootPlace : List Byte → Nat

/-- The certificate that Yunarok has issued for the device's public key (R443) (log 56: DESIGN CHOICE). -/
opaque certificate : List Byte

/-- The bytes of memory, by physical address, that the boot leaves beside the firmware's body: its tables (R441)
(log 56: DESIGN CHOICE). -/
opaque bootCells : List Byte → List (Nat × Byte)

/-- The root that the firmware installs for the supervisor space as it brings the module up (R31, R441)
(log 56: DESIGN CHOICE). -/
opaque bootRoot : List Byte → Nat

/-- The bytes of memory, by physical address, that a checkpoint's shard stands for (R245) (log 57: DESIGN CHOICE). -/
opaque shardCells : List Byte → List (Nat × Byte)

/-- A word of register storage after an uncorrectable error (R228) (log 79: DESIGN CHOICE). -/
opaque lostWord : Nat → Nat → BitVec 64

end Sys2Proof.Config
end

