-- ==== Sys2Proof/Machine/Table.lean ====
section
/-! DEFINITION. Tables: lookup and update of sorted lists of (key, value) pairs in which the default
value stands for every key that is not listed. Memory is such a table of bytes. -/

namespace Sys2Proof.Machine

/-- The value listed at key k. -/
def tfind {α : Type} : List (Nat × α) → Nat → Option α
  | [], _ => none
  | (j, v) :: r, k => if j = k then some v else tfind r k

/-- The value at key k, `d` where it is not listed. -/
def tget {α : Type} (d : α) (t : List (Nat × α)) (k : Nat) : α := (tfind t k).getD d

/-- Insert a pair before the first larger key. -/
def tinsert {α : Type} (k : Nat) (v : α) : List (Nat × α) → List (Nat × α)
  | [] => [(k, v)]
  | (j, w) :: r => if k < j then (k, v) :: (j, w) :: r else (j, w) :: tinsert k v r

/-- Remove every pair of key k. -/
def terase {α : Type} (t : List (Nat × α)) (k : Nat) : List (Nat × α) := t.filter fun p => p.1 ≠ k

/-- Set key k to v; the default removes the entry. -/
def tput {α : Type} [DecidableEq α] (d : α) (t : List (Nat × α)) (k : Nat) (v : α) : List (Nat × α) :=
  if v = d then terase t k else tinsert k v (terase t k)

/-- Are the keys strictly rising? -/
def keysRise {α : Type} : List (Nat × α) → Bool
  | [] => true
  | [_] => true
  | p :: q :: r => decide (p.1 < q.1) && keysRise (q :: r)

/-- The canonical form of a table: keys rise and no entry is the default. -/
def twf {α : Type} [DecidableEq α] (d : α) (t : List (Nat × α)) : Bool :=
  keysRise t && t.all fun p => p.2 ≠ d

/-- The canonical form of memory: addresses rise and no listed byte is 0, which an unlisted one reads as
(log 1: DESIGN CHOICE). -/
def Memory.wf (m : List Host.Cell) : Bool := twf (0 : Byte) m

/-- n bytes of memory from home address a on. -/
def memBytes (m : List Host.Cell) (a : Nat) : Nat → List Byte
  | 0 => []
  | n + 1 => tget 0 m a :: memBytes m (a + 1) n

/-- Write bytes from home address a on. -/
def memPut (m : List Host.Cell) (a : Nat) : List Byte → List Host.Cell
  | [] => m
  | b :: bs => memPut (tput 0 m a b) (a + 1) bs

end Sys2Proof.Machine
end

