-- ==== Sys2Proof/Machine/Ops.lean ====
section
/-! DEFINITION. Operations over the state: the processor whose turn it is and its registers, homes of
bytes, agents and release events, stopping a core, taking an exception on a system core and returning
from one. -/

namespace Sys2Proof.Machine

/-- The outcome of a step. -/
abbrev Out := Host.Outcome State Fault Refusal

/-! ## Numbers of the device (R8, R19, R21) -/

def coreCluster (c : CoreId) : ClusterId :=
  ⟨(c.val / 32) * 8 + (c.val % 16) / 2, by have := c.isLt; omega⟩
def coreMember (c : CoreId) : Fin 4 :=
  ⟨(c.val / 16 % 2) * 2 + c.val % 2, by omega⟩
def coreX (c : CoreId) : Nat := c.val % 16
def coreY (c : CoreId) : Nat := c.val / 16
def coreDie (c : CoreId) : Nat := c.val / 128

/-- Member m of cluster k (R8). -/
def memberCore (k : ClusterId) (m : Fin 4) : CoreId :=
  ⟨(k.val / 8 * 2 + m.val / 2) * 16 + (k.val % 8 * 2 + m.val % 2), by have := k.isLt; have := m.isLt; omega⟩

/-- The agent of unit u of core c (R21). -/
def unitAgent (c : CoreId) (u : Nat) : AgentId := BitVec.ofNat 12 (c.val * 8 + u)
def tideAgent (t : TideId) : AgentId := BitVec.ofNat 12 (2048 + t.val)
def sysAgent (k : SysId) : AgentId := BitVec.ofNat 12 (2112 + k.val)
def hostAgent : AgentId := 2128
def peerAgent (n : Fin 15) : AgentId := BitVec.ofNat 12 (2129 + n.val)

/-- Is the agent a processor: a compute core's CP or a system core? -/
def isCpuAgent (a : AgentId) : Bool := (a.toNat < 2048 && a.toNat % 8 = 0) || (2112 ≤ a.toNat && a.toNat < 2128)

/-- Is the agent the host or a peer device? -/
def isHostAgent (a : AgentId) : Bool := 2128 ≤ a.toNat

/-- The core of a compute core's agent. -/
def agentCore (a : AgentId) : Option CoreId :=
  if h : a.toNat / 8 < 256 then some ⟨a.toNat / 8, h⟩ else none

/-- The processor of an agent. -/
def agentProc (a : AgentId) : Option Proc :=
  if isCpuAgent a then
    (if h : a.toNat / 8 < 256 then some (.compute ⟨a.toNat / 8, h⟩)
     else some (.system ⟨(a.toNat - 2112) % 16, by omega⟩))
  else none

/-! ## Rectangles (R189, R193): [3:0] x, [7:4] y, [11:8] log2 w, [15:12] log2 h -/

def rectX (r : BitVec 16) : Nat := (fld r 0 4).toNat
def rectY (r : BitVec 16) : Nat := (fld r 4 4).toNat
def rectW (r : BitVec 16) : Nat := 2 ^ (fld r 8 3).toNat
def rectH (r : BitVec 16) : Nat := 2 ^ (fld r 12 3).toNat

/-- Does the rectangle hold core c? -/
def rectHas (r : BitVec 16) (c : CoreId) : Bool :=
  rectX r ≤ coreX c && coreX c < rectX r + rectW r && rectY r ≤ coreY c && coreY c < rectY r + rectH r

/-- Lane i of a 512-bit register. -/
def vlane (v : V512) (i : Nat) : Lane := if h : i < 16 then v[i] else 0

/-! ## The current processor -/

namespace State

def core (s : State) (c : CoreId) : Core := s.cores[c.val]
def setCore (s : State) (c : CoreId) (k : Core) : State := { s with cores := s.cores.set c.val k }
def modCore (s : State) (c : CoreId) (f : Core → Core) : State := s.setCore c (f (s.core c))
def sysCore (s : State) (k : SysId) : Sys := s.sys[k.val]
def setSys (s : State) (k : SysId) (y : Sys) : State := { s with sys := s.sys.set k.val y }
def modSys (s : State) (k : SysId) (f : Sys → Sys) : State := s.setSys k (f (s.sysCore k))

/-- The processor part of q. -/
def cpuOf (s : State) : Proc → Cpu
  | .compute c => (s.core c).x
  | .system k => (s.sysCore k).x

def setCpuOf (s : State) (q : Proc) (x : Cpu) : State :=
  match q with
  | .compute c => s.setCore c { s.core c with x := x }
  | .system k => s.setSys k { s.sysCore k with x := x }

def cpu (s : State) : Cpu := s.cpuOf s.cur
def setCpu (s : State) (x : Cpu) : State := s.setCpuOf s.cur x
def modCpu (s : State) (f : Cpu → Cpu) : State := s.setCpu (f s.cpu)

/-- g[r]; g0 reads 0 (R249). -/
def g (s : State) (r : BitVec 5) : W64 := if r = 0 then 0 else s.cpu.g[r.toNat]'r.isLt

/-- Write g[r]; a write to g0 is discarded (R249). -/
def setG (s : State) (r : BitVec 5) (v : W64) : State :=
  if r = 0 then s else s.modCpu fun x => { x with g := x.g.set r.toNat v r.isLt }

/-- p[r]; p0 reads 1 (R249). -/
def p (s : State) (r : BitVec 3) : Bool := if r = 0 then true else s.cpu.p[r.toNat]'r.isLt

/-- Write p[r]; a write to p0 is discarded (R249). -/
def setP (s : State) (r : BitVec 3) (v : Bool) : State :=
  if r = 0 then s else s.modCpu fun x => { x with p := x.p.set r.toNat v r.isLt }

/-- The register after r in a pair. -/
def pairHi (r : BitVec 5) : BitVec 5 := r + 1

/-- {g[r+1], g[r]} of a pair (R250, R286). -/
def gPair (s : State) (r : BitVec 5) : BitVec 128 := s.g (pairHi r) ++ s.g r

/-- Write a pair; a write to g0:g1 changes g1 only (R286). -/
def setGPair (s : State) (r : BitVec 5) (v : BitVec 128) : State :=
  (s.setG r (fld v 0 64)).setG (pairHi r) (fld v 64 64)

/-- Where the next word comes from. -/
def setNpc (s : State) (v : W64) : State := s.modCpu fun x => { x with npc := v }

/-- Add sticky flags to FPSTAT (R165). -/
def addFlags (s : State) (f : BitVec 6) : State := s.modCpu fun x => { x with fpstat := x.fpstat ||| f }

/-- The agent of the current processor (R21). -/
def agent (s : State) : AgentId :=
  match s.cur with
  | .compute c => unitAgent c 0
  | .system k => sysAgent k

/-- The compute core whose turn it is. -/
def curCore? (s : State) : Option CoreId :=
  match s.cur with
  | .compute c => some c
  | .system _ => none

def onSystem (s : State) : Bool :=
  match s.cur with
  | .compute _ => false
  | .system _ => true

/-- Are the operands of core c's piece still to be loaded (R198)? -/
def loading (s : State) (c : CoreId) : Bool :=
  match (s.core c).piece with
  | some q => q.loading
  | none => false

/-- May the processor go on: a compute core whose CP stream runs, that is not held and not asked to stop for
a pre-emption, and whose piece has its operands (R198); a system core that is enabled and has been started (R221, R234, R407). -/
def canGo (s : State) : Proc → Bool
  | .compute c => (s.core c).run = .run && (s.core c).held.isNone && !(s.core c).preempt && !s.loading c
  | .system k => (s.sysCore k).enabled && (s.sysCore k).running

/-- Take up the waiting instruction of processor q: the instruction, and the state in which it executes. Once
it is done, the stream goes on where it would have gone. -/
def takeUp (s : State) (q : Proc) : Option (Instr × State) :=
  let x := s.cpuOf q
  match x.blocked with
  | some (i, a) => some (i, { s with cur := q, unit := .cp }.setCpuOf q { x with blocked := none, pc := a, npc := x.pc })
  | none => none

/-- After an instruction of processor q: the next word is due. -/
def advance (s : State) (q : Proc) : State := s.setCpuOf q { s.cpuOf q with pc := (s.cpuOf q).npc }

/-- Use up one free choice (log 83: DESIGN CHOICE). -/
def tick (s : State) : State := { s with moment := s.moment + 1 }

/-- The decode environment of a processor (R241, R257). -/
def env (s : State) : Proc → DecodeEnv
  | .compute c => ⟨false, (s.core c).feat⟩
  | .system _ => .system

end State

/-! ## Homes of bytes -/

def scratchHome (c : CoreId) (o : Nat) : Nat := 2 ^ 52 + c.val * 2 ^ 20 + o
def clusterHome (k : ClusterId) (o : Nat) : Nat := 2 ^ 53 + k.val * 2 ^ 22 + o
def chipHome (o : Nat) : Nat := 2 ^ 54 + o
def slateHome (c : CoreId) (o : Nat) : Nat := 2 ^ 55 + c.val * 2 ^ 20 + o
def laneHome (c : CoreId) (cell row lane : Nat) : Nat := 2 ^ 56 + c.val * 2 ^ 18 + cell * 4096 + row * 32 + lane * 4

/-- A level of memory, as a memory-model exception numbers it (R103). -/
inductive Level where
  | global | chip | cluster | scratch | slate
  deriving DecidableEq, Repr

def Level.code : Level → Nat
  | .global => 0
  | .chip => 1
  | .cluster => 2
  | .scratch => 3
  | .slate => 3

/-- The size of a detection granule (R95). -/
def Level.granule : Level → Nat
  | .global => 64
  | .chip => 64
  | _ => 16

/-- Does the level carry full/empty bits (R55)? -/
def Level.hasFull : Level → Bool
  | .chip => true
  | .cluster => true
  | .scratch => true
  | _ => false

/-! ## The die link (R128) -/

/-- The traffic that crosses the die link. -/
inductive Traffic where
  | request (slice : Nat)
  | response
  | signal
  | push
  | invalidation
  deriving DecidableEq, Repr

/-- The channel that carries it (R128). -/
def Traffic.channel : Traffic → Nat
  | .request h => h % 8
  | .response => 8
  | .signal => 9
  | .push => 9
  | .invalidation => 10

/-- The channel toward a die: channels of die 1 come after those of die 0. -/
def channelIndex (die : Bool) (ch : Nat) : Fin 22 := ⟨(if die then 11 else 0) + ch % 11, by split <;> omega⟩

/-- The die of an agent; the ports' agents have none. -/
def agentDie (a : AgentId) : Option Bool :=
  if a.toNat < 2048 then some (decide (1024 ≤ a.toNat))
  else if a.toNat < 2112 then some (decide (2080 ≤ a.toNat))
  else if a.toNat < 2128 then some (decide (2120 ≤ a.toNat))
  else none

/-- Is traffic from one die to another held at the link: while the link trains, and behind a flit of its channel that is being
replayed (R128, R437)? After the loss of the link what crosses fails, and nothing is held (log 54: DEDUCED). -/
def State.linkHolds (s : State) (src dst : Option Bool) (t : Traffic) : Bool :=
  match src, dst with
  | some a, some b => a ≠ b && !s.dieLost && (!s.dieLink || 0 < (s.channels[(channelIndex b t.channel).val]).replays)
  | _, _ => false

/-- Does traffic from one die to another meet the lost link (R437)? -/
def State.linkLost (s : State) (src dst : Option Bool) : Bool :=
  match src, dst with
  | some a, some b => a ≠ b && s.dieLost
  | _, _ => false

/-! ## Bad data (R86, R436) -/

/-- Does the write of n bytes from home a replace the whole word of key k? -/
def coversWord (a n k : Nat) : Bool := a ≤ 8 * k && 8 * k + 8 ≤ a + n

/-- The key of the word of 64 full/empty bits that holds the bit of home a's granule. -/
def fullKey (a : Nat) : Nat := 2 ^ 58 + a / 1024

namespace State

/-- n bytes from a home address. -/
def bytes (s : State) (a n : Nat) : List Byte := memBytes s.mem a n

/-- Put bytes at a home address; a word that is replaced whole is good again. -/
def setBytes (s : State) (a : Nat) (bs : List Byte) : State :=
  { s with mem := memPut s.mem a bs, flaws := s.flaws.filter fun f => !coversWord a bs.length f.1 }

/-- The first word of the n bytes from home a whose data is bad; of a write, only among the words that it replaces in
part, which are read and written back (R86, R220). -/
def flawIn (s : State) (write : Bool) (a n : Nat) : Option (Nat × Flaw) :=
  s.flaws.find? fun f => 8 * f.1 < a + n && a < 8 * f.1 + 8 && !(write && coversWord a n f.1)

/-- An n-byte little-endian number from a home address. -/
def readNat (s : State) (a n : Nat) : Nat := leNat (s.bytes a n)
def read64 (s : State) (a : Nat) : W64 := BitVec.ofNat 64 (s.readNat a 8)
def read32 (s : State) (a : Nat) : Lane := BitVec.ofNat 32 (s.readNat a 4)
def write64 (s : State) (a : Nat) (v : W64) : State := s.setBytes a (leBytes 8 v.toNat)
def write32 (s : State) (a : Nat) (v : Lane) : State := s.setBytes a (leBytes 4 v.toNat)

/-- Is the full/empty bit of the granule of home address a full (R56)? -/
def isFull (s : State) (a : Nat) : Bool := tget false s.full (a / 16)
def setFull (s : State) (a : Nat) (v : Bool) : State := { s with full := tput false s.full (a / 16) v }

end State

/-! ## Knowledge and release events (R91, R97) -/

/-- The later of two states of knowledge. -/
def knownJoin (a : Known) : Known → Known
  | [] => a
  | (k, v) :: r => knownJoin (tput 0 a k (max v (tget 0 a k))) r

namespace State

def known (s : State) (a : AgentId) : Known := tget [] s.know a.toNat

def learn (s : State) (a : AgentId) (k : Known) : State :=
  { s with know := tput [] s.know a.toNat (knownJoin (s.known a) k) }

/-- What an agent passes on at a release side: what it knows, and its own writes so far. -/
def passes (s : State) (a : AgentId) : Known :=
  if isCpuAgent a then tput 0 (s.known a) a.toNat (s.stamp + 1) else s.known a

def seq (s : State) (a : AgentId) : W64 := tget 0 s.seqs a.toNat

/-- Are all earlier writes of the agent acknowledged at their homes (R97, R148)? (log 78: DEDUCED) -/
def acked (s : State) (a : AgentId) : Bool := !(s.fbcStores.any fun f => f.agent = a)

/-- A release event of the agent, its writes being acknowledged (R97). The stamp separates the writes
before it from those after it. -/
def release (s : State) (a : AgentId) : State :=
  { s with seqs := tput 0 s.seqs a.toNat (s.seq a + 1), stamp := s.stamp + 1 }

/-- A release event of an agent that has stopped: at once, or when its writes are acknowledged (R97, R221). -/
def releaseSoon (s : State) (a : AgentId) : State :=
  if s.acked a then s.release a else { s with releases := s.releases.filter (· ≠ a) ++ [a] }

/-- A release event of each of the agents. -/
def releaseAll (s : State) : List AgentId → State
  | [] => s
  | a :: r => (s.releaseSoon a).releaseAll r

end State

/-! ## Stopping a compute core, exceptions of a system core -/

/-- The seven agents of a core (R21). -/
def coreAgents (c : CoreId) : List AgentId := (List.range 7).map (unitAgent c)

/-- The cause that bad data has for an agent: 324 or 325 on a processor, engine reason 5 or 4, 372 or 373 at a port,
where an uncorrectable error has no code (R220, R227, R228, R436). -/
def flawCause (a : AgentId) (f : Flaw) : Nat :=
  let ecc : Nat := if f = .ecc then 1 else 0
  if isCpuAgent a then 325 - ecc
  else if a.toNat < 2048 then 192 + 8 * (a.toNat % 8 - 1) + 4 + ecc
  else if a.toNat < 2112 then 244 + ecc
  else if f = .ecc then 0 else if a = hostAgent then 372 else 373

/-- Is the cause engine reason 4 or 5 (R227)? -/
def badData (cause : Nat) : Bool := 192 ≤ cause && cause < 248 && (cause % 8 = 4 || cause % 8 = 5)

/-- Does a read that fails with the cause deliver zero bytes: refused under R104, or bad data? -/
def readsZero (cause : Nat) : Bool := (128 ≤ cause && cause < 192) || badData cause

/-- The detail word of a cause outside group 2 (R223): agent, queue, command position. -/
def detailWord (a : AgentId) (queue pos : Nat) : W64 :=
  BitVec.ofNat 64 (a.toNat + queue * 2 ^ 12 + (pos % 32) * 2 ^ 15)

namespace State

/-- Stop a core (R220, R221): its context is held and a release event takes place for each of its agents.
A core that is held takes no new cause. Under a debug halt the watchdog stands still (R243). -/
def stopCore (s : State) (c : CoreId) (cls : StopClass) (cause : Nat) (addr detail : W64) : State :=
  if (s.core c).held.isSome then s
  else
    let s := s.modCore c fun k => { k with
      held := some ⟨cls, cause, addr, detail, false, none, []⟩, dog := if cause = 327 then s.us - k.dog else k.dog }
    s.releaseAll (coreAgents c)

/-- An exception of system core k (R407): SEPC takes `ret`, the entry is SVEC. With IE = 0 the core stops
and stays disabled until the next boot, and the die's other system cores report it (R443) (log 73: DEDUCED). -/
def exceptionEntry (s : State) (k : SysId) (cause : Nat) (addr ret : W64) : State :=
  let y := s.sysCore k
  if y.ie then
    s.setSys k { y with
      sepc := fld ret 3 61, scause := BitVec.ofNat 10 cause, sfaddr := addr, pie := y.ie, ie := false,
      x := { y.x with npc := y.svec ++ (0 : BitVec 3), fetched := [], blocked := none } }
  else
    let s := s.setSys k { y with enabled := false, running := false, x := { y.x with blocked := none } }
    if (List.finRange 16).any fun j => decide (j.val / 8 = k.val / 8) && (s.sysCore j).enabled then
      { s with pfEvents := s.pfEvents ++ [.systemCore k] }
    else s

/-- An interrupt of system core k (R407): INT set, SEPC the next PC, no fault address. -/
def interruptEntry (s : State) (k : SysId) (code : Nat) : State :=
  let y := s.sysCore k
  let entry := y.svec ++ (0 : BitVec 3)
  s.setSys k { y with
    sepc := fld y.x.pc 3 61, scause := BitVec.ofNat 10 (512 + code), sfaddr := 0, pie := y.ie, ie := false,
    x := { y.x with pc := entry, npc := entry, fetched := [], blocked := none } }

/-- The return from an exception (R408): PC := SEPC, IE := PIE. -/
def exceptionReturn (s : State) (k : SysId) : State :=
  let y := s.sysCore k
  s.setSys k { y with ie := y.pie, x := { y.x with npc := y.sepc ++ (0 : BitVec 3), fetched := [] } }

/-- The current processor's instruction raises a cause at itself (R220, R407): nothing of it is done, and
the PC names it. -/
def trap (s : State) (cause : Nat) (addr : W64) (detail : Option W64) : State :=
  match s.cur with
  | .compute c =>
    (s.setNpc s.cpu.pc).stopCore c .precise cause addr (detail.getD (detailWord (unitAgent c 0) 7 0))
  | .system k => s.exceptionEntry k cause addr s.cpu.pc

/-- The current processor's instruction completes and stops the processor (SYSCALL, BRK, HALT: R302,
R300, R304): the PC names the next word. -/
def stopAfter (s : State) (cls : StopClass) (cause : Nat) : State :=
  match s.cur with
  | .compute c => s.stopCore c cls cause 0 (detailWord (unitAgent c 0) 7 0)
  | .system k => s.exceptionEntry k cause 0 s.cpu.npc

end State

/-! ## Meanings that can stop on the way -/

/-- What a waiting access waits for, where the device's other steps must know: a slate page that the Quay
reads, with the item and address of an engine's write (R79, R81), a guarded slate page (R231), the full/empty
bits of its granules (R65), a bandwidth regulator that holds its request, with what it has been charged before (R439). Pages are numbered 0 to 255 over the two banks. -/
inductive WaitFor where
  | other
  | fe
  | slate (c : CoreId) (page : Nat) (item : Option (Nat × W64))
  | guarded (c : CoreId) (page : Nat)
  | regulator (r : MemRequest) (paid : List MemRequest)
  deriving DecidableEq, Repr

/-- Why a meaning stops on the way: a cause with its fault address and detail word, or a wait. Nothing of
what it did before stands. -/
inductive Stop where
  | trap (cause : Nat) (addr : W64) (detail : Option W64)
  | wait (what : WaitFor)
  deriving DecidableEq, Repr

namespace State

/-- A regulator of a memory controller, by controller and partition (R439). -/
def regulator (s : State) (key : Nat) : Regulator := tget Regulator.zero s.regulators key
def setRegulator (s : State) (key : Nat) (r : Regulator) : State :=
  { s with regulators := tput Regulator.zero s.regulators key r }

/-- Charge a request to its regulator; one that is disabled counts nothing (R439) (log 49: DEDUCED). -/
def charge (s : State) (r : MemRequest) : State :=
  let v := s.regulator r.reg
  if v.en then s.setRegulator r.reg { v with used := v.used + r.bytes } else s

/-- An admitted request's access may be performed. -/
def grant (s : State) (r : MemRequest) : State :=
  match r.agent with
  | some a => { s with requests := { s.requests with granted := s.requests.granted.filter (· ≠ (a, r.line)) ++ [(a, r.line)] } }
  | none => s

/-- A request is held, behind those before it; of one access, once (R439). -/
def holdRequest (s : State) (r : MemRequest) : State :=
  let s := s.setRegulator r.reg { s.regulator r.reg with throttled := true }
  if r.agent.isSome && s.requests.held.any (fun x => x.agent = r.agent && x.line = r.line) then s
  else { s with requests := { s.requests with held := s.requests.held ++ [r] } }

/-- Record what an access waits for: that a regulator holds a request, those before it being admitted (R439), that a write
stalls on a slate page (R81, R231). -/
def noteHeld (s : State) : WaitFor → State
  | .regulator r paid =>
    let s := (paid.drop s.requests.paid.length).foldl (fun s x => (s.charge x).grant x) s
    { s with requests := { s.requests with paid := paid } }.holdRequest r
  | .slate c page item => s.modCore c fun k => { k with
      slateWait := if k.slateWait.contains (item, page) then k.slateWait else k.slateWait ++ [(item, page)] }
  | .guarded c page => s.modCore c fun k => { k with
      guardWait := if k.guardWait.contains page then k.guardWait else k.guardWait ++ [page] }
  | .other => s
  | .fe => s

/-- The current instruction waits: it has issued, and changes nothing more until it can go on. An access
that waits on full/empty bits takes its place in the order of arrival (R65). -/
def block (s : State) (i : Instr) (what : WaitFor) : State :=
  let s := s.modCpu fun x => { x with blocked := some (i, x.pc) }
  let s := if what = .fe then { s with feQueue := s.feQueue.filter (· ≠ .proc s.cur) ++ [.proc s.cur] } else s
  s.noteHeld what

end State

/-- A computation over the state that can stop. -/
abbrev M := StateT State (Except Stop)

/-- Run an instruction's meaning on the current processor. -/
def runInstr (i : Instr) (m : M Unit) (s : State) : Out :=
  match m s with
  | .ok (_, t) => .next t
  | .error (.trap cause addr detail) => .next (s.trap cause addr detail)
  | .error (.wait what) => .next (s.block i what)

/-- Stop with a cause and no fault address. -/
def raise {α : Type} (cause : Nat) (addr : W64 := 0) : M α := throw (.trap cause addr none)

/-- Wait unless the condition holds. -/
def waitUnless (b : Bool) : M Unit := if b then pure () else throw (.wait .other)

end Sys2Proof.Machine
end

