-- ==== Sys2Proof/Machine/Translate.lean ====
section
/-! DEFINITION. Virtual addresses to homes: windows, the four-level walk with its checks and their order,
translations cached by their holders, and the location word (R24 to R54, R410, R445). -/

namespace Sys2Proof.Machine

/-- The kinds of access, numbered as a fault numbers them (R43). -/
inductive Kind where
  | load | store | atomic | fetch | engRead | engWrite | matrix
  deriving DecidableEq, Repr

def Kind.code : Kind → Nat
  | .load => 0
  | .store => 1
  | .atomic => 2
  | .fetch => 3
  | .engRead => 4
  | .engWrite => 5
  | .matrix => 6

/-- The cause code of a translation and access fault (R43). -/
def accessCause (k : Kind) (reason : Nat) : Nat := 64 + k.code * 8 + reason
def walkCause (reason : Nat) : Nat := 64 + 56 + reason

/-- Who makes an access: its agent, the core whose own windows it may use, whether it is a system core,
its translation space (none outside every partition), who holds its translations. -/
structure Who where
  agent : AgentId
  own : Option CoreId
  sys : Bool
  space : Option Nat
  part : Option PartId
  holder : Holder
  deriving DecidableEq, Repr

/-- The structure that unit u of core c looks in first; the scan and grid engines, to which the table gives none, use the
second level (R44) (log 9: DESIGN CHOICE). -/
def unitHolder (c : CoreId) (u : Nat) : Holder :=
  match u with
  | 0 => .data c
  | 1 => .stream c
  | 4 => .array (coreCluster c)
  | 5 => .copy c
  | 6 => .quay c
  | _ => .second c

/-- The structure of an access: a CP fetches through one of its own. -/
def Who.holderFor (w : Who) (k : Kind) : Holder :=
  match w.holder, k with
  | .data c, .fetch => .fetch c
  | h, _ => h

/-- The structure behind another. -/
def Holder.next : Holder → Option Holder
  | .fetch c => some (.second c)
  | .data c => some (.second c)
  | .stream c => some (.second c)
  | .copy c => some (.second c)
  | .quay c => some (.second c)
  | _ => none

/-- The core whose second-level structure stands behind this one, or is this one. -/
def Holder.secondOf : Holder → Option CoreId
  | .second c => some c
  | h => match h.next with
    | some (.second c) => some c
    | _ => none

/-- Sets and ways of a structure; none where the table gives no size (log 9: DESIGN CHOICE). -/
def Holder.shape : Holder → Option (Nat × Nat)
  | .fetch _ => some (1, 32)
  | .data _ => some (1, 64)
  | .stream _ => some (1, 32)
  | .copy _ => some (1, 32)
  | .quay _ => some (1, 16)
  | .second _ => some (256, 8)
  | .array _ => some (1, 64)
  | .tide _ => some (16, 8)
  | .sys _ => none
  | .port => none

namespace State

def whoCore (s : State) (c : CoreId) (u : Nat) : Who :=
  let part := (s.core c).part
  { agent := unitAgent c u, own := some c, sys := false, space := part.map (·.val), part := part,
    holder := unitHolder c u }

def whoSys (k : SysId) : Who :=
  { agent := sysAgent k, own := none, sys := true, space := some 32, part := none, holder := .sys k }

/-- A tide engine translates in the space of the issuing core's partition (R31). -/
def whoTide (s : State) (t : TideId) (issuer : CoreId) : Who :=
  let part := (s.core issuer).part
  { agent := tideAgent t, own := none, sys := false, space := part.map (·.val), part := part,
    holder := .tide t }

/-- The current processor. -/
def who (s : State) : Who :=
  match s.cur with
  | .compute c => s.whoCore c 0
  | .system k => whoSys k

end State

/-! ## Physical addresses -/

/-- The number of set bits below bit n. -/
def popCount (v : Nat) : Nat → Nat
  | 0 => 0
  | n + 1 => v / 2 ^ n % 2 + popCount v n

/-- The k-th set bit, counted from 0, among bits lo to lo + n - 1. -/
def kthBit (v : Nat) : Nat → Nat → Nat → Nat
  | 0, lo, _ => lo
  | n + 1, lo, k =>
    if v / 2 ^ lo % 2 = 1 then (if k = 0 then lo else kthBit v n (lo + 1) (k - 1))
    else kthBit v n (lo + 1) k

namespace State

def nSlices (s : State) : Nat := popCount s.slices.toNat 64
def nChannels (s : State) : Nat := popCount s.ctrls.toNat 48

/-- Bytes of LPDDR6 (R42). -/
def dramTop (s : State) : Nat := s.nChannels * 2 ^ 33

/-- Is every byte of [a, a + n) backed, as memory or as the host window (R42)? -/
def backed (s : State) (a n : Nat) : Bool := a + n ≤ s.dramTop || (2 ^ 51 ≤ a && a + n ≤ 2 ^ 52)

end State

def isHostWindow (a : Nat) : Bool := 2 ^ 51 ≤ a

/-! ## CRC-32C and home slices (R50, R51) -/

/-- One bit of the reflected CRC. -/
def crcBit (c : BitVec 32) : BitVec 32 :=
  if c.getLsbD 0 then (c >>> 1) ^^^ 0x82F63B78 else c >>> 1

def crcBits : Nat → BitVec 32 → BitVec 32
  | 0, c => c
  | n + 1, c => crcBits n (crcBit c)

def crcBytes : List Byte → BitVec 32 → BitVec 32
  | [], c => c
  | b :: bs, c => crcBytes bs (crcBits 8 (c ^^^ b.setWidth 32))

/-- CRC-32C, reflected, with initial value and final XOR of all ones (R50). -/
def crc32c (bs : List Byte) : BitVec 32 := crcBytes bs 0xFFFFFFFF ^^^ 0xFFFFFFFF

namespace State

/-- The home slice of a physical line (R50). -/
def homeSlice (s : State) (pa : Nat) : Nat :=
  let h := (crc32c (leBytes 6 (pa / 128 % 2 ^ 41))).toNat
  kthBit s.slices.toNat 64 0 (h * s.nSlices / 2 ^ 32)

/-- The channel of a physical page of LPDDR6 (R51). -/
def channelOf (s : State) (pa : Nat) : Nat :=
  let n := s.nChannels
  let pg := pa / 4096
  let h := (crc32c (leBytes 6 (pg / n))).toNat
  kthBit s.ctrls.toNat 48 0 ((pg % n + h * n / 2 ^ 32) % n)

/-- The slice whose walker serves a holder (R44); accesses of the ports and of the Timetables, to which the table gives no
walker, use that of the first enabled slice (log 89: DESIGN CHOICE). -/
def walkerSlice (s : State) (h : Holder) : Nat :=
  let n := s.nSlices
  let own (i : Nat) : Nat :=
    -- the next enabled slice from i on, wrapping
    match (List.range 64).find? fun d => s.slices.getLsbD ((i + d) % 64) with
    | some d => (i + d) % 64
    | none => i
  match h with
  | .fetch c => own (coreCluster c).val
  | .data c => own (coreCluster c).val
  | .stream c => own (coreCluster c).val
  | .copy c => own (coreCluster c).val
  | .quay c => own (coreCluster c).val
  | .second c => own (coreCluster c).val
  | .array k => own k.val
  | .tide t => kthBit s.slices.toNat 64 0 (t.val * n / 64)
  | .sys k => kthBit s.slices.toNat 64 0 (k.val * n / 16)
  | .port => kthBit s.slices.toNat 64 0 0

end State

/-! ## Leaf fields (R33) -/

def leafFmt (e : W64) : Nat := (fld e 10 6).toNat
def leafPfn (e : W64) : Nat := (fld e 16 36).toNat
def leafCpol (e : W64) : Nat := (fld e 52 2).toNat
def leafGeo (e : W64) : Bool := e.getLsbD 54
def leafBud (e : W64) : Nat := (fld e 55 3).toNat
def leafCreg (e : W64) : Nat := (fld e 58 6).toNat
def leafR (e : W64) : Bool := e.getLsbD 2
def leafW (e : W64) : Bool := e.getLsbD 3
def leafX (e : W64) : Bool := e.getLsbD 4
def leafSC (e : W64) : Bool := e.getLsbD 5
def leafRD (e : W64) : Bool := e.getLsbD 6

/-- The attributes an L2 line keeps: FMT, GEO, BUD, CREG, CPOL (R41). -/
def leafAttrs (e : W64) : BitVec 18 :=
  fld e 10 6 ++ fld e 54 1 ++ fld e 55 3 ++ fld e 58 6 ++ fld e 52 2

/-- The attributes of a window: raw, SC clear, RD set, readable and writable (R26). -/
def windowLeaf : W64 := 0x4C

/-- The physical base of a leaf's page or backing (R34). -/
def leafBase (e : W64) : Nat := if leafFmt e = 8 then leafPfn e * 2 ^ 12 else leafPfn e * 2 ^ 16

/-- log2 of the page size of a leaf at level 1, 2 or 3 (R30). -/
def levelBits (level : Nat) : Nat := if level = 1 then 30 else if level = 2 then 21 else 16

/-- Bytes of a page's frame or backing (R34). -/
def leafSpan (e : W64) (level : Nat) : Nat :=
  if leafFmt e = 8 then 2 ^ levelBits level * budBits (leafBud e) / 64 else 2 ^ levelBits level

/-! ## The walk (R30 to R36, R445) -/

/-- The page that a walk for an address is for: the leaf's, or, where it finds none, the smallest (log 9: DESIGN CHOICE). -/
def WalkEnd.page (space va : Nat) (e : WalkEnd) : PageId :=
  let b := match e with
    | .leaf _ level => levelBits level
    | _ => 16
  ⟨space, va / 2 ^ b * 2 ^ b, b⟩

/-- Illegal attribute combinations of a leaf (R36). -/
def leafIllegal (s : State) (space : Nat) (e : W64) : Bool :=
  let f := leafFmt e
  f > 10 || leafCpol e = 3 || leafBud e = 7 ||
  (f ≠ 8 && (leafCreg e ≠ 0 || leafBud e ≠ 0 || leafGeo e)) ||
  (f = 8 && leafCpol e = 2) || (leafX e && f ≠ 0) ||
  (f = 8 && ((s.regions[leafCreg e % 64]'(Nat.mod_lt _ (by decide))).space.map (·.toNat)) ≠ some space) ||
  (isHostWindow (leafBase e) && (f ≠ 0 || leafCpol e ≠ 2))

/-- The check of one entry at a level, in the order of R445: the walk's end, or the next table. -/
def checkEntry (s : State) (space level : Nat) (e : W64) : Except WalkEnd Nat :=
  if !e.getLsbD 0 then .error .unmapped
  else if e.getLsbD 1 then
    if fld e 7 3 ≠ 0 then .error (.fault 0)
    else if level = 0 then .error (.fault 1)
    else if leafFmt e ≠ 8 && leafPfn e % 2 ^ (levelBits level - 16) ≠ 0 then .error (.fault 2)
    else if leafIllegal s space e then .error (.fault 4)
    else if !s.backed (leafBase e) (leafSpan e level) then .error (.fault 3)
    else .error (.leaf e level)
  else
    let next := (fld e 8 44).toNat * 256
    if fld e 52 12 ≠ 0 || fld e 2 6 ≠ 0 then .error (.fault 0)
    else if level = 3 then .error (.fault 1)
    else if level < 2 && next % 4096 ≠ 0 then .error (.fault 6)
    else if !s.backed next (if level = 2 then 256 else 4096) then .error (.fault 3)
    else .ok next

/-- The low bit of the index of a level. -/
def levelShift (level : Nat) : Nat := if level = 0 then 39 else levelBits level

/-- The index of a level (R30). -/
def levelIndex (va level : Nat) : Nat := va / 2 ^ levelShift level % (if level = 3 then 32 else 512)

/-- A cached pointer of a slice's walk cache (R44). -/
def cachedPointer (s : State) (slice space level va : Nat) : Option Nat :=
  (s.walkCache.find? fun w => w.slice = slice && w.space = space && w.level = level &&
    w.tag = va / 2 ^ levelShift level).map (·.next)

/-- Read the entry of a table and check it; an uncorrectable error comes first (R445). -/
def tableEntry (s : State) (space level a : Nat) : Except WalkEnd Nat :=
  if (s.flawIn false a 8).isSome then .error (.fault 5) else checkEntry s space level (s.read64 a)

/-- Walk from `level` on, `n` levels left: the end, and the pointers read from memory on the way. -/
def walkFrom (s : State) (slice space va : Nat) : Nat → Nat → Nat → WalkEnd × List WalkEntry
  | 0, _, _ => (.unmapped, [])
  | n + 1, level, table =>
    match cachedPointer s slice space level va with
    | some next => walkFrom s slice space va n (level + 1) next
    | none =>
      match tableEntry s space level (table + 8 * levelIndex va level) with
      | .error e => (e, [])
      | .ok next =>
        let (r, ws) := walkFrom s slice space va n (level + 1) next
        (r, ⟨slice, space, level, va / 2 ^ levelShift level, next⟩ :: ws)

/-- The addresses of the entries that the walk reads. -/
def walkReads (s : State) (slice space va : Nat) : Nat → Nat → Nat → List Nat
  | 0, _, _ => []
  | n + 1, level, table =>
    match cachedPointer s slice space level va with
    | some next => walkReads s slice space va n (level + 1) next
    | none =>
      let a := table + 8 * levelIndex va level
      a :: (match tableEntry s space level a with
        | .error _ => []
        | .ok next => walkReads s slice space va n (level + 1) next)

namespace State

/-- The root of a space (R31). -/
def rootOf (s : State) (space : Nat) : Option Nat :=
  if space = 32 then s.superRoot
  else if h : space < 32 then
    (if (s.parts[space]'h).assigned then some (s.parts[space]'h).root else none)
  else none

/-- A translation enters its holder's structure; in a set that is full another gives way (R44). -/
def fillTlb (s : State) (e : TlbEntry) : State :=
  let own := s.tlb.filter fun x => x.holder = e.holder
  let mates (sets : Nat) : List TlbEntry := own.filter fun x => Config.tlbSet x % sets = Config.tlbSet e % sets
  match e.holder.shape with
  | none => { s with tlb := s.tlb ++ [e] }
  | some (sets, ways) =>
    if own.length < ways || (mates sets).length < ways then { s with tlb := s.tlb ++ [e] }
    else match (mates sets)[Config.tlbVictim (mates sets) % ways]? with
      | some v => { s with tlb := s.tlb.erase v ++ [e] }
      | none => { s with tlb := s.tlb ++ [e] }

/-- A pointer enters a slice's walk cache, of 256 entries (R44). -/
def fillWalk (s : State) (w : WalkEntry) : State :=
  let own := s.walkCache.filter fun x => x.slice = w.slice
  if own.length < 256 then { s with walkCache := s.walkCache ++ [w] }
  else match own[Config.walkVictim own % 256]? with
    | some v => { s with walkCache := s.walkCache.erase v ++ [w] }
    | none => { s with walkCache := s.walkCache ++ [w] }

/-- A holder's cached translation of an address. -/
def tlbHit (s : State) (h : Holder) (space va : Nat) : Option TlbEntry :=
  s.tlb.find? fun e => e.holder = h && e.space = space && e.base ≤ va && va < e.base + 2 ^ e.log2

/-- The end of a walk reaches a holder: a leaf enters its structure and the one behind it (R44, R46). -/
def enterEnd (s : State) (h : Holder) (space va : Nat) (e : WalkEnd) : State :=
  match e with
  | .leaf l level =>
    let b := levelBits level
    let enter (h : Holder) (s : State) : State := s.fillTlb ⟨h, space, va / 2 ^ b * 2 ^ b, b, l⟩
    enter h (match h.next with
      | some h2 => enter h2 s
      | none => s)
  | _ => s

/-- The walk in flight at a holder's walker for the page that holds an address (R45). -/
def walkFor (s : State) (h : Holder) (space va : Nat) : Option Walk :=
  s.walks.find? fun w => w.page.space = space && w.page.base ≤ va && va < w.page.base + 2 ^ w.page.log2 &&
    w.slice = s.walkerSlice h

/-- Walk for a holder: a miss joins the walk in flight for its page and takes that end; else it walks, beginning and ending
within the step, and the walk cache is filled (R44, R45) (log 9: DESIGN CHOICE). -/
def walk (s : State) (h : Holder) (space va : Nat) : WalkEnd × State :=
  match s.walkFor h space va, s.rootOf space with
  | some w, _ => (w.result, s.enterEnd h space va w.result)
  | none, none => (.unmapped, s)
  | none, some root =>
    let (e, ws) := walkFrom s (s.walkerSlice h) space va 4 0 root
    (e, (ws.foldl fillWalk s).enterEnd h space va e)

/-- Translate a global address: a leaf cached by the holder, or in the structure behind it, or a walk (R44). -/
def lookup (s : State) (h : Holder) (space va : Nat) : WalkEnd × State :=
  let leaf (e : TlbEntry) : WalkEnd := .leaf e.leaf (if e.log2 = 30 then 1 else if e.log2 = 21 then 2 else 3)
  match s.tlbHit h space va, h.next.bind fun h2 => s.tlbHit h2 space va with
  | some e, _ => (leaf e, s)
  | none, some e => (leaf e, s.fillTlb { e with holder := h })
  | none, none => s.walk h space va

end State

/-! ## Parts of an access -/

/-- Where the bytes of a part lie: plain bytes from a home address, or decoded bytes from offset `off` of
the page whose backing starts at `backing`. -/
inductive Home where
  | plain (a : Nat)
  | fbc (backing off : Nat)
  | window (c : CoreId) (off : Nat)
  deriving DecidableEq, Repr

/-- A part of an access that lies in one page or window: first address, length, home, level, attributes,
log2 of the page size (0 for a window). -/
structure Part where
  va : W64
  len : Nat
  home : Home
  level : Level
  leaf : W64
  log2 : Nat
  deriving DecidableEq, Repr

def Part.isWindow (p : Part) : Bool := p.log2 = 0
def Part.fmt (p : Part) : Nat := leafFmt p.leaf

/-- Why a translation fails: cause code. -/
abbrev TransFault := Nat

/-- Translate an access of n bytes inside a window (R25 to R28, R37, R64, R445). `fe` says that it carries
a full/empty qualifier. -/
def windowPart (s : State) (w : Who) (k : Kind) (fe : Bool) (va : W64) (n : Nat) : Except TransFault Part :=
  let sel := (fld va 44 4).toNat
  let off := (fld va 0 44).toNat
  let bad (r : Nat) : Except TransFault Part := .error (accessCause k r)
  -- only compute cores, tide engines and system cores may use a window (R27)
  let listed := w.agent.toNat < 2128
  let part (home : Nat) (level : Level) : Except TransFault Part :=
    if k = .atomic || k = .fetch || (fe && level = .slate) then bad 5
    else .ok ⟨va, n, .plain home, level, windowLeaf, 0⟩
  let inPart (c : CoreId) : Bool := w.sys || (match w.part with
    | some t => rectHas s.parts[t.val].rect c
    | none => false)
  if sel = 0xF then
    match w.own with
    | some c => if off + n ≤ 2 ^ 20 then part (scratchHome c off) .scratch else bad 2
    | none => bad 2
  else if sel = 0xE then
    match w.own with
    | some c => if off + n ≤ 2 ^ 22 then part (clusterHome (coreCluster c) off) .cluster else bad 2
    | none => bad 2
  else if sel = 0xD then
    let o := off % 2 ^ 20
    if !listed || off ≥ 2 ^ 29 || off / 2 ^ 20 % 2 = 1 || o + n > 2 ^ 20 then bad 2
    else
      let c : CoreId := ⟨off / 2 ^ 21 % 256, Nat.mod_lt _ (by decide)⟩
      if inPart c then part (scratchHome c o) .scratch else bad 3
  else if sel = 0xC then
    if !listed || off + n > 96 * 2 ^ 20 then bad 2
    else
      let reserved (a : Nat) : Bool := (0x2C00000 ≤ a && a < 0x3000000) || 0x5C00000 ≤ a
      let allowed := w.sys || (match w.part with
        | some t => s.parts[t.val].base * 65536 ≤ off && off + n ≤ s.parts[t.val].limit * 65536 &&
            !reserved off && !reserved (off + n - 1)
        | none => false)
      if allowed then part (chipHome off) .chip else bad 3
  else
    match w.own with
    | some c => if off + n ≤ 2 ^ 20 then part (slateHome c off) .slate else bad 2
    | none => bad 2

/-- Permission, format and level checks of a leaf for an access (R35, R37, R64, R445). -/
def leafFault (k : Kind) (fe : Bool) (e : W64) : Option Nat :=
  let fbc := leafFmt e = 8
  let perm := match k with
    | .load | .engRead | .matrix => leafR e
    | .store | .engWrite => leafW e && (!fbc || leafR e)
    | .atomic => leafR e && leafW e
    | .fetch => leafX e
  if !perm then some (accessCause k 1)
  else if k = .atomic && leafFmt e ≠ 0 then some (accessCause k 4)
  else if fe || (k = .atomic && isHostWindow (leafBase e)) then some (accessCause k 5)
  else none

/-- A mapped trap window that holds the address (R410). -/
def trapWindowAt (s : State) (va : Nat) : Option CoreId :=
  (s.windows.find? fun m => m.1 ≤ va && va < m.1 + 65536).map (·.2)

/-- Translate the part of a global access that lies in one page. -/
def globalPart (s : State) (w : Who) (k : Kind) (fe : Bool) (va : W64) (n : Nat) :
    Except TransFault (Part × State) :=
  match (if w.sys then trapWindowAt s va.toNat else none) with
  | some c =>
    if k = .atomic || k = .fetch || fe then .error (accessCause k 5)
    else .ok (⟨va, n, .window c (va.toNat % 65536), .global, 0x0C, 0⟩, s)
  | none =>
    match w.space with
    | none => .error (accessCause k 0)
    | some space =>
      match s.lookup (w.holderFor k) space va.toNat with
      | (.unmapped, _) => .error (accessCause k 0)
      | (.fault r, _) => .error (walkCause r)
      | (.leaf e level, s) =>
        match leafFault k fe e with
        | some c => .error c
        | none =>
          let b := levelBits level
          let off := va.toNat % 2 ^ b
          let home := if leafFmt e = 8 then Home.fbc (leafBase e) off else .plain (leafBase e + off)
          .ok (⟨va, n, home, .global, e, b⟩, s)

/-- Translate one part that does not cross a 64 KiB boundary (every page and trap window is a multiple of
it), the class of its address first (R24, R445). -/
def translatePart (s : State) (w : Who) (k : Kind) (fe : Bool) (va : W64) (n : Nat) :
    Except TransFault (Part × State) :=
  if fld va 48 16 = 0 then globalPart s w k fe va n
  else .error (accessCause k 2)

/-- Translate an access of n bytes into its parts, page by page (R24, R25, R29). -/
def translateAccess (s : State) (w : Who) (k : Kind) (fe : Bool) (va : W64) (n : Nat) :
    Except TransFault (List Part × State) :=
  if fld va 48 16 = 0xFFFF && (fld va 44 4).toNat ≥ 0xB then
    (windowPart s w k fe va n).map fun p => ([p], s)
  else
    let first := min n (65536 - va.toNat % 65536)
    if first = n then (translatePart s w k fe va n).map fun r => ([r.1], r.2)
    else do
      let (p, s) ← translatePart s w k fe va first
      let (q, s) ← translatePart s w k fe (va + BitVec.ofNat 64 first) (n - first)
      pure ([p, q], s)

/-! ## LOCQ -/

/-- The location word of an address for the current processor, and the state with the translation cached (R53, R54). A
block's encoding is located by its first byte, and a system core's address under a mapped trap window by its page
(log 90: DESIGN CHOICE). -/
def locate (s : State) (w : Who) (va : W64) : W64 × State :=
  let word (ok level reason die cluster core slice channel size fmt : Nat) : W64 :=
    BitVec.ofNat 64 (ok * 2 ^ 63 + level * 2 ^ 60 + reason * 2 ^ 56 + die * 2 ^ 55 + cluster * 2 ^ 49 +
      core * 2 ^ 41 + slice * 2 ^ 35 + channel * 2 ^ 29 + size * 2 ^ 27 + fmt * 2 ^ 21)
  let failed (cause : Nat) : W64 :=
    if cause ≥ 120 then word 0 0 (8 + cause % 8) 0 0 0 0 0 0 0 else word 0 0 (cause % 8) 0 0 0 0 0 0 0
  if fld va 48 16 = 0xFFFF && (fld va 44 4).toNat ≥ 0xB then
    match windowPart s w .load false va 1 with
    | .error c => (failed c, s)
    | .ok p =>
      let h := match p.home with | .plain a => a | _ => 0
      match p.level with
      | .scratch =>
        let c : CoreId := ⟨(h - 2 ^ 52) / 2 ^ 20 % 256, Nat.mod_lt _ (by decide)⟩
        (word 1 2 0 (coreDie c) (coreCluster c).val c.val 0 0 3 0, s)
      | .cluster =>
        let o := h - 2 ^ 53
        let k : ClusterId := ⟨o / 2 ^ 22 % 64, Nat.mod_lt _ (by decide)⟩
        let c := memberCore k ⟨o / 4096 % 4, Nat.mod_lt _ (by decide)⟩
        (word 1 3 0 (coreDie c) k.val c.val 0 0 3 0, s)
      | .chip => (word 1 4 0 (if h - 2 ^ 54 ≥ 0x3000000 then 1 else 0) 0 0 0 0 3 0, s)
      | _ =>
        let c : CoreId := ⟨(h - 2 ^ 55) / 2 ^ 20 % 256, Nat.mod_lt _ (by decide)⟩
        (word 1 5 0 (coreDie c) (coreCluster c).val c.val 0 0 3 0, s)
  else if fld va 48 16 ≠ 0 then (failed (accessCause .load 2), s)
  else match w.space with
    | none => (failed (accessCause .load 0), s)
    | some space =>
      match s.lookup w.holder space va.toNat with
      | (.unmapped, s) => (failed (accessCause .load 0), s)
      | (.fault r, s) => (failed (walkCause r), s)
      | (.leaf e level, s) =>
        let b := levelBits level
        let off := va.toNat % 2 ^ b
        let pa := if leafFmt e = 8 then leafBase e + off / 128 * (budBits (leafBud e) * 2)
          else leafBase e + off
        let sl := s.homeSlice pa
        let host := isHostWindow pa
        (word 1 (if host then 1 else 0) 0 (sl / 32) sl 0 sl (if host then 0 else s.channelOf pa)
          (if level = 1 then 2 else if level = 2 then 1 else 0) (leafFmt e), s)

end Sys2Proof.Machine
end

