-- ==== Sys2Proof/Machine/Requests.lean ====
section
/-! DEFINITION. Requests to the memory controllers, which bandwidth regulators admit or hold (R439), and the walks of an
access that misses, with their limits (R44, R45). -/

namespace Sys2Proof.Machine

/-! ## Bandwidth regulators (R439) -/

/-- Is there room in the interval: the regulator is off, or its used count is below the budget? -/
def Regulator.admits (r : Regulator) : Bool := !r.en || r.used < 64 * r.budget.toNat

/-- Is a request to the line held? A later one to it stays behind that. -/
def State.lineHeld (s : State) (line : Nat) : Bool := s.requests.held.any fun x => x.line = line

/-- Make one request of an access: one that has been admitted already goes on, any other is charged, or is held. -/
def chargeOne (s : State) (r : MemRequest) : Except WaitFor State :=
  let q := s.requests
  match r.agent with
  | some a =>
    if q.granted.contains (a, r.line) then .ok { s with requests := { q with granted := q.granted.erase (a, r.line) } }
    else if s.lineHeld r.line || !(s.regulator r.reg).admits then .error (.regulator r q.paid)
    else .ok { s.charge r with requests := { q with paid := q.paid ++ [r] } }
  | none =>
    if s.lineHeld r.line || !(s.regulator r.reg).admits then .ok (s.holdRequest r) else .ok (s.charge r)

/-- Make the requests of an access in order: the state, or the wait for the first that is held. What those before it were
charged stands (`State.noteHeld`). -/
def chargeAll (s : State) : List MemRequest → Except WaitFor State
  | [] => .ok s
  | r :: rest => match chargeOne s r with
    | .ok s => chargeAll s rest
    | .error e => .error e

/-- The requests of an access on the current state. -/
def chargeRequests (rs : List MemRequest) : M Unit := do
  match chargeAll (← get) rs with
  | .ok s => set s
  | .error e => throw (.wait e)

/-- Make a request of the Timetable, once in a step: one that its regulator does not admit is noted, so that the step does not
take place yet (`heldBack`). -/
def State.chargeTable (s : State) (r : MemRequest) : State :=
  let q := s.requests
  if q.paid.any fun x => x.agent = r.agent && x.line = r.line then s
  else match chargeOne s r with
    | .ok t => if t.requests.paid = q.paid then { t with requests := { t.requests with paid := q.paid ++ [{ r with bytes := 0 }] } } else t
    | .error _ => { s with requests := { q with unpaid := q.unpaid.orElse fun _ => some r } }

/-- A step in which a regulator does not admit a request of the Timetable does not take place: the request is held (R439). -/
def heldBack (s : State) : Out → Out
  | .next t => match t.requests.unpaid with
    | some r => .next (s.noteHeld (.regulator r t.requests.paid))
    | none => .next t
  | o => o

/-- Held requests go on, in the order of their arrival, where the regulator lets them and none before them to their line
stays: an access's may be performed, a write-back is done. -/
def admitHeld (lets : State → MemRequest → Bool) : List MemRequest → State → State
  | [], s => s
  | r :: rest, s =>
    admitHeld lets rest (if lets s r && s.requests.held.find? (fun x => x.line = r.line) = some r then
      ({ s with requests := { s.requests with held := s.requests.held.erase r } }.charge r).grant r else s)

/-- The held requests that their regulators now admit go on. -/
def State.admitDue (s : State) : State := admitHeld (fun s r => (s.regulator r.reg).admits) s.requests.held s

/-! ## Misses and walks (R44, R45) -/

namespace State

/-- The space, and the root of its tables, of an access that has to walk: a global address, of no trap window, of which no
structure holds a translation, while no walk is in flight for its page. -/
def misses (s : State) (w : Who) (k : Kind) (va : W64) : Option (Nat × Nat) :=
  if fld va 48 16 ≠ 0 || (w.sys && (trapWindowAt s va.toNat).isSome) then none
  else match w.space with
    | none => none
    | some space => match s.rootOf space with
      | none => none
      | some root =>
        let h := w.holderFor k
        if (s.tlbHit h space va.toNat).isSome || (h.next.bind fun h2 => s.tlbHit h2 space va.toNat).isSome ||
            (s.walkFor h space va.toNat).isSome then none
        else some (space, root)

/-- May no further walk for a holder begin: 16 are in flight at its walker, 32 for its core's second level, 1,024 in all? -/
def walkersFull (s : State) (h : Holder) : Bool :=
  16 ≤ s.walks.countP (fun w => w.slice = s.walkerSlice h) || 1024 ≤ s.walks.length ||
  (match h.secondOf with
   | some c => 32 ≤ s.walks.countP fun w => w.core = some c
   | none => false)

/-- What the reads of a walk ask of memory controllers: each line of a table that is not resident, for a partition's space
(R46, R439) (log 49: DEDUCED). -/
def walkRequests (s : State) (w : Who) (h : Holder) (space root : Nat) (va : W64) : List MemRequest :=
  if 32 ≤ space then []
  else (walkReads s (s.walkerSlice h) space va.toNat 4 0 root).filterMap fun a =>
    if (tfind s.lines (2 * (a / 128))).isSome || isHostWindow a then none
    else some ⟨some w.agent, 2 * (a / 128), s.channelOf a * 32 + space, 128⟩

/-- The requests of the walks of an access of n bytes, which lies in one page or in two. -/
def missRequests (s : State) (w : Who) (k : Kind) (va : W64) (n : Nat) : List MemRequest :=
  let first := min n (65536 - va.toNat % 65536)
  let one (va : W64) : List MemRequest := match s.misses w k va with
    | some (space, root) => s.walkRequests w (w.holderFor k) space root va
    | none => []
  if first = n then one va else (one va ++ one (va + BitVec.ofNat 64 first)).eraseDups

/-- Does an access of n bytes have to walk? -/
def mustWalk (s : State) (w : Who) (k : Kind) (va : W64) (n : Nat) : Bool :=
  let first := min n (65536 - va.toNat % 65536)
  (s.misses w k va).isSome || (first ≠ n && (s.misses w k (va + BitVec.ofNat 64 first)).isSome)

/-- A walk for a holder begins: it reads its entries, its pointers enter the slice's walk cache, and it is in flight until
PAGE_WALK (R44, R45) (log 9: DESIGN CHOICE). -/
def beginWalk (s : State) (h : Holder) (space root va : Nat) : State :=
  let (e, ws) := walkFrom s (s.walkerSlice h) space va 4 0 root
  let s := ws.foldl fillWalk s
  { s with walks := s.walks ++ [⟨s.walkerSlice h, e.page space va, e, h.secondOf⟩] }

end State

/-- An access that has to walk waits while its walker or its core has no room for a further miss, or while a regulator holds
a read of its walk (R45, R439). The table of R44 names no ports and no Timetable among those whose misses count; a
Timetable's requests are made by `State.draw`. -/
def walkGate (w : Who) (k : Kind) (va : W64) (n : Nat) : M Unit := do
  let s ← get
  if w.agent ≠ 0xFFF && s.mustWalk w k va n then do
    waitUnless (w.holder = .port || !s.walkersFull (w.holderFor k))
    chargeRequests (s.missRequests w k va n)
  else pure ()

end Sys2Proof.Machine
end

