-- ==== Sys2Proof/Machine/Counting.lean ====
section
/-! DEFINITION. The counting flags of a core: additions, waits, what a wait acquires, FSET and FWIN
(R112 to R120), and the bell register (R123). -/

namespace Sys2Proof.Machine

def maxCount : Nat := 0xFFFFFFFF

/-- Flag f of a core. -/
def Core.flag (k : Core) (f : BitVec 8) : Flag := tget Flag.zero k.flags f.toNat
def Core.setFlag (k : Core) (f : BitVec 8) (v : Flag) : Core := { k with flags := tput Flag.zero k.flags f.toNat v }

/-- Add an amount to a flag (R114): the value saturates, and the first agent to saturate it is kept until
the report is read (R344) (log 71: DEDUCED). -/
def Flag.add (f : Flag) (a : Addition) : Flag :=
  let v := f.value.toNat + a.amount
  { f with
    value := BitVec.ofNat 32 (min v maxCount), adds := f.adds ++ [a],
    overflow := if v > maxCount then (match f.overflow with | some g => some g | none => some a.agent) else f.overflow }

/-- Would adding the amount saturate the flag? -/
def Flag.saturates (f : Flag) (amount : Nat) : Bool := f.value.toNat + amount > maxCount

/-- The knowledge of the additions whose cumulative end lies in (c0, c1]; e is the end before the list's
first (R117). -/
def acquired (c0 c1 : Nat) : List Addition → Nat → Known → Known
  | [], _, k => k
  | a :: r, e, k =>
    let e := e + a.amount
    acquired c0 c1 r e (if c0 < e && e ≤ c1 then knownJoin k a.know else k)

/-- A wait with threshold t takes its count (R115): the flag after it, and what it acquires (R117). -/
def Flag.take (f : Flag) (t : Nat) : Flag × Known :=
  ({ f with value := BitVec.ofNat 32 (f.value.toNat - t), consumed := f.consumed + t },
   acquired f.consumed (f.consumed + t) f.adds 0 [])

/-- FSET (R118): the value, no additions, C zero, W and RES unchanged. -/
def Flag.fset (f : Flag) (v : BitVec 32) : Flag := { f with value := v, adds := [], consumed := 0 }

/-- FWIN (R118). -/
def Flag.fwin (f : Flag) (w : BitVec 32) : Flag := { f with window := w }

/-- A piece of an admitted chunk lands: its reservation ends (R119). -/
def Flag.unreserve (f : Flag) (n : Nat) : Flag := { f with res := f.res - BitVec.ofNat 32 n }

/-- Is a chunk of c bytes admitted now (R119, R120)? -/
def Flag.admits (f : Flag) (c : Nat) : Bool :=
  f.window = 0 || f.value.toNat + f.res.toNat + c ≤ f.window.toNat || f.value.toNat + f.res.toNat = 0

namespace State

/-- The agent of a waiter of core c (R21). -/
def waiterAgent (c : CoreId) : Waiter → AgentId
  | .cp => unitAgent c 0
  | .queue q => unitAgent c (match q with
    | .stream => 1 | .grid => 2 | .scan => 3 | .matrix => 4 | .copy => 5 | .quay => 6)
  | .engine _ => unitAgent c 1

/-- Add to flag f of core c at once (log 21: DESIGN CHOICE). -/
def addFlag (s : State) (c : CoreId) (f : BitVec 8) (a : Addition) : State :=
  if a.amount = 0 then s else s.modCore c fun k => k.setFlag f ((k.flag f).add a)

/-- Can a wait of threshold t on flag f of core c, beginning now, succeed at once: no earlier wait on the
flag would succeed before it (R115)? -/
def waitReady (s : State) (c : CoreId) (f : BitVec 8) (t : Nat) : Bool :=
  let k := s.core c
  t ≤ (k.flag f).value.toNat && !(k.waits.any fun w => w.flag = f && w.threshold ≤ (k.flag f).value.toNat)

/-- What a command in flight of unit u of core c, or its program, acquires happens before its later accesses and its signal,
and before those of the later commands of the unit, whose items are larger (R88, R91, R92). -/
def learnItem (s : State) (c : CoreId) (u item : Nat) (know : Known) : State :=
  let up (i : Nat) (k : Known) : Known := if item ≤ i then knownJoin k know else k
  s.modCore c fun k => { k with
    queues := Vector.ofFn fun i =>
      let v := k.queues[i.val]
      if i.val + 1 = u then { v with flights := v.flights.map fun f => { f with know := up f.item f.know } } else v
    engines := if u = 1 then k.engines.map fun e => e.map fun p => { p with know := up p.item p.know } else k.engines }

/-- A wait on flag f of core c takes t for its waiter, which acquires what R117 gives. -/
def takeFlag (s : State) (c : CoreId) (f : BitVec 8) (t : Nat) (who : Waiter) : State :=
  let k := s.core c
  let (v, known) := (k.flag f).take t
  let s := (s.setCore c (k.setFlag f v)).learn (waiterAgent c who) known
  match who with
  | .engine e => match k.engines[e.val] with
    | some p => s.learnItem c 1 p.item known
    | none => s
  | _ => s

/-- A signal sent to a flag of core c, in arrival order (R114). -/
def sendSignal (s : State) (c : CoreId) (g : Signal) : State :=
  if g.amount = 0 then s else s.modCore c fun k => { k with signals := k.signals ++ [g] }

end State

/-! ## Engine queues of a core -/

def queueIndex : QueueId → Fin 6
  | .stream => 0
  | .grid => 1
  | .scan => 2
  | .matrix => 3
  | .copy => 4
  | .quay => 5

def allQueues : List QueueId := [.stream, .grid, .scan, .matrix, .copy, .quay]

/-- The agent unit of a queue (R21). -/
def queueUnit (q : QueueId) : Nat := (queueIndex q).val + 1

def Core.queue (k : Core) (q : QueueId) : Queue := k.queues[(queueIndex q).val]
def Core.setQueue (k : Core) (q : QueueId) (v : Queue) : Core :=
  { k with queues := k.queues.set (queueIndex q).val v }

def isNote : Instr → Bool
  | .note _ => true
  | _ => false

/-- Does the queue hold a NOTE, and has it reached one (R121, R123)? -/
def Queue.holdsNote (q : Queue) : Bool := q.waiting.any fun c => isNote c.instr
def Queue.reachedNote (q : Queue) : Bool :=
  match q.waiting with
  | c :: _ => isNote c.instr && c.reached
  | [] => false

/-- A word of bits q for the queues that meet a condition. -/
def queueMask (k : Core) (b : Queue → Bool) : Nat :=
  (allQueues.map fun q => if b (k.queue q) then 2 ^ (queueIndex q).val else 0).foldl (· + ·) 0

/-- The BELL register (R123). -/
def bellWord (k : Core) : W64 :=
  BitVec.ofNat 64 (k.rings.toNat * 2 ^ 32 + (if k.bellErr then 2 ^ 14 else 0) +
    queueMask k Queue.holdsNote * 2 ^ 8 + queueMask k Queue.reachedNote)

end Sys2Proof.Machine
end

