-- ==== Sys2Proof/Machine/Window.lean ====
section
/-! DEFINITION. The trap window of a held core: what its words read, which bytes a handler may edit, and
how the edits take effect at resumption (R223, R233, R235). -/

namespace Sys2Proof.Machine

/-- The version lines of 128 bytes that a piece holds (R229). -/
def versionLines (p : Piece) : Nat :=
  (p.vbytes.map fun c => c.1 / 128).eraseDups.length + p.vblocks.length

/-- The status word (R223). VUSE counts whole 4 KiB units, rounded up (log 26: DESIGN CHOICE). -/
def statusWord (k : Core) (h : Hold) : W64 :=
  let piece (f : Piece → Nat) : Nat := match k.piece with | some p => f p | none => 0
  BitVec.ofNat 64 (
    min 512 ((piece versionLines + 31) / 32) * 2 ^ 16 +
    piece (fun p => if p.session.isSome then 8 else 0) + piece (fun p => if p.versioned then 4 else 0) +
    (if h.wdx then 2 else 0) + (if h.cls = .freeze then 1 else 0))

/-- The row-progress word of a stopped MX.MMA; zero where none is on its way (R233) (log 26: DESIGN CHOICE). -/
def progressWord (k : Core) : W64 :=
  match (k.queue .matrix).flights with
  | f :: _ => (match f.prog, f.cmd.instr with
    | .matrix row group _, .mxMma _ => if f.finished then 0 else BitVec.ofNat 64 (group * 2 ^ 16 + row)
    | _, _ => 0)
  | [] => 0

/-- The queue word of a neighbour queue held at this core (R223). -/
def neighbourWord (q : NeighbourQueue) (credit : Nat) : W64 :=
  let n := q.slots.length
  BitVec.ofNat 64 (credit * 2 ^ 24 + n * 2 ^ 16 + (q.head.toNat + n) % 8 * 2 ^ 8 + q.head.toNat)

/-- The lane at offset o of a neighbour queue's slots. -/
def slotLane (q : NeighbourQueue) (o : Nat) : Lane :=
  let k := (o / 64 + 8 - q.head.toNat) % 8
  match q.slots[k]? with
  | some v => vlane v (o % 64 / 4)
  | none => Config.staleSlot (o + 3) ++ Config.staleSlot (o + 2) ++ Config.staleSlot (o + 1) ++ Config.staleSlot o

/-- The position of a stream's next work: the oldest command that is not complete, by its number among all that the queue
ever took, which does not wrap at 32 (R194, R223) (log 26: DESIGN CHOICE). -/
def queuePosition (q : Queue) : Nat :=
  match q.flights, q.waiting with
  | f :: _, _ => f.cmd.pos
  | [], c :: _ => c.pos
  | [], [] => q.nextPos

/-- The two words of a command held in a queue, as they were enqueued (R223, R261). -/
def cmdWords (c : Cmd) : List W64 := ((Fetched.e c.guard c.instr).encode).getD [0, 0]

/-- Word j (of two a command) of a queue's contents, oldest first (R223). -/
def queueWord (q : Queue) (j : Nat) : W64 :=
  let cmds := q.flights.map (·.cmd) ++ q.waiting
  match cmds[j / 2]? with
  | some c => (cmdWords c).getD (j % 2) 0
  | none => 0

/-- Word j of a grid image as held (R235, R270). -/
def gridWord (cfg : Option (List W64)) (j : Nat) : W64 := (cfg.getD []).getD j 0

/-- The newest loop of a core. -/
def newestLoop (k : Core) : Option GridLoop := k.loops.getLast?

/-- The 32-bit unit at a multiple of 4 of the window, before a handler's edits (R223). -/
def windowUnit (k : Core) (h : Hold) (o : Nat) : Lane :=
  let half (w : W64) : Lane := if o % 8 = 0 then fld w 0 32 else fld w 32 32
  let inside (lo n : Nat) : Bool := lo ≤ o && o < lo + n
  if o < 0x100 then
    half (match o / 8 with
      | 0 => BitVec.ofNat 64 h.cause
      | 1 => k.x.pc
      | 2 => k.taskId
      | 3 => h.addr
      | 4 => h.detail
      | 5 => k.faultpc ++ (0 : BitVec 3)
      | 6 => statusWord k h
      | 7 => progressWord k
      | 8 => k.rangeLo
      | 9 => k.rangeHi
      | 10 => k.session.setWidth 64
      | 11 => k.fade
      | 12 => k.x.rmode.setWidth 64
      | 13 => k.x.fpstat.setWidth 64
      | 14 => bellWord k
      | 15 => k.codecsel.setWidth 64
      | 16 => k.x.cycle
      | 17 => BitVec.ofNat 64 (((List.range 8).map fun b =>
          (if hb : b < 8 then (k.power[b]).toNat else 0) * 4 ^ b).foldl (· + ·) 0)
      | _ => 0)
  else if inside 0x100 0x100 then
    let r := (o - 0x100) / 8
    half (if r = 0 then 0 else if hr : r < 32 then k.x.g[r] else 0)
  else if o = 0x200 then
    BitVec.ofNat 32 (1 + ((List.range 8).map fun i =>
      if hi : i < 8 then (if i ≠ 0 && k.x.p[i] then 2 ^ i else 0) else 0).foldl (· + ·) 0)
  else if inside 0x400 0x200 then
    let r := (o - 0x400) / 64
    if hr : r < 8 then vlane k.v[r] (o % 64 / 4) else 0
  else if inside 0x600 0x40 then vlane k.lat ((o - 0x600) / 4)
  else if o = 0x700 then k.tfull
  else if inside 0x1000 0x8000 then tget 0 k.tiles ((o - 0x1000) / 4)
  else if inside 0x9000 0x400 then (k.flag (BitVec.ofNat 8 ((o - 0x9000) / 4))).value
  else if inside 0x9400 56 then
    let j := (o - 0x9400) / 8
    half (if j = 0 then k.x.pc else match allQueues[j - 1]? with
      | some q => BitVec.ofNat 64 (queuePosition (k.queue q))
      | none => 0)
  else if inside 0x9440 0xC00 then
    let j := (o - 0x9440) / 8
    match allQueues[j / 64]? with
    | some q => half (queueWord (k.queue q) (j % 64))
    | none => 0
  else if inside 0xA100 512 then slotLane k.down (o - 0xA100)
  else if inside 0xA300 8 then half (neighbourWord k.down k.creditDown)
  else if inside 0xA308 512 then slotLane k.up (o - 0xA308)
  else if inside 0xA508 8 then half (neighbourWord k.up k.creditUp)
  else if inside 0xA600 520 then half (gridWord k.gridCfg[0] ((o - 0xA600) / 8))
  else if inside 0xA808 520 then half (gridWord k.gridCfg[1] ((o - 0xA808) / 8))
  else if inside 0xAA10 24 then
    half (match newestLoop k, (o - 0xAA10) / 8 with
      | some l, 0 => if l.ver then 1 else 0
      | some l, 1 => BitVec.ofNat 64 (l.first + l.started)
      | some l, _ => BitVec.ofNat 64 l.trip
      | none, _ => 0)
  else if inside 0xAC00 512 then
    let j := (o - 0xAC00) / 8
    let q := tget SwitchQueue.empty k.switch (j / 2)
    half ((if j % 2 = 0 then q.srcFmt else q.snkFmt).setWidth 64)
  else if inside 0xC000 0x400 then (k.flag (BitVec.ofNat 8 ((o - 0xC000) / 4))).window
  else if inside 0xC400 0x400 then (k.flag (BitVec.ofNat 8 ((o - 0xC400) / 4))).res
  else 0

/-- May a handler write the byte at offset o (R223)? -/
def windowWritable (o : Nat) : Bool :=
  let inside (lo n : Nat) : Bool := lo ≤ o && o < lo + n
  inside 0x08 8 || inside 0x28 8 || inside 0x40 8 || inside 0x58 24 || inside 0x78 8 ||
  inside 0x108 0xF8 || inside 0x200 8 || inside 0x400 0x240 || inside 0x700 4 ||
  inside 0x1000 0x8000 || inside 0x9000 0x400

/-- FADE's writable bits (R181). -/
def fadeMask : W64 := 0xFFFFFFFF0000FF01

/-- The bits of a writable byte that its field implements; the others read zero (R5, R223). -/
def windowMask (o : Nat) : Byte :=
  let field (lo : Nat) (m : W64) : Byte := fld m (8 * (o - lo)) 8
  if 0x28 ≤ o && o < 0x30 then field 0x28 0xFFFFFFFFFFFFFFF8
  else if 0x58 ≤ o && o < 0x60 then field 0x58 fadeMask
  else if 0x60 ≤ o && o < 0x68 then field 0x60 0x03
  else if 0x68 ≤ o && o < 0x70 then field 0x68 0x3F
  else if 0x78 ≤ o && o < 0x80 then field 0x78 0x3F
  else if 0x200 ≤ o && o < 0x208 then field 0x200 0xFF
  else 0xFF

/-- The byte at offset o with the handler's edits; bit 0 of the predicates reads 1. -/
def windowByte (k : Core) (h : Hold) (o : Nat) : Byte :=
  match tget none h.edits o with
  | some b => (b &&& windowMask o) ||| (if o = 0x200 then 1 else 0)
  | none => fld (windowUnit k h (o / 4 * 4)) (8 * (o % 4)) 8

namespace State

/-- n bytes of core c's window from offset o; a core that is not held reads zero (R222). -/
def windowRead (s : State) (c : CoreId) (o n : Nat) : List Byte :=
  match (s.core c).held with
  | none => List.replicate n 0
  | some h => (List.range n).map fun i => windowByte (s.core c) h (o + i)

/-- Record the writable bytes of a store among the edits. -/
def editBytes (h : Hold) (o : Nat) : List Byte → Hold
  | [] => h
  | b :: bs =>
    let h := if windowWritable o then { h with edits := tput none h.edits o (some b) } else h
    editBytes h (o + 1) bs

/-- A store to core c's window (R222, R223). A store that reaches the action word leaves it to be acted on
before the step ends (R224) (log 82: DESIGN CHOICE). -/
def windowWrite (s : State) (c : CoreId) (o : Nat) (bs : List Byte) : State :=
  match (s.core c).held with
  | none => s
  | some h =>
    let s := s.modCore c fun k => { k with held := some (editBytes h o bs) }
    if o < 0xFF08 && 0xFF00 < o + bs.length then
      let word := (List.range 8).map fun i => if 0xFF00 + i < o then (0 : Byte) else bs.getD (0xFF00 + i - o) 0
      { s with actions := s.actions ++ [(c, BitVec.ofNat 64 (leNat word))] }
    else s

end State

/-- The number of n bytes at offset o of the window, with edits. -/
def windowNat (k : Core) (h : Hold) (o n : Nat) : Nat :=
  leNat ((List.range n).map fun i => windowByte k h (o + i))

/-- Are any of the n bytes from offset o edited? -/
def edited (h : Hold) (o n : Nat) : Bool := h.edits.any fun e => o ≤ e.1 && e.1 < o + n

/-- The tile elements with the edited ones replaced. -/
def editTiles (k : Core) (h : Hold) : Table Lane :=
  (h.edits.filterMap fun e => if 0x1000 ≤ e.1 && e.1 < 0x9000 then some ((e.1 - 0x1000) / 4) else none).eraseDups.foldl
    (fun t j => tput 0 t j (BitVec.ofNat 32 (windowNat k h (0x1000 + 4 * j) 4))) k.tiles

/-- The flags with the edited value words acting as FSET (R223). -/
def editFlags (k : Core) (h : Hold) : Table Flag :=
  (h.edits.filterMap fun e => if 0x9000 ≤ e.1 && e.1 < 0x9400 then some ((e.1 - 0x9000) / 4) else none).eraseDups.foldl
    (fun t j => tput Flag.zero t j ((tget Flag.zero t j).fset (BitVec.ofNat 32 (windowNat k h (0x9000 + 4 * j) 4)))) k.flags

/-- The held core's registers with the handler's edits applied, as they stand at resumption (R223). -/
def applyEdits (k : Core) (h : Hold) : Core :=
  let word (o : Nat) : W64 := BitVec.ofNat 64 (windowNat k h o 8)
  let lanes (o : Nat) : V512 := Vector.ofFn fun i => BitVec.ofNat 32 (windowNat k h (o + 4 * i.val) 4)
  let pcEdited := edited h 8 8
  let x := { k.x with
    pc := word 8, npc := word 8, blocked := if pcEdited then none else k.x.blocked,
    rmode := fld (word 0x60) 0 2, fpstat := fld (word 0x68) 0 6,
    g := Vector.ofFn fun i => if edited h (0x100 + 8 * i.val) 8 then word (0x100 + 8 * i.val) else k.x.g[i.val],
    p := Vector.ofFn fun i => if i.val ≠ 0 && edited h 0x200 1 then (word 0x200).getLsbD i.val else k.x.p[i.val] }
  { k with
    x := x, faultpc := fld (word 0x28) 3 61, rangeLo := word 0x40, fade := word 0x58 &&& fadeMask,
    codecsel := fld (word 0x78) 0 6,
    v := Vector.ofFn fun i => lanes (0x400 + 64 * i.val), lat := lanes 0x600,
    tfull := fld (word 0x700) 0 32, tiles := editTiles k h, flags := editFlags k h }

end Sys2Proof.Machine
end

