-- ==== Sys2Proof/Machine/Memory.lean ====
section
/-! DEFINITION. Accesses to memory at their homes: full/empty bits, Quay page states, versions, FBC blocks,
alias conflicts, writer tags and race checks, loads and stores of every agent (R39 to R41, R56 to R66,
R76 to R82, R87 to R109, R147 to R153, R229 to R231). -/

namespace Sys2Proof.Machine

/-- What an access is besides its kind and address: atomic (R87), reads and writes in one (an AMO and its
like), its full/empty qualifier 0 to 3, the item that makes it, and whether its writes act as fills (R66). -/
structure Access where
  atomic : Bool := false
  rmw : Bool := false
  fe : Nat := 0
  item : Option Nat := none
  fills : Bool := false
  deriving DecidableEq, Repr

/-! ## Granules -/

/-- The key of the detection granule at a block half of an FBC page, or of a plain home address (R95). -/
def fbcGranule (enc half : Nat) : Nat := 2 ^ 57 + 2 * enc + half

/-- The encoding address of the block that holds offset off (R38). -/
def encAddr (leaf : W64) (backing off : Nat) : Nat := backing + off / 128 * (2 * budBits (leafBud leaf))

/-- A detection granule that an access touches: its key, the address of its first byte relative to the
access's first byte (negative where it begins earlier), and the homes of the bytes touched. -/
structure Granule where
  key : Nat
  delta : Int
  lo : Nat
  hi : Nat
  deriving DecidableEq, Repr

/-- The granules of a part (R95). -/
def Part.granules (p : Part) : List Granule :=
  match p.home with
  | .plain a =>
    let g := p.level.granule
    (List.range ((a + p.len - 1) / g - a / g + 1)).map fun i =>
      let k := (a / g + i) * g
      ⟨k, (k : Int) - a, max k a, min (k + g) (a + p.len)⟩
  | .fbc b off =>
    (List.range ((off + p.len - 1) / 64 - off / 64 + 1)).map fun i =>
      let o := (off / 64 + i) * 64
      ⟨fbcGranule (encAddr p.leaf b o) (o / 64 % 2), (o : Int) - off, 0, 0⟩
  | .window _ _ => []

/-- The full/empty granules, by home address, that the bytes [lo, hi) touch. -/
def feGranules (lo hi : Nat) : List Nat :=
  if lo < hi then (List.range ((hi - 1) / 16 - lo / 16 + 1)).map fun i => (lo / 16 + i) * 16 else []

/-- The full/empty granules of a part (R56). -/
def Part.feHomes (p : Part) : List Nat :=
  match p.home with
  | .plain a => if p.level.hasFull then feGranules a (a + p.len) else []
  | _ => []

/-! ## Versions -/

/-- The core in whose version a write of this agent goes, for a plain access to global memory or the chip
scratchpad, the host window apart (R229, R230) (log 12: DEDUCED). -/
def versionOf (s : State) (a : AgentId) (acc : Access) (p : Part) : Option CoreId :=
  if acc.atomic || acc.rmw || p.isWindow && p.level ≠ .chip then none
  else if p.level = .global || p.level = .chip then
    match p.home with
    | .plain h => if isHostWindow h && h < 2 ^ 52 then none else core?
    | .fbc _ _ => core?
    | .window _ _ => none
  else none
where
  core? : Option CoreId :=
    match agentCore a with
    | some c => match (s.core c).piece with
      | some q => if q.versioned then some c else none
      | none => none
    | none => none

namespace State

/-- Change the piece of a core. -/
def modPiece (s : State) (c : CoreId) (f : Piece → Piece) : State :=
  s.modCore c fun k => { k with piece := k.piece.map f }

/-- The decoded bytes of a committed FBC block (R147). -/
def blockBytes (s : State) (leaf : W64) (enc : Nat) : List Byte :=
  let bits := budBits (leafBud leaf)
  bytesOfLanes (fbcDecode bits (leafGeo leaf) (s.readNat enc (2 * bits)))

/-- The decoded bytes of a block as a version sees it. -/
def versionBlockBytes (s : State) (ver : Option CoreId) (leaf : W64) (enc : Nat) : List Byte :=
  match ver.bind fun c => (s.core c).piece with
  | some q => match q.vblocks.find? fun b => b.enc = enc with
    | some b => b.bytes
    | none => s.blockBytes leaf enc
  | none => s.blockBytes leaf enc

/-- One plain byte as a version sees it. -/
def versionByte (s : State) (ver : Option CoreId) (a : Nat) : Byte :=
  match ver.bind fun c => (s.core c).piece with
  | some q => (tfind q.vbytes a).getD (tget 0 s.mem a)
  | none => tget 0 s.mem a

/-- How many blocks of 128 decoded bytes a range touches. -/
def blockSpan (off n : Nat) : Nat := (off % 128 + n + 127) / 128

/-- The bytes of a part. -/
def partBytes (s : State) (ver : Option CoreId) (p : Part) : List Byte :=
  match p.home with
  | .plain a => if ver.isNone then s.bytes a p.len else (List.range p.len).map fun i => s.versionByte ver (a + i)
  | .fbc b off =>
    let bytes := (List.range (blockSpan off p.len)).flatMap fun i =>
      s.versionBlockBytes ver p.leaf (encAddr p.leaf b (off + 128 * i))
    (List.range p.len).map fun i => bytes.getD (off % 128 + i) 0
  | .window c o => s.windowRead c o p.len

/-! ## FBC blocks -/

/-- Count one encode of a leaf's region (R156). -/
def countEncode (s : State) (leaf : W64) (loss : Bool × Nat) : State :=
  let r := s.regions[leafCreg leaf % 64]'(Nat.mod_lt _ (by decide))
  let up (v : W64) : W64 := if v = BitVec.allOnes 64 then v else v + 1
  let r := { r with
    enc := up r.enc, lossy := if loss.1 then up r.lossy else r.lossy,
    maxerr := if loss.1 then BitVec.ofNat 64 (fp64Max r.maxerr.toNat loss.2) else r.maxerr }
  { s with regions := s.regions.set (leafCreg leaf % 64) r (Nat.mod_lt _ (by decide)) }

/-- Encode a block's bytes in place and count it: the committed form (R148, R156). -/
def encodeBlock (s : State) (leaf : W64) (enc : Nat) (bytes : List Byte) : State :=
  let bits := budBits (leafBud leaf)
  let x := lanesOf bytes
  let e := fbcEncode bits (leafGeo leaf) x
  (s.setBytes enc (leBytes (2 * bits) e)).countEncode leaf (encodeLoss x (fbcDecode bits (leafGeo leaf) e))

/-- Encode a block's bytes in a version line; its counts wait for the commit (R153). -/
def encodeVersion (s : State) (c : CoreId) (leaf : W64) (enc : Nat) (bytes : List Byte) : State :=
  let bits := budBits (leafBud leaf)
  let x := lanesOf bytes
  let e := fbcEncode bits (leafGeo leaf) x
  let d := fbcDecode bits (leafGeo leaf) e
  let (lossy, err) := encodeLoss x d
  s.modPiece c fun q =>
    let old := (q.vblocks.find? fun b => b.enc = enc).getD ⟨enc, leaf, 0, [], 0, 0, 0⟩
    { q with vblocks := (q.vblocks.filter fun b => b.enc ≠ enc) ++
        [⟨enc, leaf, e, bytesOfLanes d, old.encodes + 1, old.lossy + (if lossy then 1 else 0),
          if lossy then BitVec.ofNat 64 (fp64Max old.maxerr.toNat err) else old.maxerr⟩] }

/-- Encode in the version of a core, or in place. -/
def encodeFor (s : State) (ver : Option CoreId) (leaf : W64) (enc : Nat) (bytes : List Byte) : State :=
  match ver with
  | some c => s.encodeVersion c leaf enc bytes
  | none => s.encodeBlock leaf enc bytes

/-- Is a store or a held image of the block pending in the same version (R149, R151)? -/
def blockBusy (s : State) (ver : Option CoreId) (enc : Nat) : Bool :=
  (s.fbcStores.any fun f => f.enc = enc && (f.owner = none || f.owner = ver)) ||
  (s.held.any fun h => h.enc = enc && (h.owner = none || h.owner = ver))

end State

/-- The encodings that a part touches. -/
def Part.blocks (p : Part) : List Nat :=
  match p.home with
  | .fbc b off => (List.range (State.blockSpan off p.len)).map fun i => encAddr p.leaf b (off + 128 * i)
  | _ => []

/-- The bytes of a store that fall in block number j of a part: (offset in the block, byte). -/
def namedBytes (off j : Nat) (bs : List Byte) : List (Nat × Byte) :=
  (bs.zipIdx.map fun (b, i) => (off % 128 + i, b)).filterMap fun (o, b) =>
    if o / 128 = j then some (o % 128, b) else none

/-- Replace named bytes of a block. -/
def mergeNamed (bytes : List Byte) : List (Nat × Byte) → List Byte
  | [] => bytes
  | (o, b) :: r => mergeNamed (bytes.set o b) r

/-! ## Alias conflicts (R41, R76) -/

/-- The key of a line: physical, or of a decoded block. -/
def lineKey (pa : Nat) : Nat := 2 * (pa / 128)
def blockKey (enc : Nat) : Nat := 2 * enc + 1

/-- The lines that a part of global memory touches: key, decoded, physical lines beneath it. -/
def Part.lines (p : Part) : List (Nat × Bool × Nat) :=
  match p.home with
  | .plain a => if p.isWindow then [] else
      (List.range ((a + p.len - 1) / 128 - a / 128 + 1)).map fun i =>
        (2 * (a / 128 + i), false, a / 128 + i)
  | .fbc _ _ => p.blocks.map fun e => (blockKey e, true, e / 128)
  | .window _ _ => []

/-- The last physical line that an encoding of a bit budget at an address reaches: 12, 24 or 48 bytes can lie in two. -/
def lastLine (enc bud : Nat) : Nat := (enc + 2 * budBits bud - 1) / 128

/-- Does the part meet a resident line of other attributes, a normal access a line that holds any of the encoding of a
resident decoded block, a decoded one a resident normal line that holds any of its own encoding? -/
def aliasConflict (s : State) (p : Part) : Bool :=
  p.lines.any fun (key, decoded, line) =>
    (match tfind s.lines key with
     | some l => l.attrs ≠ leafAttrs p.leaf
     | none => false) ||
    (if decoded then [line, lastLine ((key - 1) / 2) (leafBud p.leaf)].any fun l => (tfind s.lines (2 * l)).isSome
     else s.lines.any fun l =>
       let enc := (l.1 - 1) / 2
       l.2.decoded && enc / 128 ≤ line && line ≤ lastLine enc (fld l.2.attrs 8 3).toNat)

/-- Does the access leave its lines in the L2: CPOL 0 or 1, or an atomic, in a partition whose way mask is
not zero (R40, R73, R77)? -/
def allocates (s : State) (w : Who) (acc : Access) (p : Part) : Bool :=
  (acc.rmw || leafCpol p.leaf < 2) &&
  (match w.part with
   | some t => s.parts[t.val].ways ≠ 0
   | none => true)

/-- The physical address by whose line a line finds its home slice (R50, R76). -/
def lineHome (key : Nat) : Nat := if key % 2 = 0 then key / 2 * 128 else key / 2

/-- The set of a line, over the 512 sets of each slice (R72, R76). -/
def lineSet (s : State) (key : Nat) : Nat := s.homeSlice (lineHome key) * 512 + Config.lineSet key % 512

/-- Do two lines lie in one set? -/
def sameSet (s : State) (x y : Nat) : Bool :=
  s.homeSlice (lineHome x) = s.homeSlice (lineHome y) && Config.lineSet x % 512 = Config.lineSet y % 512

/-- The way that the tree bits point to among the permitted ones: `n` levels below `node`, whose ways begin at `base`; a
set bit points to the upper half (R73). -/
def plruPick (bits : BitVec 16) (ok : Nat → Bool) : Nat → Nat → Nat → Nat
  | 0, _, base => base
  | n + 1, node, base =>
    let has (b : Nat) : Bool := (List.range (2 ^ n)).any fun i => ok (b + i)
    if (if bits.getLsbD node then has (base + 2 ^ n) else !has base) then plruPick bits ok n (2 * node + 1) (base + 2 ^ n)
    else plruPick bits ok n (2 * node) base

/-- The tree bits after a use of a way: each node on its path points away from it. -/
def plruUse (way : Nat) : Nat → Nat → BitVec 16 → BitVec 16
  | 0, _, bits => bits
  | n + 1, node, bits =>
    let upper := way.testBit n
    let bit := (1 : BitVec 16) <<< node
    plruUse way n (2 * node + if upper then 1 else 0) (if upper then bits &&& ~~~bit else bits ||| bit)

/-- A way of a line's set is used. -/
def useWay (s : State) (key way : Nat) : State :=
  { s with plru := tput 0 s.plru (lineSet s key) (plruUse way 4 1 (tget 0 s.plru (lineSet s key))) }

/-- Does the version of a piece hold the line, or a store or a held image of its block (R74, R151)? -/
def Piece.holdsLine (q : Piece) (key : Nat) : Bool :=
  if key % 2 = 0 then q.vbytes.any (fun b => b.1 / 128 = key / 2) else q.vblocks.any fun b => blockKey b.enc = key

/-- Is the line held by a speculative version, of a piece that runs or of one whose context is saved (R74, R236)? -/
def versionLine (s : State) (key : Nat) : Bool :=
  let holds (k : Core) : Bool := (k.piece.map fun q => q.holdsLine key).getD false
  s.cores.toList.any holds || (s.saved.any fun x => holds x.image) ||
  (s.fbcStores.any fun f => f.owner.isSome && blockKey f.enc = key) ||
  (s.held.any fun h => h.owner.isSome && blockKey h.enc = key) ||
  s.saved.any fun x => x.images.any fun h => blockKey h.enc = key

/-- The physical address by which a memory controller finds the memory of a line (R51, R76). -/
def lineMemory (key : Nat) : Nat := lineHome key / 128 * 128

/-- The request by which a line that leaves the L2 is written back: a changed one that a partition's space filled, of its
128 bytes or its encoding (R75, R152, R439). -/
def writeBackOf (s : State) (key : Nat) (l : LineAttrs) : List MemRequest :=
  match l.part with
  | some t => if l.dirty then
      [⟨none, key, s.channelOf (lineMemory key) * 32 + t.val, if l.decoded then 2 * budBits (fld l.attrs 8 3).toNat else 128⟩]
    else []
  | none => []

/-- A line leaves the L2; a changed one is written back, once its regulator admits that. -/
def evictLine (s : State) (x : Nat × LineAttrs) : State :=
  let t := { s with lines := s.lines.filter fun l => l.1 ≠ x.1 }
  (writeBackOf s x.1 x.2).foldl (fun s r => match chargeOne s r with
    | .ok s => s
    | .error _ => s) t

/-- What a use of a line leaves in the L2: the ways in which a miss may allocate, none where it leaves the line out; the
partition whose space fills it; whether the use changes it. -/
structure LineUse where
  mask : BitVec 16
  part : Option PartId
  dirty : Bool

/-- A line is used: a hit marks its way; a miss takes an empty one of the ways that the mask enables, or replaces the line
that the tree bits give among them, never one that a speculative version holds. Where all of them are so held, it bypasses
the L2 (R73, R74, R75, R147) (log 9: DESIGN CHOICE). -/
def fillLine (s : State) (u : LineUse) (key : Nat) (decoded : Bool) (attrs : BitVec 18) : State :=
  match tfind s.lines key with
  | some l => useWay { s with lines := tinsert key { l with dirty := l.dirty || u.dirty } (terase s.lines key) } key l.way
  | none =>
    let mates := s.lines.filter fun l => sameSet s key l.1
    let put (s : State) (way : Nat) : State :=
      useWay { s with lines := tinsert key ⟨decoded, attrs, way, u.part, u.dirty⟩ s.lines } key way
    match (List.range 16).find? fun i => u.mask.getLsbD i && !mates.any fun l => l.2.way = i with
    | some way => put s way
    | none =>
      let ok (i : Nat) : Bool := u.mask.getLsbD i && !mates.any fun l => l.2.way = i && versionLine s l.1
      if (List.range 16).any ok then
        let way := plruPick (tget 0 s.plru (lineSet s key)) ok 4 1 0
        put ((mates.filter fun l => l.2.way = way).foldl evictLine s) way
      else s

/-- The ways in which an accessor's misses allocate: all of them outside every partition (R73) (log 9: DESIGN CHOICE). -/
def State.wayMask (s : State) (w : Who) : BitVec 16 :=
  match w.part with
  | some t => s.parts[t.val].ways
  | none => BitVec.allOnes 16

/-- The lines by which a part takes ways of the L2: those of global memory, and of a version's write to the chip scratchpad
(R74, R75, R147). -/
def Part.wayLines (p : Part) : List (Nat × Bool) :=
  match p.level, p.home with
  | .chip, .plain a => (List.range ((a + p.len - 1) / 128 - a / 128 + 1)).map fun i => (2 * (a / 128 + i), false)
  | _, _ => p.lines.map fun x => (x.1, x.2.1)

/-- What an access makes of the lines of a part: its misses allocate where the access leaves lines in the L2, and, of a
write to a version, under every policy (R40, R74). -/
def lineUse (s : State) (w : Who) (acc : Access) (write : Bool) (p : Part) : LineUse :=
  let stays := (!p.isWindow && allocates s w acc p) || (write && (versionOf s w.agent acc p).isSome)
  ⟨if stays then s.wayMask w else 0, w.part, write⟩

/-- The lines of a part are filled, or used where they lie (R73, R75, R147). -/
def fillLines (s : State) (w : Who) (acc : Access) (write : Bool) (p : Part) : State :=
  p.wayLines.foldl (fun (t : State) (x : Nat × Bool) => fillLine t (lineUse s w acc write p) x.1 x.2 (leafAttrs p.leaf)) s

/-- The lines of the parts of an access. -/
def fillAll (s : State) (w : Who) (acc : Access) (write : Bool) : List Part → State
  | [] => s
  | p :: r => fillAll (fillLines s w acc write p) w acc write r

/-! ## Accesses across the dies (R128, R417) -/

/-- The slice or cluster by which a part's requests find their home: a bank of the chip scratchpad counts as the first
cluster of its die (log 54: DEDUCED). -/
def Part.homeCluster (p : Part) (s : State) : Option Nat :=
  match p.level, p.home with
  | .scratch, .plain a => some (coreCluster ⟨(a - 2 ^ 52) / 2 ^ 20 % 256, Nat.mod_lt _ (by decide)⟩).val
  | .cluster, .plain a => some ((a - 2 ^ 53) / 2 ^ 22 % 64)
  | .chip, .plain a => some (if a - 2 ^ 54 < 0x3000000 then 0 else 32)
  | .slate, .plain _ => none
  | .global, .plain a => some (s.homeSlice a)
  | _, .fbc b off => some (s.homeSlice (encAddr p.leaf b off))
  | _, _ => none

/-- Does the part lie on the other die than core c? -/
def Part.otherDie (p : Part) (s : State) (c : CoreId) : Bool :=
  (p.homeCluster s).any fun h => h / 32 ≠ coreDie c

/-- Is the access of a part held at the die link, on the channel of its request or on that of its response (R128)? -/
def Part.linkHeld (p : Part) (s : State) (a : AgentId) : Bool :=
  match p.homeCluster s, agentDie a with
  | some h, some d => let far := decide (32 ≤ h)
    s.linkHolds (some d) (some far) (.request h) || s.linkHolds (some far) (some d) .response
  | _, _ => false

/-- Does the access of a part cross the lost link: it fails with 371 (R437, R244) (log 54: DEDUCED)? -/
def Part.linkLost (p : Part) (s : State) (a : AgentId) : Bool :=
  s.linkLost (agentDie a) ((p.homeCluster s).map fun h => decide (32 ≤ h))

/-- n events of a kind are counted. -/
def countEvent (s : State) (key n : Nat) : State :=
  if n = 0 then s else { s with events := tput 0 s.events key (tget 0 s.events key + n) }

/-- An access of a core's agent is counted: its lines that are not resident, and whether it goes to the other die (R417)
(log 79: DESIGN CHOICE). -/
def countEvents (s : State) (w : Who) (ps : List Part) : State :=
  match agentCore w.agent with
  | none => s
  | some c =>
    let misses := (ps.flatMap Part.lines).countP fun l => (tfind s.lines l.1).isNone
    let far := if ps.any fun p => p.otherDie s c then 1 else 0
    countEvent (countEvent s (4 * c.val) misses) (4 * c.val + 1) far

/-- Core c's telemetry takes in what has been counted. -/
def takeEvents (s : State) (c : CoreId) : State :=
  let n (i : Nat) : W64 := BitVec.ofNat 64 (tget 0 s.events (4 * c.val + i))
  let s := s.modCore c fun k => { k with
    telemetry := ((k.telemetry.set 3 (k.telemetry[3] + n 0)).set 9 (k.telemetry[9] + n 1)).set 8 (k.telemetry[8] + n 2) }
  { s with events := [0, 1, 2].foldl (fun t i => tput 0 t (4 * c.val + i) 0) s.events }

/-! ## Waits of an access -/

/-- The page of a slate bank byte, 0 to 255 over the two banks. -/
def slatePage (a : Nat) : Nat := (a - 2 ^ 55) % 2 ^ 20 / 4096

/-- Bank pages of a Quay job (R78). -/
def jobPages (j : QuayJob) : Nat := (j.size + 4095) / 4096

/-- The Quay's jobs: those of the Timetable, then those of the quay queue in flight, in issue order. -/
def quayJobs (k : Core) : List QuayJob :=
  k.moves.map (·.job) ++ (k.queue .quay).flights.filterMap fun f => match f.prog with
    | .quay j => some j
    | _ => none

/-- The slate pages of core c with a stalled write that is still to be performed (R81). -/
def stalledPages (k : Core) : List Nat :=
  (k.slateWait.filter fun e => match e.1 with
    | none => true
    | some (i, _) => (k.queues.toList.any fun v => v.flights.any fun f => f.item = i && !f.finished) ||
        k.engines.toList.any fun p => (p.map fun p => p.item = i && !p.ended).getD false).map (·.2)

/-- How the Quay holds a bank page: 1 reading, 2 writing, 0 neither. An earlier job decides before a later
one; a page with a stalled write enters the writing state only once that write is performed (R79 to R81). -/
def pageState (stalled : List Nat) (page : Nat) : List QuayJob → Nat
  | [] => 0
  | j :: r =>
    let k := page % 128
    if j.bank = decide (page / 128 = 1) && (if j.writesBank then j.pagesDone else j.read) ≤ k && k < jobPages j then
      (if j.writesBank then (if stalled.contains page then 0 else 2) else 1)
    else pageState stalled page r

/-- What an access to slate bytes must wait for (R79, R80, R231). -/
def slateWaits (s : State) (c : CoreId) (write : Bool) (item : Option (Nat × W64)) (page : Nat) : Option WaitFor :=
  let k := s.core c
  match pageState (stalledPages k) page (quayJobs k) with
  | 2 => some .other
  | 1 => if write then some (.slate c page item) else none
  | _ =>
    match k.piece with
    | some q => if write && q.guarded.contains page then some (.guarded c page) else none
    | none => none

/-- Does a store to the part write the action word of a trap window (R224)? -/
def Part.acts (p : Part) : Bool :=
  match p.home with
  | .window _ o => o < 0xFF08 && 0xFF00 < o + p.len
  | _ => false

/-- What a part must wait for before it is performed (R63, R79, R80, R128, R149, R151, R231); an action word, and a CP's
or a system core's access to an SC page, waits for every earlier store of its agent (R108, R410). -/
def partWaits (s : State) (w : Who) (acc : Access) (write : Bool) (p : Part) : Option WaitFor :=
  if (acc.fe = 1 && !write || acc.fe = 2) && p.feHomes.any (fun h => !s.isFull h) then some .fe
  else if acc.fe = 1 && write && p.feHomes.any s.isFull then some .fe
  else if write && p.acts && !s.acked w.agent then some .other
  else if p.linkHeld s w.agent then some .other
  else if leafSC p.leaf && isCpuAgent w.agent && !s.acked w.agent then some .other
  else if p.blocks.any (s.blockBusy (versionOf s w.agent acc p)) then some .other
  else match p.level, p.home with
    | .slate, .plain a =>
      match w.own with
      | some c =>
        if w.agent = unitAgent c 6 then none
        else (List.range ((a + p.len - 1) / 4096 - a / 4096 + 1)).findSome? fun i =>
          slateWaits s c write (acc.item.map fun n => (n, p.va)) (slatePage (a + i * 4096))
      | none => none
    | _, _ => none

/-! ## Races (R99 to R104) -/

/-- What happens before the accesses of a command in flight or of a program, which the item of its writes names. -/
def itemKnown (s : State) (a : AgentId) (item : Nat) : Option Known :=
  let prog (ps : List Prog) : Option Known := (ps.find? fun p =>
    p.item = item || p.unitItem = item || p.inflight.any (·.item = item)).map (·.know)
  match agentCore a with
  | some c =>
    let k := s.core c
    ((k.queues.toList.flatMap (·.flights)).find? (·.item = item)).map (·.know) |>.orElse fun _ => prog (k.engines.toList.filterMap id)
  | none => prog (s.tides.toList.flatMap id)

/-- What happens before an access of an agent: of a command or program, what did before it; else what the agent knows
(R91, R99). -/
def knownBy (s : State) (a : AgentId) (item : Option Nat) : Known :=
  (item.bind (itemKnown s a)).getD (s.known a)

/-- The key under which a full/empty granule is known. -/
def granuleKnown (h : Nat) : Nat := 4096 + h

/-- Is the tagged write ordered before whoever knows k (R91, R101)? (log 11: DEDUCED) -/
def knowsWrite (k : Known) (t : Tag) : Bool :=
  isCpuAgent t.agent && t.stamp < tget 0 k t.agent.toNat

/-- Is the tagged write released toward this access of granule g (R99, R101)? -/
def writeReleased (s : State) (a : AgentId) (item : Option Nat) (g : Granule) (t : Tag) : Bool :=
  match t.version with
  | some c => agentCore a = some c && plainRules
  | none => plainRules
where
  plainRules : Bool :=
    t.released || isHostAgent t.agent ||
    (isCpuAgent t.agent && s.seq t.agent > t.seq) || knowsWrite k t ||
    (t.filled && (feGranules g.lo g.hi).all fun h =>
      s.isFull h || t.took.contains (a, h) || t.stamp < tget 0 k (granuleKnown h))
  k : Known := knownBy s a item

/-- The kind of race of an access over an unreleased write, or none for atomic over atomic (R100). -/
def raceKind (acc : Access) (write : Bool) (t : Tag) : Option Nat :=
  if acc.atomic then (if t.atomic then none else some (if write || acc.rmw then 5 else 4))
  else some ((if t.atomic then 2 else 0) + (if write then 1 else 0))

/-- The race that an access meets at a granule: kind and tag. -/
def granuleRace (s : State) (a : AgentId) (acc : Access) (write : Bool) (g : Granule) : Option (Nat × Tag) :=
  match tfind s.tags g.key with
  | none => none
  | some t =>
    if t.agent = a || writeReleased s a acc.item g t then none
    else (raceKind acc write t).map fun k => (k, t)

/-- The detail word of a memory-model exception (R104). -/
def raceDetail (t : Tag) : W64 :=
  BitVec.ofNat 64 (t.seq.toNat % 2 ^ 32 * 2 ^ 32 + (if t.atomic then 2 ^ 15 else 0) +
    (if t.version.isSome then 2 ^ 14 else 0) + t.agent.toNat)

/-- Do accesses to the part carry writer tags: its leaf has RD set, and it is not of the host window (R39, R432)? -/
def Part.tagged (p : Part) : Bool :=
  leafRD p.leaf && (match p.home with
    | .plain h => !(isHostWindow h && h < 2 ^ 52)
    | _ => true)

/-- The first race of a part: cause, fault address, detail. -/
def partRace (s : State) (a : AgentId) (acc : Access) (write : Bool) (p : Part) : Option (Nat × W64 × W64) :=
  if !p.tagged then none
  else p.granules.findSome? fun g => (granuleRace s a acc write g).map fun (k, t) =>
    (128 + p.level.code * 16 + k, p.va + BitVec.ofInt 64 g.delta, raceDetail t)

/-- Put the writer's tag on the granules of a part (R98). -/
def tagPart (s : State) (a : AgentId) (acc : Access) (p : Part) : State :=
  if !p.tagged then s
  else
    let ver := versionOf s a acc p
    let filled := acc.fills || acc.fe = 1 || acc.fe = 3
    p.granules.foldl (fun s g =>
      let old := tfind s.tags g.key
      let s := match ver with
        | some c => s.modPiece c fun q =>
            if q.vtags.any (fun v => v.1 = g.key) then q else { q with vtags := q.vtags ++ [(g.key, old)] }
        | none => s
      let t : Tag := ⟨a, acc.atomic, s.seq a, acc.item, isHostAgent a, filled && p.level.hasFull, ver, s.stamp, []⟩
      { s with tags := tinsert g.key t (terase s.tags g.key) }) s

/-- A waiting load takes the granules that it covers: their bytes are acquired, and whoever is ordered after the load has
them too (R91, R92). -/
def takeGranules (s : State) (a : AgentId) (item : Option Nat) (p : Part) : State :=
  let know := (p.feHomes.filter s.isFull).map fun h => (granuleKnown h, s.stamp + 1)
  let s := { s.learn a know with stamp := s.stamp + 1 }
  let s := match agentCore a, item with
    | some c, some i => s.learnItem c (a.toNat % 8) i know
    | _, _ => s
  p.granules.foldl (fun s g =>
    match tfind s.tags g.key with
    | some t =>
      let t := { t with took := t.took ++ (feGranules g.lo g.hi).map fun h => (a, h) }
      { s with tags := tinsert g.key t (terase s.tags g.key) }
    | none => s) s

/-! ## Versioned capacity (R229) -/

/-- The lines of version q, by number, that a part needs and that it does not hold yet. -/
def newVersionLines (q : Piece) (p : Part) : List Nat :=
  match p.home with
  | .plain a =>
    let lines := q.vbytes.map fun b => b.1 / 128
    ((List.range ((a + p.len - 1) / 128 - a / 128 + 1)).map fun i => 2 * (a / 128 + i)).filter fun l =>
      !lines.contains (l / 2)
  | .fbc _ _ => (p.blocks.filter fun e => !(q.vblocks.any fun b => b.enc = e)).map fun e => 2 * e + 1
  | .window _ _ => []

/-- The lines, by number, of the version of core c whose first write is still under way: the blocks of its stores and held
images that no version block stands for yet (R148, R151). -/
def versionPending (s : State) (c : CoreId) (q : Piece) : List Nat :=
  let es := ((s.fbcStores.filter fun f => f.owner = some c).map (·.enc) ++ (s.held.filter fun h => h.owner = some c).map (·.enc)).eraseDups
  (es.filter fun e => !(q.vblocks.any fun b => b.enc = e)).map fun e => 2 * e + 1

/-- Would the writes need line 16,385 of the version of core c? -/
def versionFull (s : State) (c : CoreId) (ps : List Part) : Bool :=
  match (s.core c).piece with
  | some q =>
    let pending := versionPending s c q
    let new := ((ps.flatMap (newVersionLines q)).filter fun l => !pending.contains l).eraseDups.length
    0 < new && versionLines q + pending.length + new > 16384
  | none => false

/-- The version capacity that a write of the parts would exceed: 323 at its first byte. -/
def capacityStop (s : State) (a : AgentId) (acc : Access) (ps : List Part) : Option Stop :=
  let vs := ps.filter fun p => (versionOf s a acc p).isSome
  match vs, agentCore a with
  | p :: _, some c => if versionFull s c vs then some (.trap 323 p.va none) else none
  | _, _ => none

/-! ## Bad data (R86, R220, R436) -/

/-- The first byte of the 64-byte unit that holds an address. -/
def unitOf (va : W64) : W64 := va - BitVec.ofNat 64 (va.toNat % 64)

/-- Is the word of key k wholly held in a version? -/
def versionHasWord (s : State) (ver : Option CoreId) (k : Nat) : Bool :=
  match ver.bind fun c => (s.core c).piece with
  | some q => (List.range 8).all fun i => (tfind q.vbytes (8 * k + i)).isSome
  | none => false

/-- Is the block held in a version? -/
def versionHasBlock (s : State) (ver : Option CoreId) (enc : Nat) : Bool :=
  match ver.bind fun c => (s.core c).piece with
  | some q => q.vblocks.any fun b => b.enc = enc
  | none => false

/-- The first bad word of n plain bytes from home a, as a version sees them. -/
def plainFlaw (s : State) (ver : Option CoreId) (write : Bool) (a n : Nat) : Option (Nat × Flaw) :=
  s.flaws.find? fun f => 8 * f.1 < a + n && a < 8 * f.1 + 8 && !(write && coversWord a n f.1) && !versionHasWord s ver f.1

/-- The bad data that a part meets, with the address of its 64-byte unit: in the words that it reads, or writes in part;
in the encodings of the blocks that it reads, or does not replace whole; in the full/empty bits that it uses (R86, R148,
R220) (log 79: DESIGN CHOICE). -/
def partFlaw (s : State) (a : AgentId) (acc : Access) (write : Bool) (p : Part) : Option (W64 × Flaw) :=
  let ver := versionOf s a acc p
  let full := if acc.fe ≠ 0 || acc.fills then p.feHomes.find? fun h => (tfind s.flaws (fullKey h)).isSome else none
  match p.home, full with
  | _, some _ => some (unitOf p.va, .ecc)
  | .plain h, none => (plainFlaw s ver write h p.len).map fun f => (unitOf (p.va + BitVec.ofInt 64 ((8 * f.1 : Nat) - (h : Int))), f.2)
  | .fbc _ off, none => p.blocks.zipIdx.findSome? fun (e, i) =>
      let lo := max off (off / 128 * 128 + 128 * i)
      if versionHasBlock s ver e || (write && lo % 128 = 0 && lo + 128 ≤ off + p.len) then none
      else (s.flawIn false e (2 * budBits (leafBud p.leaf))).map fun f => (unitOf (p.va + BitVec.ofNat 64 (lo - off)), f.2)
  | .window _ _, none => none

/-- The stop with which bad data ends an access. -/
def flawStop (s : State) (a : AgentId) (acc : Access) (write : Bool) (ps : List Part) : Option Stop :=
  if s.flaws.isEmpty then none
  else (ps.findSome? (partFlaw s a acc write)).map fun (va, f) => .trap (flawCause a f) va none

/-! ## Performing an access -/

/-- Read a part, its full/empty bits changing as the qualifier says (R63). -/
def performRead (s : State) (w : Who) (acc : Access) (p : Part) : List Byte × State :=
  let bs := s.partBytes (versionOf s w.agent acc p) p
  let s := if acc.fe = 1 || acc.fe = 2 then takeGranules s w.agent acc.item p else s
  let s := if acc.fe = 2 then p.feHomes.foldl (fun s h => s.setFull h false) s else s
  (bs, s)

/-- Write plain bytes into a version. -/
def versionPut (s : State) (c : CoreId) (a : Nat) (bs : List Byte) : State :=
  s.modPiece c fun q => { q with
    vbytes := (bs.zipIdx.foldl (fun m (b, i) => tinsert (a + i) b (terase m (a + i))) q.vbytes) }

/-- The page through which an accessor reaches a part. -/
def Part.page (p : Part) (w : Who) : PageId := ⟨w.space.getD 64, p.va.toNat / 2 ^ p.log2 * 2 ^ p.log2, p.log2⟩

/-- An item's write to a slate part stalls no more (R81). -/
def State.unstall (s : State) (w : Who) (acc : Access) (p : Part) : State :=
  match p.level, w.own, acc.item with
  | .slate, some c, some i => s.modCore c fun k => { k with slateWait := k.slateWait.filter fun e => match e.1 with
      | some (n, va) => !(n = i && (va - p.va).toNat < p.len)
      | none => true }
  | _, _, _ => s

/-- Perform a store to an FBC block: the indivisible read-modify-write (R148, R153). -/
def performFbc (s : State) (f : FbcStore) : State :=
  s.encodeFor f.owner f.leaf f.enc (mergeNamed (s.versionBlockBytes f.owner f.leaf f.enc) f.named)

/-- Perform the stores of an agent that wait at their slices, oldest first. -/
def drainFbc (s : State) (a : AgentId) : State :=
  (s.fbcStores.filter fun f => f.agent = a).foldl performFbc
    { s with fbcStores := s.fbcStores.filter fun f => f.agent ≠ a }

/-- Write a part: its bytes, tags and full/empty bits. A store to an FBC page goes to the slice, which
performs it as a read-modify-write of each block (R148), that of a CP or a system core to an SC page before anything else
issues (R108). What an engine fills turns full by `fillParts`. -/
def performWrite (s : State) (w : Who) (acc : Access) (p : Part) (bs : List Byte) : State :=
  let ver := versionOf s w.agent acc p
  let s := (tagPart s w.agent acc p).unstall w acc p
  let s := match p.home with
    | .plain a => match ver with
      | some c => versionPut s c a bs
      | none => s.setBytes a bs
    | .fbc _ off =>
      let t := { s with fbcStores := s.fbcStores ++ p.blocks.zipIdx.map fun (e, j) =>
          ⟨e, p.leaf, p.page w, w.agent, namedBytes off j bs, ver⟩ }
      if leafSC p.leaf && isCpuAgent w.agent then drainFbc t w.agent else t
    | .window c o => s.windowWrite c o bs
  if acc.fe = 1 || acc.fe = 3 then p.feHomes.foldl (fun s h => s.setFull h true) s else s

/-- The bytes of a part out of the bytes of the access, `done` bytes before it. -/
def sliceBytes (bs : List Byte) (done n : Nat) : List Byte := (bs.drop done).take n

/-! ## Accesses as computations -/

/-- Take an optional failure. -/
def orStop (o : Option Stop) : M Unit :=
  match o with
  | some e => throw e
  | none => pure ()

/-- Translate rows of (address, bytes) page by page, reporting the first fault with the row's address
(R29, R43, R445). The fault address is the first byte of the access (R223). -/
def translateRows (w : Who) (k : Kind) (fe : Bool) : List (W64 × Nat) → M (List Part)
  | [] => pure []
  | (va, n) :: r => do
    walkGate w k va n
    let s ← get
    match translateAccess s w k fe va n with
    | .error c => throw (.trap c va none)
    | .ok (ps, s) =>
      set s
      match ps.find? (aliasConflict s) with
      | some _ => throw (.trap (accessCause k 6) va none)
      | none =>
        if ps.any fun p => p.linkLost s w.agent then throw (.trap 371 va none)
        let rest ← translateRows w k fe r
        pure (ps ++ rest)

/-! ## What an access asks of the memory controllers (R439) -/

/-- What a part asks of memory controllers: for each line that is not resident, the regulator and the bytes
(log 49: DEDUCED). -/
def memoryRequests (s : State) (w : Who) (p : Part) : List MemRequest :=
  match w.part with
  | none => []
  | some t => if p.isWindow then [] else p.lines.filterMap fun (key, decoded, line) =>
      if (tfind s.lines key).isSome || isHostWindow (line * 128) then none
      else some ⟨some w.agent, key, s.channelOf (line * 128) * 32 + t.val, if decoded then 2 * budBits (leafBud p.leaf) else 128⟩

/-- The parts of an access reach their lines: the requests of those that are not resident are admitted or the access waits,
the events are counted, and the lines stay where the access leaves them (R40, R73, R417, R439). -/
def useLines (w : Who) (acc : Access) (write : Bool) (ps : List Part) : M Unit := do
  let s ← get
  chargeRequests (ps.flatMap (memoryRequests s w)).eraseDups
  modify fun t => fillAll (countEvents t w ps) w acc write ps

/-- Wait for what the parts need, then meet their races and bad data: nothing is performed before every part may be
(R63, R100, R104, R220), and the regulators have admitted its requests (R439). -/
def checkParts (w : Who) (acc : Access) (read write : Bool) (ps : List Part) : M Unit := do
  let s ← get
  orStop ((ps.findSome? (partWaits s w acc write)).map .wait)
  orStop ((ps.findSome? fun p => partRace s w.agent acc write p).map fun (c, a, d) => .trap c a (some d))
  if write && !read then
    orStop (capacityStop s w.agent acc ps)
  orStop (flawStop s w.agent acc (!read) ps)
  useLines w acc write ps

/-- A line of global memory that may lie in the L2 is filled ahead of an access; anything else is dropped (R40, R335). -/
def fillAhead (w : Who) (k : Kind) (va : W64) (s : State) : State :=
  let m : M Unit := do
    match (← translateRows w k false [(va, 1)]) with
    | p :: _ =>
      let s ← get
      if p.isWindow || !allocates s w {} p then raise 0
      chargeRequests (memoryRequests s w p)
      modify fun t => fillLines t w {} false p
    | [] => pure ()
  match m s with
  | .ok (_, t) => t
  | .error (.wait what) => s.noteHeld what
  | .error _ => s

/-- Read the parts in order (log 6: DESIGN CHOICE) (log 19: DESIGN CHOICE). -/
def readParts (w : Who) (acc : Access) : List Part → M (List Byte)
  | [] => pure []
  | p :: r => do
    let (bs, s) := performRead (← get) w acc p
    set s
    let rest ← readParts w acc r
    pure (bs ++ rest)

/-- Write bytes over the parts in order. -/
def writeParts (w : Who) (acc : Access) : List Part → List Byte → M Unit
  | [], _ => pure ()
  | p :: r, bs => do
    set (performWrite (← get) w acc p (bs.take p.len))
    writeParts w acc r (bs.drop p.len)

/-- Load n bytes. -/
def loadBytes (w : Who) (k : Kind) (acc : Access) (va : W64) (n : Nat) : M (List Byte) := do
  let ps ← translateRows w k (acc.fe ≠ 0) [(va, n)]
  checkParts w acc true false ps
  readParts w acc ps

/-- Store bytes. -/
def storeBytes (w : Who) (k : Kind) (acc : Access) (va : W64) (bs : List Byte) : M Unit := do
  let ps ← translateRows w k (acc.fe ≠ 0) [(va, bs.length)]
  checkParts w acc false true ps
  writeParts w acc ps bs

/-! ## Orders (R105 to R109) -/

/-- Does the scope of an access by agent a hold agent b (R106)? -/
def inScope (s : State) (scope : Nat) (a b : AgentId) : Bool :=
  a = b ||
  (match scope with
   | 0 => sameCore
   | 1 => sameCore || (match agentCore a, agentCore b with
      | some c, some d => coreCluster c = coreCluster d
      | _, _ => false)
   | 2 => (partOf a).isSome && (match agentCore b with
      | some d => (s.core d).part = partOf a
      | none => onTide b)
   | 3 => b.toNat < 2128
   | _ => true)
where
  sameCore : Bool := match agentCore a, agentCore b with
    | some c, some d => c = d
    | _, _ => false
  partOf (a : AgentId) : Option PartId := (agentCore a).bind fun c => (s.core c).part
  onTide (b : AgentId) : Bool := if h : 2048 ≤ b.toNat ∧ b.toNat < 2112 then
    (s.tides[b.toNat - 2048]).any fun p => (s.core p.issuer).part = partOf a else false

/-- Join a release side to those that are met at a place. -/
def addRelease : List Release → Release → List Release
  | [], x => [x]
  | y :: r, x => if y.agent = x.agent && y.scope = x.scope then { y with know := knownJoin y.know x.know } :: r else y :: addRelease r x

/-- What agent a learns of release sides at an acquire side of a scope: the edges that the scopes of both sides allow
(R91, R93). -/
def acquireFrom (s : State) (a : AgentId) (scope : Nat) (xs : List Release) : Known :=
  (xs.filter fun x => inScope s x.scope x.agent a && inScope s scope a x.agent).foldl (fun k x => knownJoin k x.know) []

/-- The bytes of parts at which a release and an acquire meet: homes, or bytes of decoded blocks. -/
def syncBytes (ps : List Part) : List Nat :=
  ps.flatMap fun p => match p.home with
    | .plain a => (List.range p.len).map (a + ·)
    | .fbc b off => (List.range p.len).map fun i => 2 ^ 60 + 128 * encAddr p.leaf b (off + i) + (off + i) % 128
    | .window _ _ => []

/-- The release sides that an access to the parts meets. -/
def syncMet (s : State) (ps : List Part) : List Release :=
  (syncBytes ps).foldl (fun xs u => (tget [] s.sync u).foldl addRelease xs) []

/-- An atomic read of the parts: an acquire learns, any atomic load may be followed by an acquire fence
(R91, R93, R107). -/
def syncRead (s : State) (a : AgentId) (acq : Bool) (scope : Nat) (ps : List Part) : State :=
  let xs := syncMet s ps
  let s := { s with seen := tput [] s.seen a.toNat (xs.foldl addRelease (tget [] s.seen a.toNat)) }
  if acq then s.learn a (acquireFrom s a scope xs) else s

/-- An atomic write of the parts: a release passes on what the agent passes, any atomic store what earlier release
fences do (R91, R93, R107). -/
def syncWrite (s : State) (a : AgentId) (rel : Bool) (scope : Nat) (ps : List Part) : State :=
  let xs := (if rel then [⟨a, scope, s.passes a⟩] else []) ++ tget [] s.fences a.toNat
  (syncBytes ps).foldl (fun s u => { s with sync := tput [] s.sync u (xs.foldl addRelease (tget [] s.sync u)) }) s

/-- A release fence of agent a passes k on to its later atomic stores (R107). -/
def noteFence (s : State) (a : AgentId) (scope : Nat) (k : Known) : State :=
  { s with fences := tput [] s.fences a.toNat (addRelease (tget [] s.fences a.toNat) ⟨a, scope, k⟩) }

/-- A release event of the current processor, once its writes are acknowledged (R97). -/
def releaseEvent : M Unit := do
  let s ← get
  waitUnless (s.acked s.agent)
  set (s.release s.agent)

def orderAcquires (o : Nat) : Bool := o = 2 || o = 4 || o = 5 || o = 6
def orderReleases (o : Nat) : Bool := o = 3 || o = 4 || o = 5 || o = 6

end Sys2Proof.Machine
end

