-- ==== Sys2Proof/Machine/EngineAccess.lean ====
section
/-! DEFINITION. Accesses of engines: an attempt that may be done, fail with a cause, or wait; failures and
arithmetic reports in the queue status registers; fills (R66, R104, R123, R228, R244, R359). -/

namespace Sys2Proof.Machine

/-- How an attempt of an engine ends. -/
inductive Tried (α : Type) where
  | done (a : α) (s : State)
  | failed (cause : Nat) (addr : W64) (detail : Option W64)
  | waits (what : WaitFor)

/-- Run a computation as an engine's attempt: a failure or a wait changes nothing (log 59: DEDUCED). -/
def attempt {α : Type} (m : M α) (s : State) : Tried α :=
  match m s with
  | .ok (a, t) => .done a t
  | .error (.trap c a d) => .failed c a d
  | .error (.wait w) => .waits w

/-- A range as rows of at most 4,096 bytes, which no page boundary cuts twice. -/
def rangeRows (va : W64) (n : Nat) : List (W64 × Nat) :=
  (List.range ((n + 4095) / 4096)).map fun i => (va + BitVec.ofNat 64 (4096 * i), min 4096 (n - 4096 * i))

/-- An engine's read of n bytes. -/
def engineRead (w : Who) (k : Kind) (item : Nat) (va : W64) (n : Nat) : M (List Byte) := do
  let acc : Access := { item := some item }
  let ps ← translateRows w k false (rangeRows va n)
  checkParts w acc true false ps
  readParts w acc ps

/-- Does a granule at g hold bytes of a later write? -/
def touchesLater (g : W64) (later : List (W64 × Nat)) : Bool :=
  later.any fun r => (r.1 - g).toNat < 16 && 0 < r.2 || (g - r.1).toNat < r.2

/-- Set full the granules of written parts that no later write of the item touches (R66) (log 42: DEDUCED). -/
def fillParts (s : State) (later : List (W64 × Nat)) (ps : List Part) : State :=
  ps.foldl (fun s p =>
    match p.home with
    | .plain a => p.feHomes.foldl (fun s (h : Nat) =>
        if touchesLater (p.va + BitVec.ofInt 64 (Int.ofNat h - Int.ofNat a)) later then s else s.setFull h true) s
    | _ => s) s

/-- What an engine writes of bytes over parts: the padding of an E2M1 unit stays zero, but for the copy engine, which moves
bytes unchanged (R173, R380) (log 97: DEDUCED). -/
def engineBytes (w : Who) : List Part → List Byte → List Byte
  | [], _ => []
  | p :: r, bs =>
    let own := bs.take p.len
    let own := if p.fmt = 5 && !(w.agent.toNat < 2048 && w.agent.toNat % 8 = 5) then
        own.zipIdx.map fun (b, i) => if (p.va.toNat + i) % 1024 ≥ 1020 then 0 else b
      else own
    own ++ engineBytes w r (bs.drop p.len)

/-- An engine's write, which fills full/empty granules once no later write of the item touches them. -/
def engineWrite (w : Who) (item : Nat) (later : List (W64 × Nat)) (va : W64) (bs : List Byte) : M Unit := do
  let acc : Access := { item := some item, fills := true }
  let ps ← translateRows w .engWrite false (rangeRows va bs.length)
  checkParts w acc false true ps
  writeParts w acc ps (engineBytes w ps bs)
  modify fun s => fillParts s later ps

/-! ## Reports (R123, R228, R359) -/

namespace State

/-- Record a failed item of a command of queue q. -/
def report (s : State) (c : CoreId) (q : QueueId) (pos cause item : Nat) : State :=
  s.modCore c fun k =>
    let v := (k.queue q).stat
    let v := if v.failed = 0 then
        { v with cause := BitVec.ofNat 9 cause, pos := BitVec.ofNat 5 pos, item := BitVec.ofNat 27 (min item 0x7FFFFFF) }
      else v
    let v := { v with failed := if v.failed = BitVec.allOnes 16 then v.failed else v.failed + 1 }
    { k.setQueue q { k.queue q with stat := v } with
      bellErr := true, bellFail := k.bellFail ||| ((1 : BitVec 6) <<< (queueIndex q).val) }

/-- Make an arithmetic report of group 4 reason r (1 to 5) in queue q's status. -/
def arithReport (s : State) (c : CoreId) (q : QueueId) (r : Nat) : State :=
  s.modCore c fun k =>
    let v := (k.queue q).stat
    k.setQueue q { k.queue q with stat := { v with arith := v.arith ||| ((1 : BitVec 5) <<< (r - 1)) } }

/-- The arithmetic reports of flags: NaN from non-NaN operands, overflow, clamp. -/
def arithReports (s : State) (c : CoreId) (q : QueueId) : List Nat → State
  | [] => s
  | r :: rs => (s.arithReport c q r).arithReports c q rs

/-- A fresh item number. -/
def newItem (s : State) : Nat × State := (s.nextItem, { s with nextItem := s.nextItem + 1 })

/-- The writes of an item are released (R99). -/
def releaseItem (s : State) (item : Nat) : State :=
  { s with tags := s.tags.map fun t => if t.2.item = some item then (t.1, { t.2 with released := true }) else t }

/-- The writes of an item to some granules are released (R99). -/
def releaseKeys (s : State) (item : Nat) (keys : List Nat) : State :=
  { s with tags := s.tags.map fun t =>
      if t.2.item = some item && keys.contains t.1 then (t.1, { t.2 with released := true }) else t }

/-- A held image whose item has sent its last piece is due to be encoded (R151). -/
def endImages (s : State) (item : Nat) : State :=
  { s with held := s.held.map fun h => if h.item = item || h.tagItem = item then { h with due := true } else h }

end State

end Sys2Proof.Machine
end

