-- ==== Sys2Proof/Machine/MemoryEvents.lean ====
section
/-! DEFINITION. The indivisible steps of the memory side: release events, page walks, line fills, the
read-modify-write of FBC blocks, byte counts (R30, R44, R72, R75, R97, R147 to R153). -/

namespace Sys2Proof.Machine

/-- RELEASE_EVENT: once an agent's earlier writes are acknowledged, its release sequence number advances (R97). -/
def execReleaseEvent (a : AgentId) (s : State) : Out :=
  .next (if s.acked a then s.release a else s)

/-- Who an agent is as an accessor: a unit of a compute core, a system core, or a tide engine, which walks in
the space of the core whose program it runs (R21, R31). -/
def agentWho (s : State) (a : AgentId) : Option Who :=
  match agentCore a with
  | some c => if a.toNat % 8 < 7 then some (s.whoCore c (a.toNat % 8)) else none
  | none =>
    if a.toNat < 2112 then
      let t : TideId := ⟨(a.toNat - 2048) % 64, Nat.mod_lt _ (by decide)⟩
      match s.tides[t.val] with
      | p :: _ => some (s.whoTide t p.issuer)
      | [] => none
    else if a.toNat < 2128 then some (State.whoSys ⟨(a.toNat - 2112) % 16, Nat.mod_lt _ (by decide)⟩)
    else none

/-- The walk in flight for a page is over. -/
def State.endWalk (s : State) (h : Holder) (space va : Nat) : State :=
  match s.walkFor h space va with
  | some w => { s with walks := s.walks.erase w }
  | none => s

/-- PAGE_WALK: a walker completes a walk for an agent, the one in flight for the page, or one that begins now. A valid leaf
enters the holder's translations and the pointers enter the slice's walk cache; a walk that fails leaves no entry, and the
accesses that join it report it (R30, R44 to R46). -/
def execPageWalk (a : AgentId) (va : W64) (s : State) : Out :=
  match agentWho s a with
  | none => .next s
  | some w => match w.space with
    | none => .next s
    | some space =>
      if fld va 48 16 ≠ 0 then .next s
      else match walkGate w .load va 1 s with
        | .error (.wait what) => .next (s.noteHeld what)
        | .error _ => .next s
        | .ok (_, t) => .next ((t.lookup w.holder space va.toNat).2.endWalk w.holder space va.toNat)

/-- A walk for an agent's address begins, where its walker has room and no regulator holds its reads (R45, R439). -/
def walkBegin (a : AgentId) (va : W64) (s : State) : State :=
  match agentWho s a with
  | none => s
  | some w => match s.misses w .load va with
    | none => s
    | some (space, root) => match walkGate w .load va 1 s with
      | .error (.wait what) => s.noteHeld what
      | .error _ => s
      | .ok (_, t) => t.beginWalk w.holder space root va.toNat

/-- L2_MISS_FILL: the line for an agent's load or store arrives at its home slice, where the attributes let it lie;
the line it displaces leaves (R40, R72, R73, R75, R147). -/
def execL2MissFill (a : AgentId) (va : W64) (store : Bool) (s : State) : Out :=
  match agentWho s a with
  | none => .next s
  | some w => .next (fillAhead w (if store then .store else .load) va s)

/-- FBC_BLOCK_RMW: the oldest store to the block that waits at its slice is performed (R148, R149). -/
def execFbcBlockRmw (block : Nat) (s : State) : Out :=
  match s.fbcStores.find? fun f => f.enc = block with
  | none => .next s
  | some f => .next (performFbc { s with fbcStores := s.fbcStores.erase f } f)

/-- An addition that would saturate its flag is reported at the queue of its command (R114, R227). -/
def countReport (s : State) (c : CoreId) (f : BitVec 8) (n : Nat) (src : CoreId) (q : QueueId) (cause pos item : Nat) :
    State :=
  if ((s.core c).flag f).saturates n then s.report src q pos cause item else s

/-- Add a byte count to a flag: the landing of a piece ends its reservation (R116, R119), an overflow is reported (R114). -/
def addCount (s : State) (n : Count) : State :=
  let g := n.signal
  let s := if n.reserved then s.modCore n.core fun k => k.setFlag g.flag ((k.flag g.flag).unreserve g.amount) else s
  let s := countReport s n.core g.flag g.amount n.src n.queue n.cause n.pos n.item
  s.addFlag n.core g.flag ⟨g.agent, g.amount, g.know⟩

end Sys2Proof.Machine
end

