-- ==== Sys2Proof/Machine/Flags.lean ====
section
/-! DEFINITION. Flag and condition computations: the integer conditions of R289, the floating-point
conditions of R295 with their NV, and FPSTAT (R165). -/

namespace Sys2Proof.Machine

/-- Cond(c, A, B) of R289 at any width. -/
def intCond {w : Nat} (c : BitVec 3) (a b : BitVec w) : Bool :=
  match c.toNat with
  | 0 => a = b
  | 1 => a ≠ b
  | 2 => a.slt b
  | 3 => !a.slt b
  | 4 => a.ult b
  | 5 => !a.ult b
  | 6 => a &&& b ≠ 0
  | _ => a &&& b = 0

/-- FCond(c, A, B) of R295. -/
def floatCond (c : BitVec 3) (a b : FVal) : Bool :=
  let un := a.isNan || b.isNan
  match c.toNat with
  | 0 => a.eqv b
  | 1 => a.lt b
  | 2 => a.lt b || a.eqv b
  | 3 => un
  | 4 => !a.eqv b
  | 5 => !a.lt b
  | 6 => !(a.lt b || a.eqv b)
  | _ => !un

/-- The NV of a comparison: a signalling NaN always, a quiet NaN for the ordered tests (R295). -/
def condFlags (c : BitVec 3) (a b : FVal) : FpFlags :=
  let ordered := c.toNat = 1 || c.toNat = 2 || c.toNat = 5 || c.toNat = 6
  flagIf (a.isSig || b.isSig || (ordered && (a.isNan || b.isNan))) fNV

end Sys2Proof.Machine
end

