-- ==== Sys2Proof/Machine/Operands.lean ====
section
/-! DEFINITION. Operand forms: the scalar slot's register or immediate, the immediates of long words,
vector registers, the latch, tile lines with their full/empty bits and power states, scalar broadcast,
and the elements of each type (R242, R250 to R254, R284, R305 to R308). -/

namespace Sys2Proof.Machine

namespace State

/-- B of the scalar slot (R284). -/
def opB (s : State) (f : SlotS) : W64 := if f.sx.getLsbD 3 then f.sb.setWidth 64 else s.g f.sb

/-- BQ of the scalar slot (R284). -/
def opBQ (s : State) (f : SlotS) : BitVec 128 := if f.sx.getLsbD 3 then f.sb.setWidth 128 else s.gPair f.sb

/-- The amount of a flag operation (R343). -/
def amount (s : State) (f : Ls) : Nat := if f.a = 0 then scaled f.count else (fld (s.g f.a) 0 32).toNat

end State

/-- I32 of an LA word (R291). -/
def imm64 (f : La) : W64 := f.imm.signExtend 64

/-! ## Vector registers and tiles of the current compute core -/

namespace State

/-- The compute core whose turn it is; the instructions that need one never run on a system core (R351). -/
def here (s : State) : CoreId :=
  match s.cur with
  | .compute c => c
  | .system _ => 0

def thisCore (s : State) : Core := s.core s.here
def modHere (s : State) (f : Core → Core) : State := s.modCore s.here f

def vreg (s : State) (n : BitVec 3) : V512 := s.thisCore.v[n.toNat]'n.isLt
def setVreg (s : State) (n : BitVec 3) (x : V512) : State :=
  s.modHere fun k => { k with v := k.v.set n.toNat x n.isLt }
def setLat (s : State) (x : V512) : State := s.modHere fun k => { k with lat := x }

end State

/-- The key of element (i, j) of tile t. -/
def tileKey (t i j : Nat) : Nat := 256 * t + 16 * i + j

/-- The element of a tile line that lane i names (R254). -/
def tileElem (dir : BitVec 2) (k i : Nat) : Nat × Nat :=
  match dir.toNat with
  | 0 => (k, i)
  | 1 => (i, k)
  | 2 => (i, (i + k) % 16)
  | _ => (i, (k + 16 - i) % 16)

namespace State

def tileAt (s : State) (c : CoreId) (t i j : Nat) : Lane := tget 0 (s.core c).tiles (tileKey t i j)
def setTileAt (s : State) (c : CoreId) (t i j : Nat) (v : Lane) : State :=
  s.modCore c fun k => { k with tiles := tput 0 k.tiles (tileKey t i j) v }

/-- The 16 lanes of a tile line. -/
def tileLine (s : State) (t : Nat) (dir : BitVec 2) (k : Nat) : V512 :=
  Vector.ofFn fun i => let e := tileElem dir k i.val; s.tileAt s.here t e.1 e.2

def putLine (s : State) (t : Nat) (dir : BitVec 2) (k : Nat) (x : V512) : List Nat → State
  | [] => s
  | i :: r =>
    let e := tileElem dir k i
    (s.setTileAt s.here t e.1 e.2 (vlane x i)).putLine t dir k x r

def setTileLine (s : State) (t : Nat) (dir : BitVec 2) (k : Nat) (x : V512) : State :=
  s.putLine t dir k x (List.range 16)

/-- Is tile t full (R67)? -/
def tileFull (s : State) (c : CoreId) (t : Nat) : Bool := (s.core c).tfull.getLsbD t
def setTileFull (s : State) (c : CoreId) (t : Nat) (b : Bool) : State :=
  s.modCore c fun k => { k with tfull := if b then k.tfull ||| ((1 : BitVec 32) <<< t) else k.tfull &&& ~~~((1 : BitVec 32) <<< t) }

/-- The power state of the bank of tile t: 0 on, 1 retention, 2 gated (R242, R249). -/
def tilePower (s : State) (c : CoreId) (t : Nat) : BitVec 2 :=
  (s.core c).power[t % 8]'(Nat.mod_lt _ (by decide))
def setTilePower (s : State) (c : CoreId) (t : Nat) (v : BitVec 2) : State :=
  s.modCore c fun k => { k with power := k.power.set (t % 8) v (Nat.mod_lt _ (by decide)) }

/-- An access wakes a bank in retention, its contents intact (R242). -/
def wakeTile (s : State) (c : CoreId) (t : Nat) : State :=
  if s.tilePower c t = 1 then s.setTilePower c t 0 else s

/-- Is a switch transfer in progress on the tile (R325, R363)? -/
def tileBusy (s : State) (c : CoreId) (t : Nat) : Bool :=
  (s.core c).switch.any fun q => q.2.tile.toNat = t &&
    ((q.2.src = some 15 && q.2.srcRow.isSome) || (q.2.snk = some 15 && q.2.snkRow.isSome))

end State

/-- A CP access to tiles: a gated bank raises 326, banks in retention wake (R242). -/
def powerTiles (ts : List Nat) : M Unit := do
  let s ← get
  if ts.any fun t => s.tilePower s.here t = 2 then raise 326
  set (ts.foldl (fun s t => s.wakeTile s.here t) s)

/-- The tiles that a specifier names, one or a pair (R254). -/
def specTiles (role : Role) : Option Spec → List Nat
  | some (.tile t _ _) => if role = .pair then [t.toNat, t.toNat + 1] else [t.toNat]
  | _ => []

/-- The waits of an instruction on the tiles it reads and writes (R308): a tile that is read waits full, a
tile that is only written waits empty. A tile in a switch transfer waits for its end. -/
def waitTiles (reads writes : List Nat) : M Unit := do
  powerTiles (reads ++ writes)
  let s ← get
  waitUnless (reads.all fun t => s.tileFull s.here t && !s.tileBusy s.here t)
  waitUnless (writes.all fun t => reads.contains t || (!s.tileFull s.here t && !s.tileBusy s.here t))

/-- The one register value of a specifier; `hi` takes the second register or tile of a pair, or the upper
half of a scalar broadcast (R254). -/
def State.specValue (s : State) (pair hi : Bool) (ty : BitVec 3) (sp : Option Spec) : V512 :=
  match sp with
  | some .lat => s.thisCore.lat
  | some (.reg n) => s.vreg (if hi then n + 1 else n)
  | some (.tile t dir k) => s.tileLine (t.toNat + (if hi then 1 else 0)) dir k.toNat
  | some (.scalar r) =>
    if ty = 4 && !pair then Vector.replicate 16 (fld (s.g r) 0 32)
    else Vector.replicate 16 (if hi then fld (s.g r) 32 32 else fld (s.g r) 0 32)
  | none => Vector.replicate 16 0

/-- Write one register value where a specifier names it, and lat (R251, R254). -/
def State.writeSingle (s : State) (sp : Option Spec) (x : V512) : State :=
  match sp with
  | some .lat => s.setLat x
  | some (.reg n) => (s.setVreg n x).setLat x
  | some (.tile t dir k) => (s.setTileLine t.toNat dir k.toNat x).setLat x
  | _ => s

/-- Write a pair; lat is unchanged (R251). -/
def State.writePair (s : State) (sp : Option Spec) (lo hi : V512) : State :=
  match sp with
  | some (.reg n) => (s.setVreg n lo).setVreg (n + 1) hi
  | some (.tile t dir k) => (s.setTileLine t.toNat dir k.toNat lo).setTileLine (t.toNat + 1) dir k.toNat hi
  | _ => s

/-! ## Elements (R305) -/

/-- The elements of a register or pair in a type, or in formats 7 and 8 of R316. -/
def elemsOf (f : Nat) (lo hi : V512) : List Nat :=
  match f with
  | 3 => lo.toList.flatMap fun l => [l.toNat % 65536, l.toNat / 65536]
  | 4 | 5 => (List.range 16).map fun i => (vlane lo i).toNat + (vlane hi i).toNat * 2 ^ 32
  | 6 | 7 | 8 => lo.toList.flatMap fun l =>
      [l.toNat % 256, l.toNat / 256 % 256, l.toNat / 65536 % 256, l.toNat / 16777216]
  | _ => lo.toList.map (·.toNat)

/-- A register from 16 numbers. -/
def lanesFrom (es : List Nat) : V512 := Vector.ofFn fun i => BitVec.ofNat 32 (es.getD i.val 0)

/-- The registers that hold elements of a format. -/
def regsOf (f : Nat) (es : List Nat) : V512 × V512 :=
  match f with
  | 3 => (lanesFrom ((List.range 16).map fun i => es.getD (2 * i) 0 + es.getD (2 * i + 1) 0 * 65536), lanesFrom [])
  | 4 | 5 => (lanesFrom (es.map (· % 2 ^ 32)), lanesFrom (es.map (· / 2 ^ 32)))
  | 6 | 7 | 8 => (lanesFrom ((List.range 16).map fun i => es.getD (4 * i) 0 + es.getD (4 * i + 1) 0 * 256 +
      es.getD (4 * i + 2) 0 * 65536 + es.getD (4 * i + 3) 0 * 16777216), lanesFrom [])
  | _ => (lanesFrom es, lanesFrom [])

/-- The elements of a source operand in its type. -/
def State.specElems (s : State) (f : Nat) (sp : Option Spec) : List Nat :=
  let pair := f = 4 || f = 5
  elemsOf f (s.specValue pair false (BitVec.ofNat 3 f) sp) (s.specValue pair true (BitVec.ofNat 3 f) sp)

/-- Write elements of a format to a destination. -/
def State.writeElems (s : State) (f : Nat) (sp : Option Spec) (es : List Nat) : State :=
  let (lo, hi) := regsOf f es
  if f = 4 || f = 5 then s.writePair sp lo hi else s.writeSingle sp lo

end Sys2Proof.Machine
end

