-- ==== Sys2Proof/Machine/TileMemory.lean ====
section
/-! DEFINITION. Tiles in memory: the rows of a tile, their element formats, and the move between memory and
tile registers that LDT, STT and task operands share (R198, R333, R334). -/

namespace Sys2Proof.Machine

/-- The format of the page that holds the byte at va. -/
def pageFormat (w : Who) (k : Kind) (fe : Bool) (va : W64) : M Nat := do
  walkGate w k va 1
  match translateAccess (← get) w k fe va 1 with
  | .error c => throw (.trap c va none)
  | .ok (ps, s) =>
    set s
    pure (match ps with | p :: _ => p.fmt | [] => 0)

/-- The element size of a page format in a single tile or a pair; none where R333 raises reason 4. -/
def tileElemBytes (fmt : Nat) (pair : Bool) : Option Nat :=
  match fmt, pair with
  | 0, false | 1, false => some 4
  | 2, false => some 2
  | 3, false | 4, false | 6, false => some 1
  | 8, true | 9, true | 10, true => some 8
  | _, _ => none

/-- The lane that a stored element gives (R333). -/
def loadLane (fmt code : Nat) : Nat :=
  match fmt with
  | 2 => (convertElem 3 0 0 false code).1
  | 3 => (convertElem 7 0 0 false code).1
  | 4 => (convertElem 8 0 0 false code).1
  | 6 => intCode 32 (signedOf 8 code)
  | _ => code

/-- The element that a lane is stored as, and its flags (R333). -/
def storeLane (fmt lane : Nat) : Nat × FpFlags :=
  match fmt with
  | 2 => convertElem 0 3 0 true lane
  | 3 => convertElem 0 7 0 true lane
  | 4 => convertElem 0 8 0 true lane
  | 6 => convertElem 1 6 0 true lane
  | _ => (lane, 0)

/-- A row of a tile in memory: its format, element size and parts. -/
structure TileRow where
  fmt : Nat
  size : Nat
  parts : List Part
  deriving DecidableEq, Repr

/-- One row of n elements at va. A row that runs into a page of another format meets reason 4 (R333) (log 70: DEDUCED). -/
def tileRow (w : Who) (k : Kind) (fe pair : Bool) (va : W64) (n : Nat) : M TileRow := do
  let fmt ← pageFormat w k fe va
  match tileElemBytes fmt pair with
  | none => throw (.trap (accessCause k 4) va none)
  | some e =>
    let ps ← translateRows w k fe [(va, e * n)]
    if ps.any fun p => p.fmt ≠ fmt then throw (.trap (accessCause k 4) va none)
    pure ⟨fmt, e, ps⟩

/-- The rows of a tile of the given shape, in ascending order. With no stride, rows lie 16 elements of the
first row's page apart (R333). -/
def tileRows (w : Who) (k : Kind) (fe pair : Bool) (va : W64) (stride : Option W64) (rows cols : Nat) :
    M (List TileRow) := do
  let fmt ← pageFormat w k fe va
  let step := stride.getD (BitVec.ofNat 64 (16 * (tileElemBytes fmt pair).getD 0))
  (List.range rows).mapM fun r => tileRow w k fe pair (va + BitVec.ofNat 64 r * step) cols

/-- The elements of a row's bytes. -/
def rowCodes (size : Nat) (bs : List Byte) : List Nat :=
  (List.range (bs.length / size)).map fun i => leNat ((bs.drop (size * i)).take size)

/-- Put the elements of rows into tile t, or the pair t, t + 1; every element the rows do not give is zero. -/
def State.fillTile (s : State) (c : CoreId) (t : Nat) (pair : Bool) (rows : List (Nat × List Nat)) : State :=
  let inTile (key : Nat) : Bool := key / 256 = t || (pair && key / 256 = t + 1)
  let put (ts : Table Lane) (r : Nat) (row : Nat × List Nat) : Table Lane :=
    (row.2.zipIdx).foldl (fun ts (code, j) =>
      let l := loadLane row.1 code
      if pair then
        tput 0 (tput 0 ts (tileKey t r j) (BitVec.ofNat 32 l)) (tileKey (t + 1) r j) (BitVec.ofNat 32 (l / 2 ^ 32))
      else tput 0 ts (tileKey t r j) (BitVec.ofNat 32 l)) ts
  s.modCore c fun k =>
    { k with tiles := rows.zipIdx.foldl (fun ts (row, r) => put ts r row) (k.tiles.filter fun e => !inTile e.1) }

/-- The stored bytes of row r of tile t (or pair) at a format, `cols` elements of it, and their flags. -/
def State.tileRowBytes (s : State) (c : CoreId) (t : Nat) (pair : Bool) (row : TileRow) (r cols : Nat) :
    List Byte × FpFlags :=
  let es := (List.range cols).map fun j =>
    if pair then ((s.tileAt c t r j).toNat + (s.tileAt c (t + 1) r j).toNat * 2 ^ 32, 0)
    else storeLane row.fmt (s.tileAt c t r j).toNat
  (es.flatMap fun e => leBytes row.size e.1, es.foldl (fun f e => f ||| e.2) 0)

/-- Read rows of tile elements. -/
def readRows (w : Who) (acc : Access) : List TileRow → M (List (Nat × List Nat))
  | [] => pure []
  | r :: rs => do
    let bs ← readParts w acc r.parts
    let rest ← readRows w acc rs
    pure ((r.fmt, rowCodes r.size bs) :: rest)

/-- Write rows of tile t, `cols` elements each, from row `r` on; the flags of their conversions. -/
def writeRows (w : Who) (acc : Access) (c : CoreId) (t : Nat) (pair : Bool) (cols : Nat) :
    List TileRow → Nat → M FpFlags
  | [], _ => pure 0
  | row :: rs, r => do
    let (bs, f) := (← get).tileRowBytes c t pair row r cols
    writeParts w acc row.parts bs
    let g ← writeRows w acc c t pair cols rs (r + 1)
    pure (f ||| g)

end Sys2Proof.Machine
end

