-- ==== Sys2Proof/Machine/LoadStore.lean ====
section
/-! DEFINITION. The memory operations of the LM layout: loads, stores, tiles, prefetch, fences, atomics,
compare-and-swap and the user-mode queues (R105 to R109, R328 to R341). -/

namespace Sys2Proof.Machine

/-! ## What the operations share -/

/-- The address of an LM word (R329). -/
def lmAddr (s : State) (f : Lm) : W64 := s.g f.a + f.imm.signExtend 64

/-- Bytes of a size code b, h, w, d, q (R328). -/
def lmBytes (f : Lm) : Nat := 2 ^ f.size.toNat

/-- The access of an LM word: an order other than plain makes it atomic (R87). -/
def lmAccess (f : Lm) : Access := { atomic := f.order ≠ 0, fe := f.fe.toNat }

/-- An access whose order is not plain must be aligned to its size, or code 44 (R330). -/
def alignLm (va : W64) (n : Nat) (o : BitVec 3) : M Unit :=
  if o ≠ 0 && va.toNat % n ≠ 0 then raise 44 else pure ()

/-- The release side before an access (R97, R105). -/
def releaseBefore (o : BitVec 3) : M Unit := if orderReleases o.toNat then releaseEvent else pure ()

/-- The scope of an LM word; order tk ignores the field and counts as system scope (R106, R109). -/
def lmScope (f : Lm) : Nat := if f.order = 6 then 4 else f.scope.toNat

/-- The orders of an atomic read of the parts. -/
def orderRead (o : BitVec 3) (scope : Nat) (ps : List Part) : M Unit :=
  modify fun s => if o ≠ 0 then syncRead s s.agent (orderAcquires o.toNat) scope ps else s

/-- The orders of an atomic write of the parts; what the agent writes later is not passed on with a release. -/
def orderWrite (o : BitVec 3) (scope : Nat) (ps : List Part) : M Unit :=
  modify fun s =>
    if o = 0 then s
    else
      let s := syncWrite s s.agent (orderReleases o.toNat) scope ps
      if orderReleases o.toNat then { s with stamp := s.stamp + 1 } else s

/-- Load n bytes as an LM word says (R331). -/
def lmLoad (f : Lm) (n : Nat) : M (List Byte) := do
  let s ← get
  let va := lmAddr s f
  alignLm va n f.order
  releaseBefore f.order
  let ps ← translateRows s.who .load (f.fe ≠ 0) [(va, n)]
  checkParts s.who (lmAccess f) true false ps
  let bs ← readParts s.who (lmAccess f) ps
  orderRead f.order (lmScope f) ps
  pure bs

/-- Nothing later issues before an sc store has been performed (R105). -/
def performFirst (o : BitVec 3) : M Unit := modify fun s => if o = 5 then drainFbc s s.agent else s

/-- Store bytes as an LM word says (R331). -/
def lmStore (f : Lm) (bs : List Byte) : M Unit := do
  let s ← get
  let va := lmAddr s f
  alignLm va bs.length f.order
  releaseBefore f.order
  let ps ← translateRows s.who .store (f.fe ≠ 0) [(va, bs.length)]
  checkParts s.who (lmAccess f) false true ps
  writeParts s.who (lmAccess f) ps bs
  performFirst f.order
  orderWrite f.order (lmScope f) ps

/-! ## Loads and stores -/

/-- LD (R331). -/
def execLd (f : Lm) (s : State) : Out :=
  runInstr (.ld f) (do
    let bs ← lmLoad f (lmBytes f)
    let t : W64 := BitVec.ofNat 64 (leNat bs)
    let v := if f.x.getLsbD 0 then BitVec.ofInt 64 (signedOf (8 * lmBytes f) (leNat bs)) else t
    modify fun s => s.setG f.d v) s

/-- ST (R331). -/
def execSt (f : Lm) (s : State) : Out :=
  runInstr (.st f) (lmStore f (leBytes (lmBytes f) (s.g f.d).toNat)) s

/-- LDP (R331). -/
def execLdp (f : Lm) (s : State) : Out :=
  runInstr (.ldp f) (do
    let bs ← lmLoad f 16
    modify fun s => s.setGPair f.d (BitVec.ofNat 128 (leNat bs))) s

/-- STP (R331). -/
def execStp (f : Lm) (s : State) : Out :=
  runInstr (.stp f) (lmStore f (leBytes 16 (s.gPair f.d).toNat)) s

/-- LDV: a register and lat, or a pair of 64-bit elements (R331). -/
def execLdv (f : Lm) (s : State) : Out :=
  runInstr (.ldv f) (do
    let d := fld f.d 0 3
    if f.x.getLsbD 0 then
      let bs ← lmLoad f 128
      let (lo, hi) := regsOf 4 (rowCodes 8 bs)
      modify fun s => (s.setVreg d lo).setVreg (d + 1) hi
    else
      let bs ← lmLoad f 64
      let v := lanesFrom (rowCodes 4 bs)
      modify fun s => (s.setVreg d v).setLat v) s

/-- STV (R331). -/
def execStv (f : Lm) (s : State) : Out :=
  let d := fld f.d 0 3
  let bs := if f.x.getLsbD 0 then (elemsOf 4 (s.vreg d) (s.vreg (d + 1))).flatMap (leBytes 8)
    else (s.vreg d).toList.flatMap fun l => leBytes 4 l.toNat
  runInstr (.stv f) (lmStore f bs) s

/-! ## Tiles -/

/-- The tiles of LDT and STT. -/
def lmTiles (f : Lm) : List Nat := if f.x.getLsbD 4 then [f.d.toNat, f.d.toNat + 1] else [f.d.toNat]

/-- The row stride of LDT and STT: none for the page's own (R333). -/
def lmStride (s : State) (f : Lm) : Option W64 :=
  if fld f.x 0 4 = 0 then none else some (s.g ((fld f.x 0 4).setWidth 5))

/-- LDT: waits for empty tiles, loads 16 rows, and leaves the tiles full where it has a qualifier (R333,
R334) (log 48: DEDUCED). -/
def execLdt (f : Lm) (s : State) : Out :=
  runInstr (.ldt f) (do
    waitTiles [] (lmTiles f)
    let s ← get
    let pair := f.x.getLsbD 4
    let rows ← tileRows s.who .load (f.fe ≠ 0) pair (lmAddr s f) (lmStride s f) 16 16
    checkParts s.who (lmAccess f) true false (rows.flatMap (·.parts))
    let vs ← readRows s.who (lmAccess f) rows
    modify fun s =>
      let s := s.fillTile s.here f.d.toNat pair vs
      (lmTiles f).foldl (fun s t => s.setTileFull s.here t (f.fe ≠ 0)) s) s

/-- STT: waits for full tiles and stores 16 rows (R333, R334). -/
def execStt (f : Lm) (s : State) : Out :=
  runInstr (.stt f) (do
    waitTiles (lmTiles f) []
    let s ← get
    let pair := f.x.getLsbD 4
    let rows ← tileRows s.who .store (f.fe ≠ 0) pair (lmAddr s f) (lmStride s f) 16 16
    checkParts s.who (lmAccess f) false true (rows.flatMap (·.parts))
    let flags ← writeRows s.who (lmAccess f) s.here f.d.toNat pair 16 rows 0
    modify fun s => s.addFlags flags) s

/-! ## Waiting accesses (R65) -/

/-- The meaning of an access that carries a full/empty qualifier. -/
def waitingAccess : Instr → Option (State → Out)
  | .ld f => some (execLd f)
  | .st f => some (execSt f)
  | .ldp f => some (execLdp f)
  | .stp f => some (execStp f)
  | .ldv f => some (execLdv f)
  | .stv f => some (execStv f)
  | .ldt f => some (execLdt f)
  | .stt f => some (execStt f)
  | _ => none

/-- What performing the waiting access of processor q now gives; none where it has to wait on. -/
def performWaiting (s : State) (q : Proc) : Option State :=
  if !s.canGo q then none
  else match s.takeUp q with
    | none => none
    | some (i, t) =>
      let r : Option Out := (waitingAccess i).map fun m => m { t with feQueue := t.feQueue.filter (· ≠ .proc q) }
      match r with
      | some (.next u) => if (u.cpuOf q).blocked.isSome then none else some ({ u.advance q with cur := s.cur, unit := s.unit })
      | _ => none

/-- FULL_EMPTY_ACCESS: a waiting access is performed once its granules meet its condition (R63, R65). -/
def execFullEmptyAccess (q : Proc) (s : State) : Out :=
  if s.feQueue.contains (.proc q) then .next ((performWaiting s q).getD s) else .next s

/-! ## Prefetch and fences -/

/-- PREF: fills a line of global memory that may lie in the L2; anything else is dropped (R335). -/
def execPref (f : Lm) (s : State) : Out := .next (fillAhead s.who .load (lmAddr s f) s)

/-- What FENCE leaves of the edges (R93, R107): an acq fence acquires what earlier atomic loads have read; a rel fence is a
release event, and later atomic stores pass on what is then known. -/
def execFence (f : Lm) (s : State) : Out :=
  runInstr (.fence f) (do
    if orderAcquires f.order.toNat then
      modify fun s => s.learn s.agent (acquireFrom s s.agent (lmScope f) (tget [] s.seen s.agent.toNat))
    if orderReleases f.order.toNat then
      let s ← get
      let k := s.passes s.agent
      releaseEvent
      modify fun s => noteFence s s.agent (lmScope f) k) s

/-! ## Atomics -/

/-- Op of an AMO at n bytes (R337). -/
def amoOp (x n old v : Nat) : Nat :=
  let w := 8 * n
  match x with
  | 0 => v
  | 1 => (old + v) % 2 ^ w
  | 2 => old &&& v
  | 3 => old ||| v
  | 4 => old ^^^ v
  | 5 => if signedOf w old ≤ signedOf w v then old else v
  | 6 => if signedOf w old ≤ signedOf w v then v else old
  | 7 => min old v
  | _ => max old v

/-- One atomic read-modify-write of n bytes by the current processor: `op` gives the new value, none where
nothing is written; the old value (R77, R337, R338). -/
def atomicAccess (order : BitVec 3) (scope : Nat) (va : W64) (n : Nat) (op : Nat → Option Nat) : M Nat := do
  releaseBefore order
  let s ← get
  let w := s.who
  let acc : Access := { atomic := true, rmw := true }
  let ps ← translateRows w .atomic false [(va, n)]
  checkParts w acc true true ps
  let old := leNat (← readParts w acc ps)
  orderRead order scope ps
  match op old with
  | some new =>
    writeParts w acc ps (leBytes n new)
    orderWrite order scope ps
  | none => pure ()
  pure old

/-- AMO's access (R337). -/
def amoAccess (f : Lm) : M Nat := do
  let s ← get
  let n := lmBytes f
  atomicAccess f.order (lmScope f) (lmAddr s f) n fun old => some (amoOp f.x.toNat n old ((s.g f.d).toNat % 2 ^ (8 * n)))

/-- CAS's access (R338). -/
def casAccess (f : Lm) : M Nat := do
  let s ← get
  let n := lmBytes f
  let low (r : BitVec 5) : Nat := if n = 16 then (s.gPair r).toNat else (s.g r).toNat % 2 ^ (8 * n)
  atomicAccess f.order (lmScope f) (lmAddr s f) n fun old => if old = low f.x then some (low f.d) else none

/-- Deliver an atomic's old value. -/
def deliverAtomic (f : Lm) (old : Nat) (s : State) : State :=
  if f.size = 4 then s.setGPair f.d (BitVec.ofNat 128 old) else s.setG f.d (BitVec.ofNat 64 old)

/-- An atomic instruction: at once, or with order tk by a ticket (R109). A ticketed one takes its ticket, waits
until it has been performed in ticket order, and then takes its answer. -/
def runAtomic (i : Instr) (f : Lm) (access : M Nat) (s : State) : Out :=
  runInstr i (do
    let s ← get
    alignLm (lmAddr s f) (lmBytes f) f.order
    if f.order = 6 then
      match s.cpu.reply with
      | some r =>
        set (s.modCpu fun x => { x with ticket := none, reply := none })
        match r.fault with
        | some (c, a, d) => throw (.trap c a d)
        | none => modify (deliverAtomic f r.value.toNat)
      | none => throw (.wait .other)
    else
      let old ← access
      modify (deliverAtomic f old)) s

/-- Take a ticket and wait (R109). -/
def takeTicket (i : Instr) (s : State) : State :=
  let n := s.ticketNext
  let s := { s with ticketNext := n + 1, tickets := s.tickets ++ [(n, s.cur, i, s.cpu.g)] }
  (s.modCpu fun x => { x with ticket := some n, reply := none }).block i .other

/-- Does an atomic with order tk take its ticket now? -/
def needsTicket (f : Lm) (s : State) : Bool :=
  f.order = 6 && s.cpu.ticket.isNone && (lmAddr s f).toNat % lmBytes f = 0

/-- AMO (R337, R109). -/
def execAmo (f : Lm) (s : State) : Out :=
  if needsTicket f s then .next (takeTicket (.amo f) s) else runAtomic (.amo f) f (amoAccess f) s

/-- CAS (R338, R109). -/
def execCas (f : Lm) (s : State) : Out :=
  if needsTicket f s then .next (takeTicket (.cas f) s) else runAtomic (.cas f) f (casAccess f) s

/-- What an access of a ticketed atomic is. -/
def ticketAccess : Instr → M Nat
  | .amo f => amoAccess f
  | .cas f => casAccess f
  | _ => pure 0

/-- TICKETED_ATOMIC: the lowest outstanding ticket is performed at its home, and its answer goes back to its
stream if that still waits for it (R109). -/
def execTicketedAtomic (s : State) : Out :=
  match s.tickets with
  | [] => .next s
  | (n, q, i, g) :: rest =>
    let answer (s : State) (r : TicketReply) : State :=
      let s := { s with tickets := rest }
      if (s.cpuOf q).ticket = some n then s.setCpuOf q { s.cpuOf q with reply := some r } else s
    let x := s.cpuOf q
    match ticketAccess i ({ s with cur := q }.setCpuOf q { x with g := g }) with
    | .ok (old, t) =>
      let t := t.setCpuOf q { t.cpuOf q with g := x.g }
      .next ({ answer t ⟨BitVec.ofNat 128 old, none⟩ with cur := s.cur })
    | .error (.trap c a d) => .next (answer s ⟨0, some (c, a, d)⟩)
    | .error (.wait what) => .next (s.noteHeld what)

/-! ## User-mode queues (R339, R340) -/

/-- A queue header's indices and ring. -/
structure Header where
  wi : W64
  ci : W64
  ri : W64
  fi : W64
  log2n : Nat
  ring : W64
  deriving DecidableEq, Repr

/-- Read a header; none where it is malformed (R339). -/
def parseHeader (v : Nat) : Option Header :=
  let w (i : Nat) : W64 := BitVec.ofNat 64 (v / 2 ^ (64 * i))
  let h : Header := ⟨w 0, w 1, w 2, w 3, (fld (w 4) 56 8).toNat, (fld (w 4) 0 48).setWidth 64⟩
  if 3 ≤ h.log2n && h.log2n ≤ 20 && h.ring ≠ 0 && fld h.ring 0 6 = 0 && v / 2 ^ 320 % 2 ^ 192 = 0 then some h else none

/-- The address of slot k (R340). -/
def Header.slot (h : Header) (k : W64) : W64 := h.ring + BitVec.ofNat 64 (64 * (k.toNat % 2 ^ h.log2n))

/-- What one of the four operations does to a header, with g[d] as it stands: the result, and the index that
it advances, as its number and new value (R340). -/
def queueOp (deq commit : Bool) (h : Header) (d : W64) : W64 × Option (Nat × W64) :=
  let n := BitVec.ofNat 64 (2 ^ h.log2n)
  match deq, commit with
  | false, false => if h.wi - h.fi < n then (h.slot h.wi, some (0, h.wi + 1)) else (0, none)
  | false, true => if h.ci < h.wi && h.slot h.ci = d then (1, some (1, h.ci + 1)) else (0, none)
  | true, false => if h.ri < h.ci then (h.slot h.ri, some (2, h.ri + 1)) else (0, none)
  | true, true => if h.fi < h.ri && h.slot h.fi = d then (1, some (3, h.fi + 1)) else (0, none)

/-- n bytes of a part, from byte o on. -/
def Part.within (p : Part) (o n : Nat) : Part :=
  { p with
    va := p.va + BitVec.ofNat 64 o, len := n
    home := match p.home with
      | .plain a => .plain (a + o)
      | .fbc b off => .fbc b (off + o)
      | .window c off => .window c (off + o) }

/-- One queue operation: an atomic access to the header's granule (R340). -/
def queueAccess (f : Lm) (deq commit : Bool) : M Unit := do
  let s ← get
  let va := lmAddr s f
  if va.toNat % 64 ≠ 0 then raise 44
  releaseBefore f.order
  let s ← get
  let w := s.who
  let acc : Access := { atomic := true, rmw := true }
  let ps ← translateRows w .atomic false [(va, 64)]
  checkParts w acc true true ps
  let v := leNat (← readParts w acc ps)
  match parseHeader v with
  | none => throw (.trap 84 va none)
  | some h =>
    orderRead f.order (lmScope f) ps
    let (r, upd) := queueOp deq commit h (s.g f.d)
    match upd with
    | some (i, new) =>
      writeParts w acc (ps.map fun p => p.within (8 * i) 8) (leBytes 8 new.toNat)
      orderWrite f.order (lmScope f) ps
    | none => pure ()
    modify fun s => s.setG f.d r

/-- ENQ (R340). -/
def execEnq (f : Lm) (s : State) : Out :=
  runInstr (.enq f) (queueAccess f false false) s

/-- ENQ.commit (R340). -/
def execEnqCommit (f : Lm) (s : State) : Out :=
  runInstr (.enqCommit f) (queueAccess f false true) s

/-- DEQ (R340). -/
def execDeq (f : Lm) (s : State) : Out :=
  runInstr (.deq f) (queueAccess f true false) s

/-- DEQ.free (R340). -/
def execDeqFree (f : Lm) (s : State) : Out :=
  runInstr (.deqFree f) (queueAccess f true true) s

end Sys2Proof.Machine
end

