-- ==== Sys2Proof/Machine/Slate.lean ====
section
/-! DEFINITION. Slates: session descriptors and snapshot tables, frames, and the move of a bank page between
a slate bank and a frame, with the archive conversions (R78, R159 to R162, R209, R381 to R384). -/

namespace Sys2Proof.Machine

/-- A session descriptor's 64 bytes as fields (R209). -/
structure Session where
  rtcore : Nat
  st : Nat
  cls : Nat
  tenant : Nat
  sid : BitVec 24
  ffmt : Nat
  frame : W64
  size : Nat
  snaps : W64
  inq : W64
  outq : W64
  deadline : Nat
  clamped : Bool
  slice : Nat
  readyAt : Nat
  deriving DecidableEq, Repr

/-- Word i of bytes. -/
def wordAt (bs : List Byte) (i : Nat) : W64 := BitVec.ofNat 64 (leNat ((bs.drop (8 * i)).take 8))

/-- Read a descriptor's fields; none where it breaks R209. -/
def parseSession (bs : List Byte) : Option Session :=
  let w := wordAt bs
  let x : Session :=
    { rtcore := (fld (w 0) 40 8).toNat, st := (fld (w 0) 32 8).toNat, cls := (fld (w 0) 29 2).toNat,
      tenant := (fld (w 0) 24 5).toNat, sid := fld (w 0) 0 24, ffmt := (fld (w 1) 48 6).toNat,
      frame := (fld (w 1) 0 48).setWidth 64, size := (fld (w 2) 0 20).toNat, snaps := w 3, inq := w 4,
      outq := w 5, deadline := (fld (w 6) 32 32).toNat, clamped := (w 6).getLsbD 16,
      slice := (fld (w 6) 0 16).toNat, readyAt := (w 7).toNat }
  let zero := fld (w 0) 48 16 = 0 && fld (w 0) 31 1 = 0 && fld (w 1) 54 10 = 0 && fld (w 2) 20 44 = 0 &&
    fld (w 6) 17 15 = 0
  if zero && x.st ≤ 6 && x.cls ≠ 3 && (x.ffmt = 8 || x.ffmt = 9) && x.size % 64 = 0 &&
      64 ≤ x.size && x.size ≤ 524288 && 1 ≤ x.slice then some x else none

/-- A snapshot table: its address and number of entries; none where it breaks R382. -/
def parseSnaps (v : W64) : Option (W64 × Nat) :=
  let n := (fld v 48 5).toNat
  if fld v 53 11 = 0 && fld v 0 4 = 0 && n ≤ 16 then some ((fld v 0 48).setWidth 64, n) else none

/-- An item of the Quay of a core: its accesses are made as unit 6. -/
def quayWho (s : State) (c : CoreId) : Who := s.whoCore c 6

/-- The home of byte o of a bank. -/
def bankHome (c : CoreId) (bank : Bool) (o : Nat) : Nat := slateHome c ((if bank then 524288 else 0) + o)

/-- The bytes of bank page k of a slate of `size` bytes (R78). -/
def pageLen (size k : Nat) : Nat := min 4096 (size - 4096 * k)

/-- Pairs of CF32 to FP64 lanes, padded with +0 to whole blocks (R159, R160). -/
def archiveBytes (bs : List Byte) : List Byte :=
  let lanes := (List.range ((bs.length + 127) / 128 * 16)).map fun i =>
    if 8 * i < bs.length then archiveLane (leNat ((bs.drop (8 * i)).take 8)) else 0
  bytesOfLanes lanes

/-- FP64 lanes to CF32 pairs (R161). -/
def restoreBytes (bs : List Byte) : List Byte :=
  (List.range (bs.length / 8)).flatMap fun i => leBytes 8 (restoreLane (leNat ((bs.drop (8 * i)).take 8)))

/-- Write whole FBC blocks at va, one encode each (R160). -/
def writeBlocks (w : Who) (item : Nat) (va : W64) (bs : List Byte) : M Unit := do
  let acc : Access := { item := some item }
  let ps ← translateRows w .engWrite false (rangeRows va bs.length)
  checkParts w acc false true ps
  let s ← get
  set ((ps.foldl (fun (r : State × List Byte) p =>
    let s := tagPart r.1 w.agent acc p
    let ver := versionOf s w.agent acc p
    match p.home with
    | .fbc b off =>
      ((List.range (p.len / 128)).foldl (fun s i =>
        s.encodeFor ver p.leaf (encAddr p.leaf b (off + 128 * i)) ((r.2.drop (128 * i)).take 128)) s,
       r.2.drop p.len)
    | _ => (s, r.2.drop p.len)) (s, bs)).1)

/-- Is the cause a memory-model exception, which refuses single granules (R104)? -/
def isRace (cause : Nat) : Bool := 128 ≤ cause && cause < 192

/-- Write a list of chunks, each an attempt of its own; the first failure's cause is kept. -/
def writeChunks (f : W64 → List Byte → M Unit) : List (W64 × List Byte) → State → Option Nat → State × Option Nat × Option WaitFor
  | [], s, e => (s, e, none)
  | (va, bs) :: r, s, e =>
    match attempt (f va bs) s with
    | .done _ t => writeChunks f r t e
    | .failed cause _ _ => writeChunks f r s (e.orElse fun _ => some cause)
    | .waits what => (s, e, some what)

/-- Cut bytes at va into chunks of n. -/
def chunksOf (n : Nat) (va : W64) (bs : List Byte) : List (W64 × List Byte) :=
  (List.range ((bs.length + n - 1) / n)).map fun i => (va + BitVec.ofNat 64 (n * i), (bs.drop (n * i)).take n)

/-- Write a page of slate bytes to a frame of format ffmt at va: the state, the first failure, and what it must wait for
first, when nothing stands. A page whose write fails leaves its part of the frame as it was, but for granules refused one
by one (R104, R383) (log 87: DEDUCED). -/
def writeFrame (s : State) (w : Who) (item ffmt : Nat) (va : W64) (bs : List Byte) : State × Option Nat × Option WaitFor :=
  let r := if ffmt = 8 then writeChunks (writeBlocks w item) (chunksOf 128 va (archiveBytes bs)) s none
    else writeChunks (engineWrite w item []) (chunksOf 64 va bs) s none
  if r.2.2.isSome then (s, none, r.2.2)
  else match r.2.1 with
    | some cause => if isRace cause then r else (s, some cause, none)
    | none => r

/-- Read n slate bytes from a frame of format ffmt at va. -/
def readFrame (w : Who) (item ffmt : Nat) (va : W64) (n : Nat) : M (List Byte) := do
  let bs ← engineRead w .engRead item va n
  pure (if ffmt = 8 then restoreBytes bs else bs)

/-- The race of the Quay of core c at a bank granule (R100, R103). -/
def bankRace (s : State) (c : CoreId) (write : Bool) (key : Nat) : Option Nat :=
  (granuleRace s (unitAgent c 6) {} write ⟨key, 0, key, key + 16⟩).map fun r => 128 + 16 * Level.slate.code + r.1

/-- The granules of n bank bytes from home a. -/
def bankGranules (a n : Nat) : List Nat := (List.range ((n + 15) / 16)).map fun i => a + 16 * i

/-- Put bytes into a bank as released Quay writes (R80, R99); a granule that holds another agent's unreleased write is left
as it is, and answers the cause (R104). -/
def State.putBank (s : State) (c : CoreId) (bank : Bool) (o item : Nat) (bs : List Byte) : State × Option Nat :=
  let a := bankHome c bank o
  let ag := unitAgent c 6
  (bankGranules a bs.length).foldl (fun (r : State × Option Nat) key =>
    let s := r.1
    match bankRace s c true key with
    | some e => (s, r.2.orElse fun _ => some e)
    | none =>
      ({ s.setBytes key ((bs.drop (key - a)).take 16) with
          tags := tinsert key ⟨ag, false, s.seq ag, some item, true, false, none, s.stamp, []⟩ (terase s.tags key) }, r.2)) (s, none)

/-- The bytes of bank page k for a save, zero where another agent's write is unreleased, and the cause of what failed
(R78, R79, R104). A page with bad data is not passed on: none (R86). -/
def bankPage (s : State) (c : CoreId) (j : QuayJob) (k : Nat) : Option (List Byte) × Option Nat :=
  let a := bankHome c j.bank (4096 * k)
  let n := pageLen j.size k
  match s.flawIn false a n with
  | some f => (none, some (flawCause (unitAgent c 6) f.2))
  | none =>
    (some ((bankGranules a n).flatMap fun key => if (bankRace s c false key).isSome then List.replicate 16 0 else s.bytes key 16),
     (bankGranules a n).findSome? (bankRace s c false))

/-- The job with its next bank page in a staging buffer (R78). -/
def stagePage (s : State) (c : CoreId) (j : QuayJob) : QuayJob :=
  let (bs, e) := bankPage s c j j.read
  { j with read := j.read + 1, staged := j.staged ++ [(bs.getD [], e)] }

/-- Write the oldest staged page of a save to its frame: the state, the failure, the wait (R78, R383). -/
def savePage (s : State) (w : Who) (item : Nat) (j : QuayJob) : State × Option Nat × Option WaitFor :=
  match j.staged with
  | [] => (s, none, some .other)
  | ([], e) :: _ => (s, e, none)
  | (bs, e) :: _ =>
    let r := writeFrame s w item j.ffmt (j.frame + BitVec.ofNat 64 (4096 * j.pagesDone)) bs
    (r.1, e.orElse fun _ => r.2.1, r.2.2)

/-- Load bank page k from a frame; a page whose read fails is written as zeros (R383). -/
def loadPage (s : State) (c : CoreId) (w : Who) (item : Nat) (j : QuayJob) (k : Nat) : State × Option Nat × Option WaitFor :=
  let n := pageLen j.size k
  let put (s : State) (bs : List Byte) (cause : Option Nat) : State × Option Nat × Option WaitFor :=
    let r := s.putBank c j.bank (4096 * k) item bs
    (r.1, cause.orElse fun _ => r.2, none)
  match attempt (readFrame w item j.ffmt (j.frame + BitVec.ofNat 64 (4096 * k)) n) s with
  | .done bs t => put t bs none
  | .failed cause _ _ => put s (List.replicate n 0) (some cause)
  | .waits what => (s, none, some what)

/-- Copy the m-byte encoding at a to b verbatim, as a version sees and holds it where there is one (R153, R162). -/
def State.copyBlock (s : State) (ver : Option CoreId) (leaf : W64) (a m b : Nat) : State :=
  match ver with
  | none => s.setBytes b (s.bytes a m)
  | some c =>
    let held := ((s.core c).piece.bind fun (q : Piece) => q.vblocks.find? fun x => x.enc = a)
    let code := match held with
      | some x => x.code
      | none => s.readNat a m
    s.modPiece c fun q =>
      let old := (q.vblocks.find? fun x => x.enc = b).getD ⟨b, leaf, 0, [], 0, 0, 0⟩
      { q with vblocks := (q.vblocks.filter fun x => x.enc ≠ b) ++
          [{ old with code := code, bytes := bytesOfLanes (fbcDecode (budBits (leafBud leaf)) (leafGeo leaf) code) }] }

/-- Copy snapshot bytes to a forked frame (R162): FBC encodings verbatim where budget and geometry agree,
otherwise through the slate bytes. -/
def copyFrame (w : Who) (item : Nat) (src : W64) (sf : Nat) (dst : W64) (df size : Nat) : M Unit := do
  let page (va : W64) (n : Nat) (k : Kind) : M (List Part) := translateRows w k false (rangeRows va n)
  let n := if sf = 8 || df = 8 then (size + 127) / 128 * 128 else size
  if sf = 8 && df = 8 then
    let rs ← page src n .engRead
    let ws ← page dst n .engWrite
    let same := rs.all fun r => ws.all fun p => leafBud r.leaf = leafBud p.leaf && leafGeo r.leaf = leafGeo p.leaf
    if same then
      let acc : Access := { item := some item }
      checkParts w acc true false rs
      checkParts w acc false true ws
      let enc (p : Part) (i : Nat) : Nat := match p.home with | .fbc b off => encAddr p.leaf b (off + 128 * i) | _ => 0
      let from_ := rs.flatMap fun p => (List.range (p.len / 128)).map fun i => (enc p i, 2 * budBits (leafBud p.leaf))
      let to_ := ws.flatMap fun p => (List.range (p.len / 128)).map (enc p)
      let leaf := ((ws.map (·.leaf)).head?).getD 0
      modify fun s =>
        let ver := ws.findSome? (versionOf s w.agent acc)
        (from_.zip to_).foldl (fun s ((a, m), b) => s.copyBlock ver leaf a m b) (ws.foldl (fun s p => tagPart s w.agent acc p) s)
    else writeBlocks w item dst (← engineRead w .engRead item src n)
  else if sf = 8 then engineWrite w item [] dst ((restoreBytes (← engineRead w .engRead item src n)).take size)
  else if df = 8 then writeBlocks w item dst (archiveBytes (← engineRead w .engRead item src size))
  else engineWrite w item [] dst (← engineRead w .engRead item src size)

end Sys2Proof.Machine
end

