-- ==== Sys2Proof/Machine/Timetable.lean ====
section
/-! DEFINITION. The Timetable's data: rings of neighbours, launches, nodes, pieces, versions, the roll-call
counters and the reports (R17, R83, R189 to R202, R217, R229 to R231, R345 to R347). -/

namespace Sys2Proof.Machine

/-! ## Rings (R17, R192) -/

/-- The core of snake rank k in a rectangle. -/
def rankCore (r : BitVec 16) (k : Nat) : CoreId :=
  let w := rectW r
  let ly := k / w
  let lx := if ly % 2 = 0 then k % w else w - 1 - k % w
  ⟨((rectY r + ly) * 16 + rectX r + lx) % 256, Nat.mod_lt _ (by decide)⟩

/-- The snake rank of core c in a rectangle. -/
def snakeRank (r : BitVec 16) (c : CoreId) : Nat :=
  let lx := coreX c - rectX r
  let ly := coreY c - rectY r
  ly * rectW r + (if ly % 2 = 0 then lx else rectW r - 1 - lx)

/-- The core that c pushes downstream to, or upstream to, on its ring. -/
def ringTarget (k : Core) (c : CoreId) (up : Bool) : CoreId :=
  let r := k.ringRect
  if rectHas r c then
    let n := rectW r * rectH r
    rankCore r ((snakeRank r c + (if up then n - 1 else 1)) % n)
  else c

namespace State

def qDown (s : State) (c : CoreId) (up : Bool) : NeighbourQueue := if up then (s.core c).up else (s.core c).down
def setQ (s : State) (c : CoreId) (up : Bool) (q : NeighbourQueue) : State :=
  s.modCore c fun k => if up then { k with up := q } else { k with down := q }

/-- The free slots of the queue that c pushes into. -/
def freeSlots (s : State) (c : CoreId) (up : Bool) : Nat :=
  8 - (s.qDown (ringTarget (s.core c) c up) up).slots.length

/-- Set the ring of a core and reload its credits (R17). -/
def setRing (s : State) (c : CoreId) (r : BitVec 16) : State :=
  let s := s.modCore c fun k => { k with ringRect := r }
  s.modCore c fun k => { k with creditDown := s.freeSlots c false, creditUp := s.freeSlots c true }

/-! ## Accesses of the Timetable -/

end State

/-- The Timetable and the firmware's loader reach memory in a partition's space; their accesses carry no
agent (R22), may use no window (R27) and are not checked for races. -/
def tableWho (t : PartId) : Who :=
  { agent := 0xFFF, own := none, sys := false, space := some t.val, part := some t, holder := .port }

namespace State

/-- The parts of n bytes in partition t's space; none where the translation fails. -/
def tableParts (s : State) (t : PartId) (k : Kind) (va : W64) (n : Nat) : Option (List Part × State) :=
  match (translateRows (tableWho t) k false (rangeRows va n)) s with
  | .ok r => some r
  | .error _ => none

/-- What reaching n bytes in partition t's space asks of the memory controllers (R439). -/
def draw (s : State) (t : PartId) (k : Kind) (va : W64) (n : Nat) : State :=
  let w := tableWho t
  match s.tableParts t k va n with
  | some (ps, _) => ((rangeRows va n).flatMap (fun r => s.missRequests w k r.1 r.2) ++ ps.flatMap (memoryRequests s w)).foldl
      State.chargeTable s
  | none => s

/-- Read n bytes; none where the translation fails or the data is bad (R86). -/
def peek (s : State) (t : PartId) (va : W64) (n : Nat) : Option (List Byte) :=
  match s.tableParts t .load va n with
  | some (ps, s) => if (flawStop s 0xFFF {} false ps).isSome then none else some (ps.flatMap fun p => s.partBytes none p)
  | none => none

/-- Read n bytes as DEQ, DEQ.free and ENQ reach a queue's header: the parts and the bytes; none where an atomic would fault
(R35, R37, R435). -/
def peekAtomic (s : State) (t : PartId) (va : W64) (n : Nat) : Option (List Part × List Byte) :=
  match s.tableParts t .atomic va n with
  | some (ps, s) => if (flawStop s 0xFFF {} false ps).isSome then none else some (ps, ps.flatMap fun p => s.partBytes none p)
  | none => none

/-- Write bytes as a released write without a tag; a word or a block that is bad and not replaced whole keeps its data
(R220). A block with a store or a held image pending takes the write after it (R149, R151). -/
def pokePart (s : State) (p : Part) (bs : List Byte) : State :=
  let s := { s with tags := p.granules.foldl (fun ts g => terase ts g.key) s.tags }
  if (flawStop s 0xFFF {} true [p]).isSome then s else match p.home with
  | .plain a => s.setBytes a bs
  | .fbc _ off => p.blocks.zipIdx.foldl (fun s (e, j) =>
      let f : FbcStore := ⟨e, p.leaf, ⟨64, 0, 0⟩, 0xFFF, namedBytes off j bs, none⟩
      if s.blockBusy none e then { s with fbcStores := s.fbcStores ++ [f] } else performFbc s f) s
  | .window _ _ => s

/-- Write bytes of partition t for the Timetable; nothing where the translation fails. -/
def poke (s : State) (t : PartId) (va : W64) (bs : List Byte) : State :=
  match (s.draw t .store va bs.length).tableParts t .store va bs.length with
  | some (ps, s) => (ps.foldl (fun (r : State × List Byte) p => (r.1.pokePart p (r.2.take p.len), r.2.drop p.len)) (s, bs)).1
  | none => s

/-- Mark a word's data as bad; an uncorrectable error stands. -/
def spoil (s : State) (f : Flaw) (k : Nat) : State :=
  { s with flaws := if tfind s.flaws k = some .ecc then s.flaws else tinsert k f (terase s.flaws k) }

/-- The bad words, by byte offset, among n bytes from home a. -/
def badOffsets (s : State) (a n : Nat) : List Nat :=
  (s.flaws.filter fun f => a ≤ 8 * f.1 && 8 * f.1 < a + n).map fun f => 8 * f.1 - a

/-- The n bytes from home a as the device copies them for itself: what is bad is not passed on, and reads as zero (R86). -/
def goodBytes (s : State) (a n : Nat) : List Byte :=
  let bad := s.badOffsets a n
  (s.bytes a n).zipIdx.map fun x => if bad.any fun o => o ≤ x.2 && x.2 < o + 8 then 0 else x.1

def part (s : State) (t : PartId) : Partition := s.parts[t.val]
def modPart (s : State) (t : PartId) (f : Partition → Partition) : State :=
  { s with parts := s.parts.set t.val (f (s.part t)) }

/-- A Timetable or link report waits as an interrupt at the first enabled system core of a die (R407) (log 64: DEDUCED). -/
def raiseReport (s : State) (die : Bool) (code : Nat) : State :=
  match (List.finRange 16).find? fun k => (decide (8 ≤ k.val) = die) && (s.sysCore k).enabled with
  | some k => s.modSys k fun y => { y with reports := y.reports ++ [code] }
  | none => s

/-- A report of the Timetables reaches the first enabled system core of the device. -/
def raiseAny (s : State) (code : Nat) : State :=
  if (List.finRange 16).any fun k => k.val < 8 && (s.sysCore k).enabled then s.raiseReport false code
  else s.raiseReport true code

/-- A link event reaches Aedith and the PF (R443). -/
def linkEvent (s : State) (cause : Nat) : State :=
  let s := s.raiseAny cause
  { s with pfEvents := s.pfEvents ++ [.link cause] }

/-! ## Sessions -/

def sessionAddr (s : State) (t : PartId) (sid : BitVec 24) : W64 :=
  (s.part t).sesstab + BitVec.ofNat 64 (64 * (fld sid 0 14).toNat)

/-- The session that an identifier names; none where the descriptor breaks R209, its frame's alignment with it, or names
another. -/
def session (s : State) (t : PartId) (sid : BitVec 24) : Option Session :=
  match (s.peek t (s.sessionAddr t sid) 64).bind parseSession with
  | some x => if x.sid = sid && fld x.frame 0 7 = 0 then some x else none
  | none => none

/-- Write the STATE byte of a session's descriptor. -/
def setSessionState (s : State) (t : PartId) (sid : BitVec 24) (v : Nat) : State :=
  s.poke t (s.sessionAddr t sid + 4) [BitVec.ofNat 8 v]

/-! ## Launches -/

def modLaunch (s : State) (li : Nat) (f : Launch → Launch) : State := { s with launches := s.launches.modify li f }
def modInst (s : State) (li ii : Nat) (f : Inst → Inst) : State :=
  s.modLaunch li fun l => { l with insts := l.insts.modify ii f }

/-- Write a launch's completion word (R202). -/
def writeDone (s : State) (t : PartId) (doneq : W64) (cause : Option Nat) : State :=
  s.poke t doneq (leBytes 8 (match cause with | some c => 2 ^ 63 + c | none => 0))


/-- End a launch whose counter is zero and whose nodes have all run (R217). -/
def checkEnd (s : State) (li : Nat) : State :=
  match s.launches[li]? with
  | none => s
  | some l =>
    if l.ended || l.total ≠ 0 || l.insts.any (·.live) || (l.perSession && !l.closed) then s
    else (s.modLaunch li fun l => { l with ended := true }).writeDone l.part l.doneq none

/-- Count a piece at a core (R217). -/
def countPiece (s : State) (li : Nat) (c : CoreId) : State :=
  s.modLaunch li fun l =>
    let a := tget 0 l.byCore c.val
    let k := (coreCluster c).val
    let b := tget 0 l.byCluster k
    let d := tget 0 l.byDie (coreDie c)
    { l with
      byCore := tput 0 l.byCore c.val (a + 1),
      byCluster := if a = 0 then tput 0 l.byCluster k (b + 1) else l.byCluster,
      byDie := if a = 0 && b = 0 then tput 0 l.byDie (coreDie c) (d + 1) else l.byDie,
      total := if a = 0 && b = 0 && d = 0 then l.total + 1 else l.total }

/-- Lower the counters for a piece at a core (R217). -/
def uncountPiece (s : State) (li : Nat) (c : CoreId) : State :=
  s.modLaunch li fun l =>
    let a := tget 0 l.byCore c.val
    let k := (coreCluster c).val
    let b := tget 0 l.byCluster k
    let d := tget 0 l.byDie (coreDie c)
    { l with
      byCore := tput 0 l.byCore c.val (a - 1),
      byCluster := if a = 1 then tput 0 l.byCluster k (b - 1) else l.byCluster,
      byDie := if a = 1 && b = 1 then tput 0 l.byDie (coreDie c) (d - 1) else l.byDie,
      total := if a = 1 && b = 1 && d = 1 then l.total - 1 else l.total }

/-- Displaced writer tags stand again where a version of core c is given up (R153). -/
def restoreTags (s : State) (c : CoreId) (q : Piece) : State :=
  { s with tags := q.vtags.foldl (fun ts (key, old) =>
      match tfind ts key with
      | some t => if t.version = some c then
          (match old with | some o => tinsert key o (terase ts key) | none => terase ts key) else ts
      | none => ts) s.tags }

/-- Saved contexts are given up: their versions go, and they count no more (R217, R224). -/
def dropSaved (s : State) (gone : SavedContext → Bool) : State :=
  let s := (s.saved.filter gone).foldl (fun s v => match v.image.piece with
    | some q => (s.restoreTags v.core q).uncountPiece q.launch v.core
    | none => s) s
  { s with saved := s.saved.filter fun v => !gone v }

/-- Fail a launch with a cause: it runs no further nodes (R202). The steps of its sessions are over, and its saved pieces
are given up (log 91: DESIGN CHOICE). -/
def failLaunch (s : State) (li cause : Nat) : State :=
  match s.launches[li]? with
  | none => s
  | some l =>
    if l.ended then s
    else
      let ends := l.insts.filterMap fun i => if i.live then i.session else none
      let s := s.modLaunch li fun l => { l with
        cause := some cause, ended := true, insts := l.insts.map fun i => { i with live := false } }
      let s := { s with
        pool := s.pool.filter (fun r => r.launch ≠ li)
        steps := s.steps.filter fun p => !(p.1 = l.part && ends.contains p.2)
        readySessions := s.readySessions.filter fun r => !(r.part = l.part && l.sids.contains r.sid) }
      let s := ends.foldl (fun s sid => s.setSessionState l.part sid 1) s
      let s := s.dropSaved fun v => v.image.piece.any fun q => q.launch = li
      s.writeDone l.part l.doneq (some cause)

/-- A node enters a die's ready pool (R200). -/
def readyNode (s : State) (li ii n : Nat) (die : Bool) : State :=
  match s.launches[li]? with
  | some l =>
    let d := if (s.part l.part).place then (match l.nodes[n]? with | some x => x.die | none => die) else die
    { s with pool := s.pool ++ [⟨li, ii, n, d, s.us⟩] }
  | none => s

/-- Begin an instance of a launch's graph: the one-shot run, or a session's step (R201). -/
def startInst (s : State) (li : Nat) (sid : Option (BitVec 24)) (arrived : Nat := 0) : State :=
  match s.launches[li]? with
  | none => s
  | some l =>
    let ii := l.insts.length
    let zeros := l.nodes.map fun _ => 0
    let know := match sid with
      | some x => knownJoin l.know (tget [] l.stepKnow x.toNat)
      | none => l.know
    let inst : Inst :=
      { session := sid, remaining := l.nodes.map fun n => (n.npred : Int), pieces := zeros, made := zeros,
        complete := l.nodes.map fun _ => false, startUs := s.us, live := true,
        know := l.nodes.map fun _ => know, guarded := [], rolled := [],
        arrived := arrived, paused := 0, pausedAt := none }
    let s := s.modLaunch li fun l => { l with insts := l.insts ++ [inst] }
    let die := decide (coreDie (rankCore l.rect 0) = 1)
    l.nodes.zipIdx.foldl (fun s (n, i) => if n.npred = 0 then s.readyNode li ii i die else s) s

end State

/-! ## Launch and node descriptors (R195, R196) -/

/-- Is a rectangle code aligned and on the device (R189)? -/
def legalRect (r : BitVec 16) : Bool :=
  !r.getLsbD 11 && !r.getLsbD 15 && (fld r 8 3).toNat ≤ 4 && (fld r 12 3).toNat ≤ 4 &&
  rectX r % rectW r = 0 && rectY r % rectH r = 0 && rectX r + rectW r ≤ 16 && rectY r + rectH r ≤ 16

/-- Does rectangle p hold rectangle r? -/
def rectInside (r p : BitVec 16) : Bool :=
  rectX p ≤ rectX r && rectX r + rectW r ≤ rectX p + rectW p && rectY p ≤ rectY r && rectY r + rectH r ≤ rectY p + rectH p

/-- Does a rectangle hold a core of the die? -/
def rectOnDie (r : BitVec 16) (die : Bool) : Bool := if die then rectY r + rectH r > 8 else rectY r < 8

/-- Operand j of a node's bytes; none where it is malformed. An odd TILE for a format that takes a pair of registers is
malformed too (R196) (log 51: DEDUCED). -/
def parseOperand (bs : List Byte) (j : Nat) : Option Operand :=
  let a := wordAt bs (8 + 2 * j)
  let w := wordAt bs (9 + 2 * j)
  let fmt := (fld w 0 6).toNat
  let tile := fld w 8 5
  let pair := fmt = 8 || fmt = 9 || fmt = 10
  if fld w 24 8 = 0 && fld w 13 3 = 0 && fld w 7 1 = 0 && !(pair && tile.getLsbD 0) then
    some ⟨a, fld w 32 32, (fld w 20 4).toNat + 1, (fld w 16 4).toNat + 1, tile, w.getLsbD 6, fmt⟩
  else none

/-- A node's bytes and successors as a node; none where it is malformed. -/
def parseNode (s : State) (t : PartId) (count : Nat) (bs : List Byte) : Option Node := do
  let w := wordAt bs
  let nops := (fld (w 3) 20 3).toNat
  let nsucc := (fld (w 4) 48 16).toNat
  let ok := fld (w 3) 23 9 = 0 && fld (w 3) 19 1 = 0 && nops ≤ 4 && (w 1).toNat ≤ (w 2).toNat && fld (w 0) 0 3 = 0 &&
    w 5 = 0 && w 6 = 0 && w 7 = 0 && (List.range (8 - 2 * nops)).all (fun i => w (8 + 2 * nops + i) = 0) &&
    fld (w 4) 0 2 = 0
  if ok then
    let opnds ← (List.range nops).mapM (parseOperand bs)
    let sb ← s.peek t ((fld (w 4) 0 48).setWidth 64) (4 * nsucc)
    let succ := (List.range nsucc).map fun i => leNat ((sb.drop (4 * i)).take 4)
    if succ.all (· < count) then
      pure {
        entry := w 0, lo := w 1, hi := w 2, grain := (fld (w 3) 32 32).toNat, opnds := opnds,
        mxuse := (w 3).getLsbD 18, die := (w 3).getLsbD 17, unver := (w 3).getLsbD 16,
        npred := (fld (w 3) 0 16).toNat, succ := succ }
    else none
  else none

/-- Read a queued launch: the launch, or the cause of its refusal (R190, R195, R196, R202). Of a session identifier of
SLIST the low 24 bits count (log 92: DESIGN CHOICE). A rectangle with bit [11] or [15] set is not a legal one, 352, while any
other set reserved field is 354 (log 51: DEDUCED). -/
def parseLaunch (s : State) (q : QueuedLaunch) : Except Nat Launch := do
  let w := wordAt q.desc
  let nodes := (fld (w 0) 48 16).toNat
  let graph := (fld (w 0) 0 48).setWidth 64
  let rect := fld (w 1) 0 16
  let nsess := (fld (w 2) 48 15).toNat
  let bad (b : Bool) (c : Nat) : Except Nat Unit := if b then .error c else .ok ()
  bad (nodes = 0 || fld (w 1) 16 48 ≠ 0 || (w 2).getLsbD 63 || nsess > 16384 || fld (w 3) 21 43 ≠ 0 ||
    (w 3).toNat > 0x100000 || fld (w 4) 48 16 ≠ 0 || w 5 ≠ 0 || w 6 ≠ 0 || w 7 ≠ 0 ||
    fld (w 0) 0 7 ≠ 0 || fld (w 2) 0 2 ≠ 0 || fld (w 4) 0 3 ≠ 0) 354
  bad (!legalRect rect || !rectInside rect (s.part q.part).rect) 352
  let ns ← match (List.range nodes).mapM fun i =>
      (s.peek q.part (graph + BitVec.ofNat 64 (128 * i)) 128).bind (parseNode s q.part nodes) with
    | some ns => .ok ns
    | none => .error 354
  bad ((s.part q.part).place && ns.any fun n => !rectOnDie rect n.die) 353
  let sids ← match s.peek q.part ((fld (w 2) 0 48).setWidth 64) (4 * nsess) with
    | some bs => .ok ((List.range nsess).map fun i => BitVec.ofNat 24 (leNat ((bs.drop (4 * i)).take 4)))
    | none => .error 354
  pure {
         part := q.part, number := q.number, rect := rect, stack := (fld (w 3) 0 21).setWidth 64, doneq := w 4,
         graph := graph, sids := sids, nodes := ns, insts := [], byCore := [], byCluster := [], byDie := [],
         total := 0, cause := none, perSession := decide (0 < nsess), closed := false, ended := false, know := q.know, stepKnow := [] }

namespace State

/-- Queue a launch at its die's Timetable: its number, and the state (R193, R345) (log 51: DEDUCED). -/
def queueLaunch (s : State) (t : PartId) (desc : List Byte) (know : Known) : BitVec 16 × State :=
  let n := (s.part t).nextLaunch
  (n, (fun s => { s with launchQueue := s.launchQueue ++ [⟨t, n, desc, know⟩] })
    (s.modPart t fun p => { p with nextLaunch := n + 1 }))

/-- Does a launch still hold its roll-call counters (R217)? -/
def counting (l : Launch) : Bool := !l.ended || l.total ≠ 0

/-- Accept the oldest queued launch once a counter set is free (R217), or refuse it (R202). -/
def acceptLaunch (s : State) : State :=
  match s.launchQueue with
  | [] => s
  | q :: rest =>
    if (s.launches.filter counting).length ≥ 64 then s
    else
      let w := wordAt q.desc
      let s := { s with launchQueue := rest }
      let s := (s.draw q.part .load ((fld (w 0) 0 48).setWidth 64) (128 * (fld (w 0) 48 16).toNat)).draw q.part .load
        ((fld (w 2) 0 48).setWidth 64) (4 * (fld (w 2) 48 15).toNat)
      match parseLaunch s q with
      | .error c => s.writeDone q.part ((fld (wordAt q.desc 4) 0 48).setWidth 64) (some c)
      | .ok l =>
        let li := s.launches.length
        let s := { s with launches := s.launches ++ [l] }
        if l.perSession then s else s.startInst li none

/-! ## Versions and rollback (R229 to R231) -/

/-- The lines that a version held and that would not lie in the L2 without it leave it: those of CPOL 2 and of the chip
scratchpad (R40, R74). -/
def freeVersionLines (s : State) (q : Piece) : State :=
  { s with lines := s.lines.filter fun l => !(q.holdsLine l.1 && (fld l.2.attrs 0 2 = 2 || 2 ^ 54 ≤ lineHome l.1)) }

/-- Commit the version of core c's piece (R153, R199, R230). -/
def commitVersion (s : State) (c : CoreId) : State :=
  match (s.core c).piece with
  | none => s
  | some q =>
    let s := { s with
      mem := q.vbytes.foldl (fun m (b : Host.Cell) => tput 0 m b.1 b.2) s.mem
      flaws := s.flaws.filter fun f => !versionHasWord s (some c) f.1 }
    let s := q.vblocks.foldl (fun s b =>
      let bits := budBits (leafBud b.attrs)
      let s := s.setBytes b.enc (leBytes (2 * bits) b.code)
      let r := s.regions[leafCreg b.attrs % 64]'(Nat.mod_lt _ (by decide))
      let up (v : W64) (n : Nat) : W64 := BitVec.ofNat 64 (min (v.toNat + n) (2 ^ 64 - 1))
      let r := { r with
        enc := up r.enc b.encodes, lossy := up r.lossy b.lossy,
        maxerr := if b.lossy = 0 then r.maxerr else BitVec.ofNat 64 (fp64Max r.maxerr.toNat b.maxerr.toNat) }
      { s with regions := s.regions.set (leafCreg b.attrs % 64) r (Nat.mod_lt _ (by decide)) }) s
    let s := { s with tags := s.tags.map fun (t : Nat × Tag) => 
      if t.2.version = some c && q.vtags.any (fun v => v.1 = t.1) then (t.1, { t.2 with version := none }) else t }
    (s.freeVersionLines q).modPiece c fun q => { q with vbytes := [], vblocks := [], vtags := [] }

/-- Discard the version of core c's piece: its lines, its pending block writes, its tags (R153, R224). -/
def discardVersion (s : State) (c : CoreId) : State :=
  match (s.core c).piece with
  | none => s
  | some q =>
    let s := { s with
      fbcStores := s.fbcStores.filter fun f => f.owner ≠ some c,
      held := s.held.filter fun h => h.owner ≠ some c }
    ((s.freeVersionLines q).restoreTags c q).modPiece c fun q => { q with vbytes := [], vblocks := [], vtags := [] }

/-- The rollback area of core c (R231). -/
def rollbackArea (s : State) (t : PartId) (c : CoreId) : W64 :=
  let r := (s.part t).rect
  (s.part t).rbase + BitVec.ofNat 64 (524288 * ((coreY c - rectY r) * rectW r + (coreX c - rectX r)))

/-- Copy a guarded bank page to the rollback area and unguard it (R231). A word that is bad is not passed on, and is
reported at the Quay (R86) (log 93: DESIGN CHOICE). -/
def guardCopy (s : State) (c : CoreId) (page : Nat) : State :=
  match (s.core c).part with
  | none => s
  | some t =>
    let va := s.rollbackArea t c + BitVec.ofNat 64 (4096 * (page % 128))
    let home := bankHome c (page / 128 = 1) (4096 * (page % 128))
    let bad := s.flawIn false home 4096
    let s := s.poke t va (s.goodBytes home 4096)
    let s := match bad with
      | some f => s.report c .quay (s.core c |>.queue .quay).nextPos (flawCause (unitAgent c 6) f.2) (page % 128)
      | none => s
    (s.modCore c fun k => { k with guardWait := k.guardWait.filter (· ≠ page) }).modPiece c fun q =>
      { q with guarded := q.guarded.erase page, rolled := q.rolled ++ [page] }

/-- Copy each unguarded page back: the slate is as at the step's start (R231). A page whose copy cannot be read is zero,
and is reported at the Quay (R86) (log 93: DESIGN CHOICE). -/
def rollbackSlate (s : State) (c : CoreId) : State :=
  match (s.core c).part, (s.core c).piece with
  | some t, some q =>
    let s := q.rolled.foldl (fun s page =>
      let home := bankHome c (page / 128 = 1) (4096 * (page % 128))
      let va := s.rollbackArea t c + BitVec.ofNat 64 (4096 * (page % 128))
      let s := s.draw t .load va 4096
      match s.peek t va 4096 with
      | some bs => s.setBytes home bs
      | none => (s.setBytes home (List.replicate 4096 0)).report c .quay ((s.core c).queue .quay).nextPos 237 (page % 128)) s
    s.modPiece c fun q => { q with guarded := q.guarded ++ q.rolled, rolled := [] }
  | _, _ => s

/-! ## Entering and ending pieces (R197 to R199) -/

/-- Turn a bank on: a gated one comes back zero and empty (R242). -/
def bankOn (s : State) (c : CoreId) (t : Nat) : State :=
  let s := if s.tilePower c t = 2 then
      s.modCore c fun k => { k with
        tiles := k.tiles.filter fun e => e.1 / 256 % 8 ≠ t % 8,
        tfull := BitVec.ofNat 32 (((List.range 32).map fun i =>
          if i % 8 ≠ t % 8 && k.tfull.getLsbD i then 2 ^ i else 0).foldl (· + ·) 0) }
    else s
  s.setTilePower c t 0

end State

/-- Load the in-operands of core c's piece into their tiles and set them full (R198). -/
def loadOperands (w : Who) (c : CoreId) : List Operand → M Unit
  | [] => pure ()
  | o :: r => do
    if !o.out then
      let pair := decide (8 ≤ o.fmt)
      let rows ← tileRows w .engRead false pair o.addr (some (o.stride.setWidth 64)) o.rows o.cols
      if rows.any fun x => x.fmt ≠ o.fmt then throw (.trap (accessCause .engRead 4) o.addr none)
      let acc : Access := {}
      checkParts w acc true false (rows.flatMap (·.parts))
      let vs ← readRows w acc rows
      modify fun s =>
        let s := s.fillTile c o.tile.toNat pair vs
        let s := s.setTileFull c o.tile.toNat true
        if pair then s.setTileFull c (o.tile.toNat + 1) true else s
    loadOperands w c r

/-- Store the out-operands of a piece, as STT stores them from full tiles (R198). Their agent is the CP. -/
def storeOperands (w : Who) (c : CoreId) : List Operand → M Unit
  | [] => pure ()
  | o :: r => do
    if o.out then
      let pair := decide (8 ≤ o.fmt)
      waitTiles (o.tile.toNat :: (if pair then [o.tile.toNat + 1] else [])) []
      let rows ← tileRows w .store false pair o.addr (some (o.stride.setWidth 64)) o.rows o.cols
      if rows.any fun x => x.fmt ≠ o.fmt then throw (.trap (accessCause .store 4) o.addr none)
      let acc : Access := {}
      checkParts w acc false true (rows.flatMap (·.parts))
      let f ← writeRows w acc c o.tile.toNat pair o.cols rows 0
      modify fun s => s.modCore c fun k => { k with x := { k.x with fpstat := k.x.fpstat ||| f } }
    storeOperands w c r

namespace State

/-- Load the in-operands of core c's piece: a load that must wait is made again in the core's turns, one that faults traps
at the entry PC and is made again where the handler lets the core go on there (R198). -/
def loadEntry (s : State) (c : CoreId) : State :=
  match (s.core c).piece with
  | none => s
  | some q =>
    match attempt (loadOperands (s.whoCore c 0) c q.opnds) s with
    | .done _ t => t.modPiece c fun q => { q with loading := false }
    | .failed cause a d => s.stopCore c .precise cause a (d.getD (detailWord (unitAgent c 0) 7 0))
    | .waits what => s.noteHeld what

/-- Put a core at the entry of its piece with the state of R197, and begin to load its operands (R198). -/
def enter (s : State) (c : CoreId) : State :=
  match (s.core c).piece with
  | none => s
  | some q =>
    let s := s.modCore c fun k => { k with
      x := { k.x with
        pc := q.entry, npc := q.entry, blocked := none, fetched := [], ticket := none, reply := none, pushing := false,
        g := ((Vector.replicate 32 (0 : W64)).set 2 (0xFFFFF00000000000 + q.stack)).set 3 q.desc,
        p := Vector.replicate 8 false },
      v := Vector.replicate 8 (Vector.replicate 16 0), lat := Vector.replicate 16 0,
      run := .run, held := none, waits := k.waits.filter (·.who ≠ .cp), granted := [],
      rangeLo := q.lo, guardWait := [], slateWait := [], preempt := false, piece := some { q with loading := true } }
    let tiles := q.opnds.flatMap fun o => o.tile.toNat :: (if 8 ≤ o.fmt then [o.tile.toNat + 1] else [])
    (tiles.foldl (fun s t => s.bankOn c t) s).loadEntry c

/-- The pages of a step's slate by their place in bank b (R231, R239). -/
def pagesIn (b : Bool) (pages : List Nat) : List Nat := pages.map fun n => n % 128 + (if b then 128 else 0)

/-- When the slice of a piece of step (li, ii) began on core c: it goes on where the core ran that step last (R212). -/
def sliceStart (s : State) (c : CoreId) (li ii : Nat) : Nat :=
  match (s.core c).sliceOf with
  | some (l, i, used) => if l = li && i = ii then s.us - used else s.us
  | none => s.us

/-- Make a piece of a node at core c: count it, set its registers and enter it (R193, R197, R206). The telemetry of another
context begins at zero (R417) (log 94: DEDUCED). The range is [lo, hi); `ses` is the session of the step, the address of its descriptor and the
bank of its slate. -/
def givePiece (s : State) (c : CoreId) (li ii n : Nat) (lo hi : W64) (ses : Option (Session × W64 × Bool)) : State :=
  match s.launches[li]? with
  | none => s
  | some l =>
    match l.nodes[n]?, l.insts[ii]? with
    | some x, some inst =>
      let number := inst.made.getD n 0
      let s := (s.countPiece li c).modInst li ii fun i => { i with
        pieces := i.pieces.modify n (· + 1), made := i.made.modify n (· + 1) }
      let versioned := !x.unver
      let p := s.part l.part
      let place (pages : List Nat) : List Nat := match ses with
        | some z => pagesIn z.2.2 pages
        | none => pages
      let ctx := (li, ses.map fun z => z.1.sid)
      let q : Piece :=
        { launch := li, inst := ii, node := n, number := number, entry := x.entry,
          desc := l.graph + BitVec.ofNat 64 (128 * n), lo := lo, stack := l.stack, opnds := x.opnds, loading := true,
          versioned := versioned, vbytes := [], vblocks := [], vtags := [],
          session := ses.map fun z => (z.1.sid, z.2.1),
          guarded := if versioned then place inst.guarded else [], rolled := if versioned then place inst.rolled else [],
          rt := match ses with | some z => z.1.cls = 0 | none => false
          wdog := p.wdog, ctxbase := p.ctxbase, ctxn := p.ctxn }
      let reg : BitVec 33 := match ses with
        | some (z, _, b) => BitVec.ofNat 33 (2 ^ 32 + (if b then 2 ^ 31 else 0) + z.tenant * 2 ^ 26 + z.cls * 2 ^ 24 + z.sid.toNat)
        | none => 0
      let s := (takeEvents s c).modCore c fun k => { k with
        piece := some q, lrect := l.rect, rangeHi := hi, session := reg,
        taskId := l.number ++ BitVec.ofNat 16 n ++ BitVec.ofNat 32 number, dog := s.us, sliceAt := s.sliceStart c li ii,
        telemetry := if k.countsOf = some ctx then k.telemetry else Vector.replicate 10 0, countsOf := some ctx }
      ((s.setRing c l.rect).learn (unitAgent c 0) (inst.know.getD n [])).enter c
    | _, _ => s

/-- Is the user-mode queue whose header lies at `va` full (R339)? -/
def queueFull (s : State) (t : PartId) (va : W64) : Bool :=
  match s.peek t va 64 with
  | some bs => wordAt bs 0 - wordAt bs 3 ≥ BitVec.ofNat 64 (2 ^ (fld (wordAt bs 4) 56 8).toNat)
  | none => false

/-- The packets that the user-mode queue whose header lies at `va` holds (R210, R339). -/
def packetsIn (s : State) (t : PartId) (va : W64) : Nat :=
  match s.peek t va 64 with
  | some bs => (wordAt bs 1).toNat - (wordAt bs 2).toNat
  | none => 0

/-- Is the session set that names a session closed (R217)? -/
def setClosed (s : State) (t : PartId) (sid : BitVec 24) : Bool :=
  s.launches.any fun l => l.part = t && !l.ended && l.closed && l.sids.contains sid

/-- The microsecond at which the oldest packet of a session's input queue arrived; its ready time where none is noted (R211). -/
def arrivedAt (s : State) (t : PartId) (x : Session) : Nat :=
  ((s.arrivals.find? fun a => a.1 = t && a.2.1 = x.sid).map (·.2.2)).getD x.readyAt

/-- The packets of a session that have come since the last step are noted with their time, those that were taken are not
kept (R211). -/
def noteArrivals (s : State) (t : PartId) (sid : BitVec 24) : State :=
  match s.session t sid with
  | none => s
  | some x =>
    let mine := s.arrivals.filter fun a => a.1 = t && a.2.1 = sid
    let n := s.packetsIn t x.inq
    { s with arrivals := s.arrivals.filter (fun a => !(a.1 = t && a.2.1 = sid)) ++ mine.drop (mine.length - n) ++
        List.replicate (n - mine.length) (t, sid, s.us) }

/-- The packets of the sessions of every launch that has not ended (R211) (log 88: DEDUCED). -/
def noteAllArrivals (s : State) : State :=
  s.launches.foldl (fun s l => if l.ended then s else l.sids.foldl (fun s sid => s.noteArrivals l.part sid) s) s

/-- A session's step has ended: its state, the deadline since its packet arrived, the time of its pieces, which every step is
charged (R209, R211, R213) (log 72: DESIGN CHOICE), and the report of an output queue that is full at its end (R228). -/
def endStep (s : State) (t : PartId) (sid : BitVec 24) (i : Inst) (failed : Bool) : State :=
  let s := { s with steps := s.steps.filter (· ≠ (t, sid)) }
  match s.session t sid with
  | none => s
  | some x =>
    let used : Int := max 1 (s.us - (i.startUs + i.paused))
    let s := s.setSessionState t sid (if s.setClosed t sid then 5 else 1)
    let late := !failed && x.cls = 0 && x.deadline ≠ 0 && s.us - i.arrived > x.deadline
    let s := s.modPart t fun p => { p with deficits := tput 0 p.deficits x.tenant (tget 0 p.deficits x.tenant - used) }
    let s := if !failed && s.queueFull t x.outq then s.raiseAny 361 else s
    if late then
      (s.modPart t fun p => { p with rtmiss := tput 0 p.rtmiss x.tenant (tget 0 p.rtmiss x.tenant + 1) }).raiseAny 357
    else s

/-- The core has no piece any more; what the slice of its step has used is kept (R212): its ring returns to
the loopback ring, and a core that has left its partition's rectangle moves to the free set (R17, R412). A stream that waits in
WORK goes on waiting in it; a core without one is idle (R346, log 62: DEDUCED). TASK_ID and the range keep the piece's values (log 95: DESIGN CHOICE). -/
def clearPiece (s : State) (c : CoreId) : State :=
  let s := s.modCore c fun k =>
    let of := match k.piece with
      | some q => if q.session.isSome then some (q.launch, q.inst, s.us - k.sliceAt) else none
      | none => k.sliceOf
    let k := { k with piece := none, session := 0, lrect := 0, preempt := false, sliceOf := of }
    let k := match k.workAt with
      | some a => { k with run := .seek, x := { k.x with pc := a, npc := a } }
      | none => { k with run := .off }
    if k.leaving then { k with part := none, leaving := false } else k
  s.setRing c 0

/-- What a piece's end passes on to the nodes after it, and to the session's next step (R347); its slate's
guarded pages stay with the step (R231). -/
def passOn (s : State) (c : CoreId) (q : Piece) : State :=
  let a := unitAgent c 0
  let k : Known := tput 0 (s.known a) a.toNat s.stamp
  match s.launches[q.launch]? with
  | none => s
  | some l =>
    let succ := (l.nodes[q.node]?.map (·.succ)).getD []
    let s := s.modInst q.launch q.inst fun i => { i with
      know := i.know.zipIdx.map fun (w, n) => if succ.contains n then knownJoin w k else w,
      guarded := if q.versioned then q.guarded else i.guarded, rolled := if q.versioned then q.rolled else i.rolled }
    match q.session with
    | some (sid, _) => s.modLaunch q.launch fun l => { l with
        stepKnow := tput [] l.stepKnow sid.toNat (knownJoin (tget [] l.stepKnow sid.toNat) k) }
    | none => s

/-- A node is complete: its successors' counts fall (R199, R200). -/
def nodeComplete (s : State) (li ii n : Nat) (die : Bool) : State :=
  match s.launches[li]? with
  | none => s
  | some l =>
    let s := s.modInst li ii fun i => { i with complete := i.complete.set n true }
    let s := ((l.nodes[n]?.map (·.succ)).getD []).foldl (fun s m =>
      let s := s.modInst li ii fun i => { i with remaining := i.remaining.modify m (· - 1) }
      match (s.launches[li]?.bind fun l => l.insts[ii]?).map fun i => (i.live, i.remaining.getD m 1) with
      | some (true, r) => if r < 0 then s.failLaunch li 354 else if r = 0 then s.readyNode li ii m die else s
      | _ => s) s
    match (s.launches[li]?.bind fun l => l.insts[ii]?) with
    | some i =>
      if i.live && i.complete.all id then
        let s := s.modInst li ii fun i => { i with live := false }
        match i.session with
        | some sid => s.endStep l.part sid i false
        | none => s
      else s
    | none => s

/-- A piece has completed at core c: lower the counters, complete its node, end its launch (R199, R217). -/
def pieceDone (s : State) (c : CoreId) : State :=
  match (s.core c).piece with
  | none => s
  | some q =>
    let s := s.passOn c q
    let s := (s.uncountPiece q.launch c).modInst q.launch q.inst fun i => { i with pieces := i.pieces.modify q.node (· - 1) }
    let s := match s.launches[q.launch]?.bind fun l => l.insts[q.inst]? with
      | some i => if i.live && i.pieces.getD q.node 1 = 0 then
          s.nodeComplete q.launch q.inst q.node (decide (coreDie c = 1)) else s
      | none => s
    ((s.clearPiece c).modCore c fun k => { k with dog := s.us }).checkEnd q.launch

/-- A piece has failed with a cause: the roll-call tree is lowered; a one-shot launch fails, a session's step
is given up and reported with 362 (R224). -/
def pieceFailed (s : State) (c : CoreId) (cause : Nat) : State :=
  match (s.core c).piece with
  | none => s
  | some q =>
    let s := (s.uncountPiece q.launch c).modInst q.launch q.inst fun i => { i with pieces := i.pieces.modify q.node (· - 1) }
    let s := match s.launches[q.launch]? with
      | none => s
      | some l => match (l.insts[q.inst]?).bind fun i => i.session.map fun sid => (sid, i) with
        | none => s.failLaunch q.launch cause
        | some (sid, i) =>
          let s := s.modInst q.launch q.inst fun i => { i with live := false }
          let s := { s with pool := s.pool.filter fun r => !(r.launch = q.launch && r.inst = q.inst) }
          (s.endStep l.part sid i true).raiseAny 362
    (s.clearPiece c).checkEnd q.launch

end State

end Sys2Proof.Machine
end

