-- ==== Sys2Proof/Machine/Schedule.lean ====
section
/-! DEFINITION. How the Timetable chooses: candidates of the seven cases, deficit round robin, input packets,
session steps and their slates, splits and steals (R203 to R213, R435). -/

namespace Sys2Proof.Machine

/-! ## Smallest by key -/

/-- Is a list of numbers below another, first difference first? -/
def keyLt : List Nat → List Nat → Bool
  | [], [] => false
  | [], _ :: _ => true
  | _ :: _, [] => false
  | a :: as, b :: bs => if a = b then keyLt as bs else a < b

/-- The first element of smallest key. -/
def pickMin {α : Type} (key : α → List Nat) : List α → Option α
  | [] => none
  | a :: r => match pickMin key r with
    | none => some a
    | some b => if keyLt (key b) (key a) then some b else some a

namespace State

/-! ## Where work may go (R190, R203, R207, R241) -/

/-- May core c run a node of the launch? -/
def mayRun (s : State) (c : CoreId) (l : Launch) : Bool :=
  let k := s.core c
  !l.ended && rectHas l.rect c && k.part = some l.part && !k.leaving &&
  (s.part l.part).reqfeat &&& ~~~k.feat = 0

/-- Does static placement let the node run on core c? -/
def dieOk (s : State) (c : CoreId) (l : Launch) (n : Nat) : Bool :=
  !(s.part l.part).place || (match l.nodes[n]? with | some x => x.die | none => false) = decide (coreDie c = 1)

/-- The instance and launch of a pool entry. -/
def readyOf (s : State) (r : Ready) : Option (Launch × Inst) :=
  (s.launches[r.launch]?).bind fun l => (l.insts[r.inst]?).map fun i => (l, i)

/-- Is core c idle: it seeks work, runs no piece and is not held? -/
def idle (s : State) (c : CoreId) : Bool :=
  let k := s.core c
  k.piece.isNone && k.held.isNone && k.part.isSome && k.run ≠ .run

/-- The core and bank that hold the slate of the descriptor at va (R82, R210). -/
def slateAt (s : State) (t : PartId) (va : W64) : Option (CoreId × Bool) :=
  (List.finRange 256).findSome? fun c =>
    let k := s.core c
    if k.part = some t then
      (if k.banks[0] = some va then some (c, false) else if k.banks[1] = some va then some (c, true) else none)
    else none

/-- Is the work of a session, which core `ok` may run, preferred at another core that seeks work: the one whose bank holds its
slate (R203)? -/
def slateElsewhere (s : State) (c : CoreId) (t : PartId) (sid : BitVec 24) (ok : CoreId → Bool) : Bool :=
  match s.slateAt t (s.sessionAddr t sid) with
  | some (k, _) => k ≠ c && s.idle k && ok k
  | none => false

/-- The number of pieces of an instance that have not ended. -/
def running (i : Inst) : Nat := i.pieces.foldl (· + ·) 0

/-- Can a node of a session's step run on core c: its slate is here, or nothing holds it elsewhere (R210,
R239)? (log 68: DEDUCED) -/
def slateReach (s : State) (c : CoreId) (l : Launch) (i : Inst) : Bool :=
  match i.session with
  | none => true
  | some sid =>
    match s.slateAt l.part (s.sessionAddr l.part sid) with
    | some (k, _) => k = c || (running i = 0 && i.rolled.isEmpty && !(s.pins.any fun p => p.2.1 = l.part && p.2.2 = sid))
    | none => true

/-- The pool entries that core c may take on its own die: nodes of session steps or of one-shot launches; a step's node not
where another core that seeks work holds its slate (R203). -/
def poolFor (s : State) (c : CoreId) (ses : Bool) : List Ready :=
  s.pool.filter fun r =>
    r.die = decide (coreDie c = 1) &&
    (match s.readyOf r with
     | some (l, i) => s.mayRun c l && s.dieOk c l r.node && i.session.isSome = ses && s.slateReach c l i &&
        !(i.session.any fun sid => s.slateElsewhere c l.part sid fun k => s.mayRun k l && s.dieOk k l r.node)
     | none => false)

/-- The launch whose session set holds a session. -/
def sessionLaunch (s : State) (t : PartId) (sid : BitVec 24) : Option Nat :=
  s.launches.findIdx? fun l => l.part = t && !l.ended && l.sids.contains sid

/-- May core c run a root node of the launch (R203, R207)? -/
def rootOk (s : State) (c : CoreId) (l : Launch) : Bool :=
  l.nodes.zipIdx.any fun x => x.1.npred = 0 && s.dieOk c l x.2

/-- Ready sessions whose step core c may start, with their launch: of class 0 only those pinned here. -/
def readyFor (s : State) (c : CoreId) : List (ReadySession × Nat × Session) :=
  if s.quiesced then []
  else s.readySessions.filterMap fun r =>
    match s.sessionLaunch r.part r.sid, s.session r.part r.sid with
    | some li, some x =>
      match s.launches[li]? with
      | some l => if s.mayRun c l && s.rootOk c l && (x.cls ≠ 0 || x.rtcore = c.val) then some (r, li, x) else none
      | none => none
    | _, _ => none

/-- May core c, and not rather another that seeks work and holds the slate, start the step (R203)? -/
def stepHere (s : State) (c : CoreId) (r : ReadySession × Nat × Session) : Bool :=
  !(s.slateElsewhere c r.1.part r.1.sid fun k => match s.launches[r.2.1]? with
    | some l => s.mayRun k l && s.rootOk k l
    | none => false)

/-- The number of a launch. -/
def launchNumber (s : State) (li : Nat) : Nat := ((s.launches[li]?).map fun l => l.number.toNat).getD 0

/-- Do the neighbour queues and fork records of core c have room for those of a context (R83, R421) (log 28: DEDUCED)? -/
def roomFor (own image : Core) : Bool :=
  own.down.slots.length + image.down.slots.length ≤ 8 && own.up.slots.length + image.up.slots.length ≤ 8 &&
  own.forks.length + image.forks.length ≤ 16

/-- Can a saved context resume on core c once it is idle (R207, R238, R239)? Its own core always; another only with empty
neighbour queues, no paused tide program, no barrier wait, and a slate that may move, while its own core is not idle
(log 30: DEDUCED). What the queues and fork records of a core that runs a piece hold leaves them at the save (R236, R301). -/
def canResume (s : State) (c : CoreId) (v : SavedContext) : Bool :=
  match v.image.piece with
  | none => false
  | some q =>
    match s.launches[q.launch]? with
    | none => false
    | some l =>
      s.mayRun c l && s.dieOk c l q.node && ((s.core c).piece.isSome || roomFor (s.core c) v.image) &&
      (v.core = c ||
        (!s.idle v.core && v.image.down.slots.isEmpty && v.image.up.slots.isEmpty &&
         v.tides.isEmpty &&
         (match v.image.x.blocked with | some (.gbar _, _) => false | _ => true) &&
         (match q.session with
          | none => true
          | some (sid, _) => q.rolled.isEmpty && !q.rt &&
            !(s.slateElsewhere c l.part sid fun k => s.mayRun k l && s.dieOk k l q.node))))

/-! ## Deficit round robin (R213) -/

def weight (p : Partition) (t : Nat) : Nat := (tget 1 p.weights t).toNat

/-- Is a ready session served as interactive? -/
def asInteractive (r : ReadySession × Nat × Session) : Bool := r.2.2.cls = 1 || (r.2.2.cls = 2 && r.1.promoted)

/-- The deficits after the rounds that a visit needs: none where some tenant with a ready session has a
positive one, otherwise as many as give one. A tenant without a ready session has its deficit set to 0
(log 72: DESIGN CHOICE). -/
def replenish (p : Partition) (ts : List Nat) : Partition :=
  if ts.isEmpty || ts.any (fun t => tget 0 p.deficits t > 0) then p
  else
    let need (t : Nat) : Nat := ((-(tget 0 p.deficits t)) / (16 * weight p t : Nat)).toNat + 1
    let k := (ts.map need).foldl min (need (ts.headD 0))
    { p with deficits := ts.foldl (fun d t =>
        tput 0 d t (min (tget 0 p.deficits t + ((16 * weight p t * k : Nat) : Int)) ((16 * weight p t : Nat) : Int))) [] }

/-- The interactive session that case 3 serves on core c: the partition with its rounds done, and the choice. The pointer
passes only tenants without a positive deficit (R213). -/
def interactive (s : State) (c : CoreId) : Option (Partition × ReadySession × Nat × Session) :=
  match (s.core c).part with
  | none => none
  | some t =>
    let rs := (s.readyFor c).filter fun r => r.1.part = t && asInteractive r && s.stepHere c r
    let all := (s.readySessions.filterMap fun r =>
      if r.part = t then (s.session t r.sid).bind fun x => if x.cls = 1 || r.promoted then some x.tenant else none
      else none).eraseDups
    let p := replenish (s.part t) all
    let order := (List.range 32).map fun i => (p.pointer + i) % 32
    match order.find? fun n => tget 0 p.deficits n > 0 && rs.any fun r => r.2.2.tenant = n with
    | none => none
    | some n =>
      (pickMin (fun r => [r.1.at_, r.1.sid.toNat]) (rs.filter fun r => r.2.2.tenant = n)).map fun r =>
        ({ p with pointer := (order.find? fun m => tget 0 p.deficits m > 0).getD n }, r.1, r.2.1, r.2.2)

/-! ## Candidates of the cases (R203) -/

/-- What a core may be given. -/
inductive Cand where
  | step (r : ReadySession) (li : Nat)
  | node (r : Ready)
  | saved (v : SavedContext)
  | split (victim : CoreId)
  deriving DecidableEq, Repr

/-- Case 2: nodes of started steps and saved contexts, the oldest step first, then the lower node. -/
def caseTwo (s : State) (c : CoreId) : Option Cand :=
  let nodes := (s.poolFor c true).filterMap fun r => (s.readyOf r).map fun x => ([x.2.startUs, r.node, 1], Cand.node r)
  let saved := (s.saved.filter (s.canResume c)).filterMap fun v =>
    v.image.piece.bind fun q => ((s.launches[q.launch]?).bind fun l => l.insts[q.inst]?).map fun i =>
      ([i.startUs, q.node, 0], Cand.saved v)
  (pickMin (·.1) (nodes ++ saved)).map (·.2)

/-- Case 4: one-shot nodes and steps of batch sessions, by ready time. -/
def caseFour (s : State) (c : CoreId) : Option Cand :=
  let nodes := (s.poolFor c false).map fun r => ([r.at_, s.launchNumber r.launch, r.node], Cand.node r)
  let batch := ((s.readyFor c).filter fun r => r.2.2.cls = 2 && !r.1.promoted && s.stepHere c r).map fun r =>
    ([r.1.at_, s.launchNumber r.2.1, r.1.sid.toNat], Cand.step r.1 r.2.1)
  (pickMin (·.1) (nodes ++ batch)).map (·.2)

/-- The first of cases 1 to 4 that has a candidate for core c. -/
def candidate (s : State) (c : CoreId) : Option Cand :=
  match (s.readyFor c).find? fun r => r.2.2.cls = 0 with
  | some r => some (.step r.1 r.2.1)
  | none =>
    match s.caseTwo c with
    | some x => some x
    | none =>
      match s.interactive c with
      | some (_, r, li, _) => some (.step r li)
      | none => s.caseFour c

def hasCandidate (s : State) (c : CoreId) : Bool := (s.candidate c).isSome

/-! ## Splits (R206) -/

/-- What is left of the range that core v's piece runs. -/
def rangeLeft (s : State) (v : CoreId) : Nat := (s.core v).rangeHi.toNat - (s.core v).rangeLo.toNat

/-- Can the piece of core v be split for core c? -/
def canSplit (s : State) (v c : CoreId) : Bool :=
  match (s.core v).piece with
  | none => false
  | some q =>
    match s.launches[q.launch]? with
    | none => false
    | some l =>
      s.mayRun c l && s.dieOk c l q.node &&
      (match l.nodes[q.node]? with | some n => 2 * max n.grain 1 ≤ s.rangeLeft v | none => false)

/-- The piece with the largest range on a die that can be split for core c; ties go to the lower core. -/
def splitVictim (s : State) (c : CoreId) (die : Bool) : Option CoreId :=
  let vs := (List.finRange 256).filter fun v => decide (coreDie v = 1) = die && (s.core v).piece.isSome && s.canSplit v c
  pickMin (fun v => [2 ^ 64 - s.rangeLeft v, v.val]) vs

/-- The session part of a new piece: descriptor, its address, the bank of the slate. The requester of a split takes over the
bank number of the victim, on whose core the slate stays (R206) (log 103: DEDUCED). -/
def sessionPart (s : State) (t : PartId) (sid : Option (BitVec 24)) : Option (Session × W64 × Bool) :=
  match sid with
  | none => none
  | some x =>
    let va := s.sessionAddr t x
    (s.session t x).map fun z => (z, va, match s.slateAt t va with | some (_, b) => b | none => false)

/-- Split the piece of core v for core c: the new piece is counted first, then the victim's end falls. -/
def splitFor (s : State) (v c : CoreId) : State :=
  match (s.core v).piece with
  | none => s
  | some q =>
    match s.launches[q.launch]? with
    | none => s
    | some l =>
      let cur := (s.core v).rangeLo
      let hi := (s.core v).rangeHi
      let left := s.rangeLeft v
      let mid := cur + BitVec.ofNat 64 ((left + 1) / 2)
      let sid := (l.insts[q.inst]?).bind (·.session)
      let s := s.givePiece c q.launch q.inst q.node mid hi (s.sessionPart l.part sid)
      s.modCore v fun k => { k with rangeHi := mid }

/-! ## Input packets (R434, R435) -/

/-- The version of a queue, byte 38 of its header (R339). -/
def queueVersion (bs : List Byte) : Nat := (bs.getD 38 0).toNat

/-- The cause of a packet that fails its check; `peer` says that a peer device wrote it (log 52: DEDUCED). -/
def packetFault (ver : Nat) (sid : BitVec 24) (peer : Bool) (bs : List Byte) : Option Nat :=
  let b (i : Nat) : Nat := (bs.getD i 0).toNat
  let num (i n : Nat) : Nat := leNat ((bs.drop i).take n)
  if b 0 ≠ ver then some 374
  else if ver = 2 && num 60 4 ≠ (crc32c (bs.take 60)).toNat then some (if peer then 373 else 372)
  else if ver = 1 then (if b 1 > 1 || num 2 6 ≠ 0 then some 360 else none)
  else if b 1 > 2 || num 2 2 > 40 || b 7 ≠ 0 || num 56 4 ≠ 0 || num 4 3 ≠ sid.toNat then some 360
  else none

/-- A status packet for a failed one (R434, R435). -/
def statusPacket (sid : BitVec 24) (tag : List Byte) (cause : Nat) : List Byte :=
  let body := [2, 2] ++ leBytes 2 2 ++ leBytes 4 sid.toNat ++ tag ++ leBytes 2 cause ++ List.replicate 42 0
  body ++ leBytes 4 (crc32c body).toNat

/-- One of the four queue operations, made by the Timetable on the header at va with order ar (R340, R435): its result, what it
acquires, and the state; none where an atomic access to the header would fault, or the header is malformed. -/
def queueStep (s : State) (t : PartId) (va : W64) (deq second : Bool) (slot : W64) : Option (W64 × Known × State) :=
  match s.peekAtomic t va 64 with
  | none => none
  | some (ps, bs) =>
    match parseHeader (leNat bs) with
    | none => none
    | some h =>
      let know := acquireFrom s 0xFFF 4 (syncMet s ps)
      match queueOp deq second h slot with
      | (r, none) => some (r, know, s.draw t .atomic va 64)
      | (r, some (i, new)) =>
        let s := s.poke t (va + BitVec.ofNat 64 (8 * i)) (leBytes 8 new.toNat)
        some (r, know, if know.isEmpty then s else (syncBytes ps).foldl (fun s u =>
          { s with sync := tput [] s.sync u (addRelease (tget [] s.sync u) ⟨0xFFF, 4, know⟩) }) s)

/-- Commit, or free, a claimed slot; one before which others are still open is kept, and ended as soon as they are (R340). -/
def endSlot (s : State) (o : OpenSlot) : State :=
  match s.queueStep o.part o.header o.taken true o.slot with
  | some (1, _, t) => t
  | _ => { s with openSlots := s.openSlots ++ [o] }

/-- An open slot that can be ended now, and the state in which it is. -/
def slotDue (s : State) (o : OpenSlot) : Option State :=
  match { s with openSlots := s.openSlots.erase o }.queueStep o.part o.header o.taken true o.slot with
  | some (1, _, t) => some t
  | _ => none

/-- Put a packet into a version-2 queue as ENQ and ENQ.commit do; none where it has no free slot (R435). -/
def enqueuePacket (s : State) (t : PartId) (va : W64) (pk : List Byte) : Option State :=
  if (s.peek t va 64).map queueVersion ≠ some 2 then none
  else match s.queueStep t va false false 0 with
    | some (slot, _, s) => if slot = 0 then none else some ((s.poke t slot pk).endSlot ⟨t, va, slot, false⟩)
    | none => none

/-- Did a peer device write the bytes of slot va last? -/
def peerWrote (s : State) (t : PartId) (va : W64) : Bool :=
  match translateAccess s (tableWho t) .load false va 64 with
  | .ok (ps, _) => ps.any fun p => p.granules.any fun g => match tfind s.tags g.key with
    | some tag => 2128 < tag.agent.toNat
    | none => false
  | .error _ => false

/-- The 64 bytes of a slot; the cause 372 or 373 where its data is bad (R436); no cause where its page cannot be read. -/
def slotBytes (s : State) (t : PartId) (va : W64) : Except (Option Nat) (List Byte) :=
  match s.tableParts t .load va 64, s.peek t va 64 with
  | some _, none => .error (some (if s.peerWrote t va then 373 else 372))
  | none, _ => .error none
  | some _, some bs => .ok bs

/-- A packet that fails with a cause of the link group is a link event (R228, R443). -/
def packetEvent (s : State) (cause : Nat) : State := if 368 ≤ cause then s.linkEvent cause else s

/-- The input packet of a session: it passes, it fails (claimed, freed and reported), or nothing can be taken
now (R435). -/
inductive PacketCheck where
  | passes
  | failed (s : State)
  | nothing

def checkPacket (s : State) (t : PartId) (x : Session) : PacketCheck :=
  match s.peek t x.inq 64 with
  | none => .nothing
  | some bs =>
    match parseHeader (leNat bs) with
    | none => .nothing
    | some h =>
      if h.ri ≥ h.ci then .nothing
      else
        let found : Except (Option Nat) (List Byte) := s.slotBytes t (h.slot h.ri)
        let cause := match found with
          | .error c => c
          | .ok pk => packetFault (queueVersion bs) x.sid (s.peerWrote t (h.slot h.ri)) pk
        match found, cause with
        | .ok _, none => .passes
        | .error _, none => .nothing
        | _, some cause =>
          match (s.draw t .load (h.slot h.ri) 64).queueStep t x.inq true false 0 with
          | none => .nothing
          | some (slot, _, s) =>
            let s := (s.endSlot ⟨t, x.inq, slot, true⟩).packetEvent cause
            let tag : List Byte := match found with
              | .ok pk => (pk.drop 8).take 8
              | .error _ => List.replicate 8 0
            let sent := if queueVersion bs = 2 then s.enqueuePacket t x.outq (statusPacket x.sid tag cause) else none
            .failed (match sent with
              | some s => s
              | none => s.modPart t fun p => { p with pktfail := p.pktfail + 1 })

/-! ## Slates of sessions (R210) -/

/-- The Quay job of a session's whole slate. -/
def slateJob (x : Session) (va : W64) (bank writes : Bool) : QuayJob :=
  { desc := va, bank := bank, frame := x.frame, ffmt := x.ffmt, size := x.size, writesBank := writes, pagesDone := 0,
    read := 0, staged := [] }

def setBank (s : State) (c : CoreId) (b : Bool) (v : Option W64) : State :=
  s.modCore c fun k => { k with banks := if b then k.banks.set 1 v else k.banks.set 0 v }

/-- Have the Quay of core c move the slate of a session for a bank, page by page, after what it moves already (R81, R210). -/
def addMove (s : State) (c : CoreId) (job : QuayJob) (keeps : Bool) : State :=
  let (item, s) := s.newItem
  s.modCore c fun k => { k with moves := k.moves ++ [⟨item, job, false, keeps, false⟩] }

/-- The slate of a bank is saved to its session's frame, and the bank holds it no more (R239). A bank whose descriptor no
longer parses is dropped. -/
def evictBank (s : State) (c : CoreId) (b : Bool) : State :=
  let k := s.core c
  match (if b then k.banks[1] else k.banks[0]), k.part with
  | some va, some t =>
    let s := s.setBank c b none
    match (s.peek t va 64).bind parseSession with
    | none => s
    | some x => s.addMove c (slateJob x va b false) false
  | _, _ => s

/-- A session's slate is loaded into a bank, which names it from now on; R80 holds each access until its page has arrived
(R210) (log 66: DESIGN CHOICE). -/
def fillBank (s : State) (c : CoreId) (b : Bool) (x : Session) (va : W64) : State :=
  (s.addMove c (slateJob x va b true) false).setBank c b (some va)

/-- Is the step of a session suspended: a context of it is saved, and no core runs a piece of it (R210, R236)? -/
def suspended (s : State) (t : PartId) (sid : BitVec 24) : Bool :=
  let its (k : Core) : Bool := k.part = some t && (match k.piece with
    | some q => q.session.map (·.1) = some sid
    | none => false)
  (s.saved.any fun v => its v.image) && !(s.cores.toList.any its)

/-- Is the slate of a bank in use: its session's step is running, or it is pinned (R210, R211)? -/
def bankBusy (s : State) (c : CoreId) (b : Bool) : Bool :=
  let k := s.core c
  match (if b then k.banks[1] else k.banks[0]), k.part with
  | some va, some t =>
    s.steps.any (fun p => p.1 = t && s.sessionAddr t p.2 = va && !s.suspended t p.2) || s.pins.any (fun p => p.2.1 = t && s.sessionAddr t p.2.2 = va)
  | _, _ => false

/-- Bring the slate of a session to core c: it stays in its bank there, or moves by way of its frame into a
bank that is free, else into one whose slate can be saved (R210, R239). None where no bank can be had. -/
def bringSlate (s : State) (c : CoreId) (t : PartId) (x : Session) : Option (Bool × State) :=
  let va := s.sessionAddr t x.sid
  match s.slateAt t va with
  | some (k, b) =>
    if k = c then some (b, s)
    else
      let s := s.evictBank k b
      place s va
  | none => place s va
where
  place (s : State) (va : W64) : Option (Bool × State) :=
    let k := s.core c
    if k.banks[0].isNone then some (false, s.fillBank c false x va)
    else if k.banks[1].isNone then some (true, s.fillBank c true x va)
    else if !s.bankBusy c false then some (false, (s.evictBank c false).fillBank c false x va)
    else if !s.bankBusy c true then some (true, (s.evictBank c true).fillBank c true x va)
    else none

/-! ## Starting steps and nodes -/

/-- T_sr of a slate (R212). -/
def restoreTime (size : Nat) : Nat := (2 * (2100 * 32 + size) + 2100 * 32 - 1) / (2100 * 32)

/-- Refuse a session: the launch serves it no more (R209, R211). -/
def refuseSession (s : State) (t : PartId) (sid : BitVec 24) (cause : Nat) : State :=
  let s := { s with readySessions := s.readySessions.filter fun r => !(r.part = t && r.sid = sid) }
  let s := match s.sessionLaunch t sid with
    | some li => s.modLaunch li fun l => { l with sids := l.sids.filter (· ≠ sid) }
    | none => s
  s.raiseAny cause

/-- Give core c the node of a pool entry, whose slate is brought first (R203, R210). -/
def takeNode (s : State) (c : CoreId) (r : Ready) : State :=
  match s.readyOf r with
  | none => s
  | some (l, i) =>
    let give (s : State) : State :=
      let s := { s with pool := s.pool.erase r }
      match l.nodes[r.node]? with
      | some n => s.givePiece c r.launch r.inst r.node n.lo n.hi (s.sessionPart l.part i.session)
      | none => s
    match i.session with
    | none => give s
    | some sid =>
      match s.session l.part sid with
      | none => give s
      | some x => match s.bringSlate c l.part x with
        | some (_, s) => give s
        | none => s

/-- Start a new step of a ready session on core c: its packet is checked, its slate brought, its pages guarded,
and its first node given to c (R209 to R212, R231, R435). Where no bank of c is free the core stays idle with this candidate
(log 104: DEDUCED). -/
def startStep (s : State) (c : CoreId) (r : ReadySession) (li : Nat) : State :=
  match s.session r.part r.sid with
  | none => s.refuseSession r.part r.sid 355
  | some x =>
    let gone (s : State) : State := { s with readySessions := s.readySessions.filter fun q => !(q.part = r.part && q.sid = r.sid) }
    match s.checkPacket r.part x with
    | .nothing => s
    | .failed s => (gone s).setSessionState r.part r.sid 1
    | .passes =>
      match s.bringSlate c r.part x with
      | none => s
      | some (b, s) =>
        let s := (gone s).setSessionState r.part r.sid 3
        let s := if x.slice < restoreTime x.size then s.poke r.part (s.sessionAddr r.part r.sid + 0x32) [1] else s
        let s := { s with steps := s.steps ++ [(r.part, r.sid)] }
        let ii := ((s.launches[li]?).map fun l => l.insts.length).getD 0
        let pages := (List.range ((x.size + 4095) / 4096)).map fun k => (if b then 128 else 0) + k
        let s := s.draw r.part .load x.inq 64
        let s := (s.startInst li (some r.sid) (s.arrivedAt r.part x)).modInst li ii fun i => { i with guarded := pages }
        let mine := s.pool.filter fun q => q.launch = li && q.inst = ii &&
          (match s.launches[li]? with | some l => s.dieOk c l q.node | none => false)
        match pickMin (fun q => [q.node]) mine with
        | some q => s.takeNode c q
        | none => s

/-- Give core c what a candidate names. A saved context is restored by a step of its own. -/
def give (s : State) (c : CoreId) : Cand → State
  | .step r li => s.startStep c r li
  | .node r => s.takeNode c r
  | .saved _ => s
  | .split v => s.splitFor v c

/-! ## Events -/

/-- Does a launch that has not ended, or waits to be accepted, hold core c (R203)? -/
def holdsCore (s : State) (c : CoreId) : Bool :=
  s.launches.any (fun l => !l.ended && rectHas l.rect c && (s.core c).part = some l.part) ||
  s.launchQueue.any (fun q => (s.core c).part = some q.part && rectHas (fld (wordAt q.desc 1) 0 16) c)

end State

/-- WORK continues at the next word (R346). -/
def leaveWork (s : State) (c : CoreId) : State := s.modCore c fun k => { k with run := .run, workAt := none }

/-- DISPATCH: a core that seeks work takes the first case that applies (R203). In case 7 WORK goes on once
every launch that holds the core has ended; a core that has no CP stream keeps waiting. -/
def execDispatch (c : CoreId) (s : State) : Out :=
  let k := s.core c
  if k.run = .seek && k.piece.isNone && k.held.isNone && k.part.isNone then .next (leaveWork s c)
  else if !s.idle c then .next s
  else match s.candidate c with
    | some x =>
      let s := match s.interactive c, x with
        | some (p, r, _, _), .step q _ => if r = q then s.modPart r.part fun _ => p else s
        | _, _ => s
      .next (s.give c x)
    | none =>
      match s.splitVictim c (decide (coreDie c = 1)) with
      | some v => .next (s.splitFor v c)
      | none =>
        let far := decide (coreDie c = 0)
        let steal := (match k.part with | some t => !(s.part t).place | none => false) && !s.steals.contains c &&
          ((s.splitVictim c far).isSome || s.pool.any fun r => r.die = far && (match s.readyOf r with
            | some (l, i) => s.mayRun c l && s.dieOk c l r.node && i.session.isNone && !(s.part l.part).place
            | none => false))
        if steal && !s.dieLost then .next { s with steals := s.steals.filter (· ≠ c) ++ [c] }
        else if k.run = .seek && !s.holdsCore c then .next (leaveWork s c)
        else .next s

/-- STEAL_ANSWER: the other die's Timetable gives its oldest ready node of case 4 that the core may run, or
splits its largest range, or refuses (R208). -/
def execStealAnswer (c : CoreId) (s : State) : Out :=
  if !s.steals.contains c || s.dieLost then .next s
  else
    let s := { s with steals := s.steals.filter (· ≠ c) }
    if !s.idle c then .next s
    else
      let far := decide (coreDie c = 0)
      let rs := s.pool.filter fun r => r.die = far && (match s.readyOf r with
        | some (l, i) => s.mayRun c l && s.dieOk c l r.node && i.session.isNone && !(s.part l.part).place
        | none => false)
      match pickMin (fun r => [r.at_, s.launchNumber r.launch, r.node]) rs with
      | some r => .next (s.takeNode c r)
      | none => match s.splitVictim c far with
        | some v => .next (s.splitFor v c)
        | none => .next s

/-- LAUNCH_ACCEPT (R217). -/
def execLaunchAccept (s : State) : Out :=
  .next s.acceptLaunch

/-- SESSION_READY: a session of a live launch whose input queue holds a packet and that runs no step becomes
ready (R209 to R211). A class-0 session is pinned first, or refused with 356. -/
def execSessionReady (t : PartId) (sid : BitVec 24) (s : State) : Out :=
  match s.sessionLaunch t sid with
  | none => .next s
  | some li =>
    let closed := ((s.launches[li]?).map fun l => l.closed).getD true
    if closed || s.steps.contains (t, sid) || s.readySessions.any (fun r => r.part = t && r.sid = sid) ||
        s.saved.any (fun v => match v.image.piece with | some q => q.launch = li && q.session.map (·.1) = some sid | none => false) then .next s
    else match s.session t sid with
      | none => .next (s.refuseSession t sid 355)
      | some x =>
        let holds := match (s.peek t x.inq 64).bind fun bs => parseHeader (leNat bs) with
          | some h => decide (h.ri < h.ci)
          | none => false
        let s := (s.draw t .load (s.sessionAddr t sid) 64).draw t .load x.inq 64
        if x.st ≥ 5 || x.st = 0 || !holds then .next s
        else
          let pinned := s.pins.contains (⟨x.rtcore % 256, Nat.mod_lt _ (by decide)⟩, t, sid)
          let full := s.pins.length ≥ 64 || s.pins.any (fun p => p.1.val = x.rtcore)
          if x.cls = 0 && !pinned && full then .next (s.refuseSession t sid 356)
          else
            let s := if x.cls = 0 && !pinned then { s with pins := s.pins ++ [(⟨x.rtcore % 256, Nat.mod_lt _ (by decide)⟩, t, sid)] } else s
            let s := (s.setSessionState t sid 2).poke t (s.sessionAddr t sid + 0x38) (leBytes 8 s.us)
            .next { s with readySessions := s.readySessions ++ [⟨t, sid, s.us, false⟩] }

/-- BATCH_PROMOTION: a batch session that has been ready for 10 ms is served as interactive (R213). -/
def execBatchPromotion (t : PartId) (sid : BitVec 24) (s : State) : Out :=
  let batch := match s.session t sid with | some x => x.cls = 2 | none => false
  .next { s with readySessions := s.readySessions.map fun r =>
    if r.part = t && r.sid = sid && batch && r.at_ + 10000 ≤ s.us then { r with promoted := true } else r }

/-- TIME_SLICE_END: at the end of its slice a step is pre-empted if cases 1 to 4 have a candidate and a save
area is free; otherwise it goes on (R212, R412). -/
def execTimeSliceEnd (c : CoreId) (s : State) : Out :=
  match (s.core c).piece, (s.core c).part with
  | some q, some t =>
    let free := (s.saved.filter fun v => v.image.part = some t).length < q.ctxn
    let slice := match q.session.bind fun z => s.session t z.1 with
      | some x => if x.slice < State.restoreTime x.size then State.restoreTime x.size + 1 else x.slice
      | none => 0
    if q.session.isNone || s.us < (s.core c).sliceAt + slice then .next s
    else if s.hasCandidate c && free then .next (s.modCore c fun k => { k with preempt := true })
    else .next (s.modCore c fun k => { k with sliceAt := s.us })
  | _, _ => .next s

/-- PREEMPT_REQUEST: a ready real-time session displaces other work on its core (R211, R234). -/
def execPreemptRequest (c : CoreId) (s : State) : Out :=
  match (s.core c).piece with
  | some q =>
    if !q.rt && ((s.readyFor c).any fun r => r.2.2.cls = 0) then .next (s.modCore c fun k => { k with preempt := true })
    else .next s
  | none => .next s

/-- LAUNCH_PACKET_TAKE: the Timetable claims and frees a packet of the partition's launch queue and queues the
launch it names (R345, R435), whose pieces are ordered after what the commit released (R425). A packet that fails counts
in PKTFAIL, and one that fails with a cause of the link group is a link event (R443) (log 52: DEDUCED). -/
def execLaunchPacketTake (t : PartId) (s : State) : Out :=
  let va := (s.part t).lqaddr
  if va = 0 then .next s
  else match s.queueStep t va true false 0 with
    | none => .next s
    | some (slot, know, u) =>
      if slot = 0 then .next s
      else match s.slotBytes t slot with
        | .error none => .next s
        | found =>
          let ver := ((s.peek t va 64).map State.queueVersion).getD 0
          let s := (u.draw t .load slot 64).endSlot ⟨t, va, slot, true⟩
          let failed (s : State) : State := s.modPart t fun p => { p with pktfail := p.pktfail + 1 }
          match found with
          | .error cause => .next (failed (s.packetEvent (cause.getD 0)))
          | .ok pk =>
            let sid : BitVec 24 := BitVec.ofNat 24 (leNat ((pk.drop 4).take 3))
            match State.packetFault ver sid (s.peerWrote t slot) pk with
            | some cause => .next (failed (s.packetEvent cause))
            | none =>
              let desc := BitVec.ofNat 64 (leNat ((pk.drop (if ver = 1 then 8 else 16)).take 8))
              match (if pk.getD 1 0 ≠ 1 || desc.toNat % 64 ≠ 0 then none else s.peek t desc 64) with
              | some ds => .next ((s.draw t .load desc 64).queueLaunch t ds know).2
              | none => .next (failed s)

end Sys2Proof.Machine
end

