-- ==== Sys2Proof/Machine/FlagsQueues.lean ====
section
/-! DEFINITION. Flags and neighbour queues: FWAIT, FSIG, FRD, FSET, FWIN, QPUSH, QPOP and the events that
complete their waits (R17, R83, R112 to R126, R342 to R344, R351). -/

namespace Sys2Proof.Machine

/-! ## Flags -/

/-- The core whose flag an instruction names: its own, or on a system core the one in imm16[7:0] (R344, R351). -/
def flagCore (s : State) (f : Ls) : CoreId :=
  match s.cur with
  | .compute c => c
  | .system _ => ⟨(fld f.imm 0 8).toNat, (fld f.imm 0 8).isLt⟩

/-- FWAIT: waits until the flag holds the amount and consumes it; on a system core it completes at once (R115,
R117, R344, R351). -/
def execFwait (f : Ls) (s : State) : Out :=
  match s.cur with
  | .system _ => .next s
  | .compute c =>
    let t := s.amount f
    if t = 0 then .next s
    else if s.waitReady c f.flag t then .next (s.takeFlag c f.flag t .cp)
    else .next ((s.modCore c fun k => { k with waits := k.waits ++ [⟨f.flag, t, .cp⟩] }).block (.fwait f) .other)

/-- The target of FSIG: none where it lies outside the partition's rectangle (R344). -/
def signalTarget (s : State) (f : Ls) : Option CoreId :=
  let c : CoreId := ⟨(fld f.imm 0 8).toNat, (fld f.imm 0 8).isLt⟩
  match s.cur with
  | .system _ => some c
  | .compute own =>
    if !f.imm.getLsbD 8 then some own
    else match (s.core own).part with
      | some t => if rectHas (s.part t).rect c then some c else none
      | none => none

/-- FSIG: a release event, then an addition to a flag; one to another core travels (R114, R344). -/
def execFsig (f : Ls) (s : State) : Out :=
  runInstr (.fsig f) (do
    let s ← get
    match signalTarget s f with
    | none => raise 75
    | some c =>
      let a := s.agent
      let know := s.passes a
      releaseEvent
      let n := s.amount f
      modify fun s =>
        if s.cur = .compute c then s.addFlag c f.flag ⟨a, n, know⟩ else s.sendSignal c ⟨f.flag, n, a, know⟩) s

/-- The overflow report of a flag (R344). -/
def overflowReport (f : Flag) : W64 :=
  match f.overflow with
  | some a => BitVec.ofNat 64 (2 ^ 63 + a.toNat)
  | none => 0

/-- FRD: value, W, RES, or the overflow report, which the read clears (R344). A system core reads the value
(R351) (log 20: DEDUCED). -/
def execFrd (f : Ls) (s : State) : Out :=
  let c := flagCore s f
  let v := (s.core c).flag f.flag
  let sel := if s.onSystem then 0 else (fld f.imm 0 2).toNat
  .next (match sel with
    | 0 => s.setG f.d (v.value.setWidth 64)
    | 1 => s.setG f.d (v.window.setWidth 64)
    | 2 => s.setG f.d (v.res.setWidth 64)
    | _ => (s.modCore c fun k => k.setFlag f.flag { v with overflow := none }).setG f.d (overflowReport v))

/-- FSET (R118, R344). -/
def execFset (f : Ls) (s : State) : Out :=
  let n := BitVec.ofNat 32 (s.amount f)
  .next (s.modCore (flagCore s f) fun k => k.setFlag f.flag ((k.flag f.flag).fset n))

/-- FWIN (R118, R344). -/
def execFwin (f : Ls) (s : State) : Out :=
  let n := BitVec.ofNat 32 (s.amount f)
  .next (s.modCore (flagCore s f) fun k => k.setFlag f.flag ((k.flag f.flag).fwin n))

/-- The signals of core c that may arrive next: the oldest of each agent, whose additions arrive in its program
order (R114). -/
def arrivals : List Signal → List AgentId → List Signal
  | [], _ => []
  | g :: r, seen => if seen.contains g.agent then arrivals r seen else g :: arrivals r (g.agent :: seen)

/-- Put a signal among others in ascending agent identifier (R114). -/
def insertSignal (g : Signal) : List Signal → List Signal
  | [] => [g]
  | h :: r => if g.agent.toNat ≤ h.agent.toNat then g :: h :: r else h :: insertSignal g r

/-- The signals that arrive together with signal n, in ascending agent identifier: which, and how many, is free (R114). -/
def arriving (gs : List Signal) (n moment : Nat) : List Signal :=
  let rest := gs.eraseIdx n
  ((gs[n]?).toList ++ rest.take (Config.together moment % (rest.length + 1))).foldr insertSignal []

/-- FLAG_ADDITION: signals on their way to core c arrive and are added, before any wait is tested again; which agents'
come first is free; those that the die link holds do not (R114, R128). -/
def execFlagAddition (c : CoreId) (s : State) : Out :=
  let gs := (arrivals (s.core c).signals []).filter fun g => !s.linkHolds (agentDie g.agent) (some (decide (coreDie c = 1))) .signal
  let now := arriving gs (Config.arrival s.moment % gs.length) s.moment
  let s := if now.isEmpty then s else (s.modCore c fun k => { k with signals := now.foldl (·.erase ·) k.signals }).tick
  .next (now.foldl (fun s g => s.addFlag c g.flag ⟨g.agent, g.amount, g.know⟩) s)

/-- The first wait of core c on flag f that would succeed now (R115). -/
def readyWait (k : Core) (f : BitVec 8) : Option Wait :=
  k.waits.find? fun w => w.flag = f && w.threshold ≤ (k.flag f).value.toNat

/-- What a wait's success lets go on: the CP's instruction, a queue's head, a pattern program. -/
def wake (s : State) (c : CoreId) : Waiter → State
  | .cp => s.modCore c fun k => { k with x := { k.x with blocked := none } }
  | .queue q => s.modCore c fun k => k.setQueue q { k.queue q with granted := true }
  | .engine e => s.modCore c fun k => { k with
      engines := match k.engines[e.val] with
        | some p => k.engines.set e.val (some { p with waiting := false })
        | none => k.engines }

/-- FLAG_WAIT_SUCCESS: the oldest pending wait on the flag that its value satisfies takes its threshold, unless
the core is held (R115, R117, R232). -/
def execFlagWaitSuccess (c : CoreId) (f : BitVec 8) (s : State) : Out :=
  let k := s.core c
  match readyWait k f with
  | none => .next s
  | some w =>
    if k.held.isSome then .next s
    else .next (wake ((s.modCore c fun k => { k with waits := k.waits.erase w }).takeFlag c f w.threshold w.who) c w.who)

/-! ## Neighbour queues -/

/-- The die of a core. -/
def dieOf (c : CoreId) : Option Bool := some (decide (coreDie c = 1))

/-- Push v[a] into a neighbour queue with credit and room, where the die link does not hold it (R83, R126, R128). -/
def pushSlot (s : State) (c : CoreId) (up : Bool) (v : V512) : Option State :=
  let k := s.core c
  let t := ringTarget k c up
  let q := s.qDown t up
  let credit := if up then k.creditUp else k.creditDown
  if 0 < credit && q.slots.length < 8 && !s.linkHolds (dieOf c) (dieOf t) .push then
    let s := s.modCore c fun k => if up then { k with creditUp := k.creditUp - 1 } else { k with creditDown := k.creditDown - 1 }
    some (s.setQ t up { q with slots := q.slots ++ [v] })
  else none

/-- The pop of a slot gives a credit back to each core that pushes into the queue (R83). -/
def giveCredit (s : State) (t : CoreId) (up : Bool) : State :=
  (List.finRange 256).foldl (fun s c =>
    if ringTarget (s.core c) c up = t then
      s.modCore c fun k => if up then { k with creditUp := min 8 (k.creditUp + 1) } else { k with creditDown := min 8 (k.creditDown + 1) }
    else s) s

/-- Pop the oldest slot of the queue that core c consumes (R125). -/
def popSlot (s : State) (c : CoreId) (up : Bool) : Option (V512 × State) :=
  let q := s.qDown c up
  match q.slots with
  | [] => none
  | v :: r => some (v, giveCredit (s.setQ c up { slots := r, head := q.head + 1 }) c up)

/-- Does a push of the core meet the lost link? -/
def pushLost (s : State) (c : CoreId) (up : Bool) : Bool := s.linkLost (dieOf c) (dieOf (ringTarget (s.core c) c up))

/-- QPUSH: a release event, made once, then a push, which waits for credit (R342); one that meets the lost link fails with 371
(R437) (log 54: DEDUCED). -/
def execQpush (f : Lb) (s : State) : Out :=
  if pushLost s s.here (f.x.getLsbD 0) then .next (s.trap 371 0 none)
  else if !s.cpu.pushing && !s.acked s.agent then .next (s.block (.qpush f) .other)
  else
    let s := if s.cpu.pushing then s else s.release s.agent
    match pushSlot s s.here (f.x.getLsbD 0) (s.vreg (fld f.a 0 3)) with
    | some t => .next (t.modCpu fun x => { x with pushing := false })
    | none => .next ((s.modCpu fun x => { x with pushing := true }).block (.qpush f) .other)

/-- QPOP: the oldest slot into v[d] and lat, once there is one (R342); bad data is not delivered (R220). -/
def execQpop (f : Lb) (s : State) : Out :=
  runInstr (.qpop f) (do
    let s ← get
    match (s.qDown s.here (f.x.getLsbD 0)).bad with
    | some e => raise (flawCause s.agent e)
    | none => pure ()
    match popSlot s s.here (f.x.getLsbD 0) with
    | some (v, t) => set ((t.setVreg (fld f.d 0 3) v).setLat v)
    | none => throw (.wait .other)) s

/-- Go on with the waiting instruction of core c, where it is one that `m` gives a meaning. -/
def goOn (s : State) (c : CoreId) (m : Instr → Option (State → Out)) : Out :=
  match s.takeUp (.compute c) with
  | some (i, t) =>
    if !s.canGo (.compute c) then .next s
    else match m i with
      | some f => (match f t with
        | .next u => .next ({ u.advance (.compute c) with cur := s.cur, unit := s.unit })
        | o => o)
      | none => .next s
  | none => .next s

/-- NEIGHBOUR_PUSH_ACCEPT: a stalled push is accepted once it has credit (R126). -/
def execNeighbourPushAccept (c : CoreId) (s : State) : Out :=
  goOn s c fun i => match i with
    | .qpush f => some (execQpush f)
    | _ => none

/-- NEIGHBOUR_POP_COMPLETE: a waiting pop takes a slot that has arrived (R125). -/
def execNeighbourPopComplete (c : CoreId) (s : State) : Out :=
  goOn s c fun i => match i with
    | .qpop f => some (execQpop f)
    | _ => none

end Sys2Proof.Machine
end

