-- ==== Sys2Proof/Machine/Tasks.lean ====
section
/-! DEFINITION. Tasks and barriers: SPAWN, WORK, DONE, GBAR and YIELD (R199, R301, R345 to R348, R351). -/

namespace Sys2Proof.Machine

/-- Is an engine queue without a command? -/
def Queue.idle (q : Queue) : Bool := q.flights.isEmpty && q.waiting.isEmpty

/-- SPAWN: a release at system scope, the read of the descriptor, and the launch in its queue; g[d] takes the
launch number (R345). A system core names the partition in x[4:0]. -/
def execSpawn (f : La) (s : State) : Out :=
  runInstr (.spawn f) (do
    let s ← get
    let va := s.g f.a + imm64 f
    if va.toNat % 64 ≠ 0 then raise 44
    let a := s.agent
    let know := s.passes a
    releaseEvent
    modify fun s => noteFence s a 4 know
    let bs ← loadBytes s.who .load {} va 64
    let part : Option PartId := match s.cur with
      | .compute c => (s.core c).part
      | .system _ => some ⟨(fld f.x 0 5).toNat, (fld f.x 0 5).isLt⟩
    match part with
    | some t =>
      let (n, s) := (← get).queueLaunch t bs know
      set (s.setG f.d (n.setWidth 64))
    | none => throw (.trap (accessCause .load 0) va none)) s

/-- The five steps of DONE in a running piece (R199), after which the core seeks work (log 67: DEDUCED). -/
def finishPiece (c : CoreId) : M Unit := do
  let s ← get
  waitUnless (allQueues.all fun q => ((s.core c).queue q).idle)
  match (s.core c).piece with
  | none => pure ()
  | some q =>
    storeOperands (s.whoCore c 0) c q.opnds
    modify fun s => (drainFbc s (unitAgent c 0)).commitVersion c
    releaseEvent
    modify fun s => s.pieceDone c

/-- DONE: completes the running piece, then seeks work; outside a piece, and on a system core, nothing (R199,
R346, R351). -/
def execDone (f : Lb) (s : State) : Out :=
  match s.cur with
  | .system _ => .next s
  | .compute c => if (s.core c).piece.isSome then runInstr (.done f) (finishPiece c) s else .next s

/-- WORK: in a running piece as DONE; outside one the core seeks work (R203, R346). -/
def execWork (f : Lb) (s : State) : Out :=
  match s.cur with
  | .system _ => .next s
  | .compute c =>
    if (s.core c).piece.isSome then runInstr (.work f) (finishPiece c) s
    else .next (s.modCore c fun k => { k with run := .seek, workAt := some k.x.npc })

/-- YIELD: a release event; a piece with a candidate of cases 1 to 4 on its core is pre-empted (R301, R304). -/
def execYield (f : Lb) (s : State) : Out :=
  runInstr (.yield f) (do
    releaseEvent
    modify fun s => match s.cur with
      | .compute c =>
        let s := s.modCore c fun k => { k with dog := s.us }
        if (s.core c).piece.isSome && s.hasCandidate c then s.modCore c fun k => { k with preempt := true } else s
      | .system _ => s) s

/-- The group of a GBAR at core c: the aligned rectangle of the named size that holds c, no larger than the
launch rectangle (R191, R348). -/
def barrierGroup (f : La) (lrect : BitVec 16) (c : CoreId) : BitVec 16 :=
  if f.x.getLsbD 0 then lrect
  else
    let lw := min (fld f.imm 0 3).toNat (fld lrect 8 3).toNat
    let lh := min (fld f.imm 4 3).toNat (fld lrect 12 3).toNat
    BitVec.ofNat 16 (coreX c / 2 ^ lw * 2 ^ lw + coreY c / 2 ^ lh * 2 ^ lh * 16 + lw * 256 + lh * 4096)

/-- A piece of core c as a member of a barrier. -/
def Piece.member (q : Piece) (c : CoreId) : Member := ⟨c, q.inst, q.node, q.number⟩

/-- A member arrives at the barriers of a launch and group that are not complete: at the first at which its core has not
arrived, so that the k-th arrivals of all cores meet; a piece that has arrived and waits only waits on (R348). -/
def arriveAt (launch : Nat) (group : BitVec 16) (m : Member) (know : Known) : List Barrier → List Barrier
  | [] => [⟨launch, group, [m], know⟩]
  | b :: r =>
    if b.launch = launch && b.group = group then
      if b.arrived.contains m then { b with know := knownJoin b.know know } :: r
      else if b.arrived.any fun x => x.core = m.core then b :: arriveAt launch group m know r
      else { b with arrived := b.arrived ++ [m], know := knownJoin b.know know } :: r
    else b :: arriveAt launch group m know r

/-- GBAR: a release event and an arrival; the core then waits for every member. Outside a piece it is a release event
alone, and on a system core nothing (R97, R348, R351). -/
def execGbar (f : La) (s : State) : Out :=
  match s.cur with
  | .system _ => .next s
  | .compute c =>
    match (s.core c).piece with
    | none => runInstr (.gbar f) releaseEvent s
    | some q =>
      runInstr (.gbar f) (do
        let s ← get
        let know := s.passes s.agent
        releaseEvent
        let g := barrierGroup f (s.core c).lrect c
        modify fun s =>
          { s with barriers := arriveAt q.launch g (q.member c) know s.barriers }.block (.gbar f) .other) s

/-- Is an instruction a GBAR? -/
def isGbar : Option (Instr × W64) → Bool
  | some (.gbar _, _) => true
  | _ => false

/-- Does a core, or the image of one, wait in its GBAR with the piece that has arrived at the barrier as a member? -/
def waitsAt (b : Barrier) (m : Member) (k : Core) : Bool :=
  isGbar k.x.blocked && (match k.piece with
    | some q => q.launch = b.launch && q.member m.core = m
    | none => false)

/-- GBAR_COMPLETE: the last member of core c's barrier has arrived and every member departs, a saved one when
it resumes (R348, R91). -/
def execGbarComplete (c : CoreId) (s : State) : Out :=
  match s.barriers.find? fun b => b.arrived.any (fun m => m.core = c) && b.arrived.length = rectW b.group * rectH b.group with
  | none => .next s
  | some b =>
    let s := { s with barriers := s.barriers.erase b }
    let s := b.arrived.foldl (fun s m =>
      if waitsAt b m (s.core m.core) then
        (s.modCore m.core fun k => { k with x := { k.x with blocked := none } }).learn (unitAgent m.core 0) b.know
      else s) s
    let departs (v : SavedContext) : Bool := b.arrived.any fun m => m.core = v.core && waitsAt b m v.image
    let s := (s.saved.filter departs).foldl (fun s v => s.learn (unitAgent v.core 0) b.know) s
    let freed (v : SavedContext) : SavedContext :=
      if departs v then { v with image := { v.image with x := { v.image.x with blocked := none } } } else v
    .next { s with saved := s.saved.map freed }

end Sys2Proof.Machine
end

