-- ==== Sys2Proof/Machine/Special.lean ====
section
/-! DEFINITION. Special registers under their field access, features, location, cycles and tile power: RDSR,
WRSR, FEATQ, LOCQ, CYCLE and REGPWR (R53, R123, R157, R158, R164, R165, R181, R193, R232, R240, R242, R349 to
R351, R359, R364, R406, R416, R417, R440). -/

namespace Sys2Proof.Machine

/-! ## Counters of time (R232, R417) -/

/-- Read the cycle counter of the current processor: a free number of cycles has passed since it was last read
(log 7: DESIGN CHOICE). -/
def readCycle (s : State) : W64 × State :=
  let v := s.cpu.cycle + Config.cyclesPassed s.moment
  (v, (s.modCpu fun x => { x with cycle := v }).tick)

/-- Telemetry register i of core c: 0 counts words, 3 misses, 6 corrections as they come, 8 tide bytes, 9 accesses to the
other die (log 79: DESIGN CHOICE), 7 the deadline misses of the tenant; the others, of
cycles, gain a free count before they are read (R417, log 7: DESIGN CHOICE). -/
def readTelemetry (s : State) (c : CoreId) (i : Fin 10) : W64 × State :=
  let s := takeEvents s c
  let k := s.core c
  if i = 7 then
    (match k.piece, k.part with
     | some q, some t => if q.session.isSome then tget 0 (s.part t).rtmiss (fld k.session 26 5).toNat else k.telemetry[7]
     | _, _ => k.telemetry[7], s)
  else if i = 0 || i = 3 || i = 6 || i = 8 || i = 9 then (k.telemetry[i.val], s)
  else
    let v := k.telemetry[i.val] + Config.telemetry i.val s.moment
    (v, (s.setCore c { k with telemetry := k.telemetry.set i.val v }).tick)

def writeTelemetry (s : State) (c : CoreId) (i : Fin 10) (v : W64) : State :=
  let s := takeEvents s c
  let k := s.core c
  match (if i = 7 then k.piece else none), k.part with
  | some q, some t =>
    if q.session.isSome then s.modPart t fun p => { p with rtmiss := tput 0 p.rtmiss (fld k.session 26 5).toNat v }
    else s.setCore c { k with telemetry := k.telemetry.set i.val v }
  | _, _ => s.setCore c { k with telemetry := k.telemetry.set i.val v }

/-! ## Words of registers -/

/-- PART (R193). -/
def partWord (s : State) (c : CoreId) : W64 :=
  let k := s.core c
  match k.part with
  | some t => BitVec.ofNat 64 ((if (s.part t).place then 2 ^ 37 else 0) + t.val * 2 ^ 32 + k.lrect.toNat * 2 ^ 16 + (s.part t).rect.toNat)
  | none => 0

/-- Does a command need the lease (R374)? -/
def needsLease : Instr → Bool
  | .mxLease _ => true
  | .mxMma _ => true
  | .mxDrain _ => true
  | .mxZero _ => true
  | _ => false

/-- Does core c hold its array's lease? -/
def holdsLease (s : State) (c : CoreId) : Bool := s.arrays[(coreCluster c).val].holder = some (coreMember c)

/-- Is a lease request of core c pending (R374, R375)? -/
def wantsLease (s : State) (c : CoreId) : Bool :=
  let k := s.core c
  let q := k.queue .matrix
  k.intent && !holdsLease s c &&
  (match q.flights, q.waiting with
   | f :: _, _ => needsLease f.cmd.instr && !f.finished
   | [], d :: _ => needsLease d.instr && (scaled d.f.waitCount = 0 || q.granted)
   | [], [] => false)

/-- MXSTAT (R193). The cycles left are free up to the limit (log 7: DESIGN CHOICE). -/
def mxstatWord (s : State) (c : CoreId) : W64 :=
  let a := s.arrays[(coreCluster c).val]
  let held := holdsLease s c
  BitVec.ofNat 64 (
    (if held then (Config.leaseCycles s.moment).toNat % 20001 * 2 ^ 8 + (16 - a.cmds) * 8 else 0) +
    (if wantsLease s c then 4 else 0) + (if a.narrow then 2 else 0) + (if held then 1 else 0))

/-- QSTAT (R359). -/
def qstatWord (v : QStat) : W64 := v.failed ++ (0 : BitVec 2) ++ v.arith ++ v.cause ++ v.pos ++ v.item

/-- The region that CODECSEL shows, where it is assigned to the core's own space (R157). -/
def ownRegion (s : State) (c : CoreId) : Option (Fin 64) :=
  let k := s.core c
  let r : Fin 64 := ⟨k.codecsel.toNat, k.codecsel.isLt⟩
  match k.part with
  | some t => if s.regions[r.val].space = some (BitVec.ofNat 6 t.val) then some r else none
  | none => none

/-- The regulator that BWSEL selects (R440). -/
def regulatorKey (s : State) : Nat := (fld s.bwsel 8 6).toNat * 32 + (fld s.bwsel 0 5).toNat

/-- BWCFG (R440). -/
def bwcfgWord (r : Regulator) : W64 :=
  BitVec.ofNat 64 ((if r.en then 2 ^ 63 else 0) + (if r.hard then 2 ^ 62 else 0) + min 65535 (r.used / 64) * 2 ^ 32 + r.next.toNat)

/-- CODECCFG (R158). -/
def codecCfgWord (r : Region) : W64 :=
  match r.space with
  | some n => BitVec.ofNat 64 (64 + n.toNat)
  | none => r.spaceBits.setWidth 64

/-! ## Reads -/

/-- Read a user register of core c (R349). -/
def readUser (s : State) (c : CoreId) (n : Nat) : W64 × State :=
  let k := s.core c
  if n = 0x000 then (BitVec.ofNat 64 ((coreMember c).val * 2 ^ 14 + (coreCluster c).val * 2 ^ 8 + c.val), s)
  else if n = 0x001 then (partWord s c, s)
  else if n = 0x002 then (k.taskId, s)
  else if n = 0x003 then (k.rangeLo, s)
  else if n = 0x004 then (k.rangeHi, s)
  else if n = 0x005 then (k.session.setWidth 64, s)
  else if n = 0x006 then (k.feat.setWidth 64, s)
  else if n = 0x008 then readCycle s
  else if n = 0x010 then (k.fade, s)
  else if n = 0x011 then (k.x.rmode.setWidth 64, s)
  else if n = 0x012 then (k.x.fpstat.setWidth 64, s)
  else if n = 0x018 then (mxstatWord s c, s.tick)
  else if n = 0x020 then (k.faultpc ++ (0 : BitVec 3), s)
  else if 0x030 ≤ n && n < 0x038 then (k.bankloss[(n - 0x030) % 8].setWidth 64, s)
  else if n = 0x040 then (bellWord k, s)
  else if 0x100 ≤ n && n < 0x140 then
    let q := tget SwitchQueue.empty k.switch ((n - 0x100) / 2)
    ((if n % 2 = 0 then q.srcFmt else q.snkFmt).setWidth 64, s)
  else if h : 0x200 ≤ n ∧ n < 0x20A then readTelemetry s c ⟨n - 0x200, by omega⟩
  else if 0x2E0 ≤ n && n < 0x2E6 then (qstatWord (k.queues[(n - 0x2E0) % 6].stat), s)
  else if n = 0x2F0 then (k.codecsel.setWidth 64, s)
  else match ownRegion s c with
    | some r =>
      if n = 0x2F1 then (s.regions[r.val].enc, s)
      else if n = 0x2F2 then (s.regions[r.val].lossy, s)
      else if n = 0x2F3 then (s.regions[r.val].maxerr, s)
      else (0, s)
    | none => (0, s)

/-- Read a register on system core k (R351, R406). -/
def readSystem (s : State) (k : SysId) (n : Nat) : W64 × State :=
  let y := s.sysCore k
  if n = 0x008 then readCycle s
  else if n = 0x011 then (y.x.rmode.setWidth 64, s)
  else if n = 0x012 then (y.x.fpstat.setWidth 64, s)
  else if n = 0x800 then (y.svec ++ (0 : BitVec 3), s)
  else if n = 0x801 then (y.sepc ++ (0 : BitVec 3), s)
  else if n = 0x802 then (BitVec.ofNat 64 ((if y.scause.getLsbD 9 then 2 ^ 63 else 0) + (fld y.scause 0 9).toNat), s)
  else if n = 0x803 then (BitVec.ofNat 64 ((if y.pie then 2 else 0) + (if y.ie then 1 else 0)), s)
  else if n = 0x804 then (y.sscratch, s)
  else if n = 0x805 then (y.sfaddr, s)
  else if 0x810 ≤ n && n < 0x814 then (fld y.ctpend (64 * (n - 0x810)) 64, s)
  else if n = 0x820 then (BitVec.ofNat 64 k.val, s)
  else if n = 0xA00 then (s.forecast[0].setWidth 64, s)
  else if n = 0xA01 then (s.forecast[1].setWidth 64, s)
  else if n = 0xB00 then (s.bwsel.setWidth 64, s)
  else if n = 0xB01 then (bwcfgWord (s.regulator (regulatorKey s)), s)
  else if 0xC00 ≤ n && n < 0xC40 then (codecCfgWord s.regions[(n - 0xC00) % 64], s)
  else if 0xC40 ≤ n && n < 0xD00 then
    let r := s.regions[(n - 0xC40) / 3 % 64]
    (match (n - 0xC40) % 3 with | 0 => r.enc | 1 => r.lossy | _ => r.maxerr, s)
  else (0, s)

/-- Read a special register of the current processor. -/
def readSpecial (s : State) (num : BitVec 12) : W64 × State :=
  match s.cur with
  | .compute c => readUser s c num.toNat
  | .system k => readSystem s k num.toNat

/-! ## Writes -/

/-- Set a counter of region r: 0 ENC, 1 LOSSY, 2 MAXERR (R157, R428). -/
def setRegion (s : State) (r : Fin 64) (i : Nat) (v : W64) : State :=
  let x := s.regions[r.val]
  let x := match i with
    | 0 => { x with enc := v }
    | 1 => { x with lossy := v }
    | _ => { x with maxerr := v }
  { s with regions := s.regions.set r.val x }

/-- Write a QSTAT (R359). -/
def writeQstat (v : QStat) (w : W64) : QStat := { v with failed := fld w 48 16, arith := v.arith &&& ~~~(fld w 41 5) }

/-- Write a switch format register: a byte at fault is ignored whole (R364). -/
def writeFormat (k : Core) (q : Nat) (sink : Bool) (b : BitVec 8) : Core :=
  if formatByteFault b sink then k
  else
    let v := tget SwitchQueue.empty k.switch q
    { k with switch := tput SwitchQueue.empty k.switch q (if sink then { v with snkFmt := b } else { v with srcFmt := b }) }

/-- Write a user register of core c; read-only fields keep their values (R4, R349). -/
def writeUser (s : State) (c : CoreId) (n : Nat) (v : W64) : State :=
  if n = 0x003 then s.modCore c fun k => { k with rangeLo := v }
  else if n = 0x010 then s.modCore c fun k => { k with fade := v &&& fadeMask }
  else if n = 0x011 then s.modCore c fun k => { k with x := { k.x with rmode := fld v 0 2 } }
  else if n = 0x012 then s.modCore c fun k => { k with x := { k.x with fpstat := k.x.fpstat &&& ~~~(fld v 0 6) } }
  else if n = 0x020 then s.modCore c fun k => { k with faultpc := fld v 3 61 }
  else if 0x030 ≤ n && n < 0x038 then s.modCore c fun k => { k with
    bankloss := k.bankloss.set ((n - 0x030) % 8) (fld v 0 32) (Nat.mod_lt _ (by decide)) }
  else if 0x100 ≤ n && n < 0x140 then s.modCore c fun k => writeFormat k ((n - 0x100) / 2) (n % 2 = 1) (fld v 0 8)
  else if h : 0x200 ≤ n ∧ n < 0x20A then writeTelemetry s c ⟨n - 0x200, by omega⟩ v
  else if 0x2E0 ≤ n && n < 0x2E6 then s.modCore c fun k =>
    let q := k.queues[(n - 0x2E0) % 6]
    { k with queues := k.queues.set ((n - 0x2E0) % 6) { q with stat := writeQstat q.stat v } (Nat.mod_lt _ (by decide)) }
  else if n = 0x2F0 then s.modCore c fun k => { k with codecsel := fld v 0 6 }
  else match ownRegion s c with
    | some r =>
      if n = 0x2F1 then setRegion s r 0 v
      else if n = 0x2F2 then setRegion s r 1 v
      else if n = 0x2F3 then setRegion s r 2 v
      else s
    | none => s

/-- Configure a codec region (R158). -/
def writeCodecCfg (s : State) (r : Fin 64) (v : W64) : State :=
  let n := fld v 0 6
  if v.getLsbD 6 then
    (if n.toNat > 32 then s else { s with regions := s.regions.set r.val ⟨some n, n, 0, 0, 0⟩ })
  else { s with regions := s.regions.set r.val { s.regions[r.val] with space := none, spaceBits := n } }

/-- Write a register on system core k (R406, R440, R158). -/
def writeSystem (s : State) (k : SysId) (n : Nat) (v : W64) : State :=
  if n = 0x011 then s.modSys k fun y => { y with x := { y.x with rmode := fld v 0 2 } }
  else if n = 0x012 then s.modSys k fun y => { y with x := { y.x with fpstat := y.x.fpstat &&& ~~~(fld v 0 6) } }
  else if n = 0x800 then s.modSys k fun y => { y with svec := fld v 3 61 }
  else if n = 0x801 then s.modSys k fun y => { y with sepc := fld v 3 61 }
  else if n = 0x802 then s.modSys k fun y => { y with scause := fld v 63 1 ++ fld v 0 9 }
  else if n = 0x803 then s.modSys k fun y => { y with pie := v.getLsbD 1, ie := v.getLsbD 0 }
  else if n = 0x804 then s.modSys k fun y => { y with sscratch := v }
  else if n = 0x805 then s.modSys k fun y => { y with sfaddr := v }
  else if n = 0xB00 then (if (fld v 8 6).toNat ≥ 48 then s else { s with bwsel := fld v 8 6 ++ (0 : BitVec 3) ++ fld v 0 5 })
  else if n = 0xB01 then
    let r := s.regulator (regulatorKey s)
    -- a regulator that is switched off admits what it holds
    (s.setRegulator (regulatorKey s) { r with en := v.getLsbD 63, hard := v.getLsbD 62, next := fld v 0 16 }).admitDue
  else if 0xC00 ≤ n && n < 0xC40 then writeCodecCfg s ⟨(n - 0xC00) % 64, Nat.mod_lt _ (by decide)⟩ v
  else if 0xC40 ≤ n && n < 0xD00 then setRegion s ⟨(n - 0xC40) / 3 % 64, Nat.mod_lt _ (by decide)⟩ ((n - 0xC40) % 3) v
  else s

/-- Write a special register of the current processor. -/
def writeSpecial (s : State) (num : BitVec 12) (v : W64) : State :=
  match s.cur with
  | .compute c => writeUser s c num.toNat v
  | .system k => writeSystem s k num.toNat v

/-! ## Instructions -/

/-- RDSR (R349). -/
def execRdsr (f : La) (s : State) : Out :=
  let (v, s) := readSpecial s (fld f.imm 0 12)
  .next (s.setG f.d v)

/-- WRSR (R349). -/
def execWrsr (f : La) (s : State) : Out :=
  .next (writeSpecial s (fld f.imm 0 12) (s.g f.a))

/-- FEATQ: FEAT and the partition's required mask (R350). -/
def execFeatq (f : Lb) (s : State) : Out :=
  let k := s.thisCore
  let req : BitVec 6 := match k.part with
    | some t => (s.part t).reqfeat
    | none => 0
  .next (s.setG f.d (BitVec.ofNat 64 (req.toNat * 256 + k.feat.toNat)))

/-- LOCQ (R53, R54). -/
def execLocq (f : La) (s : State) : Out :=
  runInstr (.locq f) (do
    let va := s.g f.a + imm64 f
    walkGate s.who .load va 1
    let t ← get
    let (v, t) := locate t t.who va
    set (t.setG f.d v)) s

/-- CYCLE (R350, R351). -/
def execCycle (f : Lb) (s : State) : Out :=
  let (v, s) := readCycle s
  .next (s.setG f.d v)

/-- Put tile bank b of core c into a state: a bank that is gated, or comes back from that, is zero and empty
(R242, R350) (log 23: DEDUCED). -/
def setBankPower (s : State) (c : CoreId) (b : Nat) (v : BitVec 2) : State :=
  (if v = 2 then (s.setTilePower c b 2).bankOn c b else s.bankOn c b).setTilePower c b v

/-- REGPWR: each named bank takes its state; on a system core nothing (R350, R351). -/
def execRegpwr (f : La) (s : State) : Out :=
  match s.cur with
  | .system _ => .next s
  | .compute c =>
    .next ((List.range 8).foldl (fun s b => if f.imm.getLsbD (16 + b) then setBankPower s c b (fld f.imm (2 * b) 2) else s) s)

end Sys2Proof.Machine
end

