-- ==== Sys2Proof/Machine/EngineQueue.lean ====
section
/-! DEFINITION. Engine queues: how a command is enqueued, its flights, what an engine's failure does, pieces
written by engines, and the cells of the completion combiner (R66, R99, R116, R121, R124, R151, R194, R220,
R353 to R359). -/

namespace Sys2Proof.Machine

/-! ## Enqueueing (R194, R354, R386) -/

/-- The values of the register fields [4:0], [9:5], [14:10] and [19:15] of word 1 (R354). -/
def fieldValues (s : State) (f : Ecmd) : List W64 :=
  [s.g (fld f.w1 0 5), s.g (fld f.w1 5 5), s.g (fld f.w1 10 5), s.g (fld f.w1 15 5)]

/-- Value n of a command. -/
def Cmd.op (d : Cmd) (n : Nat) : W64 := d.ops.getD n 0

/-- Does the queue take no further command now: it is full, or it holds a NOTE that has not been reached and
the command is another (R194, R386)? -/
def queueRefuses (v : Queue) (i : Instr) : Bool :=
  v.flights.length + v.waiting.length ≥ 32 || (isNote i && v.holdsNote)

/-- Put a command into queue q of core c. The stamp parts the CP's stores before it from those after it (R124). -/
def putCommand (s : State) (c : CoreId) (q : QueueId) (i : Instr) (f : Ecmd) : State :=
  let v := (s.core c).queue q
  let d : Cmd := ⟨i, f, fieldValues s f, v.nextPos, s.stamp + 1, false, s.cpu.guard⟩
  { s.modCore c fun k => k.setQueue q { v with waiting := v.waiting ++ [d], nextPos := v.nextPos + 1 } with
    stamp := s.stamp + 1 }

/-- An engine command issues: it enters its queue, or stalls the CP stream (R194, R356). A system core has no
engines (R351). -/
def enqueue (i : Instr) (f : Ecmd) (q : QueueId) (s : State) : Out :=
  match s.cur with
  | .system _ => .next s
  | .compute c => if queueRefuses ((s.core c).queue q) i then .next (s.block i .other) else .next (putCommand s c q i f)

/-! ## Flights -/

namespace State

/-- The command in flight at a queue position. -/
def flight? (s : State) (c : CoreId) (q : QueueId) (pos : Nat) : Option Flight :=
  ((s.core c).queue q).flights.find? fun f => f.cmd.pos = pos

def modFlight (s : State) (c : CoreId) (q : QueueId) (pos : Nat) (u : Flight → Flight) : State :=
  s.modCore c fun k =>
    let v := k.queue q
    k.setQueue q { v with flights := v.flights.map fun f => if f.cmd.pos = pos then u f else f }

/-- A command's last item has ended. -/
def finish (s : State) (c : CoreId) (q : QueueId) (pos : Nat) : State :=
  s.modFlight c q pos fun f => { f with finished := true }

/-- Report a failed item of a command and end the command. -/
def failCommand (s : State) (c : CoreId) (q : QueueId) (pos cause item : Nat) : State :=
  (s.report c q pos cause item).finish c q pos

/-- Do core c's engines go on: it is not held, and no pre-emption holds them at their points (R221, R234)? -/
def engineGoes (s : State) (c : CoreId) : Bool := (s.core c).held.isNone && !(s.core c).preempt

/-- The agent of the unit behind a queue (R21). -/
def queueAgent (c : CoreId) (q : QueueId) : AgentId := unitAgent c (queueUnit q)

def queueWho (s : State) (c : CoreId) (q : QueueId) : Who := s.whoCore c (queueUnit q)

/-- An engine's failure freezes its core (R220). -/
def freeze (s : State) (c : CoreId) (q : QueueId) (pos cause : Nat) (addr : W64) (detail : Option W64) : State :=
  s.stopCore c .freeze cause addr (detail.getD (detailWord (queueAgent c q) (queueIndex q).val pos))

end State

/-- A translation and access fault other than "format not allowed" (R43, R220). -/
def accessFault (cause : Nat) : Bool := (64 ≤ cause && cause < 120 && cause % 8 ≠ 4) || (120 ≤ cause && cause < 128)

/-- Does a failure of a queue's item freeze the core: a version that overflows, and on the copy engine an access fault or
an uncorrectable error (R220, R229)? (log 47: DEDUCED) -/
def itemFreezes (q : QueueId) (cause : Nat) : Bool := cause = 323 || (q = .copy && (accessFault cause || cause = 229))

/-- Does a command in flight go on: its core's engines do, or it has still to write out what it has computed
before it reaches its pre-emption point (R234)? -/
def flightGoes (s : State) (c : CoreId) (fl : Flight) : Bool :=
  s.engineGoes c || ((s.core c).held.isNone && !fl.outb.isEmpty)

/-- The meaning of an engine command: issued by the CP it enters its queue; as a command in flight it does one
piece of its work. -/
def engineCommand (i : Instr) (f : Ecmd) (q : QueueId) (work : CoreId → Flight → State → State) (s : State) : Out :=
  match s.unit, s.cur with
  | .queue r pos, .compute c =>
    match s.flight? c q pos with
    | some fl => if r = q && !fl.finished && flightGoes s c fl then .next (work c fl s) else .next s
    | none => .next s
  | _, _ => enqueue i f q s

/-! ## Pieces (R66, R116, R151) -/

/-- The pieces of n bytes at va: cut at every 64-byte boundary (R116). -/
def piecesOf (va : W64) (n : Nat) : List (W64 × Nat) :=
  let o := va.toNat % 64
  if n = 0 then []
  else (List.range ((o + n + 63) / 64)).map fun i =>
    let lo := if i = 0 then 0 else 64 * i - o
    (va + BitVec.ofNat 64 lo, min (64 * (i + 1) - o) n - lo)

/-- A range cut at every 16-byte boundary. -/
def grains (va : W64) (n : Nat) : List (W64 × Nat) :=
  let o := va.toNat % 16
  if n = 0 then []
  else (List.range ((o + n + 15) / 16)).map fun i =>
    let lo := if i = 0 then 0 else 16 * i - o
    (va + BitVec.ofNat 64 lo, min (16 * (i + 1) - o) n - lo)

/-- What a piece's count is added to, where it counts (R116). -/
abbrev CountTo := Option Count

/-- Engine reason r of group 3 for a command of a queue: a TE.RUN works in a tide engine (R227). -/
def queueCause (q : QueueId) (i : Instr) (reason : Nat) : Nat :=
  match i with
  | .teRun _ => 240 + reason
  | _ => 192 + 8 * (queueIndex q).val + reason

/-- A block of a piece is held back by another item's image or another agent's store (R149, R151). -/
def pieceBusy (s : State) (ver : Option CoreId) (item enc : Nat) : Bool :=
  (s.fbcStores.any fun f => f.enc = enc && (f.owner = none || f.owner = ver)) ||
  (s.held.any fun h => h.enc = enc && h.item ≠ item && (h.owner = none || h.owner = ver))

/-- Merge a piece into the held image of its block, which the item's first piece starts; `due` marks the item's
last piece there (R151). -/
def mergeImage (s : State) (w : Who) (p : Part) (item tagItem : Nat) (ver : Option CoreId) (due : Bool) (count : CountTo)
    (bs : List Byte) : State :=
  match p.home with
  | .fbc b off =>
    let enc := encAddr p.leaf b off
    let old := (s.held.find? fun h => h.enc = enc && h.item = item && h.owner = ver).getD
      ⟨enc, p.leaf, p.page w, item, tagItem, s.versionBlockBytes ver p.leaf enc, false, [], ver⟩
    let h := { old with
      bytes := mergeNamed old.bytes (namedBytes off 0 bs), due := old.due || due,
      counts := old.counts ++ count.toList }
    { s with held := s.held.filter (fun (g : HeldImage) => !(g.enc = enc && g.item = item && g.owner = ver)) ++ [h] }
  | _ => s

/-- The bytes of the FBC block that a part lies in. -/
def blockRange (p : Part) : W64 × Nat :=
  match p.home with
  | .fbc _ off => (p.va - BitVec.ofNat 64 (off % 128), 128)
  | _ => (p.va, 0)

def rangesMeet (a b : W64 × Nat) : Bool := 0 < a.2 && 0 < b.2 && ((b.1 - a.1).toNat < a.2 || (a.1 - b.1).toNat < b.2)

/-- Write one piece of an item (at most 64 bytes inside a 64-byte unit): `later` are the item's bytes still to
come, and the count is added once the piece is performed (R116), or with the encode of its block (R151). -/
def pieceWrite (w : Who) (item tagItem : Nat) (later : List (W64 × Nat)) (count : CountTo) (va : W64) (bs : List Byte) :
    M Unit := do
  let acc : Access := { item := some tagItem, fills := true }
  let ps ← translateRows w .engWrite false [(va, bs.length)]
  let s ← get
  let busy := ps.any fun p => p.blocks.any (pieceBusy s (versionOf s w.agent acc p) item)
  waitUnless (!busy && !ps.any fun p => p.linkHeld s w.agent)
  let plain := ps.filter fun p => p.blocks.isEmpty
  checkParts w acc false true plain
  orStop ((ps.findSome? fun p => partRace s w.agent acc true p).map fun (c, a, d) => .trap c a (some d))
  orStop (capacityStop s w.agent acc ps)
  orStop (flawStop s w.agent acc true (ps.filter fun p =>
    !p.blocks.all fun e => s.held.any fun h => h.enc = e && h.item = item && h.owner = versionOf s w.agent acc p))
  if plain.length = ps.length then
    writeParts w acc ps (engineBytes w ps bs)
    modify fun s =>
      let s := fillParts s later ps
      match count with
      | some n => (addCount s n).releaseKeys tagItem (ps.flatMap fun p => p.granules.map (·.key))
      | none => s
  else
    useLines w acc true (ps.filter fun p => !p.blocks.isEmpty)
    modify fun s => ps.foldl (fun s p =>
      mergeImage (tagPart s w.agent acc p) w p item tagItem (versionOf s w.agent acc p)
        (!(later.any (rangesMeet (blockRange p)))) count bs) s

/-- A piece that is refused or fails still counts (R116). -/
def countRefused (s : State) (count : CountTo) : State :=
  match count with
  | some n => addCount s n
  | none => s

/-! ## Reads that may deliver nothing (R104) -/

/-- The bytes of a range, each none where its read failed with a cause other than a refusal under R104 or bad data, whose
bytes read as zero; and the causes, first to last. -/
structure ReadBack where
  bytes : List (Option Byte)
  causes : List (Nat × W64 × Option W64)
  deriving DecidableEq, Repr

/-- Read grain by grain. -/
def readGrains (w : Who) (k : Kind) (item : Nat) : List (W64 × Nat) → M ReadBack
  | [] => pure ⟨[], []⟩
  | (va, n) :: r => do
    match attempt (engineRead w k item va n) (← get) with
    | .waits what => throw (.wait what)
    | .done bs s =>
      set s
      let rest ← readGrains w k item r
      pure ⟨bs.map some ++ rest.bytes, rest.causes⟩
    | .failed c a d =>
      let rest ← readGrains w k item r
      pure ⟨List.replicate n (if readsZero c then some 0 else none) ++ rest.bytes, (c, a, d) :: rest.causes⟩

/-- Read n bytes: whole where nothing fails, else grain by grain (R104). -/
def readBack (w : Who) (k : Kind) (item : Nat) (va : W64) (n : Nat) : M ReadBack := do
  match attempt (engineRead w k item va n) (← get) with
  | .waits what => throw (.wait what)
  | .done bs s =>
    set s
    pure ⟨bs.map some, []⟩
  | .failed _ _ _ => readGrains w k item (grains va n)

/-- Read several ranges, one after the other. -/
def readRanges (w : Who) (k : Kind) (item : Nat) : List (W64 × Nat) → M ReadBack
  | [] => pure ⟨[], []⟩
  | (va, n) :: r => do
    let a ← readBack w k item va n
    let b ← readRanges w k item r
    pure ⟨a.bytes ++ b.bytes, a.causes ++ b.causes⟩

/-- The bytes of a read, none where some byte is missing. -/
def wholeBytes (r : ReadBack) : Option (List Byte) := r.bytes.mapM id

/-- Write a piece grain by grain, as far as its grains are not refused; the causes (R104). -/
def writeGrains (w : Who) (item tagItem : Nat) (later : List (W64 × Nat)) :
    List (W64 × Nat) → List Byte → M (List (Nat × W64 × Option W64))
  | [], _ => pure []
  | (va, n) :: r, bs => do
    match attempt (pieceWrite w item tagItem (r ++ later) none va (bs.take n)) (← get) with
    | .waits what => throw (.wait what)
    | .done _ s =>
      set s
      writeGrains w item tagItem later r (bs.drop n)
    | .failed c a d =>
      let rest ← writeGrains w item tagItem later r (bs.drop n)
      pure ((c, a, d) :: rest)

/-- The writes of an item to a range are released with the addition of its count (R99, R116). -/
def releaseRange (w : Who) (tagItem : Nat) (count : CountTo) (va : W64) (n : Nat) (s : State) : State :=
  match count, translateRows w .engWrite false [(va, n)] s with
  | some _, .ok (ps, _) => s.releaseKeys tagItem (ps.flatMap fun p => p.granules.map (·.key))
  | _, _ => s

/-- Write a piece, whole or grain by grain, and add its count: the causes of what failed (R104, R116). -/
def pieceStore (w : Who) (item tagItem : Nat) (later : List (W64 × Nat)) (count : CountTo) (va : W64) (bs : List Byte) :
    M (List (Nat × W64 × Option W64)) := do
  match attempt (pieceWrite w item tagItem later count va bs) (← get) with
  | .waits what => throw (.wait what)
  | .done _ s =>
    set s
    pure []
  | .failed c a d =>
    if itemFreezes .copy c then pure [(c, a, d)]
    else
      let rs ← writeGrains w item tagItem later (grains va bs.length) bs
      modify fun s => releaseRange w tagItem count va bs.length (countRefused s count)
      pure (if rs.isEmpty then [(c, a, d)] else rs)

/-! ## Stores of the scan and matrix engines (R66, R104) -/

/-- Store the 16-byte grains of a piece that was refused, as far as they are not refused themselves. -/
def grainStore (w : Who) (item : Nat) (later : List (W64 × Nat)) :
    List (W64 × Nat) → List Byte → M (List (Nat × W64 × Option W64))
  | [], _ => pure []
  | (va, n) :: r, bs => do
    match attempt (engineWrite w item (r ++ later) va (bs.take n)) (← get) with
    | .waits what => throw (.wait what)
    | .done _ s =>
      set s
      grainStore w item later r (bs.drop n)
    | .failed c a d =>
      let rest ← grainStore w item later r (bs.drop n)
      pure ((c, a, d) :: rest)

/-- Store a piece as a store of its own: a refused granule is left out (R104), a piece that fails otherwise is
not written. The causes are answered. -/
def storePiece (w : Who) (item : Nat) (later : List (W64 × Nat)) (va : W64) (bs : List Byte) :
    M (List (Nat × W64 × Option W64)) := do
  match attempt (engineWrite w item later va bs) (← get) with
  | .waits what => throw (.wait what)
  | .done _ s =>
    set s
    pure []
  | .failed c a d =>
    if 128 ≤ c && c < 192 then
      let rs ← grainStore w item later (grains va bs.length) bs
      pure (if rs.isEmpty then [(c, a, d)] else rs)
    else pure [(c, a, d)]

/-- Store bytes piece by piece. -/
def storePieces (w : Who) (item : Nat) (later : List (W64 × Nat)) :
    List (W64 × Nat) → List Byte → M (List (Nat × W64 × Option W64))
  | [], _ => pure []
  | (va, n) :: r, bs => do
    let a ← storePiece w item (r ++ later) va (bs.take n)
    let b ← storePieces w item later r (bs.drop n)
    pure (a ++ b)

/-- The 32-bit lanes of bytes. -/
def lanesOfBytes : List Byte → List Lane
  | a :: b :: c :: d :: r => (d ++ c ++ b ++ a) :: lanesOfBytes r
  | _ => []

/-- Cut a list into lists of n elements, `k` of them. -/
def cutEvery {α : Type} (n : Nat) : Nat → List α → List (List α)
  | 0, _ => []
  | k + 1, l => l.take n :: cutEvery n k (l.drop n)

end Sys2Proof.Machine
end

