-- ==== Sys2Proof/Machine/Switch.lean ====
section
/-! DEFINITION. The stream switch: beats, the conversion of what is popped, routes and formats, tile sources
and sinks (R16, R169 to R175, R317, R363, R364, R447). -/

namespace Sys2Proof.Machine

/-! ## Beats (R447) -/

/-- Bytes as beats under the queue's formats; the last one may be open (log 41: DEDUCED). -/
def newBeats (q : SwitchQueue) (bs : List Byte) : List Beat :=
  (List.range ((bs.length + 63) / 64)).map fun i =>
    let b := (bs.drop (64 * i)).take 64
    ⟨b, 64 - b.length, false, q.srcFmt, q.snkFmt⟩

/-- The room of the open beat; one begun under other formats takes no more (R364) (log 41: DEDUCED). -/
def openRoom (q : SwitchQueue) : Nat :=
  match q.beats.getLast? with
  | some b => if b.src = q.srcFmt && b.snk = q.snkFmt then b.room else 0
  | none => 0

/-- How many bytes the queue takes now (R363). -/
def pushRoom (q : SwitchQueue) : Nat := openRoom q + 64 * (8 - q.beats.length)

/-- Push bytes for which there is room: into the open beat, then into new ones. -/
def pushBytes (q : SwitchQueue) (bs : List Byte) : SwitchQueue :=
  let n := openRoom q
  let old := match q.beats.getLast? with
    | some b => q.beats.dropLast ++ [{ b with bytes := b.bytes ++ bs.take n, room := n - (bs.take n).length }]
    | none => []
  { q with beats := old ++ newBeats q (bs.drop n) }

/-- The pushing unit ends a command: its open beat is pushed with its upper bytes empty (R447). -/
def closeBeat (q : SwitchQueue) : SwitchQueue :=
  match q.beats.getLast? with
  | some b => { q with beats := q.beats.dropLast ++ [{ b with room := 0, last := true }] }
  | none => q

/-- The pushed bytes at the head that share formats, and whether the run ends with a command, when `stop` asks
for that (R364). -/
def headRun (stop : Bool) (src snk : BitVec 8) : List Beat → List Byte × Bool
  | [] => ([], false)
  | b :: r =>
    if b.room ≠ 0 then ([], false)
    else if b.src ≠ src || b.snk ≠ snk then ([], true)
    else if stop && b.last then (b.bytes, true)
    else
      let (bs, e) := headRun stop src snk r
      (b.bytes ++ bs, e)

/-- Remove n bytes from the head. -/
def dropBeats : Nat → List Beat → List Beat
  | _, [] => []
  | n, b :: r =>
    if b.bytes.length ≤ n then (if b.room = 0 then dropBeats (n - b.bytes.length) r else b :: r)
    else { b with bytes := b.bytes.drop n } :: r

/-! ## Conversion (R364) -/

/-- The bytes of a unit of source data of a page format, and the values it gives (log 36: DEDUCED). -/
def sourceUnit (fmt : Nat) : Nat × Nat := if fmt = 5 then (34, 64) else (pageFmtBytes fmt, 1)

/-- The values of whole units of source data; format 0 reads as FP32 words. -/
def sourceValues (fmt : Nat) (bs : List Byte) : List FVal :=
  let (n, _) := sourceUnit fmt
  (List.range (bs.length / n)).flatMap fun i =>
    let u := (bs.drop (n * i)).take n
    if fmt = 5 then
      (List.range 64).map fun j => e2m1Value (u.getD 32 0).toNat (u.getD 33 0).toNat (e2m1Code u j)
    else [(fmtValue ((pageFmtElem fmt).getD 0) (leNat u)).1]

/-- A value rounded once by RNE into a page format (R169 to R172, R317). -/
def valueBytes (fmt : Nat) (sat : Bool) (v : FVal) : List Byte :=
  let c := match (pageFmtElem fmt).getD 0 with
    | 5 => (toCF32 0 v).1
    | 6 => intCode 8 (v.toInt 0 (-128) 127).1
    | 7 => (roundE4M3 0 sat v).1
    | 8 => (roundE5M2 0 sat v).1
    | e => ((fmtFloat e).round 0 v).1
  leBytes (pageFmtBytes fmt) c

/-- The conversion of the next data at the head, and how many bytes there it stands for: a beat, the whole elements of a beat
or one that spans beats, or a group that is quantised; none where no whole unit has been pushed. -/
def convertHead (q : SwitchQueue) : Option (List Byte × Nat) :=
  match q.beats with
  | [] => none
  | b :: _ =>
    let sf := (fld b.src 0 6).toNat
    let kf := (fld b.snk 0 6).toNat
    let (n, vals) := sourceUnit sf
    if b.room ≠ 0 then none
    else if b.snk.getLsbD 7 then
      let (bs, ended) := headRun true b.src b.snk q.beats
      let group := n * (64 / vals)
      if bs.length ≥ group || (ended && bs ≠ []) then
        let taken := bs.take group
        let padded := taken ++ List.replicate ((n - taken.length % n) % n) 0
        let vs := sourceValues sf padded
        some (quantiseBytes (vs ++ List.replicate (64 - vs.length) (.fin false 0 0)), taken.length)
      else none
    else if sf = 0 || kf = 0 || sf = kf then some (b.bytes, b.bytes.length)
    else
      let m := max 1 (b.bytes.length / n) * n
      let bs := ((headRun false b.src b.snk q.beats).1).take m
      if bs.length < m then none
      else some ((sourceValues sf bs).flatMap (valueBytes kf (b.snk.getLsbD 6)), m)

/-- Up to n converted bytes leave the queue; the bytes that they stand for leave it once all of their conversion has been
taken, so that a beat counts among the eight until then (R363). -/
def popMore : Nat → Nat → SwitchQueue → List Byte × SwitchQueue
  | 0, _, q => ([], q)
  | fuel + 1, n, q =>
    if n = 0 then ([], q)
    else if q.out.isEmpty then
      match convertHead q with
      | none => ([], q)
      | some (bs, k) => popMore fuel n { q with out := bs, outOf := k }
    else
      let rest := q.out.drop n
      let q' := if rest.isEmpty then { q with out := [], beats := dropBeats q.outOf q.beats, outOf := 0 } else { q with out := rest }
      let (bs, r) := popMore fuel (n - q.out.length) q'
      (q.out.take n ++ bs, r)

/-- Pop up to n converted bytes. -/
def popUpTo (q : SwitchQueue) (n : Nat) : List Byte × SwitchQueue := popMore 64 n q

/-! ## Endpoints (R363) -/

namespace State

def switchQueue (s : State) (c : CoreId) (q : Nat) : SwitchQueue := tget SwitchQueue.empty (s.core c).switch q
def setSwitch (s : State) (c : CoreId) (q : Nat) (v : SwitchQueue) : State :=
  s.modCore c fun k => { k with switch := tput SwitchQueue.empty k.switch q v }

/-- The queue that an endpoint pushes into, or that one pops from. -/
def sourceQueue (s : State) (c : CoreId) (ep : Nat) : Option Nat :=
  ((s.core c).switch.find? fun (q : Nat × SwitchQueue) => q.2.src = some ep).map (·.1)
def sinkQueue (s : State) (c : CoreId) (ep : Nat) : Option Nat :=
  ((s.core c).switch.find? fun (q : Nat × SwitchQueue) => q.2.snk = some ep).map (·.1)

/-- Push what there is room for: the bytes that remain, and the state. Without a route nothing goes (R363). -/
def pushEnd (s : State) (c : CoreId) (ep : Nat) (bs : List Byte) : List Byte × State :=
  match s.sourceQueue c ep with
  | none => (bs, s)
  | some q =>
    let v := s.switchQueue c q
    let n := min bs.length (pushRoom v)
    if n = 0 then (bs, s) else (bs.drop n, s.setSwitch c q (pushBytes v (bs.take n)))

/-- Push all of the bytes, if there is room for them. -/
def pushWhole (s : State) (c : CoreId) (ep : Nat) (bs : List Byte) : Option State :=
  match s.sourceQueue c ep with
  | none => none
  | some q =>
    let v := s.switchQueue c q
    if bs.length ≤ pushRoom v then some (s.setSwitch c q (pushBytes v bs)) else none

/-- Pop up to n bytes. -/
def popEnd (s : State) (c : CoreId) (ep n : Nat) : List Byte × State :=
  match s.sinkQueue c ep with
  | none => ([], s)
  | some q =>
    let (bs, v) := popUpTo (s.switchQueue c q) n
    (bs, s.setSwitch c q v)

/-- Pop n bytes, if they have come. -/
def popWhole (s : State) (c : CoreId) (ep n : Nat) : Option (List Byte × State) :=
  let (bs, t) := s.popEnd c ep n
  if bs.length = n then some (bs, t) else none

/-- An endpoint's unit ends a command. -/
def closeEnd (s : State) (c : CoreId) (ep : Nat) : State :=
  match s.sourceQueue c ep with
  | none => s
  | some q => s.setSwitch c q (closeBeat (s.switchQueue c q))

end State

/-! ## SW.ROUTE and SW.FMT -/

/-- Is a route's endpoint, in the same direction, joined through another queue (R363)? A tile endpoint is the
tile it names (log 37: DEDUCED). -/
def routeTaken (k : Core) (q src snk : Nat) (tile : BitVec 5) : Bool :=
  k.switch.any fun (v : Nat × SwitchQueue) => v.1 ≠ q &&
    ((v.2.src = some src && (src ≠ 15 || v.2.tile = tile)) || (v.2.snk = some snk && (snk ≠ 15 || v.2.tile = tile)))

/-- Does a switch queue hold no data (R363)? -/
def routeFree (k : Core) (q : Nat) : Bool :=
  let v := tget SwitchQueue.empty k.switch q
  v.beats.isEmpty && v.out.isEmpty

/-- The work of SW.ROUTE (R363). -/
def routeWork (f : Ecmd) (c : CoreId) (fl : Flight) (s : State) : State :=
  let q := (fld f.w1 0 5).toNat
  let v := s.switchQueue c q
  let src := (fld f.w1 8 5).toNat
  let snk := (fld f.w1 16 5).toNat
  let tile := fld f.w1 24 5
  if f.w1.getLsbD 31 then
    (s.setSwitch c q { v with src := none, snk := none, tile := 0, srcRow := none, snkRow := none }).finish c .stream fl.cmd.pos
  else if routeTaken (s.core c) q src snk tile then s.failCommand c .stream fl.cmd.pos 192 0
  else (s.setSwitch c q { v with src := some src, snk := some snk, tile := tile, srcRow := none, snkRow := none }).finish c .stream fl.cmd.pos

/-- SW.ROUTE (R363). -/
def execSwRoute (f : Ecmd) (s : State) : Out := engineCommand (.swRoute f) f .stream (routeWork f) s

/-- The work of SW.FMT (R364). -/
def formatWork (f : Ecmd) (c : CoreId) (fl : Flight) (s : State) : State :=
  let q := (fld f.w1 0 5).toNat
  (s.modCore c fun k =>
    let k := if f.w1.getLsbD 24 then writeFormat k q false (fld f.w1 8 8) else k
    if f.w1.getLsbD 25 then writeFormat k q true (fld f.w1 16 8) else k).finish c .stream fl.cmd.pos

/-- SW.FMT (R364). -/
def execSwFmt (f : Ecmd) (s : State) : Out := engineCommand (.swFmt f) f .stream (formatWork f) s

/-! ## Tile sources and sinks (R67, R242, R363) -/

/-- The 64 bytes of row r of tile t. -/
def tileRow64 (s : State) (c : CoreId) (t r : Nat) : List Byte :=
  (List.range 16).flatMap fun j => leBytes 4 (s.tileAt c t r j).toNat

/-- Write row r of tile t from 64 bytes. -/
def putTileRow (s : State) (c : CoreId) (t r : Nat) (bs : List Byte) : State :=
  s.modCore c fun k => { k with
    tiles := (List.range 16).foldl (fun ts j =>
      tput 0 ts (tileKey t r j) (BitVec.ofNat 32 (leNat ((bs.drop (4 * j)).take 4)))) k.tiles }

/-- TILE_SOURCE_READ: a tile source whose tile is full moves its next row into its queue; with the sixteenth
the tile is empty. A bank that has been gated meanwhile fails the item with 338 (R242) (log 46: DEDUCED). -/
def execTileSourceRead (c : CoreId) (sq : BitVec 5) (s : State) : Out :=
  let v := s.switchQueue c sq.toNat
  let t := v.tile.toNat
  let r := v.srcRow.getD 0
  if v.src ≠ some 15 || !s.engineGoes c then .next s
  else if v.srcRow.isNone && (!s.tileFull c t || s.tileBusy c t) then .next s
  else if s.tilePower c t = 2 then .next ((s.setSwitch c sq.toNat { v with srcRow := none }).report c .stream 0 338 t)
  else if pushRoom v < 64 then .next s
  else
    let s := s.wakeTile c t
    let v := pushBytes v (tileRow64 s c t r)
    if r = 15 then .next ((s.setSwitch c sq.toNat { v with srcRow := none }).setTileFull c t false)
    else .next (s.setSwitch c sq.toNat { v with srcRow := some (r + 1) })

/-- Does a waiting LDT hold tile t of core c, having found its tiles empty (R334)? -/
def ldtHolds (s : State) (c : CoreId) (t : Nat) : Bool :=
  match (s.core c).x.blocked with
  | some (.ldt f, _) => (lmTiles f).contains t && (lmTiles f).all fun u => !s.tileFull c u && !s.tileBusy c u
  | _ => false

/-- TILE_SINK_FILL: a tile sink whose tile is empty moves the next 64 bytes into the tile; with the sixteenth
row the tile is full. A gated bank takes nothing, and the fill is reported with 338 (log 46: DEDUCED). -/
def execTileSinkFill (c : CoreId) (sq : BitVec 5) (s : State) : Out :=
  let v := s.switchQueue c sq.toNat
  let t := v.tile.toNat
  let r := v.snkRow.getD 0
  if v.snk ≠ some 15 || !s.engineGoes c then .next s
  else if v.snkRow.isNone && (s.tileFull c t || s.tileBusy c t || ldtHolds s c t) then .next s
  else
    let (bs, v) := popUpTo v 64
    if bs.length < 64 then .next s
    else
      let gated := s.tilePower c t = 2
      let s := s.wakeTile c t
      let s := if gated then (if r = 15 then s.report c .stream 0 338 t else s) else putTileRow s c t r bs
      if r = 15 then
        let s := s.setSwitch c sq.toNat { v with snkRow := none }
        .next (if gated then s else s.setTileFull c t true)
      else .next (s.setSwitch c sq.toNat { v with snkRow := some (r + 1) })

end Sys2Proof.Machine
end

