-- ==== Sys2Proof/Machine/Scan.lean ====
section
/-! DEFINITION. The scan engine: SCN.CHUNK, block by block, and SCN.CARRY (R180 to R182, R187, R188, R370 to
R373, R426). -/

namespace Sys2Proof.Machine

/-! ## Commands (R370, R371) -/

/-- A SCN.CHUNK command's operands. -/
structure ScanArgs where
  s : W64
  a : W64
  b : W64
  h : W64
  levels : Nat
  ty : Nat
  ain : Bool
  sout : Bool
  cin : Bool
  cout : Bool
  bcf : Bool
  n : Nat
  deriving DecidableEq, Repr

def scanArgs (d : Cmd) : ScanArgs :=
  let w := d.f.w1
  { s := d.op 0, a := d.op 1, b := d.op 2, h := d.op 3, levels := (fld w 20 4).toNat, ty := (fld w 24 2).toNat,
    ain := w.getLsbD 26, sout := w.getLsbD 27, cin := w.getLsbD 28, cout := w.getLsbD 29, bcf := w.getLsbD 30,
    n := (fld w 32 16).toNat + 1 }

/-- Operators in the chunk. -/
def ScanArgs.ops (x : ScanArgs) : Nat := 2 ^ x.levels

/-- Bytes of one b element. -/
def ScanArgs.e (x : ScanArgs) : Nat := if x.bcf then 8 else 4

/-- Blocks, the first element of block k, and its elements (R372). -/
def ScanArgs.blocks (x : ScanArgs) : Nat := (x.n + 15) / 16
def ScanArgs.width (x : ScanArgs) (k : Nat) : Nat := min 16 (x.n - 16 * k)

/-- The a values that an operator has for block k. -/
def ScanArgs.gates (x : ScanArgs) (k : Nat) : Nat := if x.ty = 1 then x.width k else 1

/-- Is the command refused at its start with 208 (R371)? -/
def scanRefused (k : Core) (x : ScanArgs) : Bool :=
  (x.cin && (x.n > 2048 || x.n > k.nheld)) || (x.ty = 2 && x.n ≠ 256)

/-! ## Combines (R187, R188) -/

/-- An operator's element: a, and the pair b. -/
abbrev ScanOp := Lane × Lane × Lane

/-- What combines have to report: pairs faded, NaN from operands that are not, overflow (R180, R373). -/
structure ScanNote where
  fades : Nat
  nan : Bool
  ovf : Bool
  deriving DecidableEq, Repr

def ScanNote.none : ScanNote := ⟨0, false, false⟩
def ScanNote.join (a b : ScanNote) : ScanNote := ⟨a.fades + b.fades, a.nan || b.nan, a.ovf || b.ovf⟩

/-- What one result, with the operands it was made from, has to report. -/
def resultNote (operands : List Lane) (r : Lane) : ScanNote :=
  let vs := operands.map f32v
  ⟨0, (f32v r).isNan && !(vs.any FVal.isNan), (f32v r).isInf && !(vs.any fun v => v.isNan || v.isInf)⟩

/-- A combine and what it reports. -/
def combineNoted (fade : W64) (o2 o1 : ScanOp) : ScanOp × ScanNote :=
  let r := combine fade o2 o1
  let pair := resultNote [o2.1, o2.2.1, o2.2.2, o1.2.1, o1.2.2] r.1.2.1
  let gate := resultNote [o2.1, o1.1] r.1.1
  (r.1, (ScanNote.join pair gate).join ⟨if r.2 then 1 else 0, false, false⟩)

/-- Combine the elements of a later operator with those of an earlier one. -/
def combineRows (fade : W64) : List ScanOp → List ScanOp → List ScanOp × ScanNote
  | a :: as, b :: bs =>
    let r := combineNoted fade a b
    let t := combineRows fade as bs
    (r.1 :: t.1, r.2.join t.2)
  | _, _ => ([], ScanNote.none)

/-- Combine later operators with earlier ones, one by one. -/
def combineAll (fade : W64) : List (List ScanOp) → List (List ScanOp) → List (List ScanOp) × ScanNote
  | a :: as, b :: bs =>
    let r := combineRows fade a b
    let t := combineAll fade as bs
    (r.1 :: t.1, r.2.join t.2)
  | _, _ => ([], ScanNote.none)

/-- Levels d on, `k` of them, of a chunk (R188). -/
def scanLevels (fade : W64) : Nat → Nat → List (List ScanOp) → ScanNote → List (List ScanOp) × ScanNote
  | 0, _, ops, note => (ops, note)
  | k + 1, d, ops, note =>
    let r := combineAll fade (ops.drop (2 ^ d)) ops
    scanLevels fade k (d + 1) (ops.take (2 ^ d) ++ r.1) (note.join r.2)

/-- The states of a block: the levels, then the carry-in as the b part of an operator with a = 1 (R188). -/
def scanBlock (fade : W64) (levels : Nat) (ops : List (List ScanOp)) (carry : List (Lane × Lane)) :
    List (List ScanOp) × ScanNote :=
  let r := scanLevels fade levels 0 ops ScanNote.none
  let h : List ScanOp := carry.map fun p => (0x3F800000, p.1, p.2)
  let t := combineAll fade r.1 (r.1.map fun _ => h)
  (t.1, r.2.join t.2)

/-! ## A block (R372) -/

/-- The pairs of lanes. -/
def pairsOf : List Lane → List (Lane × Lane)
  | a :: b :: r => (a, b) :: pairsOf r
  | _ => []

/-- The b pairs of a row of lanes. -/
def bPairs (bcf : Bool) (ls : List Lane) : List (Lane × Lane) := if bcf then pairsOf ls else ls.map fun l => (l, 0)

/-- An operator's elements from its a values and its b pairs; a single a is repeated. -/
def rowOps (gates : List Lane) (bs : List (Lane × Lane)) : List ScanOp :=
  bs.zipIdx.map fun p => ((if gates.length = 1 then gates.headD 0 else gates.getD p.2 0), p.1.1, p.1.2)

/-- The operators of block k out of memory lanes: all a values, then all b values. -/
def memoryOps (x : ScanArgs) (k : Nat) (as bs : List Lane) : List (List ScanOp) :=
  let n := x.width k
  ((cutEvery (x.gates k) x.ops as).zip (cutEvery (n * x.e / 4) x.ops bs)).map fun p => rowOps p.1 (bPairs x.bcf p.2)

/-- The operators of block k out of the switch's lanes: each operator's a values, then its b values. -/
def switchOps (x : ScanArgs) (k : Nat) (ls : List Lane) : List (List ScanOp) :=
  let g := x.gates k
  (cutEvery (g + x.width k * x.e / 4) x.ops ls).map fun r => rowOps (r.take g) (bPairs x.bcf (r.drop g))

/-- Bytes that the switch delivers for block k. -/
def ScanArgs.inBytes (x : ScanArgs) (k : Nat) : Nat := x.ops * (4 * x.gates k + x.width k * x.e)

/-- Where the a and b values of block k lie, operator by operator (R371). -/
def gateRows (x : ScanArgs) (k : Nat) : List (W64 × Nat) :=
  (List.range x.ops).map fun j =>
    if x.ty = 1 then (x.a + BitVec.ofNat 64 (4 * (x.n * j + 16 * k)), 4 * x.width k) else (x.a + BitVec.ofNat 64 (4 * j), 4)
def inputRows (x : ScanArgs) (k : Nat) : List (W64 × Nat) :=
  (List.range x.ops).map fun j => (x.b + BitVec.ofNat 64 (x.e * (x.n * j + 16 * k)), x.e * x.width k)

/-- Where the states of block k go, operator by operator, and its carry pairs. -/
def stateRows (x : ScanArgs) (k : Nat) : List (W64 × Nat) :=
  (List.range x.ops).map fun j => (x.s + BitVec.ofNat 64 (8 * (x.n * j + 16 * k)), 8 * x.width k)
def carryRow (x : ScanArgs) (k : Nat) : W64 × Nat := (x.h + BitVec.ofNat 64 (128 * k), 8 * x.width k)

/-- Bytes read, missing ones as zero (R104, R373). -/
def zeroBytes (r : ReadBack) : List Byte := r.bytes.map fun b => b.getD 0

/-- The pairs of the carry register from pair `first` on. -/
def carryPairs (k : Core) (first n : Nat) : List (Lane × Lane) :=
  (List.range n).map fun i => (tget 0 k.carry (2 * (first + i)), tget 0 k.carry (2 * (first + i) + 1))

/-- Put pairs into the carry register from pair `first` on. -/
def putCarry (k : Core) (first : Nat) (ps : List (Lane × Lane)) : Core :=
  { k with carry := ps.zipIdx.foldl (fun t p =>
      tput 0 (tput 0 t (2 * (first + p.2)) p.1.1) (2 * (first + p.2) + 1) p.1.2) k.carry }

def pairBytes (p : Lane × Lane) : List Byte := leBytes 4 p.1.toNat ++ leBytes 4 p.2.toNat

/-- Report an item of a command that failed, with the first of its causes (R359). -/
def reportCauses (s : State) (c : CoreId) (q : QueueId) (pos item : Nat) (causes : List (Nat × W64 × Option W64)) : State :=
  match causes with
  | x :: _ => s.report c q pos x.1 item
  | [] => s

/-- Count fades and make the arithmetic reports of a block (R181, R182, R373). -/
def noteScan (s : State) (c : CoreId) (n : ScanNote) : State :=
  let s := if n.nan then s.arithReport c .scan 1 else s
  let s := if n.ovf then s.arithReport c .scan 2 else s
  let s := if (s.core c).fade.toNat / 2 ^ 32 + n.fades > maxCount then s.arithReport c .scan 5 else s
  s.modCore c fun k => { k with fade := fadeCount k.fade n.fades }

/-- The carry-in of block k: the pairs, and the causes of failed reads. -/
def carryIn (w : Who) (item : Nat) (core : Core) (x : ScanArgs) (k : Nat) : M (List (Lane × Lane) × List (Nat × W64 × Option W64)) := do
  if x.cin then pure (carryPairs core (16 * k) (x.width k), [])
  else
    let r ← readBack w .engRead item (carryRow x k).1 (carryRow x k).2
    pure (pairsOf (lanesOfBytes (zeroBytes r)), r.causes)

/-- Read what block k needs: its carry-in, its operators, and the causes of failed reads. -/
def scanRead (w : Who) (item : Nat) (core : Core) (x : ScanArgs) (k : Nat) (inb : List Byte) :
    M (List (Lane × Lane) × List (List ScanOp) × List (Nat × W64 × Option W64)) := do
  let (carry, c0) ← carryIn w item core x k
  if x.ain then pure (carry, switchOps x k (lanesOfBytes inb), c0)
  else
    let a ← readRanges w .engRead item (gateRows x k)
    let b ← readRanges w .engRead item (inputRows x k)
    pure (carry, memoryOps x k (lanesOfBytes (zeroBytes a)) (lanesOfBytes (zeroBytes b)), c0 ++ a.causes ++ b.causes)

/-- Compute block k: its results wait in `outb`, states first, then the carry-out where it is stored. -/
def scanCompute (x : ScanArgs) (c : CoreId) (fl : Flight) (k : Nat) (fade : W64) (s : State) : State :=
  match attempt (scanRead (s.queueWho c .scan) fl.item (s.core c) x k fl.inb) s with
  | .waits what => s.noteHeld what
  | .failed cause _ _ => s.failCommand c .scan fl.cmd.pos cause k
  | .done (carry, ops, causes) t =>
    let (states, note) := scanBlock fade x.levels ops carry
    let last := ((states.getLast?).getD []).map (·.2)
    let t := noteScan (reportCauses t c .scan fl.cmd.pos k causes) c note
    let t := if x.n ≤ 2048 then t.modCore c fun core =>
        { putCarry core (16 * k) last with nheld := if k + 1 = x.blocks then x.n else core.nheld }
      else t
    let out := states.flatMap (fun row => row.flatMap fun o => pairBytes o.2) ++ (if x.cout then last.flatMap pairBytes else [])
    t.modFlight c .scan fl.cmd.pos fun f => { f with inb := [], outb := out }

/-- The destination pieces of block k in memory, states first. -/
def scanPieces (x : ScanArgs) (k : Nat) : List (W64 × Nat) :=
  ((if x.sout then [] else stateRows x k) ++ (if x.cout then [carryRow x k] else [])).flatMap fun r => piecesOf r.1 r.2

/-- The ranges of later blocks. -/
def laterRows (x : ScanArgs) (k : Nat) : List (W64 × Nat) :=
  let done := 16 * (k + 1)
  if x.n ≤ done then []
  else (if x.sout then [] else (List.range x.ops).map fun j =>
      (x.s + BitVec.ofNat 64 (8 * (x.n * j + done)), 8 * (x.n - done))) ++
    (if x.cout then [(x.h + BitVec.ofNat 64 (8 * done), 8 * (x.n - done))] else [])

/-- The pieces from byte offset `done` on. -/
def piecesFrom : Nat → List (W64 × Nat) → List (W64 × Nat)
  | _, [] => []
  | done, p :: r => if p.2 ≤ done then piecesFrom (done - p.2) r else p :: r

/-- After bytes of block k have gone out: with the last, the next block is due, or the command ends. -/
def scanWent (x : ScanArgs) (c : CoreId) (fl : Flight) (k : Nat) (fade : W64) (rest : List Byte) (s : State) : State :=
  let last := rest.isEmpty && k + 1 ≥ x.blocks
  let s := s.modFlight c .scan fl.cmd.pos fun f => { f with
    outb := rest, prog := if rest.isEmpty then .scan (k + 1) fade else f.prog, finished := last }
  if last && x.sout then s.closeEnd c 11 else s

/-- The byte offset of a piece in its destination, the states or the carry-out (R359) (log 43: DEDUCED). -/
def scanItem (x : ScanArgs) (k left : Nat) (va : W64) : Nat :=
  (va - (if x.cout && left ≤ (carryRow x k).2 then x.h else x.s)).toNat

/-- Send out the next bytes of block k: into the switch, or one piece into memory. -/
def scanEmit (x : ScanArgs) (c : CoreId) (fl : Flight) (k : Nat) (fade : W64) (s : State) : State :=
  let mem := (scanPieces x k).foldl (fun n p => n + p.2) 0
  if x.sout && fl.outb.length > mem then
    let n := fl.outb.length - mem
    let (rest, s) := s.pushEnd c 11 (fl.outb.take n)
    scanWent x c fl k fade (rest ++ fl.outb.drop n) s
  else match piecesFrom (mem - fl.outb.length) (scanPieces x k) with
    | [] => scanWent x c fl k fade [] s
    | (va, n) :: r =>
      match attempt (storePiece (s.queueWho c .scan) fl.item (r ++ laterRows x k) va (fl.outb.take n)) s with
      | .waits what => s.noteHeld what
      | .failed cause a d => s.freeze c .scan fl.cmd.pos cause a d
      | .done causes t =>
        match causes.find? fun y => itemFreezes .scan y.1 with
        | some (cause, a, d) => s.freeze c .scan fl.cmd.pos cause a d
        | none =>
          scanWent x c fl k fade (fl.outb.drop n) (reportCauses t c .scan fl.cmd.pos (scanItem x k fl.outb.length va) causes)

/-- The work of SCN.CHUNK: it takes operators from the switch, computes a block, or sends out its results. -/
def scanWork (_ : Ecmd) (c : CoreId) (fl : Flight) (s : State) : State :=
  let x := scanArgs fl.cmd
  match fl.prog with
  | .scan k fade =>
    if k = 0 && fl.inb.isEmpty && fl.outb.isEmpty && scanRefused (s.core c) x then s.failCommand c .scan fl.cmd.pos 208 0
    else if k ≥ x.blocks then s.finish c .scan fl.cmd.pos
    else if !fl.outb.isEmpty then scanEmit x c fl k fade s
    else if x.ain && fl.inb.length < x.inBytes k then
      let (bs, s) := s.popEnd c 10 (x.inBytes k - fl.inb.length)
      s.modFlight c .scan fl.cmd.pos fun f => { f with inb := f.inb ++ bs }
    else scanCompute x c fl k fade s
  | _ => s

/-- SCN.CHUNK (R371 to R373). -/
def execScnChunk (f : Ecmd) (s : State) : Out := engineCommand (.scnChunk f) f .scan (scanWork f) s

/-! ## SCN.CARRY (R373) -/

/-- Load or store chunk i, of up to 64 bytes, between the carry register and memory. -/
def carryChunk (store : Bool) (c : CoreId) (fl : Flight) (n i : Nat) (s : State) : State :=
  let va := fl.cmd.op 0
  let w := s.queueWho c .scan
  let pos := fl.cmd.pos
  if store then
    let ps := piecesOf va (8 * n)
    match ps[i]? with
    | none => s.finish c .scan pos
    | some (pva, m) =>
      let o := (pva - va).toNat
      let bs := (((carryPairs (s.core c) (o / 8) (m / 8 + 2)).flatMap pairBytes).drop (o % 8)).take m
      match attempt (storePiece w fl.item (ps.drop (i + 1)) pva bs) s with
      | .waits what => s.noteHeld what
      | .failed cause a d => s.freeze c .scan pos cause a d
      | .done causes t =>
        match causes.find? fun y => itemFreezes .scan y.1 with
        | some (cause, a, d) => s.freeze c .scan pos cause a d
        | none => (reportCauses t c .scan pos o causes).modFlight c .scan pos fun f => { f with
            prog := .pieces (i + 1), finished := i + 1 ≥ ps.length }
  else
    let m := min 8 (n - 8 * i)
    match attempt (readBack w .engRead fl.item (va + BitVec.ofNat 64 (64 * i)) (8 * m)) s with
    | .waits what => s.noteHeld what
    | .failed cause _ _ => s.failCommand c .scan pos cause i
    | .done r t =>
      let last : Bool := decide (8 * (i + 1) ≥ n)
      ((reportCauses t c .scan pos (64 * i) r.causes).modCore c fun core =>
        { putCarry core (8 * i) (pairsOf (lanesOfBytes (zeroBytes r))) with nheld := if last then n else core.nheld }).modFlight
        c .scan pos fun f => { f with prog := .pieces (i + 1), finished := last }

/-- The work of SCN.CARRY. -/
def carryWork (f : Ecmd) (c : CoreId) (fl : Flight) (s : State) : State :=
  let n := (fld f.w1 32 16).toNat + 1
  let pos := fl.cmd.pos
  if n > 2048 then s.failCommand c .scan pos 208 0
  else if f.w1.getLsbD 6 then
    (s.modCore c fun core => { putCarry core 0 (List.replicate n (0, 0)) with nheld := n }).finish c .scan pos
  else match fl.prog with
    | .pieces i => carryChunk (f.w1.getLsbD 5) c fl n i s
    | _ => s

/-- SCN.CARRY (R373). -/
def execScnCarry (f : Ecmd) (s : State) : Out := engineCommand (.scnCarry f) f .scan (carryWork f) s

end Sys2Proof.Machine
end

