-- ==== Sys2Proof/Machine/Matrix.lean ====
section
/-! DEFINITION. The matrix arrays: leases, MX.LEASE, MX.MMA, MX.DRAIN, MX.FREE and MX.ZERO, operands and CB3
tables, segments, narrowed mode (R18, R173 to R177, R183 to R186, R214 to R216, R233, R374 to R378, R422, R423). -/

namespace Sys2Proof.Machine

/-! ## Leases (R18, R215) -/

namespace State

def array (s : State) (k : ClusterId) : MxArray := s.arrays[k.val]
def modArray (s : State) (k : ClusterId) (f : MxArray → MxArray) : State :=
  { s with arrays := s.arrays.set k.val (f (s.array k)) }

/-- The command of core c's matrix queue that runs. -/
def mxRunning (s : State) (c : CoreId) : Option Flight :=
  ((s.core c).queue .matrix).flights.find? fun f => needsLease f.cmd.instr && !f.finished

/-- A stopped MX.MMA takes its tables again when it resumes (R422). -/
def dropTables (s : State) (c : CoreId) : State :=
  s.modCore c fun k =>
    let v := k.queue .matrix
    k.setQueue .matrix { v with flights := v.flights.map fun f => match f.prog with
      | .matrix r g _ => { f with prog := .matrix r g [] }
      | _ => f }

/-- The lease of array k ends. -/
def endLease (s : State) (k : ClusterId) : State :=
  match (s.array k).holder with
  | none => s
  | some m =>
    (s.modArray k fun a => { a with holder := none, last := m, cmds := 0, expired := false }).dropTables (memberCore k m)

/-- Does the core count as holding a real-time session (R215)? -/
def realTime (s : State) (c : CoreId) : Bool := ((s.core c).piece.map fun (q : Piece) => q.rt).getD false

/-- The member that a free array is granted to: real-time sessions first, then ascending after the last holder
(R18); several cores with real-time sessions are taken in the same ascending order (log 99: DESIGN CHOICE). -/
def nextHolder (s : State) (k : ClusterId) : Option (Fin 4) :=
  let order : List (Fin 4) := (List.range 4).map fun i => ⟨((s.array k).last.val + 1 + i) % 4, Nat.mod_lt _ (by decide)⟩
  let wants := order.filter fun m => wantsLease s (memberCore k m)
  match wants.find? fun m => s.realTime (memberCore k m) with
  | some m => some m
  | none => wants.head?

end State

/-- Does a command count as one of a lease's sixteen (R374)? -/
def countsInLease : Instr → Bool
  | .mxMma _ => true
  | .mxDrain _ => true
  | .mxZero _ => true
  | _ => false

/-- LEASE_GRANT: a free array is granted to a requesting core. A command stopped before resumes under the grant,
and counts in it (R18, R215, R374). -/
def execLeaseGrant (k : ClusterId) (s : State) : Out :=
  if (s.array k).holder.isSome then .next s
  else match s.nextHolder k with
    | none => .next s
    | some m =>
      let resumed := match s.mxRunning (memberCore k m) with
        | some f => countsInLease f.cmd.instr
        | none => false
      .next (s.modArray k fun a => { a with holder := some m, cmds := if resumed then 1 else 0, expired := false })

/-- LEASE_CYCLE_LIMIT: the 20,000 cycles have passed. An MX.ZERO, or a row that an MX.DRAIN is sending, goes to
its end first; any other command stands at its boundary (R215, R423) (log 45: DEDUCED). -/
def execLeaseCycleLimit (k : ClusterId) (s : State) : Out :=
  match (s.array k).holder with
  | none => .next s
  | some m =>
    let goesOn := match s.mxRunning (memberCore k m) with
      | some f => (match f.cmd.instr with | .mxZero _ => true | _ => !f.outb.isEmpty)
      | none => false
    if goesOn then .next (s.modArray k fun a => { a with expired := true }) else .next (s.endLease k)

/-- LEASE_COMMAND_LIMIT: the lease ends once its sixteenth command has completed (R215). -/
def execLeaseCommandLimit (k : ClusterId) (s : State) : Out :=
  match (s.array k).holder with
  | none => .next s
  | some m =>
    let busy := ((s.core (memberCore k m)).queue .matrix).flights.any fun f => countsInLease f.cmd.instr
    if (s.array k).cmds ≥ 16 && !busy then .next (s.endLease k) else .next s

/-- NARROW_MODE_CHANGE: between two commands an array enters narrowed mode while the power alarm is raised, and
leaves it otherwise (R216, R444). -/
def execNarrowModeChange (k : ClusterId) (s : State) : Out :=
  let running := match (s.array k).holder with
    | some m => ((s.core (memberCore k m)).queue .matrix).flights.any fun f => countsInLease f.cmd.instr && !f.finished
    | none => false
  if running then .next s else .next (s.modArray k fun a => { a with narrow := s.alarm })

/-- At a boundary of a running command: a lease whose time has passed ends. -/
def leaseBoundary (s : State) (c : CoreId) : State :=
  if holdsLease s c && (s.array (coreCluster c)).expired then s.endLease (coreCluster c) else s

/-! ## Shapes (R374, R376) -/

def mxRows (d : Cmd) : Nat := (fld d.f.w1 20 7).toNat + 1
def mxCols (d : Cmd) : Nat := (fld d.f.w1 27 7).toNat + 1
/-- K groups of a row (R184). -/
def mxGroups (d : Cmd) : Nat := (fld d.f.w1 34 16).toNat + 1

/-- An operand: its address, row stride and element format. -/
structure MxOperand where
  addr : W64
  stride : Nat
  fmt : Nat
  deriving DecidableEq, Repr

/-- The formats of matrix operands (R376). -/
def mxFormat (fmt : Nat) : Bool := [2, 3, 4, 5, 6, 7].contains fmt

/-- Multiply-accumulates a cycle (R10, R376). -/
def mxRate (narrow : Bool) (fa fb : Nat) : Nat :=
  let one (f : Nat) : Nat := if f = 5 then 32768 else if f = 2 || f = 7 then 8192 else 16384
  min (one fa) (one fb) / (if narrow then 2 else 1)

/-- The groups of the segment that begins at group g (R233). -/
def segmentGroups (rate cols groups g : Nat) : Nat := min (max 1 (2048 * rate / (8 * cols))) (groups - g)

/-! ## Elements (R173 to R177, R376) -/

/-- The elements of a run: their values, whether a NaN scale or special value was met, the causes of reads that
were refused. -/
structure MxElems where
  vals : List FVal
  nanBlock : Bool
  causes : List (Nat × W64 × Option W64)
  deriving DecidableEq, Repr

/-- Read ranges that must lie on pages of one format (R37, R176); an uncorrectable error ends the read (R220). -/
def operandRead (w : Who) (item fmt : Nat) : List (W64 × Nat) → M ReadBack
  | [] => pure ⟨[], []⟩
  | (va, n) :: r => do
    let ps ← translateRows w .matrix false (rangeRows va n)
    if ps.any fun p => p.fmt ≠ fmt then throw (.trap (accessCause .matrix 4) va none)
    let a ← readBack w .matrix item va n
    match a.causes.find? fun x => x.1 = 221 with
    | some (c, x, d) => throw (.trap c x d)
    | none => pure ()
    let b ← operandRead w item fmt r
    pure ⟨a.bytes ++ b.bytes, a.causes ++ b.causes⟩

/-- Plain elements of formats 2, 3, 4 and 6. -/
def plainElems (fmt : Nat) : List Byte → List FVal
  | bs => (cutEvery (pageFmtBytes fmt) (bs.length / pageFmtBytes fmt) bs).map fun u =>
      (fmtValue ((pageFmtElem fmt).getD 0) (leNat u)).1

/-- The elements of an E2M1 block from element `lo` on, n of them: 32 element bytes, then S and P; and whether it
meets a NaN scale or special value. -/
def blockElems (bs : List Byte) (lo n : Nat) : List FVal × Bool :=
  let sc := (bs.getD 32 0).toNat
  let p := (bs.getD 33 0).toNat
  let cs := (List.range n).map fun i => e2m1Code bs (lo + i)
  (cs.map (e2m1Value sc p), sc = 255 || ((decodeE4M3 p).isNan && cs.any fun c => c % 16 = 8))

/-- The runs of elements [e0, e0 + n) in blocks of b elements: block, first element in it, elements. -/
def blockRuns (b e0 n : Nat) : List (Nat × Nat × Nat) :=
  if n = 0 then []
  else (List.range ((e0 + n - 1) / b - e0 / b + 1)).map fun i =>
    let k := e0 / b + i
    let lo := max e0 (k * b)
    (k, lo - k * b, min (e0 + n) ((k + 1) * b) - lo)

/-- The element bytes, and the S and P, of block b of an E2M1 operand (R173). -/
def e2m1Ranges (addr : W64) (b : Nat) : List (W64 × Nat) :=
  let t := addr.toNat % 1024 / 32 + b
  let unit := addr - BitVec.ofNat 64 (addr.toNat % 1024) + BitVec.ofNat 64 (1024 * (t / 30))
  [(unit + BitVec.ofNat 64 (32 * (t % 30)), 32), (unit + BitVec.ofNat 64 (960 + 2 * (t % 30)), 2)]

/-- Read E2M1 runs. -/
def readE2m1 (w : Who) (item : Nat) (addr : W64) : List (Nat × Nat × Nat) → M MxElems
  | [] => pure ⟨[], false, []⟩
  | (b, lo, n) :: r => do
    let a ← operandRead w item 5 (e2m1Ranges addr b)
    let rest ← readE2m1 w item addr r
    let (vs, nan) := blockElems (zeroBytes a) lo n
    pure ⟨vs ++ rest.vals, nan || rest.nanBlock, a.causes ++ rest.causes⟩

/-- Read CB3 runs, with the tables taken. -/
def readCb3 (w : Who) (item : Nat) (addr : W64) (tables : List (Nat × BitVec 128)) : List (Nat × Nat × Nat) → M MxElems
  | [] => pure ⟨[], false, []⟩
  | (b, lo, n) :: r => do
    let a ← operandRead w item 7 [(addr + BitVec.ofNat 64 (48 * b), 48)]
    let rest ← readCb3 w item addr tables r
    let block := leNat (zeroBytes a)
    let vs := (List.range n).map fun i => cb3Entry (tget 0 tables b) (cb3Index block (lo + i))
    pure ⟨vs ++ rest.vals, rest.nanBlock, a.causes ++ rest.causes⟩

/-- Elements [k0, k0 + n) of row r of an operand in memory. -/
def rowElems (w : Who) (item : Nat) (x : MxOperand) (tables : List (Nat × BitVec 128)) (r k0 n : Nat) : M MxElems := do
  let e0 := r * x.stride + k0
  if x.fmt = 5 then readE2m1 w item x.addr (blockRuns 64 e0 n)
  else if x.fmt = 7 then readCb3 w item x.addr tables (blockRuns 128 e0 n)
  else
    let e := pageFmtBytes x.fmt
    let a ← operandRead w item x.fmt [(x.addr + BitVec.ofNat 64 (r * x.stride + k0 * e), n * e)]
    pure ⟨plainElems x.fmt (zeroBytes a), false, a.causes⟩

/-- Elements of several rows, one after the other. -/
def manyRows (w : Who) (item : Nat) (x : MxOperand) (tables : List (Nat × BitVec 128)) (k0 n : Nat) :
    List Nat → M (List (List FVal) × Bool × List (Nat × W64 × Option W64))
  | [] => pure ([], false, [])
  | r :: rs => do
    let a ← rowElems w item x tables r k0 n
    let b ← manyRows w item x tables k0 n rs
    pure (a.vals :: b.1, a.nanBlock || b.2.1, a.causes ++ b.2.2)

/-! ### Operand A from the switch (R363) -/

/-- The format of the data at endpoint 12, where a route joins it: the sink format, else the source format (log 77: DEDUCED). -/
def switchOperand (s : State) (c : CoreId) : Option Nat :=
  (s.sinkQueue c 12).map fun q =>
    let v := s.switchQueue c q
    let k := (fld v.snkFmt 0 6).toNat
    if k ≠ 0 then k else (fld v.srcFmt 0 6).toNat

/-- Bytes of a row of K elements at endpoint 12. -/
def switchRowBytes (fmt k : Nat) : Nat := if fmt = 5 then k / 64 * 34 else k * pageFmtBytes fmt

/-- Elements [k0, k0 + n) of a row that has come through the switch. -/
def switchElems (fmt : Nat) (row : List Byte) (k0 n : Nat) : MxElems :=
  if fmt = 5 then
    (blockRuns 64 k0 n).foldl (fun x r =>
      let (vs, nan) := blockElems ((row.drop (34 * r.1)).take 34) r.2.1 r.2.2
      ⟨x.vals ++ vs, x.nanBlock || nan, []⟩) ⟨[], false, []⟩
  else ⟨plainElems fmt ((row.drop (k0 * pageFmtBytes fmt)).take (n * pageFmtBytes fmt)), false, []⟩

/-! ## Accumulation (R184, R185) -/

/-- What one addition reports, bit r - 1 for reason r. -/
def addNote (acc r : BitVec 48) (ps : List (FVal × FVal)) : BitVec 5 :=
  let old := FFmt.a48.decode acc.toNat
  let new := FFmt.a48.decode r.toNat
  let nan := old.isNan || ps.any fun p => p.1.isNan || p.2.isNan
  let inf := old.isInf || ps.any fun p => p.1.isInf || p.2.isInf
  (if new.isNan && !nan then 1 else 0) ||| (if new.isInf && !inf && !nan then 2 else 0)

/-- Add groups of products to a float accumulator. -/
def accFloat : List (List FVal × List FVal) → BitVec 48 → BitVec 5 → BitVec 48 × BitVec 5
  | [], acc, note => (acc, note)
  | (a, b) :: r, acc, note =>
    let ps := a.zip b
    let new := a48Add acc (groupSum ps)
    accFloat r new (note ||| addNote acc new ps)

/-- The integer of an INT8 element. -/
def elemInt : FVal → Int
  | .fin n m _ => if n then -(m : Int) else m
  | _ => 0

/-- Add groups of products to an integer accumulator. -/
def accInt8 : List (List FVal × List FVal) → BitVec 48 → BitVec 5 → BitVec 48 × BitVec 5
  | [], acc, note => (acc, note)
  | (a, b) :: r, acc, note =>
    let s := ((a.zip b).map fun p => elemInt p.1 * elemInt p.2).foldl (· + ·) 0
    let new := intAdd acc s
    accInt8 r new.1 (note ||| if new.2 then 4 else 0)

/-- Make the arithmetic reports of a note. -/
def noteArith (s : State) (c : CoreId) (q : QueueId) (m : BitVec 5) : State :=
  s.modCore c fun k =>
    let v := (k.queue q).stat
    k.setQueue q { k.queue q with stat := { v with arith := v.arith ||| m } }

/-- Add a segment of n groups of row i: the operand elements of the row and of every column. -/
def accSegment (k : Core) (i n : Nat) (a : List FVal) (bs : List (List FVal)) : Core × BitVec 5 :=
  let ga := cutEvery 8 n a
  bs.zipIdx.foldl (fun (x : Core × BitVec 5) b =>
    let key := 128 * i + b.2
    let old := tget 0 x.1.acc key
    let r := if k.accInt then accInt8 (ga.zip (cutEvery 8 n b.1)) old x.2 else accFloat (ga.zip (cutEvery 8 n b.1)) old x.2
    ({ x.1 with acc := tput 0 x.1.acc key r.1 }, r.2)) (k, 0)

/-! ## MX.MMA (R376, R377) -/

/-- The operands of a product: A's format where the switch delivers it. -/
structure MmaArgs where
  a : MxOperand
  b : MxOperand
  fromSwitch : Bool
  deriving DecidableEq, Repr

/-- The operands, their formats read from their pages (R376). -/
def mmaArgs (w : Who) (c : CoreId) (d : Cmd) : M MmaArgs := do
  let strides := d.op 2
  let fb ← pageFormat w .matrix false (d.op 1)
  let sw := switchOperand (← get) c
  let fa ← match sw with
    | some f => if f ≠ 0 then pure f else pageFormat w .matrix false (d.op 0)
    | none => pageFormat w .matrix false (d.op 0)
  let fa := if sw.isSome && fa = 7 then 0 else fa
  pure ⟨⟨d.op 0, (fld strides 0 32).toNat, fa⟩, ⟨d.op 1, (fld strides 32 32).toNat, fb⟩, sw.isSome⟩

/-- An E2M1 operand's address names the first element byte of a block (R376). -/
def e2m1Address (x : MxOperand) : Bool := x.addr.toNat % 1024 % 32 = 0 && x.addr.toNat % 1024 < 960

/-- The cause with which a product computes nothing (R376) (log 44: DEDUCED). -/
def mmaFault (accInt : Bool) (k : Nat) (x : MmaArgs) : Option Nat :=
  let e2m1 (o : MxOperand) : Bool := o.fmt = 5 && (k % 64 ≠ 0 || o.stride % 64 ≠ 0)
  if !mxFormat x.a.fmt || !mxFormat x.b.fmt then some (accessCause .matrix 4)
  else if accInt ≠ (x.a.fmt = 6 && x.b.fmt = 6) || (x.a.fmt = 6) ≠ (x.b.fmt = 6) then some 216
  else if e2m1 { x.a with stride := if x.fromSwitch then 0 else x.a.stride } || e2m1 x.b then some 216
  else if (x.a.fmt = 5 && !x.fromSwitch && !e2m1Address x.a) || (x.b.fmt = 5 && !e2m1Address x.b) then some 222
  else none

/-- The CB3 blocks whose tables groups [g, g + n) of row i need (R422). -/
def tablesNeeded (x : MmaArgs) (i cols g n : Nat) : List Nat :=
  let one (o : MxOperand) (r : Nat) : List Nat :=
    if o.fmt = 7 then (blockRuns 128 (r * o.stride + 8 * g) (8 * n)).map (·.1) else []
  (one x.a i ++ (List.range cols).flatMap (one x.b)).eraseDups

/-- Take the table of a block: its 16 bytes, once its granule is full (R177, R422). -/
def takeTable (w : Who) (item : Nat) (base : W64) (b : Nat) : M (BitVec 128 × List (Nat × W64 × Option W64)) := do
  let va := base + BitVec.ofNat 64 (16 * b)
  let ps ← translateRows w .matrix false [(va, 16)]
  let acc : Access := { fe := 1, item := some item }
  match attempt (do
      checkParts w acc true false ps
      readParts w acc ps) (← get) with
  | .waits what => throw (.wait what)
  | .done bs s =>
    set s
    pure (BitVec.ofNat 128 (leNat bs), [])
  | .failed c a d => if (128 ≤ c && c < 192) || c = 220 then pure (0, [(c, a, d)]) else throw (.trap c a d)

/-- What a step of a product does. -/
inductive MmaStep where
  | fails (cause : Nat)
  | takes (block : Nat) (table : BitVec 128)
  | adds (n : Nat) (core : Core) (note : BitVec 5)

/-- One step of a product at row i, group g: a check that fails, a table to take, or a segment to add; with the
causes of refused reads. -/
def mmaStep (w : Who) (c : CoreId) (fl : Flight) (narrow : Bool) (i g : Nat) (tables : List (Nat × BitVec 128))
    (onlyTable : Bool) : M (Option MmaStep × List (Nat × W64 × Option W64)) := do
  let d := fl.cmd
  let k := (← get).core c
  let x ← mmaArgs w c d
  match mmaFault k.accInt (8 * mxGroups d) x with
  | some cause => pure (some (.fails cause), [])
  | none =>
    let cols := mxCols d
    let n := segmentGroups (mxRate narrow x.a.fmt x.b.fmt) cols (mxGroups d) g
    match (tablesNeeded x i cols g n).find? fun b => (tfind tables b).isNone with
    | some b =>
      let (t, cs) ← takeTable w fl.item (d.op 3) b
      pure (some (.takes b t), cs)
    | none =>
      if onlyTable || (x.fromSwitch && fl.inb.length < switchRowBytes x.a.fmt (8 * mxGroups d)) then pure (none, [])
      else
        let a ← if x.fromSwitch then pure (switchElems x.a.fmt fl.inb (8 * g) (8 * n))
          else rowElems w fl.item x.a tables i (8 * g) (8 * n)
        let (bs, nan, cs) ← manyRows w fl.item x.b tables (8 * g) (8 * n) (List.range cols)
        let (core, note) := accSegment k i n a.vals bs
        pure (some (.adds n core (note ||| if a.nanBlock || nan then 8 else 0)), a.causes ++ cs)

/-- Take bytes of operand A's row from the switch, as they come. -/
def mmaFeed (c : CoreId) (fl : Flight) (s : State) : State :=
  match attempt (mmaArgs (s.queueWho c .matrix) c fl.cmd) s with
  | .done x t =>
    let need := switchRowBytes x.a.fmt (8 * mxGroups fl.cmd)
    if x.fromSwitch && (mmaFault (s.core c).accInt (8 * mxGroups fl.cmd) x).isNone && fl.inb.length < need then
      let (bs, u) := t.popEnd c 12 (need - fl.inb.length)
      u.modFlight c .matrix fl.cmd.pos fun f => { f with inb := f.inb ++ bs }
    else s
  | _ => s

/-- The collector's take waits for its granule, in the order of arrival, or waits no more (R65, R422). -/
def State.tableAsked (s : State) (c : CoreId) (waits : Bool) : State :=
  if waits then (if s.feQueue.contains (.table c) then s else { s with feQueue := s.feQueue ++ [.table c] })
  else { s with feQueue := s.feQueue.filter (· ≠ .table c) }

/-- Report row i, which is one item, unless it has been reported already (R359). -/
def reportRow (fl : Flight) (c : CoreId) (i : Nat) (cs : List (Nat × W64 × Option W64)) (s : State) : State :=
  if fl.told then s else reportCauses s c .matrix fl.cmd.pos i cs

/-- The work of MX.MMA at its row-progress word: the next segment, or what comes before it (R233, R377). A
lease must be held; an operand fault freezes the core. -/
def mmaWork (onlyTable : Bool) (c : CoreId) (fl : Flight) (s : State) : State :=
  let pos := fl.cmd.pos
  match fl.prog with
  | .matrix i g tables =>
    if !holdsLease s c then s.tableAsked c false
    else
      match attempt (mmaStep (s.queueWho c .matrix) c fl (s.array (coreCluster c)).narrow i g tables onlyTable) s with
      | .waits what => (s.noteHeld what).tableAsked c (what = .fe)
      | .failed cause a d =>
        let s := s.tableAsked c false
        if cause = accessCause .matrix 4 then s.failCommand c .matrix pos cause i
        else (s.dropTables c).freeze c .matrix pos cause a d
      | .done (none, _) _ => if onlyTable then s else mmaFeed c fl s
      | .done (some (.fails cause), _) t => t.failCommand c .matrix pos cause i
      | .done (some (.takes b table), cs) t =>
        (reportRow fl c i cs (t.tableAsked c false)).modFlight c .matrix pos fun f => { f with
          prog := .matrix i g (tinsert b table (terase tables b)), told := fl.told || !cs.isEmpty }
      | .done (some (.adds n core note), cs) t =>
        let t := reportRow fl c i cs (noteArith (t.modCore c fun k => { k with acc := core.acc }) c .matrix note)
        let rowEnds : Bool := decide (g + n ≥ mxGroups fl.cmd)
        let i' := if rowEnds then i + 1 else i
        let t := t.modFlight c .matrix pos fun f => { f with
          prog := .matrix i' (if rowEnds then 0 else g + n) tables, inb := if rowEnds then [] else f.inb,
          told := !rowEnds && (fl.told || !cs.isEmpty), finished := i' ≥ mxRows fl.cmd }
        leaseBoundary t c
  | _ => s

/-- MX.MMA (R376, R377). -/
def execMxMma (f : Ecmd) (s : State) : Out := engineCommand (.mxMma f) f .matrix (mmaWork false) s

/-- CB3_TABLE_TAKE: the operand collector takes the next table that the running segment needs (R422). -/
def execCb3TableTake (c : CoreId) (s : State) : Out :=
  .next (match s.mxRunning c with
    | some fl => (match fl.cmd.instr with
      | .mxMma _ => if s.engineGoes c then mmaWork true c fl s else s
      | _ => s)
    | none => s)

/-- What the waiting take of core c's collector comes to now; none where it has to wait on. -/
def takeWaiting (s : State) (c : CoreId) : Option State :=
  match execCb3TableTake c s with
  | .next t => if t.feQueue.contains (.table c) then none else some t
  | _ => none

/-! ## MX.DRAIN (R378) -/

/-- An accumulator's value. -/
def accValue (int : Bool) (v : BitVec 48) : FVal := if int then FVal.ofInt v.toInt else FFmt.a48.decode v.toNat

/-- A conversion to an integer range: the code and the note of a clamp (R172). -/
def drainInt (w : Nat) (lo hi : Int) (v : FVal) : Nat × BitVec 5 :=
  let (i, fl) := v.toInt 0 lo hi
  (intCode w i, if fl &&& fNV ≠ 0 && !v.isNan then 4 else 0)

/-- A conversion to a floating-point format: the code and the note of an overflow or of a NaN. -/
def drainFloat (v : FVal) (r : Nat × FpFlags) : Nat × BitVec 5 :=
  (r.1, (if r.2 &&& fOF ≠ 0 then 2 else 0) ||| (if r.2 &&& fNV ≠ 0 && !v.isNan then 1 else 0))

/-- The bytes of an accumulator in a destination format; none where R378 refuses it. -/
def drainElem (int sat : Bool) (fmt : Nat) (v : FVal) : Option (List Byte × BitVec 5) :=
  let out (n : Nat) (r : Nat × BitVec 5) : Option (List Byte × BitVec 5) := some (leBytes n r.1, r.2)
  match fmt with
  | 0 => if int then out 4 (drainInt 32 (-2147483648) 2147483647 v) else out 4 (drainFloat v (FFmt.f32.round 0 v))
  | 1 => out 4 (drainFloat v (FFmt.f32.round 0 v))
  | 2 => out 2 (drainFloat v (FFmt.bf16.round 0 v))
  | 3 => out 1 (drainFloat v (roundE4M3 0 sat v))
  | 4 => out 1 (drainFloat v (roundE5M2 0 sat v))
  | 6 => out 1 (drainInt 8 (-128) 127 v)
  | 10 => out 8 (drainFloat v (FFmt.f64.round 0 v))
  | _ => none

/-- Row i of a drain in a format. -/
def drainRow (k : Core) (sat : Bool) (fmt i cols : Nat) : Option (List Byte × BitVec 5) :=
  ((List.range cols).mapM fun j => drainElem k.accInt sat fmt (accValue k.accInt (tget 0 k.acc (128 * i + j)))).map fun xs =>
    (xs.flatMap (·.1), xs.foldl (fun m x => m ||| x.2) 0)

/-- After row i: the next row is due, or the command ends; the row is a boundary. -/
def drainWent (c : CoreId) (fl : Flight) (i : Nat) (sw : Bool) (s : State) : State :=
  let last : Bool := decide (i + 1 ≥ mxRows fl.cmd)
  let s := s.modFlight c .matrix fl.cmd.pos fun f => { f with prog := .matrix (i + 1) 0 [], outb := [], finished := last }
  leaseBoundary (if last && sw then s.closeEnd c 13 else s) c

/-- The destination rows after row i. -/
def drainLater (d : Cmd) (i bytes : Nat) : List (W64 × Nat) :=
  ((List.range (mxRows d)).drop (i + 1)).map fun r => (d.op 0 + BitVec.ofNat 64 (r * (fld (d.op 1) 0 32).toNat), bytes)

/-- Write row i to memory, in the format of the page that holds its first byte. -/
def drainStore (w : Who) (k : Core) (sat : Bool) (fl : Flight) (i : Nat) : M (BitVec 5 × List (Nat × W64 × Option W64)) := do
  let d := fl.cmd
  let va := d.op 0 + BitVec.ofNat 64 (i * (fld (d.op 1) 0 32).toNat)
  let fmt ← pageFormat w .engWrite false va
  match drainRow k sat fmt i (mxCols d) with
  | none => throw (.trap (accessCause .engWrite 4) va none)
  | some (bs, note) =>
    let ps ← translateRows w .engWrite false (rangeRows va bs.length)
    if ps.any fun p => p.fmt ≠ fmt then throw (.trap (accessCause .engWrite 4) va none)
    let cs ← storePieces w fl.item (drainLater d i bs.length) (piecesOf va bs.length) bs
    pure (note, cs)

/-- The work of MX.DRAIN: a row, or more bytes of one into the switch. -/
def mxDrainWork (f : Ecmd) (c : CoreId) (fl : Flight) (s : State) : State :=
  let pos := fl.cmd.pos
  let sw := f.w1.getLsbD 16
  let sat := f.w1.getLsbD 17
  match fl.prog with
  | .matrix i _ _ =>
    if !fl.outb.isEmpty then
      let (rest, s) := s.pushEnd c 13 fl.outb
      if rest.isEmpty then drainWent c fl i sw s else s.modFlight c .matrix pos fun x => { x with outb := rest }
    else if !holdsLease s c then s
    else if sw then
      match drainRow (s.core c) sat 0 i (mxCols fl.cmd) with
      | some (bs, note) => (noteArith s c .matrix note).modFlight c .matrix pos fun x => { x with outb := bs }
      | none => s
    else match attempt (drainStore (s.queueWho c .matrix) (s.core c) sat fl i) s with
      | .waits what => s.noteHeld what
      | .failed cause a d =>
        if itemFreezes .matrix cause then s.freeze c .matrix pos cause a d
        else drainWent c fl i sw (s.report c .matrix pos cause i)
      | .done (note, causes) t =>
        match causes.find? fun y => itemFreezes .matrix y.1 with
        | some (cause, a, d) => s.freeze c .matrix pos cause a d
        | none => drainWent c fl i sw (reportCauses (noteArith t c .matrix note) c .matrix pos i causes)
  | _ => s

/-- MX.DRAIN (R378). -/
def execMxDrain (f : Ecmd) (s : State) : Out := engineCommand (.mxDrain f) f .matrix (mxDrainWork f) s

/-! ## MX.LEASE, MX.FREE and MX.ZERO (R375) -/

/-- MX.LEASE (R375): it completes when the core holds the lease. -/
def execMxLease (f : Ecmd) (s : State) : Out :=
  engineCommand (.mxLease f) f .matrix (fun c fl s => if holdsLease s c then s.finish c .matrix fl.cmd.pos else s) s

/-- MX.FREE (R375): it ends the lease and the intent; the accumulators are kept. -/
def execMxFree (f : Ecmd) (s : State) : Out :=
  engineCommand (.mxFree f) f .matrix (fun c fl s =>
    let s := s.modCore c fun k => { k with intent := false }
    (if holdsLease s c then s.endLease (coreCluster c) else s).finish c .matrix fl.cmd.pos) s

/-- MX.ZERO (R375); like every matrix command it works under the lease (R18, R374). -/
def execMxZero (f : Ecmd) (s : State) : Out :=
  engineCommand (.mxZero f) f .matrix (fun c fl s =>
    let m := mxRows fl.cmd
    let n := mxCols fl.cmd
    if !holdsLease s c then s
    else leaseBoundary ((s.modCore c fun k => { k with
      acc := k.acc.filter (fun (e : Nat × BitVec 48) => !(e.1 / 128 < m && e.1 % 128 < n)), accInt := f.w1.getLsbD 34 }).finish
        c .matrix fl.cmd.pos) c) s

end Sys2Proof.Machine
end

