-- ==== Sys2Proof/Machine/Copy.lean ====
section
/-! DEFINITION. The copy engine: XF.COPY, XF.COPY2D, XF.FILL and XF.GATHER, their pieces, and the overlap of
copies in flight (R116, R127, R220, R363, R379, R380). -/

namespace Sys2Proof.Machine

/-! ## Shapes (R379) -/

/-- The rows of a copy command: how many, their bytes, and the destination of the first and their stride. -/
def copyRows (d : Cmd) : Nat × Nat × W64 × W64 :=
  let n := d.op 2
  match d.instr with
  | .xfCopy2d _ => ((fld n 32 32).toNat, (fld n 0 32).toNat, d.op 0, ((fld (d.op 3) 32 32).signExtend 64))
  | .xfGather f => (1, (fld n 0 32).toNat * 2 ^ (fld f.w1 24 3).toNat, d.op 0, 0)
  | _ => (1, (fld n 0 32).toNat, d.op 0, 0)

/-- The pieces of a copy command: row, offset in the row, destination, length. -/
def copyPieces (d : Cmd) : List (Nat × Nat × W64 × Nat) :=
  let (rows, len, dst, stride) := copyRows d
  (List.range rows).flatMap fun r =>
    let base := dst + BitVec.ofNat 64 r * stride
    (piecesOf base len).map fun p => (r, (p.1 - base).toNat, p.1, p.2)

/-- The flag that counts a command's pieces: none where its signal count is zero (R116). -/
def copyCount (c : CoreId) (d : Cmd) (n item : Nat) : CountTo :=
  if d.f.sigCount = 0 || scaled d.f.sigCount = 0 then none
  else some ⟨c, ⟨d.f.sigFlag, n, State.queueAgent c .copy, []⟩, false, c, .copy, queueCause .copy d.instr 2, d.pos, item⟩

/-! ## Sources (R380) -/

/-- The elements that n bytes from offset off of a gather touch: element, offset in it, bytes. -/
def gatherParts (e off n : Nat) : List (Nat × Nat × Nat) :=
  if n = 0 then []
  else (List.range ((off + n - 1) / e - off / e + 1)).map fun i =>
    let k := off / e + i
    let lo := max off (k * e)
    (k, lo - k * e, min (off + n) ((k + 1) * e) - lo)

/-- Read the elements of a gather: the index, then the bytes. An index that is not delivered reads as zero
(R104). -/
def gatherRead (w : Who) (item : Nat) (base index : W64) (e : Nat) : List (Nat × Nat × Nat) → M ReadBack
  | [] => pure ⟨[], []⟩
  | (k, o, n) :: r => do
    let i ← readBack w .engRead item (index + BitVec.ofNat 64 (4 * k)) 4
    let a ← match wholeBytes i with
      | some bs => readBack w .engRead item (base + BitVec.ofNat 64 (leNat bs * e + o)) n
      | none => pure ⟨List.replicate n none, []⟩
    let b ← gatherRead w item base index e r
    pure ⟨a.bytes ++ b.bytes, i.causes ++ a.causes ++ b.causes⟩

/-- The source bytes of a piece. -/
def copySource (w : Who) (item : Nat) (d : Cmd) (row off n : Nat) : M ReadBack :=
  match d.instr with
  | .xfCopy2d _ =>
    readBack w .engRead item (d.op 1 + BitVec.ofNat 64 row * ((fld (d.op 3) 0 32).signExtend 64) + BitVec.ofNat 64 off) n
  | .xfFill _ => pure ⟨(List.range n).map fun b => some (fld (d.op 3) (8 * ((off + b) % 8)) 8), []⟩
  | .xfGather f =>
    let e := 2 ^ (fld f.w1 24 3).toNat
    gatherRead w item (d.op 1) (d.op 3) e (gatherParts e off n)
  | _ => readBack w .engRead item (d.op 1 + BitVec.ofNat 64 off) n

/-! ## Overlap and program order (R88, R127) -/

/-- The homes of a part: first byte, length, level; of an FBC page, block by block. -/
def Part.homes (p : Part) : List (Nat × Nat × Nat) :=
  match p.home with
  | .plain a => [(a, p.len, p.level.code)]
  | .fbc _ off => p.blocks.zipIdx.map fun (e, j) =>
      let lo := if j = 0 then off % 128 else 0
      (2 ^ 60 + 128 * e + lo, min 128 (off % 128 + p.len - 128 * j) - lo, p.level.code)
  | .window _ _ => []

/-- The homes of ranges of an engine's accesses. -/
def homesOf (s : State) (w : Who) (k : Kind) (rows : List (W64 × Nat)) : List (Nat × Nat × Nat) :=
  rows.flatMap fun r =>
    match translateRows w k false (rangeRows r.1 r.2) s with
    | .ok (ps, _) => ps.flatMap Part.homes
    | .error _ => []

/-- The level at which ranges of homes share a byte. -/
def homesMeet (xs ys : List (Nat × Nat × Nat)) : Option Nat :=
  xs.findSome? fun a => ys.findSome? fun b => if a.1 < b.1 + b.2.1 && b.1 < a.1 + a.2.1 then some a.2.2 else none

/-- The destination of a copy. -/
def copyDest (d : Cmd) : List (W64 × Nat) :=
  let (rows, len, dst, stride) := copyRows d
  (List.range rows).map fun r => (dst + BitVec.ofNat 64 r * stride, len)

/-- The ranges that a piece of a copy reads. -/
def copyReads (s : State) (c : CoreId) (d : Cmd) (p : Nat × Nat × W64 × Nat) : List (W64 × Nat) :=
  match d.instr with
  | .xfCopy2d _ => [(d.op 1 + BitVec.ofNat 64 p.1 * ((fld (d.op 3) 0 32).signExtend 64) + BitVec.ofNat 64 p.2.1, p.2.2.2)]
  | .xfFill _ => []
  | .xfGather f =>
    let e := 2 ^ (fld f.w1 24 3).toNat
    (gatherParts e p.2.1 p.2.2.2).flatMap fun (k, o, n) =>
      let at_ := d.op 3 + BitVec.ofNat 64 (4 * k)
      (at_, 4) :: (match attempt (engineRead (s.queueWho c .copy) .engRead 0 at_ 4) s with
        | .done bs _ => [(d.op 1 + BitVec.ofNat 64 (leNat bs * e + o), n)]
        | _ => [])
  | _ => [(d.op 1 + BitVec.ofNat 64 p.2.1, p.2.2.2)]

/-- Must piece p of a copy wait for a piece of an earlier copy in flight, which it would otherwise pass in the engine's
program order: one reads what the other writes (R88, R89, R96)? -/
def passesEarlier (s : State) (c : CoreId) (fl : Flight) (p : Nat × Nat × W64 × Nat) : Bool :=
  let w := s.queueWho c .copy
  let reads := homesOf s w .engRead (copyReads s c fl.cmd p)
  let writes := homesOf s w .engWrite [p.2.2]
  (((s.core c).queue .copy).flights.takeWhile fun f => f.cmd.pos ≠ fl.cmd.pos).any fun f => match f.prog with
    | .copy _ done _ _ =>
      !f.finished && (copyPieces f.cmd).zipIdx.any fun (q : (Nat × Nat × W64 × Nat) × Nat) => !done.contains q.2 &&
        ((homesMeet reads (homesOf s w .engWrite [q.1.2.2])).isSome ||
         (homesMeet writes (homesOf s w .engRead (copyReads s c f.cmd q.1))).isSome)
    | _ => false

/-- The code of the overlap of two copies: none where no destination byte is common. -/
def overlapCode (s : State) (c : CoreId) (x y : Cmd) : Option Nat :=
  let w := s.queueWho c .copy
  (homesMeet (homesOf s w .engWrite (copyDest x)) (homesOf s w .engWrite (copyDest y))).map fun l => 128 + l * 16 + 1

/-- Are two copies tracked by one flag? -/
def sameFlag (x y : Cmd) : Bool :=
  scaled x.f.sigCount ≠ 0 && scaled y.f.sigCount ≠ 0 && x.f.sigFlag = y.f.sigFlag

/-- A copy's completion is signalled: those in flight that overlap it under another flag will report it (R127). -/
def markOverlaps (s : State) (c : CoreId) (x : Cmd) : State :=
  let v := (s.core c).queue .copy
  s.modCore c fun k => k.setQueue .copy { v with flights := v.flights.map fun f =>
    match f.prog with
    | .copy total done none false =>
      if f.cmd.pos ≠ x.pos && !sameFlag f.cmd x then { f with prog := .copy total done (overlapCode s c x f.cmd) false } else f
    | _ => f }

/-- The completion of a copy is signalled, all of its counts having been added: it reports its overlap with one that was
signalled before, and those in flight learn of it (R127). -/
def settleOverlap (s : State) (c : CoreId) (fl : Flight) : State :=
  match fl.prog with
  | .copy total done ov false =>
    let s := match ov with
      | some code => s.report c .copy fl.cmd.pos code 0
      | none => s
    markOverlaps (s.modFlight c .copy fl.cmd.pos fun f => { f with prog := .copy total done ov true }) c fl.cmd
  | _ => s

/-- Settle a copy that has ended and of which no image is held. -/
def copyEnded (s : State) (c : CoreId) (pos : Nat) : State :=
  match s.flight? c .copy pos with
  | some fl =>
    if fl.finished && !(s.held.any fun h => h.item = fl.item || h.tagItem = fl.item) then settleOverlap s c fl else s
  | none => s

/-! ## Granules that two copies write (R127) -/

/-- The bytes of a piece that another copy in flight has written, in the granules that end with its data: which these are is
free, and decided for each granule. -/
def keptBytes (s : State) (c : CoreId) (fl : Flight) (va : W64) (n : Nat) : List Bool :=
  let w := s.queueWho c .copy
  let there := (((s.core c).queue .copy).flights.filter fun f => f.cmd.pos ≠ fl.cmd.pos).flatMap fun f => match f.prog with
    | .copy _ done _ _ => homesOf s w .engWrite (((copyPieces f.cmd).zipIdx.filter fun q => done.contains q.2).map (·.1.2.2))
    | _ => []
  if (homesMeet (homesOf s w .engWrite [(va, n)]) there).isNone then []
  else (grains va n).zipIdx.flatMap fun (g, i) =>
    (homesOf s w .engWrite [g]).flatMap fun h => (List.range h.2.1).map fun b =>
      Config.copyKept s.moment i && there.any fun o => o.1 ≤ h.1 + b && h.1 + b < o.1 + o.2.1

/-- What copy piece writes over its destination: its bytes, but for those that stay another copy's. -/
def settleGranules (s : State) (c : CoreId) (fl : Flight) (va : W64) (bs : List Byte) : List Byte × State :=
  let kept := keptBytes s c fl va bs.length
  if kept.isEmpty then (bs, s)
  else
    let old := match translateRows (s.queueWho c .copy) .engWrite false [(va, bs.length)] s with
      | .ok (ps, _) => ps.flatMap fun p => s.partBytes (versionOf s (State.queueAgent c .copy) { item := some fl.item } p) p
      | .error _ => bs
    (bs.zipIdx.map fun (b, i) => if kept.getD i false then old.getD i b else b, s.tick)

/-! ## Pieces -/

/-- How performing a piece ends. -/
inductive PieceEnd where
  | performed (s : State) (causes : List (Nat × W64 × Option W64))
  | freezes (cause : Nat) (addr : W64) (detail : Option W64)
  | notNow (what : WaitFor)

/-- Move a piece: its source bytes, from memory or the switch, to its destination, in memory or the switch
(R363, R380). While a route joins the copy engine, an XF command's data goes by it. -/
def movePiece (s : State) (c : CoreId) (fl : Flight) (p : Nat × Nat × W64 × Nat) (later : List (W64 × Nat)) : PieceEnd :=
  let w := s.queueWho c .copy
  let (row, off, dst, n) := p
  let out := (s.sourceQueue c 14).isSome
  let inp := (s.sinkQueue c 14).isSome
  let count := copyCount c fl.cmd n ((copyRows fl.cmd).2.1 * row + off)
  let body : M (List (Nat × W64 × Option W64)) := do
    let r : ReadBack ← if inp && !out then pure ⟨[], []⟩ else copySource w fl.item fl.cmd row off n
    match r.causes.find? fun x => itemFreezes .copy x.1 with
    | some x => pure [x]
    | none =>
      if out then
        match (← get).pushWhole c 14 (r.bytes.map fun b => b.getD 0) with
        | some t => set t
        | none => throw (.wait .other)
      let bytes : Option (List Byte) ←
        if inp then
          match (← get).popWhole c 14 n with
          | some (bs, t) => do
            set t
            pure (some bs)
          | none => throw (.wait .other)
        else pure (wholeBytes r)
      if out && !inp then
        modify fun s => countRefused s count
        pure r.causes
      else match bytes with
        | some bs => do
          let (bs, t) := settleGranules (← get) c fl dst bs
          set t
          let ws ← pieceStore w fl.item fl.item later count dst bs
          pure (r.causes ++ ws)
        | none => do
          modify fun s => countRefused s count
          pure r.causes
  match attempt body s with
  | .waits what => .notNow what
  | .failed cause a d => .freezes cause a d
  | .done causes t =>
    match causes.find? fun x => itemFreezes .copy x.1 with
    | some (cause, a, d) => .freezes cause a d
    | none => .performed t causes

/-- PIECE_PERFORMED of a copy command: piece i is moved, counted and, where it failed, reported (R116, R220,
R359) (log 35: DEDUCED). -/
def performCopy (s : State) (c : CoreId) (pos i : Nat) : State :=
  match s.flight? c .copy pos with
  | none => s
  | some fl =>
    match fl.prog with
    | .copy total done ov signalled =>
      let ps := copyPieces fl.cmd
      let ordered := (s.sourceQueue c 14).isSome || (s.sinkQueue c 14).isSome
      match ps[i]? with
      | none => s
      | some p =>
        if fl.finished || done.contains i || !s.engineGoes c || (ordered && done.length ≠ i) || passesEarlier s c fl p then s
        else
          let (_, len, _, _) := copyRows fl.cmd
          let item := len * p.1 + p.2.1
          let later := (ps.zipIdx.filter fun q => q.2 ≠ i && !done.contains q.2).map fun q => (q.1.2.2.1, q.1.2.2.2)
          match movePiece s c fl p later with
          | .notNow what => s.noteHeld what
          | .freezes cause a d => s.freeze c .copy pos cause a d
          | .performed t causes =>
            let t := match causes with
              | x :: _ => t.report c .copy pos x.1 item
              | [] => t
            let t := t.modFlight c .copy pos fun f => { f with
              prog := .copy total (done ++ [i]) ov signalled, finished := done.length + 1 = total }
            let t := if done.length + 1 = total && (s.sourceQueue c 14).isSome then t.closeEnd c 14 else t
            if done.length + 1 = total then copyEnded t c pos else t
    | _ => s

/-- The work of a copy command in flight: its next piece in order; any other may be performed first
(PIECE_PERFORMED). -/
def copyWork (c : CoreId) (fl : Flight) (s : State) : State :=
  match fl.prog with
  | .copy total done _ _ =>
    match (List.range total).find? fun i => !done.contains i with
    | some i => performCopy s c fl.cmd.pos i
    | none => s.finish c .copy fl.cmd.pos
  | _ => s

/-- XF.COPY (R380). -/
def execXfCopy (f : Ecmd) (s : State) : Out := engineCommand (.xfCopy f) f .copy copyWork s

/-- XF.COPY2D (R380). -/
def execXfCopy2d (f : Ecmd) (s : State) : Out := engineCommand (.xfCopy2d f) f .copy copyWork s

/-- XF.FILL (R380). -/
def execXfFill (f : Ecmd) (s : State) : Out := engineCommand (.xfFill f) f .copy copyWork s

/-- XF.GATHER (R380). -/
def execXfGather (f : Ecmd) (s : State) : Out := engineCommand (.xfGather f) f .copy copyWork s

/-! ## Held images -/

/-- FBC_HELD_IMAGE_ENCODE: the image of a block that is due is encoded, and the byte counts that follow its
write are added (R151, R116). -/
def execFbcHeldImageEncode (block : Nat) (s : State) : Out :=
  match s.held.find? fun h => h.enc = block && h.due with
  | none => .next s
  | some h =>
    let s := { s with held := s.held.erase h }
    let s := s.encodeFor h.owner h.leaf h.enc h.bytes
    let s := if h.counts.isEmpty then s else s.releaseKeys h.tagItem [fbcGranule h.enc 0, fbcGranule h.enc 1]
    let s := h.counts.foldl addCount s
    .next ((List.finRange 256).foldl (fun s c =>
      match ((s.core c).queue .copy).flights.find? fun f => f.item = h.item with
      | some f => copyEnded s c f.cmd.pos
      | none => s) s)

end Sys2Proof.Machine
end

