-- ==== Sys2Proof/Machine/Quay.lean ====
section
/-! DEFINITION. The Quay: SL.SAVE, SL.LOAD, SL.SNAP, SL.FORK, SL.ROLL and SL.DROP, page by page, the pending
copies of forks, and the copy of a guarded page (R78 to R82, R159 to R162, R231, R381 to R385, R420, R421). -/

namespace Sys2Proof.Machine

/-! ## Operands (R381, R382) -/

def quayBank (f : Ecmd) : Bool := f.w1.getLsbD 10
def quayIndex (f : Ecmd) : Nat := (fld f.w1 12 4).toNat

/-- Does the command use its snapshot index? -/
def usesSnapshot : Instr → Bool
  | .slSnap _ => true
  | .slFork _ => true
  | .slRoll _ => true
  | .slDrop f => f.w1.getLsbD 16
  | _ => false

/-- A descriptor that a Quay command reads: its session, or the cause that fails the command. -/
def readDescriptor (w : Who) (item : Nat) (va : W64) : M (Except Nat Session) := do
  if va.toNat % 64 ≠ 0 then pure (.error 232)
  else match attempt (engineRead w .engRead item va 64) (← get) with
    | .waits what => throw (.wait what)
    | .failed c _ _ => pure (.error c)
    | .done bs s =>
      set s
      pure (match parseSession bs with
        | some x => if (parseSnaps x.snaps).isSome then .ok x else .error 232
        | none => .error 232)

/-- An entry of a snapshot table: its address, SFRAME, FORKED. -/
structure Entry where
  addr : W64
  sframe : W64
  forked : W64
  deriving DecidableEq, Repr

/-- Read entry n of a session's snapshot table. -/
def readEntry (w : Who) (item : Nat) (x : Session) (n : Nat) : M (Except Nat Entry) := do
  match parseSnaps x.snaps with
  | none => pure (.error 232)
  | some (base, count) =>
    if n ≥ count then pure (.error 232)
    else
      let va := base + BitVec.ofNat 64 (16 * n)
      match attempt (engineRead w .engRead item va 16) (← get) with
      | .waits what => throw (.wait what)
      | .failed c _ _ => pure (.error c)
      | .done bs s =>
        set s
        pure (.ok ⟨va, wordAt bs 0, wordAt bs 1⟩)

/-- The first n entries of a session's table, or the cause of the first that cannot be read. -/
def readEntries (w : Who) (item : Nat) (x : Session) : Nat → M (Except Nat (List Entry))
  | 0 => pure (.ok [])
  | n + 1 => do
    match ← readEntries w item x n, ← readEntry w item x n with
    | .ok r, .ok e => pure (.ok (r ++ [e]))
    | .error c, _ => pure (.error c)
    | _, .error c => pure (.error c)

/-- Every entry of a session's table. -/
def allEntries (w : Who) (item : Nat) (x : Session) : M (Except Nat (List Entry)) :=
  readEntries w item x ((parseSnaps x.snaps).map (·.2) |>.getD 0)

/-! ## Pending copies (R384, R421) -/

/-- The fork record of a core for a descriptor: the forked session's, and the address of its snapshot entry (R421). -/
def recordOf (k : Core) (desc : W64) : Option (W64 × W64) := k.forks.find? fun r => r.1 = desc

/-- The fork record by which the Timetable moves a slate on core c: the core's own, or one that a context saved from it
holds (R236, R421) (log 66: DESIGN CHOICE). -/
def recordFor (s : State) (c : CoreId) (desc : W64) : Option (W64 × W64) :=
  (recordOf (s.core c) desc).orElse fun _ =>
    (s.saved.filter fun v => v.core = c).findSome? fun v => recordOf v.image desc

/-- Free the record of an entry that core c keeps, on the core or in a context saved from it. -/
def freeRecord (s : State) (c : CoreId) (entry : W64) : State :=
  let free (k : Core) : Core := { k with forks := k.forks.filter fun r => r.2 ≠ entry }
  let s := s.modCore c free
  { s with saved := s.saved.map fun v => if v.core = c then { v with image := free v.image } else v }

/-- Clear FORKED of an entry and free its record, also where the write fails: the cause of that (log 65: DEDUCED). -/
def clearForked (w : Who) (c : CoreId) (item : Nat) (entry : W64) : M (Option Nat) := do
  let r ← match attempt (engineWrite w item [] (entry + 8) (List.replicate 8 0)) (← get) with
    | .waits what => throw (.wait what)
    | .failed cause _ _ => pure (some cause)
    | .done _ s => do
      set s
      pure none
  modify fun s => freeRecord s c entry
  pure r

/-- The format of a snapshot's frame, which is that of its page (R382), or the cause that its page fails with. -/
def frameFormat (w : Who) (frame : W64) : M (Except Nat Nat) := do
  match attempt (translateRows w .engRead false [(frame, 1)]) (← get) with
  | .waits what => throw (.wait what)
  | .failed cause _ _ => pure (.error cause)
  | .done ps s =>
    set s
    let f := (ps.head?.map (·.fmt)).getD 0
    pure (if f = 8 || f = 9 then .ok f else .error (accessCause .engRead 4))

/-- Perform the pending copy of an entry to the frame of the session that forked from it, in the formats of
the two frames, and clear FORKED (R162, R384); the sessions' sizes match. A failed copy is answered with its cause. -/
def performFork (w : Who) (c : CoreId) (item : Nat) (e : Entry) : M (Option Nat) := do
  let r ← match ← readDescriptor w item e.forked, ← frameFormat w e.sframe with
    | .error cause, _ => pure (some cause)
    | _, .error cause => pure (some cause)
    | .ok y, .ok sf =>
      match attempt (copyFrame w item e.sframe sf y.frame y.ffmt y.size) (← get) with
      | .waits what => throw (.wait what)
      | .failed cause _ _ => pure (some cause)
      | .done _ s => do
        set s
        pure none
  let q ← clearForked w c item e.addr
  pure (r.orElse fun _ => q)

/-- Perform the pending copies among entries whose SFRAME is the frame to be written. -/
def forkFirst (w : Who) (c : CoreId) (item : Nat) (frame : W64) : List Entry → M (Option Nat)
  | [] => pure none
  | e :: r => do
    let a ← if e.forked ≠ 0 && e.sframe = frame then performFork w c item e else pure none
    let b ← forkFirst w c item frame r
    pure (a.orElse fun _ => b)

/-- The frame that a forked session reads, and its format: the snapshot's, or the cause of a failed read (R384). -/
def forkSource (w : Who) (item : Nat) (r : W64 × W64) : M (Except Nat (W64 × Nat)) := do
  match attempt (engineRead w .engRead item r.2 16) (← get) with
  | .waits what => throw (.wait what)
  | .failed cause _ _ => pure (.error cause)
  | .done bs s =>
    set s
    pure ((← frameFormat w (wordAt bs 0)).map fun f => (wordAt bs 0, f))

/-! ## Starting a command (R382) -/

/-- What a Quay command's start gives: a job, an effect with no pages (true), or a failure that moves no data. -/
inductive QuayStart where
  | job (j : QuayJob) (cause : Option Nat)
  | table (cause : Option Nat)
  | fails (cause : Nat)

/-- A frame's check: its alignment, and the format of every page of it (R382) (log 65: DEDUCED). -/
def frameFault (s : State) (w : Who) (k : Kind) (frame : W64) (ffmt size : Nat) : Option Nat :=
  if frame.toNat % 128 ≠ 0 then some 238
  else match (translateRows w k false (rangeRows frame size)) s with
    | .ok (ps, _) => if ps.any fun p => p.fmt ≠ ffmt then some (accessCause k 4) else none
    | .error (.trap c _ _) => if c = accessCause k 4 then some c else none
    | .error (.wait _) => none

/-- The bytes of a frame (R160). -/
def frameBytes (ffmt size : Nat) : Nat := if ffmt = 8 then (size + 127) / 128 * 128 else size

/-- Begin to save to, or load from, a frame. -/
def frameJob (w : Who) (d : Cmd) (f : Ecmd) (frame : W64) (ffmt size : Nat) (writes : Bool) (cause : Option Nat) : M QuayStart := do
  match frameFault (← get) w (if writes then .engRead else .engWrite) frame ffmt (frameBytes ffmt size) with
  | some e => pure (.fails e)
  | none => pure (.job ⟨d.op 0, quayBank f, frame, ffmt, size, writes, 0, 0, []⟩ cause)

/-- Make the fork of entry e of session x the pending copy of the session at gF (R384, R421). -/
def forkEntry (w : Who) (c : CoreId) (item : Nat) (d : Cmd) (x : Session) (e : Entry) : M QuayStart := do
  match ← readDescriptor w item (d.op 1) with
  | .error cause => pure (.fails cause)
  | .ok y =>
    if y.size ≠ x.size then pure (.fails 232)
    else
      let a ← if e.forked ≠ 0 then performFork w c item e else pure none
      let k := (← get).core c
      let b ← match (if k.forks.length ≥ 16 then k.forks.head? else none) with
        | none => pure none
        | some r =>
          match attempt (engineRead w .engRead item r.2 16) (← get) with
          | .waits what => throw (.wait what)
          | .done bs _ => performFork w c item ⟨r.2, wordAt bs 0, r.1⟩
          | .failed cause _ _ => do
            let _ ← clearForked w c item r.2
            pure (some cause)
      match attempt (engineWrite w item [] (e.addr + 8) (leBytes 8 (d.op 1).toNat)) (← get) with
      | .waits what => throw (.wait what)
      | .failed cause _ _ => pure (.table ((a.orElse fun _ => b).orElse fun _ => some cause))
      | .done _ s =>
        set (s.modCore c fun k => { k with forks := k.forks ++ [(d.op 1, e.addr)] })
        pure (.table (a.orElse fun _ => b))

/-- Clear a snapshot entry (R384, R385). -/
def dropEntry (w : Who) (c : CoreId) (item : Nat) (e : Entry) : M QuayStart := do
  let a ← if e.forked ≠ 0 then performFork w c item e else pure none
  match attempt (engineWrite w item [] e.addr (List.replicate 8 0)) (← get) with
  | .waits what => throw (.wait what)
  | .failed cause _ _ => pure (.table (a.orElse fun _ => some cause))
  | .done _ s =>
    set s
    pure (.table a)

/-- What a Quay command does at its start: the descriptor and table are read and checked, pending copies that
come first are made, and a command that moves a bank gets its job. A table that cannot be read fails the command (log 65:
DEDUCED). -/
def quayBegin (w : Who) (c : CoreId) (item : Nat) (d : Cmd) : M QuayStart := do
  match ← readDescriptor w item (d.op 0) with
  | .error cause => pure (.fails cause)
  | .ok x =>
    let n := quayIndex d.f
    let entry : Except Nat (Option Entry) ← if usesSnapshot d.instr then
        (match ← readEntry w item x n with
         | .ok e => pure (if e.sframe = 0 then .error 232 else .ok (some e))
         | .error cause => pure (.error cause))
      else pure (.ok none)
    match entry with
    | .error cause => pure (.fails cause)
    | .ok none =>
      match d.instr with
      | .slLoad f =>
        match recordOf ((← get).core c) (d.op 0) with
        | some r =>
          match ← forkSource w item r with
          | .ok y => frameJob w d f y.1 y.2 x.size true none
          | .error cause => pure (.fails cause)
        | none => frameJob w d f x.frame x.ffmt x.size true none
      | .slSave f =>
        match frameFault (← get) w .engWrite x.frame x.ffmt (frameBytes x.ffmt x.size) with
        | some e => pure (.fails e)
        | none =>
          match ← allEntries w item x with
          | .error cause => pure (.fails cause)
          | .ok es =>
            let e ← forkFirst w c item x.frame es
            frameJob w d f x.frame x.ffmt x.size false e
      | _ => pure (.table none)
    | .ok (some e) =>
      match d.instr with
      | .slSnap f =>
        match frameFault (← get) w .engWrite e.sframe x.ffmt (frameBytes x.ffmt x.size) with
        | some cause => pure (.fails cause)
        | none =>
          match ← allEntries w item x with
          | .error cause => pure (.fails cause)
          | .ok es =>
            let r ← forkFirst w c item e.sframe es
            frameJob w d f e.sframe x.ffmt x.size false r
      | .slRoll f => frameJob w d f e.sframe x.ffmt x.size true none
      | .slFork _ => forkEntry w c item d x e
      | _ => dropEntry w c item e

/-! ## Pages (R78 to R81) -/

/-- The jobs of core c's Quay before the command at a queue position: the Timetable's, and the earlier commands'. -/
def earlierJobs (k : Core) (pos : Nat) : List QuayJob :=
  k.moves.map (·.job) ++ ((k.queue .quay).flights.takeWhile fun f => f.cmd.pos ≠ pos).filterMap fun f => match f.prog with
    | .quay j => some j
    | _ => none

/-- May the bank side of page n of a job go on behind earlier jobs: each on the same bank has read or written the page (two
readers never wait on each other), and no write that stalled on it is still to be performed (R81)? -/
def bankDue (k : Core) (es : List QuayJob) (j : QuayJob) (n : Nat) : Bool :=
  (es.all fun e => e.bank ≠ j.bank || jobPages e ≤ n || (if e.writesBank then n < e.pagesDone else (!j.writesBank || n < e.read))) &&
  !(j.writesBank && (stalledPages k).contains ((if j.bank then 128 else 0) + n))

/-- May the frame side of page n of a job go on behind earlier jobs: what they still read or write of the frame's bytes does
not meet it, unless both read (R88, R89)? -/
def frameDue (es : List QuayJob) (j : QuayJob) (n : Nat) : Bool :=
  es.all fun e => (e.writesBank && j.writesBank) || jobPages e ≤ e.pagesDone ||
    !rangesMeet (j.frame + BitVec.ofNat 64 (4096 * n), pageLen j.size n)
      (e.frame + BitVec.ofNat 64 (4096 * e.pagesDone), e.size - 4096 * e.pagesDone)

/-- Is one of the Quay's two staging buffers free for a job: the last one is kept for an earlier save that has none (R78)? -/
def bufferFree (k : Core) (es : List QuayJob) : Bool :=
  let used := ((quayJobs k).map fun j => j.staged.length).foldl (· + ·) 0
  used + (if es.any fun e => !e.writesBank && e.staged.isEmpty && e.pagesDone < jobPages e then 1 else 0) < 2

/-- Read the next bank page of a save into a staging buffer, where one is free (R78, R79). -/
def stageNext (s : State) (c : CoreId) (es : List QuayJob) (j : QuayJob) : QuayJob :=
  if !j.writesBank && bufferFree (s.core c) es && j.read < jobPages j && bankDue (s.core c) es j j.read then stagePage s c j else j

/-- A step of a job behind the jobs `es` of its core and `fs` on its frame: a page arrives in the bank, or a staged page is
written to the frame, or a page is staged. The state, the job, and the cause of what failed. -/
def jobStep (s : State) (c : CoreId) (w : Who) (item : Nat) (es fs : List QuayJob) (j : QuayJob) : State × QuayJob × Option Nat :=
  let n := j.pagesDone
  let page := (if j.bank then 128 else 0) + n
  if jobPages j ≤ n then (s, j, none)
  else if j.writesBank then
    if !bankDue (s.core c) es j n || !frameDue fs j n then (s, j, none)
    else
      let s := if ((s.core c).piece.map fun (q : Piece) => q.guarded.contains page).getD false then s.guardCopy c page else s
      let r := loadPage s c w item j n
      match r.2.2 with
      | some what => (s.noteHeld what, j, none)
      | none => (r.1, { j with pagesDone := n + 1 }, r.2.1)
  else if j.staged.isEmpty then (s, stageNext s c es j, none)
  else if !frameDue fs j n then (s, j, none)
  else
    let r := savePage s w item j
    match r.2.2 with
    | some what => (s.noteHeld what, j, none)
    | none => (r.1, { j with pagesDone := n + 1, staged := j.staged.drop 1 }, r.2.1)

/-- A session whose whole slate has been saved is forked no more (R384): the state with the failure of the write that says
so, or what it must wait for. -/
def unfork (s : State) (c : CoreId) (item : Nat) (r : Option (W64 × W64)) : Except WaitFor (State × Option Nat) :=
  match r with
  | none => .ok (s, none)
  | some r => match attempt (clearForked (quayWho s c) c item r.2) s with
    | .done e t => .ok (t, e)
    | .failed e _ _ => .ok (s, some e)
    | .waits what => .error what

/-- Once a command's pages have moved it ends, a SAVE when its session is forked no more (R383, R384). -/
def finishJob (s : State) (c : CoreId) (fl : Flight) (j : QuayJob) : State :=
  let pos := fl.cmd.pos
  if j.pagesDone < jobPages j then s
  else match fl.cmd.instr with
    | .slSave _ => (match unfork s c fl.item (recordOf (s.core c) j.desc) with
      | .error what => s.noteHeld what
      | .ok (t, none) => t.finish c .quay pos
      | .ok (t, some e) => (t.report c .quay pos e (j.pagesDone - 1)).finish c .quay pos)
    | _ => s.finish c .quay pos

/-- The next step of a command's job; a page that fails is reported (R383). -/
def movePage (s : State) (c : CoreId) (fl : Flight) (j : QuayJob) : State :=
  if fl.finished || !s.engineGoes c then s
  else
    let es := earlierJobs (s.core c) fl.cmd.pos
    let r := jobStep s c (quayWho s c) fl.item es es j
    let t := match r.2.2 with
      | some e => r.1.report c .quay fl.cmd.pos e j.pagesDone
      | none => r.1
    finishJob (t.modFlight c .quay fl.cmd.pos fun f => { f with prog := .quay r.2.1 }) c fl r.2.1

/-- QUAY_PAGE_READ: the Quay reads the next bank page of a save into a staging buffer (R78, R79). -/
def execQuayPageRead (c : CoreId) (pos : Nat) (s : State) : Out :=
  .next (match s.flight? c .quay pos with
    | some fl => (match fl.prog with
      | .quay j => if fl.finished || !s.engineGoes c then s
          else s.modFlight c .quay pos fun f => { f with prog := .quay (stageNext s c (earlierJobs (s.core c) pos) j) }
      | _ => s)
    | none => s)

/-- QUAY_PAGE_ARRIVED: the next page of the frame arrives in the bank (R80). -/
def execQuayPageArrived (c : CoreId) (pos : Nat) (s : State) : Out :=
  .next (match s.flight? c .quay pos with
    | some fl => (match fl.prog with
      | .quay j => if j.writesBank then movePage s c fl j else s
      | _ => s)
    | none => s)

/-- The work of a Quay command in flight: its next page, or, for a drop of a bank, the mark once every earlier
command has moved its pages (R81, R385). -/
def quayWork (c : CoreId) (fl : Flight) (s : State) : State :=
  match fl.prog, fl.cmd.instr with
  | .quay j, _ => movePage s c fl j
  | .plain, .slDrop f =>
    if (earlierJobs (s.core c) fl.cmd.pos).all fun e =>
        e.bank ≠ quayBank f || jobPages e ≤ (if e.writesBank then e.pagesDone else e.read) then
      (s.setBank c (quayBank f) none).finish c .quay fl.cmd.pos
    else s
  | _, _ => s.finish c .quay fl.cmd.pos

/-! ## Slates that the Timetable moves (R210) -/

/-- What a move does first: a forked session's slate comes from the snapshot, and a frame that is to be written is first
copied for the sessions forked from it (R384). The job, and the cause of what failed; a frame that cannot be used ends it. -/
def moveBegin (w : Who) (c : CoreId) (item : Nat) (j : QuayJob) : M (QuayJob × Option Nat) := do
  let r : QuayJob × Option Nat ← match ← readDescriptor w item j.desc with
    | .error cause => pure (j, some cause)
    | .ok x =>
      if j.writesBank then
        match recordFor (← get) c j.desc with
        | none => pure (j, none)
        | some r => match ← forkSource w item r with
          | .ok y => pure ({ j with frame := y.1, ffmt := y.2 }, none)
          | .error cause => pure (j, some cause)
      else match ← allEntries w item x with
        | .error cause => pure (j, some cause)
        | .ok es => do
          let e ← forkFirst w c item x.frame es
          pure (j, e)
  match frameFault (← get) w (if j.writesBank then .engRead else .engWrite) r.1.frame r.1.ffmt (frameBytes r.1.ffmt j.size) with
  | some e => pure ({ r.1 with pagesDone := jobPages j }, r.2.orElse fun _ => some e)
  | none => pure r

/-- The moves begun before one with the item, on any core. -/
def earlierMoves (s : State) (item : Nat) : List QuayJob :=
  s.cores.toList.flatMap fun k => (k.moves.filter fun m => m.item < item).map (·.job)

/-- Change move n of core c. -/
def State.modMove (s : State) (c : CoreId) (n : Nat) (f : SlateMove → SlateMove) : State :=
  s.modCore c fun k => { k with moves := k.moves.modify n f }

/-- A move has ended: it leaves its core; what failed is raised, 358 for a load and 359 for a save (R210, R228), and a slate
that a quiesce could not save does not count (R413). -/
def endMove (s : State) (c : CoreId) (n : Nat) (m : SlateMove) : State :=
  let s := (s.modCore c fun k => { k with moves := k.moves.eraseIdx n }).releaseItem m.item
  let s := if m.failed && m.keeps then { s with saving := s.saving.map (· - 1) } else s
  if m.failed then s.raiseAny (if m.job.writesBank then 358 else 359) else s

/-- A step of the n-th slate that the Timetable moves on core c; with `ahead` the next bank page of a save is read into a
staging buffer (R78, R210, R239, R245). -/
def slateMoveTurn (c : CoreId) (n : Nat) (ahead : Bool) (s : State) : State :=
  match (s.core c).moves[n]? with
  | none => s
  | some m =>
    let w := quayWho s c
    if !m.begun then
      match attempt (moveBegin w c m.item m.job) s with
      | .waits what => s.noteHeld what
      | .failed _ _ _ => s.modMove c n fun m => { m with begun := true, failed := true }
      | .done (j, e) t => t.modMove c n fun m => { m with begun := true, job := j, failed := e.isSome }
    else if ahead then s.modMove c n fun m => { m with job := stageNext s c (((s.core c).moves.take n).map (·.job)) m.job }
    else if m.job.pagesDone < jobPages m.job then
      let r := jobStep s c w m.item (((s.core c).moves.take n).map (·.job)) (earlierMoves s m.item) m.job
      r.1.modMove c n fun m => { m with job := r.2.1, failed := m.failed || r.2.2.isSome }
    else if !s.acked w.agent then s
    else if m.job.writesBank then endMove s c n m
    else match unfork s c m.item (recordFor s c m.job.desc) with
      | .error what => s.noteHeld what
      | .ok (t, e) => endMove t c n { m with failed := m.failed || e.isSome }

/-- SL.SAVE (R383). -/
def execSlSave (f : Ecmd) (s : State) : Out := engineCommand (.slSave f) f .quay quayWork s

/-- SL.LOAD (R383). -/
def execSlLoad (f : Ecmd) (s : State) : Out := engineCommand (.slLoad f) f .quay quayWork s

/-- SL.SNAP (R383). -/
def execSlSnap (f : Ecmd) (s : State) : Out := engineCommand (.slSnap f) f .quay quayWork s

/-- SL.FORK (R384). -/
def execSlFork (f : Ecmd) (s : State) : Out := engineCommand (.slFork f) f .quay quayWork s

/-- SL.ROLL (R383). -/
def execSlRoll (f : Ecmd) (s : State) : Out := engineCommand (.slRoll f) f .quay quayWork s

/-- SL.DROP (R384, R385). -/
def execSlDrop (f : Ecmd) (s : State) : Out := engineCommand (.slDrop f) f .quay quayWork s

/-- GUARDED_PAGE_COPY: the page that a write waits for is copied to the rollback area, which releases the write
(R231). -/
def execGuardedPageCopy (c : CoreId) (page : Nat) (s : State) : Out :=
  .next (if (s.core c).guardWait.contains page && ((s.core c).piece.map fun (q : Piece) => q.guarded.contains page).getD false
    then s.guardCopy c page else s)

end Sys2Proof.Machine
end

