-- ==== Sys2Proof/Machine/ScalarFloat.lean ====
section
/-! DEFINITION. Scalar floating point, FADD to FCVT (R293 to R296). -/

namespace Sys2Proof.Machine

/-- The width that x[0] selects (R293). -/
def fpFmt (f : Lb) : FFmt := if f.x.getLsbD 0 then .f64 else .f32

/-- The code of an operand: an FP32 operand is bits [31:0] of its register (R293). -/
def fpCode (f : Lb) (v : W64) : Nat := if f.x.getLsbD 0 then v.toNat else (fld v 0 32).toNat

/-- The value of register r. -/
def fpVal (s : State) (f : Lb) (r : BitVec 5) : FVal := (fpFmt f).decode (fpCode f (s.g r))

/-- Round a result by RMODE into g[d] and record its flags (R164, R165). -/
def fpResult (s : State) (f : Lb) (v : FVal) (fl : FpFlags) : Out :=
  let (c, rf) := (fpFmt f).round s.cpu.rmode v
  .next ((s.setG f.d (BitVec.ofNat 64 c)).addFlags (fl ||| rf))

/-- FADD (R294). -/
def execFadd (f : Lb) (s : State) : Out :=
  let (v, nv) := FVal.add s.cpu.rmode (fpVal s f f.a) (fpVal s f f.b)
  fpResult s f v (flagIf nv fNV ||| sigFlag [fpVal s f f.a, fpVal s f f.b])

/-- FSUB (R294). -/
def execFsub (f : Lb) (s : State) : Out :=
  let (v, nv) := FVal.add s.cpu.rmode (fpVal s f f.a) (fpVal s f f.b).negate
  fpResult s f v (flagIf nv fNV ||| sigFlag [fpVal s f f.a, fpVal s f f.b])

/-- FMUL (R294). -/
def execFmul (f : Lb) (s : State) : Out :=
  let (v, nv) := FVal.mul (fpVal s f f.a) (fpVal s f f.b)
  fpResult s f v (flagIf nv fNV ||| sigFlag [fpVal s f f.a, fpVal s f f.b])

/-- FFMA, one rounding (R294). -/
def execFfma (f : Lb) (s : State) : Out :=
  let (v, nv) := FVal.fma s.cpu.rmode (fpVal s f f.a) (fpVal s f f.b) (fpVal s f f.c)
  fpResult s f v (flagIf nv fNV ||| sigFlag [fpVal s f f.a, fpVal s f f.b, fpVal s f f.c])

/-- FDIV (R294). -/
def execFdiv (f : Lb) (s : State) : Out :=
  let (v, nv, dz) := FVal.div (fpVal s f f.a) (fpVal s f f.b)
  fpResult s f v (flagIf nv fNV ||| flagIf dz fDZ ||| sigFlag [fpVal s f f.a, fpVal s f f.b])

/-- FSQRT (R294). -/
def execFsqrt (f : Lb) (s : State) : Out :=
  let (v, nv) := FVal.sqrt (fpVal s f f.a)
  fpResult s f v (flagIf nv fNV ||| sigFlag [fpVal s f f.a])

/-- The smaller or larger of two codes with -0 below +0; a NaN gives the other operand, two the canonical
NaN (R294). -/
def minMaxCode (fmt : FFmt) (larger : Bool) (a b : Nat) : Nat × FpFlags :=
  let va := fmt.decode a
  let vb := fmt.decode b
  let fl := sigFlag [va, vb]
  if va.isNan then ((if vb.isNan then fmt.nanCode else b), fl)
  else if vb.isNan then (a, fl)
  else if larger then ((if va.below vb then b else a), fl)
  else ((if vb.below va then b else a), fl)

/-- FMIN (R294). -/
def execFmin (f : Lb) (s : State) : Out :=
  let (c, fl) := minMaxCode (fpFmt f) false (fpCode f (s.g f.a)) (fpCode f (s.g f.b))
  .next ((s.setG f.d (BitVec.ofNat 64 c)).addFlags fl)

/-- FMAX (R294). -/
def execFmax (f : Lb) (s : State) : Out :=
  let (c, fl) := minMaxCode (fpFmt f) true (fpCode f (s.g f.a)) (fpCode f (s.g f.b))
  .next ((s.setG f.d (BitVec.ofNat 64 c)).addFlags fl)

/-- FCMP: a comparison into a predicate (R295). -/
def execFcmp (f : Lb) (s : State) : Out :=
  let c := fld f.x 1 3
  let a := fpVal s f f.a
  let b := fpVal s f f.b
  .next ((s.setP (fld f.d 0 3) (floatCond c a b)).addFlags (condFlags c a b))

/-- The range of INT64 and UINT64 (R296). -/
def int64Range (signed : Bool) : Int × Int :=
  if signed then (-9223372036854775808, 9223372036854775807) else (0, 18446744073709551615)

/-- The result of a conversion of kind x[3:1] and its flags (R296). -/
def fcvtResult (s : State) (f : Lb) : Nat × FpFlags :=
  let m := s.cpu.rmode
  let a := s.g f.a
  let v := fpVal s f f.a
  let toInt (signed : Bool) : Nat × FpFlags :=
    let (lo, hi) := int64Range signed
    let (i, fl) := v.toInt m lo hi
    (intCode 64 i, fl ||| sigFlag [v])
  match (fld f.x 1 3).toNat with
  | 0 =>
    let (c, fl) := (if f.x.getLsbD 0 then FFmt.f32 else FFmt.f64).round m v
    (c, fl ||| sigFlag [v])
  | 1 => toInt true
  | 2 => toInt false
  | 3 => (fpFmt f).round m (FVal.ofInt a.toInt)
  | 4 => (fpFmt f).round m (FVal.ofInt a.toNat)
  | 5 =>
    let (c, fl) := FFmt.bf16.round m v
    (c, fl ||| sigFlag [v])
  | _ =>
    let w := FFmt.bf16.decode (fld a 0 16).toNat
    let (c, fl) := (fpFmt f).round m w
    (c, fl ||| sigFlag [w])

/-- FCVT (R296). -/
def execFcvt (f : Lb) (s : State) : Out :=
  let (c, fl) := fcvtResult s f
  .next ((s.setG f.d (BitVec.ofNat 64 c)).addFlags fl)

end Sys2Proof.Machine
end

