-- ==== Sys2Proof/Machine/VectorOps.lean ====
section
/-! DEFINITION. What the vector operations compute on elements, and how an operation waits on its tiles,
reads, computes and writes (R305 to R324). The slot form and the long form share each of them. -/

namespace Sys2Proof.Machine

/-! ## Element arithmetic (R310, R311) -/

/-- Narrow an exact integer to the type: wrap, or clamp with SAT (R311). -/
def narrowInt (ty : Nat) (sat : Bool) (i : Int) : Nat × FpFlags :=
  let (lo, hi) := fmtRange ty
  if sat && i < lo then (intCode (fmtBits ty) lo, fSAT)
  else if sat && i > hi then (intCode (fmtBits ty) hi, fSAT)
  else (intCode (fmtBits ty) i, 0)

/-- A binary operation on elements of a type. -/
def binElem (iop : Int → Int → Int) (fop : FVal → FVal → FVal × Bool) (ty : Nat) (rnd : BitVec 2) (sat : Bool)
    (a b : Nat) : Nat × FpFlags :=
  if fmtIsInt ty then narrowInt ty sat (iop (fmtInt ty a) (fmtInt ty b))
  else
    let f := fmtFloat ty
    let (v, nv) := fop (f.decode a) (f.decode b)
    let (c, fl) := f.round rnd v
    (c, fl ||| flagIf nv fNV ||| sigFlag [f.decode a, f.decode b])

def addElem (ty : Nat) (rnd : BitVec 2) (sat : Bool) (a b : Nat) : Nat × FpFlags :=
  binElem (· + ·) (FVal.add rnd) ty rnd sat a b
def subElem (ty : Nat) (rnd : BitVec 2) (sat : Bool) (a b : Nat) : Nat × FpFlags :=
  binElem (· - ·) (fun x y => FVal.add rnd x y.negate) ty rnd sat a b
def mulElem (ty : Nat) (rnd : BitVec 2) (sat : Bool) (a b : Nat) : Nat × FpFlags :=
  binElem (· * ·) FVal.mul ty rnd sat a b

/-- A fused multiply-add, one rounding (R310). -/
def fmaElem (ty : Nat) (rnd : BitVec 2) (sat : Bool) (a b c : Nat) : Nat × FpFlags :=
  if fmtIsInt ty then narrowInt ty sat (fmtInt ty a * fmtInt ty b + fmtInt ty c)
  else
    let f := fmtFloat ty
    let (v, nv) := FVal.fma rnd (f.decode a) (f.decode b) (f.decode c)
    let (r, fl) := f.round rnd v
    (r, fl ||| flagIf nv fNV ||| sigFlag [f.decode a, f.decode b, f.decode c])

/-- Maximum and minimum: the rules of FMAX and FMIN for floating types (R311). -/
def maxElem (ty a b : Nat) : Nat × FpFlags :=
  if fmtIsInt ty then ((if fmtInt ty a < fmtInt ty b then b else a), 0) else minMaxCode (fmtFloat ty) true a b
def minElem (ty a b : Nat) : Nat × FpFlags :=
  if fmtIsInt ty then ((if fmtInt ty b < fmtInt ty a then b else a), 0) else minMaxCode (fmtFloat ty) false a b

/-- Absolute value and negation: floating types change only the sign bit (R311). -/
def absElem (ty : Nat) (sat : Bool) (a : Nat) : Nat × FpFlags :=
  if fmtIsInt ty then narrowInt ty sat (fmtInt ty a).natAbs
  else
    let f := fmtFloat ty
    let v := f.decode a
    if v.isNan then (f.nanCode, sigFlag [v]) else (a % 2 ^ (f.width - 1), 0)
def negElem (ty : Nat) (sat : Bool) (a : Nat) : Nat × FpFlags :=
  if fmtIsInt ty then narrowInt ty sat (-(fmtInt ty a))
  else
    let f := fmtFloat ty
    let v := f.decode a
    if v.isNan then (f.nanCode, sigFlag [v])
    else ((if a / 2 ^ (f.width - 1) % 2 = 1 then a - 2 ^ (f.width - 1) else a + 2 ^ (f.width - 1)), 0)

/-- Shifts of R312: by bits [4:0] of B, [2:0] for type 6; right shifts are arithmetic for types 1 and 6. -/
def shlElem (ty a b : Nat) : Nat := a * 2 ^ (b % (if ty = 6 then 8 else 32)) % 2 ^ fmtBits ty
def shrElem (ty a b : Nat) : Nat :=
  let n := b % (if ty = 6 then 8 else 32)
  if ty = 2 then a / 2 ^ n else intCode (fmtBits ty) (fmtInt ty a / ((2 ^ n : Nat) : Int))

/-- A comparison: FCond for floating types, Cond for integer types (R313). -/
def cmpElem (ty : Nat) (c : BitVec 3) (a b : Nat) : Bool × FpFlags :=
  if fmtIsInt ty then
    (if ty = 6 then intCond c (BitVec.ofNat 8 a) (BitVec.ofNat 8 b)
     else intCond c (BitVec.ofNat 32 a) (BitVec.ofNat 32 b), 0)
  else
    let f := fmtFloat ty
    (floatCond c (f.decode a) (f.decode b), condFlags c (f.decode a) (f.decode b))

/-- The special functions, rounded once (R321). -/
def exp2Elem (ty : Nat) (rnd : BitVec 2) (a : Nat) : Nat × FpFlags :=
  let f := fmtFloat ty
  let (c, fl) := f.round rnd (f.decode a).exp2
  (c, fl ||| sigFlag [f.decode a])
def rcpElem (ty : Nat) (rnd : BitVec 2) (a : Nat) : Nat × FpFlags :=
  let f := fmtFloat ty
  let (v, dz) := (f.decode a).recip
  let (c, fl) := f.round rnd v
  (c, fl ||| flagIf dz fDZ ||| sigFlag [f.decode a])
def rsqElem (ty : Nat) (rnd : BitVec 2) (a : Nat) : Nat × FpFlags :=
  let f := fmtFloat ty
  let (v, nv, dz) := (f.decode a).rsqrt
  let (c, fl) := f.round rnd v
  (c, fl ||| flagIf nv fNV ||| flagIf dz fDZ ||| sigFlag [f.decode a])

/-! ## Lists of elements -/

/-- The flags of all elements, combined by OR (R309). -/
def orFlags (rs : List (Nat × FpFlags)) : FpFlags := rs.foldl (fun f r => f ||| r.2) 0

def zipElems (f : Nat → Nat → Nat × FpFlags) (as bs : List Nat) : List (Nat × FpFlags) :=
  (as.zip bs).map fun p => f p.1 p.2

/-- One level of the reduction tree: the first half with the second (R320). -/
def halve (f : Nat → Nat → Nat × FpFlags) (xs : List (Nat × FpFlags)) : List (Nat × FpFlags) :=
  let h := xs.length / 2
  ((xs.take h).zip (xs.drop h)).map fun p =>
    let r := f p.1.1 p.2.1
    (r.1, r.2 ||| p.1.2 ||| p.2.2)

/-- n levels of the tree. -/
def reduceTree (f : Nat → Nat → Nat × FpFlags) : Nat → List (Nat × FpFlags) → List (Nat × FpFlags)
  | 0, xs => xs
  | n + 1, xs => reduceTree f n (halve f xs)

/-- The reduction of a type's elements: the code of element 0 in the format of the result, and flags
(R320). -/
def reduceElems (ty op : Nat) (rnd : BitVec 2) (sat : Bool) (es : List Nat) : Nat × FpFlags :=
  let depth := if ty = 3 then 5 else if ty = 6 then 6 else 4
  let first (xs : List (Nat × FpFlags)) : Nat × FpFlags := xs.headD (0, 0)
  let start := es.map fun e => (e, (0 : FpFlags))
  if op = 0 then
    if fmtIsInt ty then narrowInt (if ty = 6 then 1 else ty) sat ((es.map (fmtInt ty)).foldl (· + ·) 0)
    else if ty = 3 then
      let wide := es.map fun e => (e * 65536, sigFlag [FFmt.bf16.decode e])
      first (reduceTree (addElem 0 rnd false) 5 wide)
    else first (reduceTree (addElem ty rnd false) 4 start)
  else
    let r := first (reduceTree (if op = 1 then maxElem ty else minElem ty) depth start)
    if ty = 3 then (r.1 * 65536, r.2)
    else if ty = 6 then (intCode 32 (fmtInt 6 r.1), r.2)
    else r

/-! ## Running an operation -/

/-- The sources' and destination's tiles of an operation: read ones and written ones (R308). -/
def vecTiles (op : VecOp) (v : VecArgs) (readsD : Bool) : List Nat × List Nat :=
  let (rd, ra, rb) := op.roles v
  let d := specTiles rd v.d
  ((if ra = .unused then [] else specTiles ra v.a) ++ (if rb = .unused then [] else specTiles rb v.b) ++
    (if readsD then d else []), d)

/-- Run a vector operation: the waits on its tiles, then its effect in one step (R308, R309). -/
def vecInstr (i : Instr) (op : VecOp) (v : VecArgs) (readsD : Bool) (effect : State → State) (s : State) : Out :=
  let (r, w) := vecTiles op v readsD
  runInstr i (do waitTiles r w; modify effect) s

/-- Write results of a format and record the flags. -/
def putResults (s : State) (f : Nat) (d : Option Spec) (rs : List (Nat × FpFlags)) : State :=
  (s.writeElems f d (rs.map (·.1))).addFlags (orFlags rs)

/-- A binary elementwise operation (R310, R312). -/
def binVec (f : Nat → Nat → Nat × FpFlags) (v : VecArgs) (s : State) : State :=
  let ty := v.ty.toNat
  putResults s ty v.d (zipElems f (s.specElems ty v.a) (s.specElems ty v.b))

/-- A unary elementwise operation. -/
def unVec (f : Nat → Nat × FpFlags) (v : VecArgs) (s : State) : State :=
  let ty := v.ty.toNat
  putResults s ty v.d ((s.specElems ty v.a).map f)

def vAdd (i : Instr) (v : VecArgs) : State → Out := vecInstr i .add v false (binVec (addElem v.ty.toNat v.rnd v.sat) v)
def vSub (i : Instr) (v : VecArgs) : State → Out := vecInstr i .sub v false (binVec (subElem v.ty.toNat v.rnd v.sat) v)
def vMul (i : Instr) (v : VecArgs) : State → Out := vecInstr i .mul v false (binVec (mulElem v.ty.toNat v.rnd v.sat) v)
def vMax (i : Instr) (v : VecArgs) : State → Out := vecInstr i .max v false (binVec (maxElem v.ty.toNat) v)
def vMin (i : Instr) (v : VecArgs) : State → Out := vecInstr i .min v false (binVec (minElem v.ty.toNat) v)
def vAbs (i : Instr) (v : VecArgs) : State → Out := vecInstr i .abs v false (unVec (absElem v.ty.toNat v.sat) v)
def vNeg (i : Instr) (v : VecArgs) : State → Out := vecInstr i .neg v false (unVec (negElem v.ty.toNat v.sat) v)

/-- VFMA: the long form accumulates into D, the slot form adds vc (R310). -/
def vFma (i : Instr) (v : VecArgs) : State → Out :=
  vecInstr i .fma v v.long fun s =>
    let ty := v.ty.toNat
    let cs := s.specElems ty (if v.long then v.d else v.c)
    putResults s ty v.d (((s.specElems ty v.a).zip ((s.specElems ty v.b).zip cs)).map fun p =>
      fmaElem ty v.rnd v.sat p.1 p.2.1 p.2.2)

/-- The bitwise operations on 512 bits (R312). -/
def bitVec (f : Lane → Lane → Lane) (v : VecArgs) (s : State) : State :=
  let a := s.specValue false false v.ty v.a
  let b := s.specValue false false v.ty v.b
  s.writeSingle v.d (Vector.ofFn fun i => f a[i.val] b[i.val])

def vAnd (i : Instr) (v : VecArgs) : State → Out := vecInstr i .and v false (bitVec (· &&& ·) v)
def vOr (i : Instr) (v : VecArgs) : State → Out := vecInstr i .or v false (bitVec (· ||| ·) v)
def vXor (i : Instr) (v : VecArgs) : State → Out := vecInstr i .xor v false (bitVec (· ^^^ ·) v)
def vShl (i : Instr) (v : VecArgs) : State → Out :=
  vecInstr i .shl v false (binVec (fun a b => (shlElem v.ty.toNat a b, 0)) v)
def vShr (i : Instr) (v : VecArgs) : State → Out :=
  vecInstr i .shr v false (binVec (fun a b => (shrElem v.ty.toNat a b, 0)) v)

/-- VCMP: all ones or zero at the element's width, lane-wide for type 4, always into one register (R313). -/
def vCmp (i : Instr) (v : VecArgs) : State → Out :=
  vecInstr i .cmp v false fun s =>
    let ty := v.ty.toNat
    let rf := if ty = 3 || ty = 6 then ty else 1
    let rs := ((s.specElems ty v.a).zip (s.specElems ty v.b)).map fun p =>
      let (b, fl) := cmpElem ty v.ext p.1 p.2
      ((if b then 2 ^ fmtBits rf - 1 else 0), fl)
    (s.writeSingle v.d (regsOf rf (rs.map (·.1))).1).addFlags (orFlags rs)

/-- VSEL by the top bits of the mask: lat in the long form, vc in the slot form (R314). -/
def vSel (i : Instr) (v : VecArgs) : State → Out :=
  vecInstr i .sel v false fun s =>
    let ty := v.ty.toNat
    let mf := if ty = 3 || ty = 6 then ty else 1
    let m := elemsOf mf (s.specValue false false v.ty (if v.long then some .lat else v.c)) (lanesFrom [])
    let es := ((s.specElems ty v.a).zip (s.specElems ty v.b)).zip m
    s.writeElems ty v.d (es.map fun p => if p.2 / 2 ^ (fmtBits mf - 1) = 1 then p.1.1 else p.1.2)

/-- VMOV: a bit copy (R315). -/
def vMov (i : Instr) (v : VecArgs) : State → Out :=
  vecInstr i .mov v false fun s => s.writeElems v.ty.toNat v.d (s.specElems v.ty.toNat v.a)

/-- VCVT (R316, R317). -/
def vCvt (i : Instr) (v : VecArgs) : State → Out :=
  let (sf, df) := cvtFormats v.ty (fld v.bRaw 0 4).toNat
  let wideD := fmtElems df > 16
  vecInstr i .cvt v wideD fun s =>
    let off := 16 * v.ops.toNat
    let src := s.specElems sf v.a
    let src := if fmtElems sf > 16 then (src.drop off).take 16 else src.take 16
    let rs := src.map (convertElem sf df v.rnd v.sat)
    let es := rs.map (·.1)
    let out := if wideD then
        let old := s.specElems df v.d
        old.take off ++ es ++ old.drop (off + 16)
      else es
    (s.writeElems df v.d out).addFlags (orFlags rs)

/-- The pairs of a CF32 operand. -/
def cfPairs (s : State) (sp : Option Spec) : List (Lane × Lane) :=
  (s.specElems 5 sp).map fun c => (BitVec.ofNat 32 (c % 2 ^ 32), BitVec.ofNat 32 (c / 2 ^ 32))

/-- The 16 lanes of a single FP32 operand, bits [31:0] of a scalar broadcast. -/
def cfSingles (s : State) (sp : Option Spec) : List Lane := (s.specValue false false 0 sp).toList

def cfCode (p : Lane × Lane) : Nat := p.1.toNat + p.2.toNat * 2 ^ 32

/-- VCACC (R318). -/
def vCacc (i : Instr) (v : VecArgs) : State → Out :=
  vecInstr i .cacc v true fun s =>
    let fade := s.thisCore.fade
    let rs := ((cfPairs s v.d).zip (cfSingles s v.a)).map fun (p, x) =>
      let (q, faded) := fadePair fade (cAcc p x)
      (q, faded, cfFlags [p.1, p.2, x] (cAcc p x))
    let n := (rs.filter fun r => r.2.1).length
    let s := s.modHere fun k => { k with fade := fadeCount fade n }
    putResults s 5 v.d (rs.map fun r => (cfCode r.1, r.2.2))

/-- VTWOSUM (R319). -/
def vTwosum (i : Instr) (v : VecArgs) : State → Out :=
  vecInstr i .twosum v false fun s =>
    putResults s 5 v.d (((cfSingles s v.a).zip (cfSingles s v.b)).map fun (a, b) =>
      let q := twoSum a b
      (cfCode q, cfFlags [a, b] q))

/-- VRED: element 0 takes the result, every other lane zero (R320). -/
def vRed (i : Instr) (v : VecArgs) : State → Out :=
  vecInstr i .red v false fun s =>
    let ty := v.ty.toNat
    let r := reduceElems ty v.ext.toNat v.rnd v.sat (s.specElems ty v.a)
    putResults s (if ty = 4 then 4 else 1) v.d [r]

def vExp2 (i : Instr) (v : VecArgs) : State → Out := vecInstr i .exp2 v false (unVec (exp2Elem v.ty.toNat v.rnd) v)
def vRcp (i : Instr) (v : VecArgs) : State → Out := vecInstr i .rcp v false (unVec (rcpElem v.ty.toNat v.rnd) v)
def vRsq (i : Instr) (v : VecArgs) : State → Out := vecInstr i .rsq v false (unVec (rsqElem v.ty.toNat v.rnd) v)

/-- The element index of VSPLAT and VEXTR: bits [5:0] of lane 0 of B modulo the element count (R322). -/
def elemIndex (s : State) (v : VecArgs) (n : Nat) : Nat :=
  (fld (vlane (s.specValue false false 0 v.b) 0) 0 6).toNat % n

def vSplat (i : Instr) (v : VecArgs) : State → Out :=
  vecInstr i .splat v false fun s =>
    let es := s.specElems v.ty.toNat v.a
    s.writeElems v.ty.toNat v.d (es.map fun _ => es.getD (elemIndex s v es.length) 0)

def vExtr (i : Instr) (v : VecArgs) : State → Out :=
  vecInstr i .extr v false fun s =>
    let ty := v.ty.toNat
    let es := s.specElems ty v.a
    let e := es.getD (elemIndex s v es.length) 0
    let r : W64 := if ty = 1 || ty = 6 then BitVec.ofInt 64 (fmtInt ty e) else BitVec.ofNat 64 e
    match v.d with
    | some (.scalar n) => s.setG n r
    | _ => s

/-- VPERM: lanes, or bytes with E = 1 (R323). -/
def vPerm (i : Instr) (v : VecArgs) : State → Out :=
  vecInstr i .perm v false fun s =>
    let ty := v.ty.toNat
    let b := s.specValue false false 0 v.b
    if v.long && v.ext = 1 then
      let as := s.specElems 6 v.a
      let bs := elemsOf 6 b (lanesFrom [])
      s.writeElems 6 v.d (bs.map fun x => if x ≥ 128 then 0 else as.getD (x % 64) 0)
    else
      let f := if ty = 4 || ty = 5 then ty else 1
      let as := s.specElems f v.a
      s.writeElems f v.d (b.toList.map fun x => if x.getLsbD 31 then 0 else as.getD (x.toNat % 16) 0)

/-- The 64 values that VQUANT takes from the rows of a tile (R324). -/
def quantSources (s : State) (v : VecArgs) : List FVal :=
  match v.a with
  | some (.tile t _ k) =>
    if v.ty = 0 then (List.range 4).flatMap fun r => (List.range 16).map fun c =>
      FFmt.f32.decode (s.tileAt s.here t.toNat (k.toNat + r) c).toNat
    else (List.range 2).flatMap fun r => (List.range 16).flatMap fun c =>
      let l := (s.tileAt s.here t.toNat (k.toNat + r) c).toNat
      [FFmt.bf16.decode (l % 65536), FFmt.bf16.decode (l / 65536)]
  | _ => []

/-- VQUANT: bytes 0 to 31 the codes, byte 32 S, byte 33 P, the rest zero; NX if any decoded element
differs (R324). -/
def vQuant (i : Instr) (v : VecArgs) : State → Out :=
  vecInstr i .quant v false fun s =>
    let vs := quantSources s v
    let bs := (quantiseBytes vs).map (·.toNat)
    (s.writeSingle v.d (regsOf 6 bs).1).addFlags (flagIf (quantiseInexact vs) fNX)

end Sys2Proof.Machine
end

