-- ==== Sys2Proof/Machine/Grid.lean ====
section
/-! DEFINITION. The grid: cells and their sources, the cell operations, iterations and tokens, and the
commands GR.CFG, GR.GO, GR.DRAIN, GR.DUMP and GR.FILL (R57, R58, R270 to R272, R365 to R369, R387 to R397). -/

namespace Sys2Proof.Machine

/-! ## Images (R270 to R272) -/

abbrev Lanes := Vector (BitVec 32) 8

def zeroLanes : Lanes := Vector.replicate 8 0

/-- The fields of an image's header. -/
def imageII (h : W64) : Nat := (fld h 61 3).toNat + 1
def imageStages (h : W64) : Nat := (fld h 58 3).toNat + 1
def imageIn (h : W64) : BitVec 4 := fld h 54 4
def imageOut (h : W64) : BitVec 2 := fld h 52 2
def imageTrip (h : W64) : Nat := (fld h 0 32).toNat

/-- The header and the cell words of a version. -/
def imageOf (k : Core) (ver : Bool) : List W64 := ((if ver then k.gridCfg[1] else k.gridCfg[0])).getD []
def imageHead (k : Core) (ver : Bool) : W64 := (imageOf k ver).getD 0 0
def imageCell (k : Core) (ver : Bool) (cell : Nat) : W64 := (imageOf k ver).getD (cell + 1) 0

/-- Is a cell word malformed in its image (R272)? -/
def cellFault (h : W64) (cell : Nat) (w : W64) : Bool :=
  let f := CellWord.of w
  let inPort (src : BitVec 4) : Bool := 8 ≤ src.toNat && src.toNat ≤ 11
  (decodeCell w).isNone || !f.ok ||
  ((inPort f.srcA || inPort f.srcB || inPort f.srcC) && cell % 8 ≠ 0) || (f.outm.getLsbD 0 && cell % 8 ≠ 7) ||
  f.stage.toNat ≥ imageStages h || f.slot.toNat ≥ imageII h

/-- Is an image malformed (R272)? -/
def imageFault (ws : List W64) : Bool :=
  let h := ws.getD 0 0
  fld h 32 20 ≠ 0 || (List.range 64).any fun i => cellFault h i (ws.getD (i + 1) 0)

/-! ## Loops -/

/-- The latency of a cell operation (R391). -/
def cellLatency (cop : Nat) : Nat :=
  if cop = 0x16 || cop = 0x17 || cop = 0x19 || cop = 0x0D then 2
  else if 0x02 ≤ cop && cop ≤ 0x05 then 3
  else if cop = 0x09 || cop = 0x0A || cop = 0x18 then 6
  else 1

namespace State

def loop? (s : State) (c : CoreId) (ver : Bool) : Option GridLoop := (s.core c).loops.find? fun l => l.ver = ver
def modLoop (s : State) (c : CoreId) (ver : Bool) (f : GridLoop → GridLoop) : State :=
  s.modCore c fun k => { k with loops := k.loops.map fun l => if l.ver = ver then f l else l }

/-- Does the grid of core c go on: a pre-emption lets started iterations drain (R235)? -/
def gridGoes (s : State) (c : CoreId) : Bool := (s.core c).held.isNone

end State

/-- A loop at its first clock, before iteration `first` (R387, R397). -/
def newLoop (ver : Bool) (trip first cmdPos item : Nat) : GridLoop :=
  { ver := ver, trip := trip, first := first, clock := 0, cell := 0, started := 0, off := false, stopAsked := false,
    results := [], slices := [], decided := false, tokens := [], pushes := [], cmdPos := cmdPos, item := item }

/-- The last loop cycle of a loop's iterations (R391). -/
def lastCycle (k : Core) (l : GridLoop) : Nat :=
  let ii := imageII (imageHead k l.ver)
  let ends := (List.range 64).map fun i =>
    let w := imageCell k l.ver i
    let f := CellWord.of w
    let cop := (fld w 58 6).toNat
    if cop = 0 then 0 else f.stage.toNat * ii + f.slot.toNat + cellLatency cop
  (l.started - 1) * ii + ends.foldl max 0

/-- Has a loop drained: its predicate is off, and every iteration and push is done? -/
def drained (k : Core) (l : GridLoop) : Bool :=
  l.off && (l.started = 0 || lastCycle k l < l.clock) && l.pushes.isEmpty && l.slices.isEmpty

/-! ## Sources (R390) -/

/-- A result register: the latest result that is ready (R390). -/
def resultOf (l : GridLoop) (cell : Nat) : Lanes :=
  match (l.results.filter fun r => r.cell = cell && r.ready ≤ l.clock).getLast? with
  | some r => r.lanes
  | none => zeroLanes

/-- The neighbour on a side (0 N, 1 E, 2 S, 3 W), and its OUTM bit toward the reader. -/
def neighbour (cell side : Nat) : Option (Nat × Nat) :=
  let r := cell / 8
  let x := cell % 8
  match side with
  | 0 => if r = 0 then none else some (cell - 8, 2)
  | 1 => if x = 7 then none else some (cell + 1, 1)
  | 2 => if r = 7 then none else some (cell + 8, 4)
  | _ => if x = 0 then none else some (cell - 1, 3)

/-- A lane of a row of a slice; one whose word is bad reads as zero (R86, R104). -/
def sliceLane (s : State) (c : CoreId) (cell row lane : Nat) : Lane :=
  let a := laneHome c cell (row % 128) lane
  if (s.flawIn false a 4).isSome then 0 else s.read32 a

/-- A row of a slice. -/
def sliceRow (s : State) (c : CoreId) (cell row : Nat) : Lanes :=
  Vector.ofFn fun l => sliceLane s c cell row l.val

/-- The immediate of a cell word (R271). -/
def cellImm (f : CellWord) : Lane :=
  match f.ctype.toNat with
  | 1 => f.imm.signExtend 32
  | 2 => f.imm ++ f.imm
  | _ => f.imm ++ (0 : BitVec 16)

/-- What a source reads in iteration n of a loop (R390). -/
def cellSource (s : State) (c : CoreId) (l : GridLoop) (cell n : Nat) (f : CellWord) (src : BitVec 4) : Lanes :=
  match src.toNat with
  | 4 => resultOf l cell
  | 5 => sliceRow s c cell f.slice.toNat
  | 6 => Vector.replicate 8 (cellImm f)
  | 7 => zeroLanes
  | 8 | 9 | 10 | 11 =>
    match l.tokens.find? fun t => t.1 = n && t.2.1 = src.toNat - 8 with
    | some t => t.2.2
    | none => zeroLanes
  | 12 => Vector.replicate 8 (BitVec.ofNat 32 (l.first + n))
  | side =>
    match neighbour cell side with
    | some (m, bit) => if (CellWord.of (imageCell (s.core c) l.ver m)).outm.getLsbD bit then resultOf l m else zeroLanes
    | none => zeroLanes

/-! ## Cell operations (R391 to R394) -/

/-- What an operation reads: A, B and C, and the rows of the cell's slice. -/
structure CellIn where
  a : Lanes
  b : Lanes
  c : Lanes
  row : Nat → Lanes

/-- What an operation gives: its lanes, arithmetic reports, and slice rows written for each lane. -/
structure CellOut where
  lanes : Lanes
  arith : List Nat
  rows : List (List Nat × Lanes)
  deriving DecidableEq, Repr

/-- The executing operation's loop, cell and iteration. -/
def cellRun (s : State) : Option (CoreId × GridLoop × Nat × Nat) :=
  match s.unit, s.cur with
  | .cell, .compute c =>
    let (ver, cell, n) := (s.core c).cellAt
    (s.loop? c ver).map fun l => (c, l, cell, n)
  | _, _ => none

/-- Put an operation's result on its way: its register, its slice writes, its token, its reports. -/
def putCell (s : State) (c : CoreId) (l : GridLoop) (cell n lat : Nat) (f : CellWord) (o : CellOut) : State :=
  let ready := l.clock + lat
  let port := decide (4 ≤ cell / 8)
  let out := imageOut (imageHead (s.core c) l.ver)
  let pushes : List (Nat × Nat × Nat × Bool × Lanes) :=
    if cell % 8 = 7 && f.outm.getLsbD 0 && out.getLsbD (if port then 1 else 0) then [(ready, n, cell / 8, port, o.lanes)] else []
  (s.modLoop c l.ver fun l => { l with
    results := l.results ++ [⟨cell, ready, o.lanes⟩],
    slices := l.slices ++ o.rows.map (fun r => ⟨cell, ready, r.1, r.2⟩),
    pushes := l.pushes ++ pushes }).arithReports c .grid o.arith

/-- The first bad word among lanes (row, lane) of a cell's slice. -/
def laneFlaw (s : State) (c : CoreId) (cell : Nat) (lanes : List (Nat × Nat)) : Option Flaw :=
  lanes.findSome? fun x => (s.flawIn false (laneHome c cell (x.1 % 128) x.2) 4).map (·.2)

/-- The lanes of a row. -/
def rowLanes (row : Nat) : List (Nat × Nat) := (List.range 8).map fun l => (row, l)

/-- A loop's access to bad data is reported at the grid's queue, its iteration the item (R86, R227, R359) (log 79: DESIGN CHOICE). -/
def reportLane (s : State) (c : CoreId) (pos n : Nat) : Option Flaw → State
  | some f => s.report c .grid pos (flawCause (unitAgent c 2) f) n
  | none => s

/-- The meaning of a cell word: in a loop's cycle, its operation on A, B and C, the first `reads` of which it reads; anywhere
else nothing. `own` names the lanes of its slice that it reads by itself, from its A (R393). -/
def cellStep (lat reads : Nat) (f : CellWord) (op : CellIn → CellOut) (s : State)
    (own : Lanes → List (Nat × Nat) := fun _ => []) : Out :=
  .next (match cellRun s with
    | none => s
    | some (c, l, cell, n) =>
      let a := cellSource s c l cell n f f.srcA
      let rows := if ([f.srcA, f.srcB, f.srcC].take reads).contains 5 then rowLanes f.slice.toNat else []
      reportLane (putCell s c l cell n lat f
        (op ⟨a, cellSource s c l cell n f f.srcB, cellSource s c l cell n f f.srcC, sliceRow s c cell⟩))
        c l.cmdPos (l.first + n) (laneFlaw s c cell (rows ++ own a)))

/-- The element type of a floating operation: FP32, or BF16 pairs for CTYPE 2 (R392). -/
def pairLanes (f : CellWord) : Bool := f.ctype = 2

/-- An operation's arithmetic reports: a NaN from operands that are not, and an overflow (R392). -/
def arithOf (ty : Nat) (xs : List Nat) (r : Nat × FpFlags) : List Nat :=
  (if ((fmtFloat ty).decode r.1).isNan && !(xs.any fun x => ((fmtFloat ty).decode x).isNan) then [1] else []) ++
  (if r.2 &&& fOF ≠ 0 then [2] else [])

/-- A floating operation on one lane of each operand: once, or on each BF16 half. -/
def floatLane (pair : Bool) (op : Nat → List Nat → Nat × FpFlags) (xs : List Lane) : Lane × List Nat :=
  if pair then
    let lo := xs.map fun x => x.toNat % 65536
    let hi := xs.map fun x => x.toNat / 65536
    let a := op 3 lo
    let b := op 3 hi
    (BitVec.ofNat 32 (a.1 + b.1 * 65536), arithOf 3 lo a ++ arithOf 3 hi b)
  else
    let ys := xs.map (·.toNat)
    let a := op 0 ys
    (BitVec.ofNat 32 a.1, arithOf 0 ys a)

/-- A floating operation on lanes. -/
def floatCell (f : CellWord) (op : Nat → List Nat → Nat × FpFlags) (xs : List Lanes) : CellOut :=
  let rs := (List.finRange 8).map fun l => floatLane (pairLanes f) op (xs.map fun x => x[l.val])
  ⟨Vector.ofFn fun l => (rs.getD l.val (0, [])).1, (rs.flatMap (·.2)).eraseDups, []⟩

/-- An operation on bits, lane by lane. -/
def bitCell (op : Lane → Lane → Lane) (a b : Lanes) : CellOut := ⟨Vector.ofFn fun l => op a[l.val] b[l.val], [], []⟩

/-- All ones or zero. -/
def maskOf (n : Nat) (b : Bool) : Nat := if b then 2 ^ n - 1 else 0

/-- A comparison: ordered for floating types, on each half for BF16 pairs; signed for INT32 (R393). -/
def compareCell (f : CellWord) (fop : FVal → FVal → Bool) (iop : Lane → Lane → Bool) (a b : Lanes) : CellOut :=
  let lane (x y : Lane) : Lane :=
    if f.ctype = 1 then BitVec.ofNat 32 (maskOf 32 (iop x y))
    else if f.ctype = 2 then
      let h (i : Nat) : Nat := maskOf 16 (fop (FFmt.bf16.decode (fld x (16 * i) 16).toNat) (FFmt.bf16.decode (fld y (16 * i) 16).toNat))
      BitVec.ofNat 32 (h 0 + h 1 * 65536)
    else BitVec.ofNat 32 (maskOf 32 (fop (f32v x) (f32v y)))
  bitCell lane a b

/-- SEL on one lane: the top bit of each element of C (R392). -/
def selLane (pair : Bool) (a b c : Lane) : Lane :=
  if pair then
    (if c.getLsbD 31 then fld a 16 16 else fld b 16 16) ++ (if c.getLsbD 15 then fld a 0 16 else fld b 0 16)
  else if c.getLsbD 31 then a else b

/-- The register format (R316) of a CVT type: 0 FP32, 1 INT32, 2 BF16. -/
def cvtCode (t : Nat) : Nat := if t = 2 then 3 else t

/-- CVT on one lane (R393). -/
def cvtLane (f : CellWord) (a b : Lane) : Lane × List Nat :=
  let sf := cvtCode f.ctype.toNat
  let t := (fld f.imm 0 2).toNat
  let half (x : Lane) : Nat := if f.ctype = 2 then (if f.imm.getLsbD 3 then (fld x 16 16).toNat else (fld x 0 16).toNat) else x.toNat
  let one (df : Nat) (x : Lane) : Nat × List Nat :=
    let r := convertElem sf df 0 false (half x)
    (r.1, if fmtIsInt df then [] else (if r.2 &&& fOF ≠ 0 then [2] else []))
  match t with
  | 3 => (a, [])
  | 2 =>
    let lo := one 3 a
    let hi := one 3 b
    (BitVec.ofNat 32 (lo.1 + hi.1 * 65536), lo.2 ++ hi.2)
  | _ =>
    let r := one t a
    (BitVec.ofNat 32 r.1, r.2)

/-- The first two elements of a list of operand codes. -/
def two (op : Nat → Nat → Nat × FpFlags) : List Nat → Nat × FpFlags
  | a :: b :: _ => op a b
  | _ => (0, 0)

/-- CNOP (R393): nothing, and its result register is unchanged. -/
def execCellCnop (_ : CellWord) (s : State) : Out := .next s

/-- PASS (R393): A. -/
def execCellPass (f : CellWord) (s : State) : Out :=
  cellStep 1 1 f (fun x => ⟨x.a, [], []⟩) s

/-- FADD (R393): A + B. -/
def execCellFadd (f : CellWord) (s : State) : Out :=
  cellStep 3 2 f (fun x => floatCell f (fun ty => two (addElem ty 0 false)) [x.a, x.b]) s

/-- FSUB (R393): A - B. -/
def execCellFsub (f : CellWord) (s : State) : Out :=
  cellStep 3 2 f (fun x => floatCell f (fun ty => two (subElem ty 0 false)) [x.a, x.b]) s

/-- FMUL (R393): A times B. -/
def execCellFmul (f : CellWord) (s : State) : Out :=
  cellStep 3 2 f (fun x => floatCell f (fun ty => two (mulElem ty 0 false)) [x.a, x.b]) s

/-- FFMA (R393): A times B plus C, rounded once. -/
def execCellFfma (f : CellWord) (s : State) : Out :=
  cellStep 3 3 f (fun x => floatCell f (fun ty xs => fmaElem ty 0 false (xs.getD 0 0) (xs.getD 1 0) (xs.getD 2 0)) [x.a, x.b, x.c]) s

/-- FMAX (R393). -/
def execCellFmax (f : CellWord) (s : State) : Out :=
  cellStep 1 2 f (fun x => floatCell f (fun ty => two (maxElem ty)) [x.a, x.b]) s

/-- FMIN (R393). -/
def execCellFmin (f : CellWord) (s : State) : Out :=
  cellStep 1 2 f (fun x => floatCell f (fun ty => two (minElem ty)) [x.a, x.b]) s

/-- FABS (R393): the sign cleared, a NaN the canonical NaN. -/
def execCellFabs (f : CellWord) (s : State) : Out :=
  cellStep 1 1 f (fun x => floatCell f (fun ty xs => absElem ty false (xs.getD 0 0)) [x.a]) s

/-- FEXP2 (R393): 2 to the A. -/
def execCellFexp2 (f : CellWord) (s : State) : Out :=
  cellStep 6 1 f (fun x => floatCell f (fun ty xs => exp2Elem ty 0 (xs.getD 0 0)) [x.a]) s

/-- FRCP (R393): 1 over A. -/
def execCellFrcp (f : CellWord) (s : State) : Out :=
  cellStep 6 1 f (fun x => floatCell f (fun ty xs => rcpElem ty 0 (xs.getD 0 0)) [x.a]) s

/-- IADD (R393). -/
def execCellIadd (f : CellWord) (s : State) : Out :=
  cellStep 1 2 f (fun x => bitCell (· + ·) x.a x.b) s

/-- ISUB (R393). -/
def execCellIsub (f : CellWord) (s : State) : Out :=
  cellStep 1 2 f (fun x => bitCell (· - ·) x.a x.b) s

/-- IMUL (R393): the low 32 bits. -/
def execCellImul (f : CellWord) (s : State) : Out :=
  cellStep 2 2 f (fun x => bitCell (· * ·) x.a x.b) s

/-- AND (R393). -/
def execCellAnd (f : CellWord) (s : State) : Out :=
  cellStep 1 2 f (fun x => bitCell (· &&& ·) x.a x.b) s

/-- OR (R393). -/
def execCellOr (f : CellWord) (s : State) : Out :=
  cellStep 1 2 f (fun x => bitCell (· ||| ·) x.a x.b) s

/-- XOR (R393). -/
def execCellXor (f : CellWord) (s : State) : Out :=
  cellStep 1 2 f (fun x => bitCell (· ^^^ ·) x.a x.b) s

/-- SHL (R393): A left by B[4:0]. -/
def execCellShl (f : CellWord) (s : State) : Out :=
  cellStep 1 2 f (fun x => bitCell (fun p q => p <<< (fld q 0 5).toNat) x.a x.b) s

/-- SHR (R393): A right by B[4:0], logically. -/
def execCellShr (f : CellWord) (s : State) : Out :=
  cellStep 1 2 f (fun x => bitCell (fun p q => p >>> (fld q 0 5).toNat) x.a x.b) s

/-- SEL (R393): A where the top bit of the element of C is 1, else B. -/
def execCellSel (f : CellWord) (s : State) : Out :=
  cellStep 1 3 f (fun x => ⟨Vector.ofFn fun l => selLane (pairLanes f) x.a[l.val] x.b[l.val] x.c[l.val], [], []⟩) s

/-- CMPLT (R393). -/
def execCellCmplt (f : CellWord) (s : State) : Out :=
  cellStep 1 2 f (fun x => compareCell f FVal.lt (fun p q => p.slt q) x.a x.b) s

/-- CMPEQ (R393). -/
def execCellCmpeq (f : CellWord) (s : State) : Out :=
  cellStep 1 2 f (fun x => compareCell f FVal.eqv (fun p q => p = q) x.a x.b) s

/-- SLD (R393): each lane of the slice row that A and SLICE name. -/
def execCellSld (f : CellWord) (s : State) : Out :=
  cellStep 2 1 f (fun x => ⟨Vector.ofFn fun l => (x.row ((fld x.a[l.val] 0 7).toNat + f.slice.toNat))[l.val], [], []⟩) s
    fun a => (List.finRange 8).map fun l => ((fld a[l.val] 0 7).toNat + f.slice.toNat, l.val)

/-- SST (R393): B to the slice row that A and SLICE name. -/
def execCellSst (f : CellWord) (s : State) : Out :=
  cellStep 2 2 f (fun x => ⟨x.b, [], [(x.a.toList.map fun p => ((fld p 0 7).toNat + f.slice.toNat) % 128, x.b)]⟩) s

/-- ACC2 (R393): A compensated into rows SLICE and SLICE + 1, without fade; the result is h. -/
def execCellAcc2 (f : CellWord) (s : State) : Out :=
  cellStep 6 1 f (fun x => 
    let r := f.slice.toNat
    let ps : Vector (Lane × Lane) 8 := Vector.ofFn fun l => cAcc ((x.row r)[l.val], (x.row (r + 1))[l.val]) x.a[l.val]
    let arith := (List.finRange 8).flatMap fun l =>
      let fl := cfFlags [(x.row r)[l.val], (x.row (r + 1))[l.val], x.a[l.val]] ps[l.val]
      let nan := (f32v x.a[l.val]).isNan || (f32v (x.row r)[l.val]).isNan || (f32v (x.row (r + 1))[l.val]).isNan
      (if fl &&& fNV ≠ 0 && !nan then [1] else []) ++ (if fl &&& fOF ≠ 0 then [2] else [])
    ⟨ps.map (·.1), arith.eraseDups,
      [(List.replicate 8 r, ps.map (·.1)), (List.replicate 8 ((r + 1) % 128), ps.map (·.2))]⟩) s
    fun _ => rowLanes f.slice.toNat ++ rowLanes (f.slice.toNat + 1)

/-- CVT (R393); srcB 6 reads as zero, its immediate being the control. -/
def execCellCvt (f : CellWord) (s : State) : Out :=
  cellStep 2 (if fld f.imm 0 2 = 2 && f.srcB ≠ 6 then 2 else 1) f (fun x => 
    let b : Lanes := if f.srcB = 6 then zeroLanes else x.b
    let rs := (List.finRange 8).map fun l => cvtLane f x.a[l.val] b[l.val]
    ⟨Vector.ofFn fun l => (rs.getD l.val (0, [])).1, (rs.flatMap (·.2)).eraseDups, []⟩) s

/-! ## Iterations and tokens (R388, R389) -/

/-- The lanes of a token's 32 bytes, and back. -/
def tokenLanes (bs : List Byte) : Lanes := Vector.ofFn fun l => BitVec.ofNat 32 (leNat ((bs.drop (4 * l.val)).take 4))
def tokenBytes (v : Lanes) : List Byte := v.toList.flatMap fun l => leBytes 4 l.toNat

/-- Pop a token from every enabled in port: none where one has not come. -/
def popTokens (s : State) (c : CoreId) (n : Nat) : List Nat → Option (List (Nat × Nat × Lanes) × State)
  | [] => some ([], s)
  | p :: r =>
    match s.popWhole c (4 + p) 32 with
    | none => none
    | some (bs, s) => (popTokens s c n r).map fun x => ((n, p, tokenLanes bs) :: x.1, x.2)

/-- GRID_ITERATION_START: at loop cycle n times II the predicate of the first stage is decided: iteration n starts
with its tokens, or the loop stalls for them, or the predicate goes off (R388, R389, R397). -/
def execGridIterationStart (c : CoreId) (ver : Bool) (s : State) : Out :=
  .next (match s.loop? c ver with
    | none => s
    | some l =>
      let h := imageHead (s.core c) ver
      let n := l.clock / imageII h
      if !s.gridGoes c || l.decided || l.cell ≠ 0 || l.clock % imageII h ≠ 0 then s
      else if l.off || l.stopAsked || (s.core c).preempt || l.first + n ≥ l.trip then
        s.modLoop c ver fun l => { l with off := true, decided := true }
      else match popTokens s c n ((List.range 4).filter fun p => (imageIn h).getLsbD p) with
        | none => s
        | some (ts, s) => s.modLoop c ver fun l => { l with
            started := n + 1, decided := true, tokens := l.tokens.filter (fun t => n < t.1 + 9) ++ ts })

/-- The order of pushes: ready cycle, iteration, row. -/
def pushKey (p : Nat × Nat × Nat × Bool × Lanes) : List Nat := [p.1, p.2.1, p.2.2.1]

/-- GRID_TOKEN_PUSH: the next token that is ready goes to its out port, an older loop's before a newer's (R389,
R395). -/
def execGridTokenPush (c : CoreId) (ver : Bool) (s : State) : Out :=
  .next (match s.loop? c ver, (s.core c).loops with
    | some l, old :: _ =>
      if old.ver ≠ ver || !s.gridGoes c then s
      else match pickMin pushKey (l.pushes.filter fun p => p.1 ≤ l.clock) with
        | none => s
        | some p => match s.pushWhole c (if p.2.2.2.1 then 9 else 8) (tokenBytes p.2.2.2.2) with
          | some t => t.modLoop c ver fun l => { l with pushes := l.pushes.erase p }
          | none => s
    | _, _ => s)

/-! ## Clock -/

/-- Write one lane of a slice; where the other half of its word is bad the write is not performed, and is reported (R86,
R220). -/
def writeLane (s : State) (c : CoreId) (l : GridLoop) (a : Nat) (v : Lane) : State :=
  match s.flawIn true a 4 with
  | some f => reportLane s c l.cmdPos l.first (some f.2)
  | none => s.write32 a v

/-- Apply the slice writes that become ready (R394). -/
def applySlices (s : State) (c : CoreId) (l : GridLoop) : State :=
  (l.slices.filter fun w => w.ready ≤ l.clock).foldl (fun s w =>
    (List.finRange 8).foldl (fun s x => writeLane s c l (laneHome c w.cell (w.rows.getD x.val 0) x.val) w.lanes[x.val]) s) s

/-- The results that may still be read: every later one, and the latest that is ready. -/
def liveResults (clock : Nat) : List CellResult → List CellResult
  | [] => []
  | r :: rs => if rs.any fun q => q.cell = r.cell && q.ready ≤ clock then liveResults clock rs else r :: liveResults clock rs

/-- End a loop that has drained: its GR.GO completes, and a GR.DRAIN of it learns its index (R367, R368). A loop
that a pre-emption has stopped waits to be saved. -/
def endLoop (s : State) (c : CoreId) (ver : Bool) : State :=
  match s.loop? c ver with
  | none => s
  | some l =>
    if !drained (s.core c) l || !(l.stopAsked || l.first + l.started ≥ l.trip) then s
    else
      let s := ((s.closeEnd c 8).closeEnd c 9).modCore c fun k => { k with loops := k.loops.filter fun x => x.ver ≠ ver }
      let s := s.modCore c fun k =>
        let v := k.queue .grid
        k.setQueue .grid { v with flights := v.flights.map fun f => match f.prog with
          | .drain (some i) x => if i = l.item then { f with prog := .drain (some i) (l.first + l.started) } else { f with prog := .drain (some i) x }
          | _ => f }
      s.finish c .grid l.cmdPos

/-- The next loop cycle: every token that is due has been pushed (R389). -/
def nextClock (s : State) (c : CoreId) (ver : Bool) : State :=
  match s.loop? c ver with
  | none => s
  | some l =>
    if l.pushes.any fun p => p.1 ≤ l.clock then s
    else
      let l := { l with clock := l.clock + 1, cell := 0, decided := false, results := liveResults (l.clock + 1) l.results }
      let s := applySlices s c l
      let s := s.modLoop c ver fun _ => { l with slices := l.slices.filter fun w => l.clock < w.ready }
      endLoop s c ver

/-- The iteration that a cell executes at a loop cycle, if any (R388). -/
def cellDue (k : Core) (l : GridLoop) (cell : Nat) : Option Nat :=
  let w := imageCell k l.ver cell
  let f := CellWord.of w
  let ii := imageII (imageHead k l.ver)
  let at_ := f.stage.toNat * ii + f.slot.toNat
  if fld w 58 6 = 0 || l.clock < at_ || (l.clock - at_) % ii ≠ 0 then none
  else if (l.clock - at_) / ii < l.started then some ((l.clock - at_) / ii) else none

/-! ## Commands -/

/-- GR.CFG: the image into the version that no loop holds; with none held, the one not loaded last (R366) (log 33: DEDUCED). -/
def cfgWork (f : Ecmd) (c : CoreId) (fl : Flight) (s : State) : State :=
  let pos := fl.cmd.pos
  let va := fl.cmd.op 0
  let k := s.core c
  let ver := match k.loops, k.gridLast with
    | l :: _, _ => !l.ver
    | [], some b => !b
    | [], none => false
  if f.z ≠ 0 || va.toNat % 8 ≠ 0 then s.failCommand c .grid pos 206 0
  else match attempt (engineRead (s.queueWho c .grid) .engRead fl.item va 520) s with
    | .waits what => s.noteHeld what
    | .failed cause _ _ => s.failCommand c .grid pos cause 0
    | .done bs t =>
      let ws := (List.range 65).map (wordAt bs)
      if imageFault ws then t.failCommand c .grid pos 201 0
      else (t.modCore c fun k => { k with
        gridCfg := if ver then k.gridCfg.set 1 (some ws) else k.gridCfg.set 0 (some ws), gridLast := some ver }).finish c .grid pos

/-- GR.CFG (R366). -/
def execGrCfg (f : Ecmd) (s : State) : Out := engineCommand (.grCfg f) f .grid (cfgWork f) s

/-- GR.GO's start: the loop begins under the version most recently loaded (R367). -/
def goBegin (f : Ecmd) (c : CoreId) (fl : Flight) (s : State) : State :=
  let k := s.core c
  match k.gridLast with
  | none => s.failCommand c .grid fl.cmd.pos 207 0
  | some ver =>
    let trip := if fld f.w1 0 5 = 0 then imageTrip (imageHead k ver) else (fld (fl.cmd.op 0) 0 32).toNat
    if trip = 0 then s.finish c .grid fl.cmd.pos
    else s.modCore c fun k => { k with loops := k.loops ++ [newLoop ver trip 0 fl.cmd.pos fl.item] }

/-- GR.GO (R367): its loop does the work. -/
def execGrGo (f : Ecmd) (s : State) : Out := engineCommand (.grGo f) f .grid (fun c fl s =>
  if (s.core c).loops.any fun l => l.item = fl.item then s else goBegin f c fl s) s

/-- GR.DRAIN's start: the newest running loop is asked to stop (R368). -/
def drainBegin (c : CoreId) (fl : Flight) (s : State) : State :=
  let target := (newestLoop (s.core c)).map (·.item)
  (match newestLoop (s.core c) with
   | some l => s.modLoop c l.ver fun l => { l with stopAsked := true }
   | none => s).modFlight c .grid fl.cmd.pos fun x => { x with prog := .drain target 0 }

/-- GR.DRAIN's work: once its loop has drained, the index is stored (R368). -/
def drainWork (f : Ecmd) (c : CoreId) (fl : Flight) (s : State) : State :=
  match fl.prog with
  | .drain target i =>
    if (s.core c).loops.any fun l => some l.item = target then s
    else if fld f.w1 0 5 = 0 then s.finish c .grid fl.cmd.pos
    else match attempt (engineWrite (s.queueWho c .grid) fl.item [] (fl.cmd.op 0) (leBytes 8 i)) s with
      | .done _ t => t.finish c .grid fl.cmd.pos
      | .waits what => s.noteHeld what
      | .failed cause a d => if itemFreezes .grid cause then s.freeze c .grid fl.cmd.pos cause a d else s.failCommand c .grid fl.cmd.pos cause 0
  | _ => drainBegin c fl s

/-- GR.DRAIN (R368). -/
def execGrDrain (f : Ecmd) (s : State) : Out := engineCommand (.grDrain f) f .grid (drainWork f) s

/-- The work of GR.DUMP and GR.FILL: the next 64-byte piece; one that fails is reported and skipped (R58, R369). -/
def sliceWork (dump : Bool) (f : Ecmd) (c : CoreId) (fl : Flight) (s : State) : State :=
  let first := (fld f.w1 8 6).toNat
  let n := 4096 * ((fld f.w1 16 6).toNat + 1)
  let va := fl.cmd.op 0
  let w := s.queueWho c .grid
  let i := match fl.prog with | .pieces i => i | _ => 0
  let ps := piecesOf va n
  match ps[i]? with
  | none => s.finish c .grid fl.cmd.pos
  | some p =>
    let o := (p.1 - va).toNat
    let home := laneHome c first 0 0 + o
    let go (s : State) : State := s.modFlight c .grid fl.cmd.pos fun x => { x with
      prog := .pieces (i + 1), finished := i + 1 = ps.length }
    let r : Tried Unit := if dump then
        (match s.flawIn false home p.2 with
         | some x => .failed (flawCause w.agent x.2) 0 none
         | none => attempt (engineWrite w fl.item (ps.drop (i + 1)) p.1 (s.bytes home p.2)) s)
      else attempt (do
        let bs ← engineRead w .engRead fl.item p.1 p.2
        modify fun s => s.setBytes home bs) s
    match r with
    | .done _ t => go t
    | .waits what => s.noteHeld what
    | .failed cause a d =>
      if itemFreezes .grid cause then s.freeze c .grid fl.cmd.pos cause a d else go (s.report c .grid fl.cmd.pos cause o)

/-- GR.DUMP (R369) (log 43: DEDUCED). -/
def execGrDump (f : Ecmd) (s : State) : Out := engineCommand (.grDump f) f .grid (sliceWork true f) s

/-- GR.FILL (R369). -/
def execGrFill (f : Ecmd) (s : State) : Out := engineCommand (.grFill f) f .grid (sliceWork false f) s

end Sys2Proof.Machine
end

