-- ==== Sys2Proof/Machine/Patterns.lean ====
section
/-! DEFINITION. Pattern programs of the stream engines and the tide engines: cursors, transfers, the pattern
words, tideline admission, the pieces of tide engines, and SE.RUN, SE.HALT, TE.RUN and TE.HALT (R116, R119,
R120, R269, R360 to R363, R398 to R403). -/

namespace Sys2Proof.Machine

/-! ## Programs -/

/-- Where a pattern program runs. -/
inductive EngineRef where
  | stream (c : CoreId) (e : Fin 4)
  | tide (t : TideId) (slot : Nat)
  deriving DecidableEq, Repr

/-- A program at its start (R398); it stands in its tide engine's round after the units begun before (R362). -/
def newProg (start : W64) (d : Cursor) (issuer : CoreId) (space cmdPos item : Nat) (know : Known) : Prog :=
  { start := start, space := space, issuer := issuer, cmdPos := cmdPos, item := item, index := 0, s := .mem start,
    x := .mem start, d := d, wrapS := none, wrapD := none, bound := none, fill := 0, conv := 0, loops := [], nests := [],
    left := none, unitIndex := 0, unitItem := item, off := none, inb := [], outb := [], asked := false,
    admitted := false, reserved := false, inflight := [], waiting := false, halting := false, ended := false,
    words := [], told := [], know := know }

namespace State

def tideProgs (s : State) (t : TideId) : List Prog := s.tides[t.val]
def setTideProgs (s : State) (t : TideId) (ps : List Prog) : State := { s with tides := s.tides.set t.val ps }

def prog? (s : State) : EngineRef → Option Prog
  | .stream c e => (s.core c).engines[e.val]
  | .tide t slot => (s.tideProgs t)[slot]?

def setProg (s : State) (r : EngineRef) (p : Prog) : State :=
  match r with
  | .stream c e => s.modCore c fun k => { k with engines := k.engines.set e.val (some p) }
  | .tide t slot => s.setTideProgs t ((s.tideProgs t).set slot p)

def dropProg (s : State) : EngineRef → State
  | .stream c e => s.modCore c fun k => { k with engines := k.engines.set e.val none }
  | .tide t slot => s.setTideProgs t ((s.tideProgs t).eraseIdx slot)

/-- The accessor and agent of a program. -/
def progWho (s : State) (p : Prog) : EngineRef → Who
  | .stream c _ => s.whoCore c 1
  | .tide t _ => s.whoTide t p.issuer

/-- The program whose turn it is. -/
def curProg (s : State) : Option (EngineRef × Prog) :=
  match s.unit, s.cur with
  | .streamProg e, .compute c => (s.prog? (.stream c e)).map fun p => (.stream c e, p)
  | .tideProg t slot, _ => (s.prog? (.tide t slot)).map fun p => (.tide t slot, p)
  | _, _ => none

/-- Report a failed item of a program in QSTAT0 of the core that issued it (R359). -/
def progReport (s : State) (p : Prog) (cause item : Nat) : State := s.report p.issuer .stream p.cmdPos cause item

end State

/-- Report the first of a unit's causes, unless the unit, which is one item, has reported one (R359, R400). -/
def unitReport (s : State) (p : Prog) (item unit : Nat) : List Nat → State × Prog
  | [] => (s, p)
  | cause :: _ => if p.told.contains item then (s, p) else (s.progReport p cause unit, { p with told := p.told ++ [item] })

/-- An engine reason r of group 3 for the engine of a program (R227). -/
def engineCode (r : EngineRef) (reason : Nat) : Nat :=
  match r with
  | .stream _ _ => 192 + reason
  | .tide _ _ => 240 + reason

/-- Has every write of a program been performed (R401)? -/
def progQuiet (s : State) (r : EngineRef) (p : Prog) : Bool :=
  p.inflight.isEmpty && !(s.held.any fun h => h.tagItem = p.item) && s.acked (s.progWho p r).agent

/-- A program that has ended and whose accesses have all been performed leaves its engine: its writes are
released, its beat is closed, and its command completes (R99, R361, R362, R447). -/
def settle (s : State) (r : EngineRef) (p : Prog) : State :=
  let s := if p.ended && p.inflight.isEmpty then s.endImages p.item else s
  if !p.ended || p.admitted || !progQuiet s r p then s
  else
    let s := (s.dropProg r).releaseItem p.item
    let s := match r with
      | .stream c e => s.closeEnd c e.val
      | .tide _ _ => s
    s.finish p.issuer .stream p.cmdPos

/-- A program ends (R401); a chunk that has been admitted still lands (R221, R362). -/
def endProg (s : State) (r : EngineRef) (p : Prog) : State :=
  let p := { p with ended := true }
  settle (s.setProg r p) r p

/-- A program ends at a word that it cannot run: an engine reason is reported, and the words before it stand (R269, R401). -/
def badWord (s : State) (r : EngineRef) (p : Prog) (reason : Nat) : State :=
  endProg (s.progReport p (engineCode r reason) p.unitIndex) r p

/-- A malformed word (R269). -/
def malformed (s : State) (r : EngineRef) (p : Prog) : State := badWord s r p 1

/-- The meaning of a pattern word: a step of the program whose turn it is; elsewhere nothing. -/
def patternStep (body : EngineRef → Prog → State → State) (s : State) : Out :=
  .next (match s.curProg with
    | some (r, p) => if p.ended && !p.admitted then s else body r p s
    | none => s)

/-- Go on at a word: it is read when it is reached, but for a word that nests repeat (R398, R401). -/
def Prog.goTo (p : Prog) (i : Int) : Prog := { p with index := i, words := if p.nests.isEmpty then [] else p.words }

/-- The program at its next word. -/
def Prog.next (p : Prog) : Prog := p.goTo (p.index + 1)

/-- Go on at the next word. -/
def nextWord (s : State) (r : EngineRef) (p : Prog) : State := s.setProg r p.next

def isTide : EngineRef → Bool
  | .tide _ _ => true
  | .stream _ _ => false

/-! ## Cursors (R398, R399) -/

/-- The address of a cursor in memory. -/
def Cursor.addr : Cursor → Option W64
  | .mem a => some a
  | .cluster _ a => some a
  | _ => none

/-- A cursor moved by n bytes; a switch side does not advance. -/
def Cursor.move (c : Cursor) (n : Int) : Cursor :=
  match c with
  | .mem a => .mem (a + BitVec.ofInt 64 n)
  | .cluster k a => .cluster k (a + BitVec.ofInt 64 n)
  | x => x

/-- The address field of PBASE and PDST (R399); none where it makes the program malformed. -/
def addressField (tide : Bool) (start : W64) (imm : BitVec 42) : Option Cursor :=
  let core : CoreId := ⟨(fld imm 31 8).toNat, (fld imm 31 8).isLt⟩
  match (fld imm 39 2).toNat with
  | 0 => some (.mem (start + (fld imm 0 39).signExtend 64))
  | 1 => if fld imm 20 11 ≠ 0 then none
      else some (.mem (0xFFFFD00000000000 + BitVec.ofNat 64 (core.val * 2 ^ 21 + (fld imm 0 20).toNat)))
  | 2 => if fld imm 22 9 ≠ 0 then none else some (.cluster core (0xFFFFE00000000000 + (fld imm 0 22).setWidth 64))
  | _ => match (fld imm 36 3).toNat with
    | 0 => if fld imm 27 9 ≠ 0 then none else some (.mem (0xFFFFC00000000000 + (fld imm 0 27).setWidth 64))
    | 1 => if tide || fld imm 20 16 ≠ 0 then none else some (.mem (0xFFFFB00000000000 + (fld imm 0 20).setWidth 64))
    | 2 => if tide || fld imm 0 36 ≠ 0 then none else some .switch
    | _ => none

/-- The ranges of n bytes from a, in a ring of `size` bytes at `base` (R401). -/
def ringRows (base : W64) (size : Nat) : Nat → Nat → Nat → List (W64 × Nat)
  | 0, _, _ => []
  | fuel + 1, pos, n =>
    if n = 0 then []
    else
      let m := min n (size - pos)
      (base + BitVec.ofNat 64 pos, m) :: ringRows base size fuel 0 (n - m)

/-- The ranges of n bytes at a cursor's address. -/
def wrapRows (wrap : Option (W64 × Nat)) (a : W64) (n : Nat) : List (W64 × Nat) :=
  match wrap with
  | none => [(a, n)]
  | some (base, size) => ringRows base size (n / 64 + 2) (((a - base).toInt % (size : Int)).toNat) n

/-- The accessor for a cursor: the cluster memory of a core outside the partition is refused with reason 3
(R27, R399). -/
def cursorWho (s : State) (p : Prog) (w : Who) (k : Kind) : Cursor → Except Nat Who
  | .cluster c _ =>
    let inPart := match (s.core p.issuer).part with
      | some t => rectHas (s.part t).rect c
      | none => false
    if inPart then .ok { w with own := some c } else .error (accessCause k 3)
  | _ => .ok w

/-! ## Conversion (R402) -/

/-- Source and destination format of a program's conversion, where it is on. -/
def progConv (p : Prog) : Option (Nat × Nat) :=
  let sf := (fld p.conv 0 6).toNat
  let df := (fld p.conv 8 6).toNat
  if sf = 0 || sf = df then none else some (sf, df)

/-- The destination bytes of n source bytes. -/
def destBytes (p : Prog) (n : Nat) : Nat :=
  match progConv p with
  | some (sf, df) => n / pageFmtBytes sf * pageFmtBytes df
  | none => n

/-- Convert bytes, missing ones spoiling their elements. -/
def progConvert (p : Prog) (bs : List (Option Byte)) : List (Option Byte) :=
  match progConv p with
  | none => bs
  | some (sf, df) =>
    let n := pageFmtBytes sf
    (List.range (bs.length / n)).flatMap fun i =>
      match ((bs.drop (n * i)).take n).mapM id with
      | some b => ((sourceValues sf b).flatMap (valueBytes df (p.conv.getLsbD 14))).map some
      | none => List.replicate (pageFmtBytes df) none

/-! ## Transfers (R400 to R403) -/

/-- What a transfer word's units do: where the bytes come from, source bytes a unit, whether a destination is
written, and how the cursors advance. -/
inductive XferFrom where
  | nothing | cursor | gather (e : Nat) | fill
  deriving DecidableEq, Repr

structure Xfer where
  reps : Nat
  source : XferFrom
  bytes : Nat
  advS : Int
  advD : Int
  advX : Int
  deriving DecidableEq, Repr

/-- Destination bytes of one unit. -/
def Xfer.dest (x : Xfer) (p : Prog) : Nat :=
  match x.source with
  | .nothing => 0
  | .fill => x.bytes
  | _ => destBytes p x.bytes

/-- Read ranges at a cursor. -/
def cursorRead (p : Prog) (w : Who) (cur : Cursor) (wrap : Option (W64 × Nat)) (a : W64) (n : Nat) : M ReadBack := do
  match cursorWho (← get) p w .engRead cur with
  | .error c => pure ⟨List.replicate n none, [(c, a, none)]⟩
  | .ok v => readRanges v .engRead p.item (wrapRows wrap a n)

/-- The destination bytes of a unit that reads memory, and its causes. -/
def unitRead (r : EngineRef) (p : Prog) (w : Who) (x : Xfer) : M ReadBack := do
  match x.source with
  | .nothing => pure ⟨[], []⟩
  | .fill => pure ⟨(List.range x.bytes).map fun b => some (fld p.fill (8 * (b % 4)) 8), []⟩
  | .cursor =>
    let a ← cursorRead p w p.s p.wrapS (p.s.addr.getD 0) x.bytes
    pure ⟨progConvert p a.bytes, a.causes⟩
  | .gather e =>
    let at_ := p.x.addr.getD 0
    if at_.toNat % 4 ≠ 0 then pure ⟨List.replicate (destBytes p e) none, [(engineCode r 6, at_, none)]⟩
    else
      let i ← cursorRead p w p.x none at_ 4
      match wholeBytes i with
      | none => pure ⟨List.replicate (destBytes p e) none, i.causes⟩
      | some bs =>
        let a ← cursorRead p w p.s p.wrapS (p.s.addr.getD 0 + BitVec.ofNat 64 (leNat bs * e)) e
        pure ⟨progConvert p a.bytes, i.causes ++ a.causes⟩

/-- Is a transfer word malformed for its program (R399, R402)? -/
def xferFault (r : EngineRef) (p : Prog) (x : Xfer) : Bool :=
  let conv := match progConv p with
    | some (sf, _) => x.source ≠ .fill && x.source ≠ .nothing && x.bytes % pageFmtBytes sf ≠ 0
    | none => false
  let sides := match x.source with
    | .nothing => false
    | .fill => p.d = .unset
    | .cursor => p.d = .unset || (!isTide r && (p.s = .switch) = (p.d = .switch))
    | .gather _ => p.d = .unset || p.s = .switch || (!isTide r && p.d ≠ .switch)
  conv || sides

/-- After a word's last unit, or after a word that the nests repeat (R401): the innermost nest that has a run
left sets its cursor and runs the word after its PNEST again. -/
def unnest (p : Prog) (depth : Nat) : List Nest → Prog
  | [] => { p with nests := [] }.goTo (p.index + 1)
  | n :: r =>
    if n.run + 1 < n.reps then
      let cur := n.base.move (((n.run + 1 : Nat) : Int) * n.step.toInt)
      let p := if n.selD then { p with d := cur } else { p with s := cur }
      { p with nests := { n with run := n.run + 1 } :: r, index := p.index - depth }
    else unnest p (depth + 1) r

/-- A unit has ended: the cursors advance (R401). -/
def unitDone (p : Prog) (x : Xfer) (left : Nat) : Prog :=
  let p := { p with
    s := p.s.move x.advS, d := p.d.move x.advD, x := p.x.move x.advX, off := none, inb := [], outb := [],
    asked := false, admitted := false, reserved := false, unitIndex := p.unitIndex + 1 }
  if left ≤ 1 then unnest { p with left := none } 0 p.nests else { p with left := some (left - 1) }

/-- The destination pieces of a unit, with the offset of each. -/
def destPieces (p : Prog) (n : Nat) : List (Nat × W64 × Nat) :=
  let ps := (wrapRows p.wrapD (p.d.addr.getD 0) n).flatMap fun r => piecesOf r.1 r.2
  (ps.foldl (fun (acc : List (Nat × W64 × Nat) × Nat) q => (acc.1 ++ [(acc.2, q.1, q.2)], acc.2 + q.2)) ([], 0)).1

/-! ## What words do (R401) -/

/-- May a word stand after a PNEST (R401)? -/
def nestable : Instr → Bool
  | .pmove _ => true
  | .pgath _ => true
  | .pskip _ => true
  | .pnest _ => true
  | _ => false

/-- The repeat count of a Step word (R269). -/
def stepReps (f : PatStep) : Nat := if f.rep = 0 then 65536 else f.rep.toNat

/-- The unit size; none where the word is malformed. -/
def unitSize (f : PatStep) : Option Nat :=
  let ul := (fld f.arg 0 4).toNat
  let u := if ul = 0 then f.step.toInt.natAbs else if ul ≤ 13 then 2 ^ (ul - 1) else 0
  if u = 0 || u > 4096 then none else some u

/-- A conversion that PFMT may name (R402). -/
def convOk (imm : BitVec 42) : Bool :=
  let sf := (fld imm 0 6).toNat
  let df := (fld imm 8 6).toNat
  let names (n : Nat) : Bool := [1, 2, 3, 4, 6, 10].contains n
  fld imm 6 2 = 0 && fld imm 15 27 = 0 && ((sf = 0 && df = 0) || (names sf && names df))

/-- PLOOP's counters: the ones that go on, and whether the loop runs again; none where it is malformed (R401). -/
def loopStep (p : Prog) (f : PatStep) : Option (List (Int × Nat) × Bool) :=
  let active := p.loops.find? fun (l : Int × Nat) => l.1 = p.index
  if f.arg ≠ 0 || (active.isNone && p.loops.length ≥ 4) then none
  else
    let left := (match active with | some l => l.2 | none => stepReps f) - 1
    let others := p.loops.filter fun (l : Int × Nat) => l.1 ≠ p.index
    some (if left ≠ 0 then (others ++ [(p.index, left)], true) else (others, false))

/-- The program after a word that moves no data and waits for nothing, or the engine reason with which the program ends there
(R399, R401, R402). -/
def wordNext (tide : Bool) (p : Prog) : Instr → Except Nat Prog
  | .pbase f => match addressField tide p.start f.imm with
    | none => .error 1
    | some cur =>
      if !f.imm.getLsbD 41 then .ok { p with s := cur, wrapS := none }.next
      else if cur.addr.isSome then .ok { p with x := cur, wrapS := none }.next
      else .error 1
  | .pdst f => match (if f.imm.getLsbD 41 then none else addressField tide p.start f.imm) with
    | none => .error 1
    | some cur => .ok { p with d := cur, wrapD := none }.next
  | .pnest f =>
    let selD := f.arg.getLsbD 0
    if fld f.arg 1 7 ≠ 0 || p.nests.length ≥ 3 then .error 1
    else .ok { p with nests := ⟨stepReps f, 0, selD, f.step, if selD then p.d else p.s⟩ :: p.nests }.next
  | .pwrap f =>
    let selD := f.arg.getLsbD 0
    match (if fld f.arg 1 7 ≠ 0 || f.step ≠ 0 then none else (if selD then p.d else p.s).addr) with
    | none => .error 1
    | some a =>
      let ring := some (a, 64 * stepReps f)
      if a.toNat % 64 ≠ 0 then .error 6
      else if selD then .ok { p with wrapD := ring }.next
      else .ok { p with wrapS := ring }.next
  | .pfmt f => if convOk f.imm then .ok { p with conv := fld f.imm 0 15 }.next else .error 1
  | .pjump f => .ok { p with index := p.index + f.imm.toInt, words := [] }
  | .ploop f => match loopStep p f with
    | none => .error 1
    | some (loops, true) => .ok { p with loops := loops, index := p.index + f.step.toInt, words := [] }
    | some (loops, false) => .ok { p with loops := loops }.next
  | .pfillv f => if fld f.imm 32 10 ≠ 0 then .error 1 else .ok { p with fill := fld f.imm 0 32 }.next
  | _ => .ok p.next

/-- What the units of a transfer word do: none where the word is malformed (R401) (log 76: DEDUCED). -/
def xferOf (p : Prog) : Instr → Option Xfer
  | .pmove f => (if fld f.arg 5 3 ≠ 0 then none else unitSize f).map fun u =>
      let sw := f.arg.getLsbD 4
      let step := f.step.toInt
      ⟨stepReps f, .cursor, u, if sw then u else step, if sw then step else destBytes p u, 0⟩
  | .pgath f =>
    let k := (fld f.arg 0 4).toNat
    if fld f.arg 4 4 ≠ 0 || k > 12 then none
    else some ⟨stepReps f, .gather (2 ^ k), 2 ^ k, 0, destBytes p (2 ^ k), f.step.toInt⟩
  | .pskip f => (if fld f.arg 6 2 ≠ 0 then none else unitSize f).map fun u =>
      let sw := f.arg.getLsbD 5
      let step := f.step.toInt
      ⟨stepReps f, if f.arg.getLsbD 4 then .fill else .nothing, u, if sw then u else step, if sw then step else u, 0⟩
  | _ => none

/-- The program after the units of a word that moves no bytes, `left` of which remain (R401). -/
def skipUnits (p : Prog) (x : Xfer) (left : Nat) : Prog :=
  unitDone { p with
    s := p.s.move (x.advS * ((left : Int) - 1)), d := p.d.move (x.advD * ((left : Int) - 1)),
    unitIndex := p.unitIndex + (left - 1) } x 1

/-! ## Program order (R88, R89, R96, R403) -/

/-- Homes that an access reads, and homes that it writes. -/
structure Touch where
  reads : List (Nat × Nat × Nat)
  writes : List (Nat × Nat × Nat)
  deriving DecidableEq, Repr

/-- Does one of two accesses write a byte that the other reads or writes? -/
def Touch.meets (a b : Touch) : Bool :=
  (homesMeet a.writes b.writes).isSome || (homesMeet a.writes b.reads).isSome || (homesMeet a.reads b.writes).isSome

/-- The homes of ranges at a cursor. -/
def cursorHomes (s : State) (p : Prog) (w : Who) (k : Kind) (cur : Cursor) (rows : List (W64 × Nat)) : List (Nat × Nat × Nat) :=
  match cursorWho s p w k cur with
  | .ok v => homesOf s v k rows
  | .error _ => []

/-- What the read of a program's next unit touches; the source of a gather is the one that its index gives now. -/
def readTouch (s : State) (p : Prog) (w : Who) (x : Xfer) : Touch :=
  let source (o : Nat) : List (Nat × Nat × Nat) :=
    cursorHomes s p w .engRead p.s (wrapRows p.wrapS (p.s.addr.getD 0 + BitVec.ofNat 64 o) x.bytes)
  match x.source with
  | .cursor => ⟨if p.s = .switch then [] else source 0, []⟩
  | .gather e =>
    let at_ := p.x.addr.getD 0
    let index := match attempt (cursorRead p w p.x none at_ 4) s with
      | .done i _ => wholeBytes i
      | _ => none
    ⟨cursorHomes s p w .engRead p.x [(at_, 4)] ++ (index.map fun bs => source (leNat bs * e)).getD [], []⟩
  | _ => ⟨[], []⟩

/-- What a unit's write touches from offset `done` of its destination on. -/
def writeTouch (s : State) (p : Prog) (w : Who) (x : Xfer) (done : Nat) : Touch :=
  ⟨[], if p.d = .switch then [] else cursorHomes s p w .engWrite p.d (((destPieces p (x.dest p)).filter fun q => done ≤ q.1).map (·.2))⟩

/-- The word at a program's index: the one it has reached, or the one in memory, with what its read touches. -/
def wordAhead (s : State) (p : Prog) (w : Who) : Option Instr × Touch :=
  match p.words.find? fun v => v.1 = p.index with
  | some v => (decodePattern v.2, ⟨[], []⟩)
  | none =>
    let va := p.start + BitVec.ofInt 64 (6 * p.index)
    (match attempt (engineRead w .engRead p.item va 6) s with
     | .done bs _ => decodePattern (BitVec.ofNat 48 (leNat bs))
     | _ => none, ⟨homesOf s w .engRead [(va, 6)], []⟩)

/-- Does a program of a stream engine come to touch what another access touches, within n words and units from where it
stands (log 4: DESIGN CHOICE)? -/
def progMeets (s : State) (c : CoreId) (w : Who) (t : Touch) : Nat → Prog → Bool
  | 0, _ => false
  | n + 1, p =>
    let (word, fetch) := wordAhead s p w
    t.meets fetch ||
    (match word with
     | none => false
     | some i =>
       if p.nests ≠ [] && !nestable i then false
       else match xferOf p i with
         | some x =>
           let left := p.left.getD x.reps
           let rd := if p.off.isNone then readTouch s p w x else ⟨[], []⟩
           !xferFault (.stream c 0) p x &&
             (t.meets rd || t.meets (writeTouch s p w x (p.off.getD 0)) ||
              progMeets s c w t n (if x.source = .nothing then skipUnits p x left else unitDone { p with left := some left } x left))
         | none => match i, wordNext false p i with
           | .pend _, _ => false
           | _, .ok q => progMeets s c w t n q
           | _, .error _ => false)

/-- Must an access of a stream engine's program wait: does a program of an earlier command of its core still come to a byte
that one of the two writes (R88, R89)? -/
def behindEarlier (s : State) (c : CoreId) (p : Prog) (t : Touch) : Bool :=
  (s.core c).engines.toList.any fun (e : Option Prog) => match e with
    | some q => q.item < p.item && !q.ended && progMeets s c (s.whoCore c 1) t 65536 q
    | none => false

/-- What pieces in flight of a tide program write. -/
def piecesTouch (s : State) (t : TideId) (p : Prog) (xs : List TidePiece) : Touch :=
  ⟨[], xs.flatMap fun x => if x.failed.isSome then [] else
    cursorHomes s p (s.whoTide t p.issuer) .engWrite x.dst [(x.dst.addr.getD 0, x.bytes.length)]⟩

/-- Must an access of a program wait for one that its program order puts before it (R88, R89, R403)? -/
def orderHeld (s : State) (r : EngineRef) (p : Prog) (t : Touch) : Bool :=
  match r with
  | .stream c _ => behindEarlier s c p t
  | .tide k _ => t.meets (piecesTouch s k p p.inflight)

/-! ## Units (R400, R403) -/

/-- One step of a stream engine's unit: it takes its source bytes, then writes them piece by piece, or pushes
them as there is room (R363, R400) (log 40: DESIGN CHOICE). -/
def streamUnit (c : CoreId) (e : Fin 4) (p : Prog) (x : Xfer) (left : Nat) (s : State) : State :=
  let r : EngineRef := .stream c e
  let w := s.whoCore c 1
  let done (p : Prog) : Prog := unitDone { p with told := [] } x left
  match p.off with
  | none =>
    let (item, s) := if p.asked then (p.unitItem, s) else s.newItem
    let p := { p with unitItem := item, asked := true }
    if x.source = .cursor && p.s = .switch then
      let (bs, s) := s.popEnd c e.val (x.bytes - p.inb.length)
      let inb := p.inb ++ bs
      if inb.length < x.bytes then s.setProg r { p with inb := inb }
      else s.setProg r { p with
        inb := [], off := some 0, outb := (progConvert p (inb.map some)).map fun b => b.getD 0 }
    else if orderHeld s r p (readTouch s p w x) then s.setProg r p
    else
      let got (s : State) (bs : List Byte) (causes : List Nat) : State :=
        let (s, p) := unitReport s p item p.unitIndex causes
        s.setProg r { p with off := some 0, outb := bs }
      match attempt (unitRead r p w x) s with
      | .waits what => (s.setProg r p).noteHeld what
      | .failed cause _ _ => got s (List.replicate (x.dest p) 0) [cause]
      | .done b t => got t (b.bytes.map fun b => b.getD 0) (b.causes.map (·.1))
  | some k =>
    if p.d = .switch then
      let (rest, s) := s.pushEnd c e.val p.outb
      if rest.isEmpty then s.setProg r (done p) else s.setProg r { p with outb := rest }
    else
      let ps := destPieces p (x.dest p)
      match ps.find? fun q => k ≤ q.1, cursorWho s p w .engWrite p.d with
      | none, _ => s.setProg r (done p)
      | some _, .error cause =>
        let (s, p) := unitReport s p p.unitItem p.unitIndex [cause]
        s.setProg r (done p)
      | some (o, va, n), .ok v =>
        let later := (ps.filter fun q => o < q.1).map fun q => (q.2.1, q.2.2)
        if orderHeld s r p ⟨[], homesOf s v .engWrite [(va, n)]⟩ then s
        else match attempt (pieceStore v p.unitItem p.item later none va ((p.outb.drop o).take n)) s with
        | .waits what => s.noteHeld what
        | .failed cause a d => s.freeze c .stream p.cmdPos cause a d
        | .done causes t =>
          match causes.find? fun y => y.1 = 323 with
          | some (cause, a, d) => s.freeze c .stream p.cmdPos cause a d
          | none =>
            let (t, p) := unitReport t p p.unitItem p.unitIndex (causes.map (·.1))
            let t := if later.isEmpty then t.endImages p.unitItem else t
            if later.isEmpty then t.setProg r (done p) else t.setProg r { p with off := some (o + n) }

/-- A cursor's kind at another address. -/
def Cursor.at : Cursor → W64 → Cursor
  | .cluster c _, a => .cluster c a
  | _, a => .mem a

/-- Has a program come to a transfer word? -/
def atTransfer (p : Prog) : Bool :=
  match ((p.words.find? fun w => w.1 = p.index).bind fun w => decodePattern w.2) with
  | some (.pnest _) => false
  | some i => nestable i
  | none => false

/-- Does the engine of a program begin new units: its core is not held and not asked to stop (R221, R234)? -/
def progFree (s : State) (p : Prog) : Bool := (s.core p.issuer).held.isNone && !(s.core p.issuer).preempt

/-- Is it the turn of a tide engine's program to begin a unit: no other program that could begin one began its last unit
before (R362) (log 98: DEDUCED)? -/
def roundTurn (s : State) (t : TideId) (slot : Nat) (p : Prog) : Bool :=
  !((s.tideProgs t).zipIdx.any fun (q, i) =>
    i ≠ slot && !q.ended && !q.asked && !q.halting && atTransfer q && progFree s q && q.unitItem < p.unitItem)

/-- One unit of a tide engine: admitted where its flag is a tideline, read, and sent as pieces (R119, R403,
R424). -/
def tideUnit (t : TideId) (slot : Nat) (p : Prog) (x : Xfer) (left : Nat) (s : State) : State :=
  let r : EngineRef := .tide t slot
  let n := x.dest p
  let tideline := match p.bound with
    | some (f, c) => n ≠ 0 && ((s.core c).flag f).window ≠ 0
    | none => false
  if tideline && !p.admitted then
    if p.asked || !roundTurn s t slot p then s
    else
      let (item, s) := s.newItem
      s.setProg r { p with asked := true, unitItem := item, off := some n }
  else if !p.asked && !roundTurn s t slot p then s
  else
    let (item, s1) := if p.asked then (p.unitItem, s) else s.newItem
    let p := { p with unitItem := item }
    let send (s : State) (b : List (Option Byte)) (causes : List Nat) : State :=
      let (s, p) := unitReport s p item p.unitIndex causes
      let pieces := (destPieces p n).map fun (o, va, m) =>
        let whole := ((b.drop o).take m).mapM id
        (⟨item, p.d.at va, whole.getD (List.replicate m 0), if whole.isNone then some (causes.headD 0) else none, p.unitIndex,
          p.reserved, p.bound⟩ : TidePiece)
      s.setProg r { unitDone p x left with inflight := p.inflight ++ pieces }
    let w := s1.whoTide t p.issuer
    if orderHeld s1 r p (readTouch s1 p w x) then s
    else match attempt (unitRead r p w x) s1 with
    | .waits what => s.noteHeld what
    | .failed cause _ _ => send s1 (List.replicate n none) [cause]
    | .done b s2 => send s2 b.bytes (b.causes.map (·.1))

/-- A transfer word: its next unit, or part of one. -/
def transfer (x : Xfer) (r : EngineRef) (p : Prog) (s : State) : State :=
  let left := p.left.getD x.reps
  let p := { p with left := some left }
  if xferFault r p x then malformed s r p
  else if x.source = .nothing then s.setProg r (skipUnits p x left)
  else match r with
    | .stream c e => streamUnit c e p x left s
    | .tide t slot => tideUnit t slot p x left s

/-! ## Words (R401) -/

/-- A step of a word that moves no data and waits for nothing. -/
def controlWord (i : Instr) : State → Out :=
  patternStep fun r p s => match wordNext (isTide r) p i with
    | .ok q => s.setProg r q
    | .error reason => badWord s r p reason

/-- A step of a transfer word. -/
def transferWord (i : Instr) : State → Out :=
  patternStep fun r p s => match xferOf p i with
    | some x => transfer x r p s
    | none => malformed s r p

/-- PEND (R401). -/
def execPend (_ : PatLoad) (s : State) : Out := patternStep (fun r p s => endProg s r p) s

/-- PBASE (R399, R401). -/
def execPbase (f : PatLoad) (s : State) : Out := controlWord (.pbase f) s

/-- PDST (R399, R401). -/
def execPdst (f : PatLoad) (s : State) : Out := controlWord (.pdst f) s

/-- PMOVE (R401). -/
def execPmove (f : PatStep) (s : State) : Out := transferWord (.pmove f) s

/-- PNEST (R401): the next word runs n times; run 0 begins now. -/
def execPnest (f : PatStep) (s : State) : Out := controlWord (.pnest f) s

/-- PWRAP (R401). -/
def execPwrap (f : PatStep) (s : State) : Out := controlWord (.pwrap f) s

/-- PFMT (R402). -/
def execPfmt (f : PatLoad) (s : State) : Out := controlWord (.pfmt f) s

/-- PWAIT (R115, R401). -/
def execPwait (f : PatSync) (s : State) : Out :=
  patternStep (fun r p s =>
    let t := scaled f.count
    match r with
    | .tide _ _ => malformed s r p
    | .stream c e =>
      if f.core ≠ 0 || t > maxCount then malformed s r p
      else if t = 0 then nextWord s r p
      else if s.waitReady c f.flag t then
        let s := s.takeFlag c f.flag t (.engine e)
        nextWord s r ((s.prog? r).getD p)
      else nextWord (s.modCore c fun k => { k with waits := k.waits ++ [⟨f.flag, t, .engine e⟩] }) r { p with waiting := true }) s

/-- The addition of PSIG and PNOTE, once every earlier write of the program has been performed: a release event
(R97, R99, R401). One to the other die waits while the link holds it (R128). -/
def progSignal (r : EngineRef) (p : Prog) (c : CoreId) (f : PatSync) (s : State) : State :=
  let a := (s.progWho p r).agent
  if !progQuiet s r p then (if p.inflight.isEmpty then s.endImages p.item else s)
  else if s.linkHolds (agentDie a) (some (decide (coreDie c = 1))) .signal then s
  else
    let know := p.know
    let s := (s.release a).releaseItem p.item
    let n := scaled f.count
    let s := if ((s.core c).flag f.flag).saturates n then s.progReport p (engineCode r 2) p.unitIndex else s
    nextWord (s.addFlag c f.flag ⟨a, n, know⟩) r p

/-- Is the core in the partition of the program's issuer? -/
def progReaches (s : State) (p : Prog) (c : CoreId) : Bool :=
  match (s.core p.issuer).part with
  | some t => rectHas (s.part t).rect c
  | none => false

/-- PSIG (R401) (log 38: DEDUCED). -/
def execPsig (f : PatSync) (s : State) : Out :=
  patternStep (fun r p s =>
    let c : CoreId := ⟨f.core.toNat, f.core.isLt⟩
    if scaled f.count > maxCount then malformed s r p
    else match r with
    | .stream own _ => if f.core ≠ 0 then malformed s r p else progSignal r p own f s
    | .tide _ _ =>
      if progReaches s p c then progSignal r p c f s
      else if progQuiet s r p then nextWord (s.progReport p 107 p.unitIndex) r p
      else s) s

/-- PWIN: every encoding of a count of value 1 binds, every one of value 0 unbinds (R113, R277, R401) (log 111: DEDUCED). -/
def execPwin (f : PatSync) (s : State) : Out :=
  patternStep (fun r p s =>
    let c : CoreId := ⟨f.core.toNat, f.core.isLt⟩
    match r with
    | .stream _ _ => malformed s r p
    | .tide _ _ =>
      if scaled f.count = 1 then
        (if progReaches s p c then nextWord s r { p with bound := some (f.flag, c) }
         else nextWord (s.progReport p 107 p.unitIndex) r { p with bound := none })
      else if scaled f.count = 0 then nextWord s r { p with bound := none }
      else malformed s r p) s

/-- PJUMP (R401). -/
def execPjump (f : PatLoad) (s : State) : Out := controlWord (.pjump f) s

/-- PLOOP (R401). -/
def execPloop (f : PatStep) (s : State) : Out := controlWord (.ploop f) s

/-- PGATH (R401). -/
def execPgath (f : PatStep) (s : State) : Out := transferWord (.pgath f) s

/-- PFILLV (R401). -/
def execPfillv (f : PatLoad) (s : State) : Out := controlWord (.pfillv f) s

/-- PSKIP (R401): under a conversion too D moves by the unit of U bytes (log 76: DEDUCED). -/
def execPskip (f : PatStep) (s : State) : Out := transferWord (.pskip f) s

/-- PNOTE (R401). -/
def execPnote (f : PatSync) (s : State) : Out :=
  patternStep (fun r p s =>
    if f.core ≠ 0 || scaled f.count > maxCount then malformed s r p else progSignal r p p.issuer f s) s

/-! ## Turns of a program -/

/-- Does the engine of a program go on: its core is not held and not asked to stop, except in the midst of a
unit, or with an admitted chunk (R221, R234)? -/
def progGoes (s : State) (p : Prog) : Bool :=
  p.admitted || progFree s p || ((s.core p.issuer).held.isNone && p.off.isSome)

/-- Stop a halted program at its word or chunk boundary: it is recorded once (R361, R362). -/
def haltProg (s : State) (r : EngineRef) (p : Prog) : State :=
  let s := match r with
    | .stream c e => s.modCore c fun k => { k with waits := k.waits.filter fun w => w.who ≠ Waiter.engine e }
    | .tide _ _ => s
  endProg (s.progReport p (engineCode r 3) p.unitIndex) r p

/-- Does a program stand at a boundary at which a halt stops it: between two units, and not with an admitted chunk
(R361, R362, R400)? -/
def atBoundary (r : EngineRef) (p : Prog) : Bool := if isTide r then !p.admitted else p.off.isNone && p.inb.isEmpty

/-- What a program's turn comes to: a word to run, or a state in which the turn is over (R269, R398). -/
inductive ProgTurn where
  | word (i : Instr) (s : State)
  | over (s : State)

/-- Take a turn of a program: settle one that has ended, stop a halted one, wait, or read its next word. -/
def progTurn (s : State) (r : EngineRef) : ProgTurn :=
  match s.prog? r with
  | none => .over s
  | some p =>
    if p.ended && !p.admitted then .over (settle s r p)
    else if p.halting && atBoundary r p then .over (haltProg s r p)
    else if p.waiting || !progGoes s p then .over s
    else match p.words.find? fun w => w.1 = p.index with
      | some w => reached w.2 p s
      | none =>
        let va := p.start + BitVec.ofInt 64 (6 * p.index)
        if orderHeld s r p (wordAhead s p (s.progWho p r)).2 then .over s
        else match attempt (engineRead (s.progWho p r) .engRead p.item va 6) s with
        | .waits what => .over (s.noteHeld what)
        | .failed cause _ _ => .over (endProg (s.progReport p cause p.unitIndex) r p)
        | .done bs t =>
          let w := BitVec.ofNat 48 (leNat bs)
          let p := { p with words := p.words ++ [(p.index, w)] }
          reached w p (t.setProg r p)
where
  /-- A word that has been reached. -/
  reached (w : BitVec 48) (p : Prog) (s : State) : ProgTurn :=
    match decodePattern w with
    | none => .over (malformed s r p)
    | some i => if p.nests ≠ [] && !nestable i then .over (malformed s r p) else .word i s

/-! ## Tideline admission and tide pieces (R116, R119) -/

/-- Asks another program of a tide engine earlier for the same flag? -/
def earlierAsk (s : State) (p : Prog) : Bool :=
  s.tides.toList.any fun ps => ps.any fun q =>
    q.asked && !q.admitted && !q.ended && !q.halting && progFree s q && q.bound = p.bound && q.unitItem < p.unitItem

/-- TIDELINE_ADMISSION: the flag admits the chunk a program asks for, and reserves its bytes; requests are
admitted in their order (R119). -/
def execTidelineAdmission (t : TideId) (slot : Nat) (s : State) : Out :=
  .next (match s.prog? (.tide t slot) with
    | none => s
    | some p => match p.bound, p.off with
      | some (f, c), some n =>
        if !p.asked || p.admitted || p.ended || p.halting || !progFree s p || earlierAsk s p || !((s.core c).flag f).admits n then s
        else
          let v := (s.core c).flag f
          let reserves := v.window ≠ 0
          let s := if reserves then s.modCore c fun k => k.setFlag f { v with res := v.res + BitVec.ofNat 32 n } else s
          s.setProg (.tide t slot) { p with admitted := true, reserved := reserves, off := none }
      | _, _ => s)

/-- The count of a piece of a tide program: to its bound flag, for the issuer's QSTAT0 (R116, R119, R359). -/
def TidePiece.count (x : TidePiece) (t : TideId) (slot : Nat) (p : Prog) : CountTo :=
  x.bound.map fun (f, c) =>
    ⟨c, ⟨f, x.bytes.length, tideAgent t, []⟩, x.reserved, p.issuer, .stream, engineCode (.tide t slot) 2, p.cmdPos, x.unit⟩

/-- The core that receives a piece: the one whose flag counts it, or whose scratchpad it is for (R417) (log 7: DESIGN CHOICE). -/
def TidePiece.receiver (x : TidePiece) : Option CoreId :=
  match x.bound, x.dst with
  | some (_, c), _ => some c
  | none, .mem a => if fld a 44 20 = 0xFFFFD then some ⟨(fld a 21 8).toNat, (fld a 21 8).isLt⟩ else none
  | none, _ => none

/-- Perform a piece in flight of a tide program, unless a piece of an earlier word comes before it, or the die link holds its
count (R88, R116, R119, R128). A unit whose last piece it is holds no image back any more (R151). -/
def performTide (s : State) (t : TideId) (slot i : Nat) : State :=
  match s.prog? (.tide t slot) with
  | none => s
  | some p =>
    match p.inflight[i]? with
    | none => s
    | some x =>
      let count := x.count t slot p
      let rest := (p.inflight.eraseIdx i).filter fun y => y.item = x.item
      let ends (p : Prog) (s : State) : State :=
        let s := s.setProg (.tide t slot) { p with
          inflight := p.inflight.eraseIdx i, told := if rest.isEmpty then p.told.filter (· ≠ x.item) else p.told }
        if rest.isEmpty then s.endImages x.item else s
      let fails (s : State) (cause : Nat) : State :=
        let (s, p) := unitReport s p x.item x.unit [cause]
        ends p (countRefused s count)
      if x.bound.any fun b => s.linkHolds (agentDie (tideAgent t)) (some (decide (coreDie b.2 = 1))) .signal then s
      else match x.failed with
      | some cause => fails s cause
      | none =>
        if (piecesTouch s t p [x]).meets (piecesTouch s t p (p.inflight.take i)) then s
        else match cursorWho s p (s.whoTide t p.issuer) .engWrite x.dst with
        | .error cause => fails s cause
        | .ok w =>
          let later := rest.map fun y => (y.dst.addr.getD 0, y.bytes.length)
          match attempt (pieceStore w x.item p.item later count (x.dst.addr.getD 0) x.bytes) s with
          | .waits what => s.noteHeld what
          | .failed cause _ _ => fails s cause
          | .done causes u =>
            let u := match x.receiver with
              | some c => countEvent u (4 * c.val + 2) x.bytes.length
              | none => u
            let (u, p) := unitReport u p x.item x.unit (causes.map (·.1))
            let u := if causes.any fun y => accessFault y.1 || y.1 = 323 then countRefused u count else u
            ends p u

/-- PIECE_PERFORMED: a piece of a copy command or of a tide program is performed, and its bytes are counted
(R116) (log 39: DESIGN CHOICE). -/
def execPiecePerformed (w : PieceSource) (piece : Nat) (s : State) : Out :=
  .next (match w with
    | .copy c pos => performCopy s c pos piece
    | .tide t slot => performTide s t slot piece)

/-! ## Commands (R360 to R362) -/

/-- SE.RUN's start: the engine takes the program, or reports its misaligned start (R269, R361). -/
def streamBegin (f : Ecmd) (c : CoreId) (fl : Flight) (s : State) : State :=
  let e : Fin 4 := ⟨(fld f.w1 5 2).toNat, (fld f.w1 5 2).isLt⟩
  let start := fl.cmd.op 0
  if start.toNat % 8 ≠ 0 then s.failCommand c .stream fl.cmd.pos 198 0
  else s.modCore c fun k => { k with
    engines := k.engines.set e.val (some (newProg start .switch c 0 fl.cmd.pos fl.item fl.know)) }

/-- SE.RUN (R361): its program does the work. -/
def execSeRun (f : Ecmd) (s : State) : Out := engineCommand (.seRun f) f .stream (fun _ _ s => s) s

/-- The engines that SE.HALT names. -/
def haltNames (f : Ecmd) : List (Fin 4) :=
  if f.w1.getLsbD 7 then [0, 1, 2, 3] else [⟨(fld f.w1 5 2).toNat, (fld f.w1 5 2).isLt⟩]

/-- SE.HALT's start: the named programs are asked to stop (R361). -/
def streamHaltBegin (f : Ecmd) (c : CoreId) (s : State) : State :=
  (haltNames f).foldl (fun s e => match s.prog? (.stream c e) with
    | some p => s.setProg (.stream c e) { p with halting := true }
    | none => s) s

/-- SE.HALT (R361): it completes when every program it names has stopped. -/
def execSeHalt (f : Ecmd) (s : State) : Out :=
  engineCommand (.seHalt f) f .stream (fun c fl s =>
    if (haltNames f).all fun e => ((s.prog? (.stream c e)).map fun p => !p.halting).getD true then s.finish c .stream fl.cmd.pos else s) s

def tideOf (f : Ecmd) : TideId := ⟨(fld f.w1 8 6).toNat, (fld f.w1 8 6).isLt⟩

/-- TE.RUN's start: the tide engine accepts the program, or its misaligned start is reported (R269, R362). -/
def tideBegin (f : Ecmd) (c : CoreId) (fl : Flight) (s : State) : State :=
  let start := fl.cmd.op 0
  if start.toNat % 8 ≠ 0 then s.failCommand c .stream fl.cmd.pos 246 0
  else s.setTideProgs (tideOf f) (s.tideProgs (tideOf f) ++ [newProg start .unset c 0 fl.cmd.pos fl.item fl.know])

/-- TE.RUN (R362). -/
def execTeRun (f : Ecmd) (s : State) : Out := engineCommand (.teRun f) f .stream (fun _ _ s => s) s

/-- Is a program one that TE.HALT names (R362)? -/
def tideNamed (f : Ecmd) (c : CoreId) (start : W64) (p : Prog) : Bool :=
  p.issuer = c && (f.w1.getLsbD 7 || p.start = start)

/-- TE.HALT's start. -/
def tideHaltBegin (f : Ecmd) (c : CoreId) (fl : Flight) (s : State) : State :=
  s.setTideProgs (tideOf f) ((s.tideProgs (tideOf f)).map fun p =>
    if tideNamed f c (fl.cmd.op 0) p then { p with halting := true } else p)

/-- TE.HALT (R362): it completes when the programs it names have stopped. -/
def execTeHalt (f : Ecmd) (s : State) : Out :=
  engineCommand (.teHalt f) f .stream (fun c fl s =>
    if (s.tideProgs (tideOf f)).any (fun p => tideNamed f c (fl.cmd.op 0) p && p.halting) then s
    else s.finish c .stream fl.cmd.pos) s

end Sys2Proof.Machine
end

