-- ==== Sys2Proof/Machine/EngineStart.lean ====
section
/-! DEFINITION. Starting and completing engine commands: the wait of a queue's head, the start rules, the first
effects of a command, its completion and signal; NOTE and the bell (R115, R121 to R124, R127, R356, R357, R386). -/

namespace Sys2Proof.Machine

/-! ## The wait of the head (R115, R356) -/

/-- The head's wait field: satisfied already, taken now, or begun; true where the head may go on. -/
def headWait (s : State) (c : CoreId) (q : QueueId) (d : Cmd) : Bool × State :=
  let t := scaled d.f.waitCount
  let v := (s.core c).queue q
  let set (s : State) : State := s.modCore c fun k => k.setQueue q { k.queue q with granted := true }
  if t = 0 || v.granted then (true, s)
  else if (s.core c).waits.any fun w => w.who = Waiter.queue q then (false, s)
  else if s.waitReady c d.f.waitFlag t then (true, set (s.takeFlag c d.f.waitFlag t (.queue q)))
  else (false, s.modCore c fun k => { k with waits := k.waits ++ [⟨d.f.waitFlag, t, .queue q⟩] })

/-! ## Start rules (R356) -/

/-- Is a GR.CFG of the queue still loading? -/
def configuring (v : Queue) : Bool :=
  v.flights.any fun f => match f.cmd.instr with | .grCfg _ => !f.finished | _ => false

/-- Does a GR.DUMP or GR.FILL run? The grid executes no loop meanwhile (R58). -/
def slicing (v : Queue) : Bool :=
  v.flights.any fun f => match f.cmd.instr with
    | .grDump _ => !f.finished
    | .grFill _ => !f.finished
    | _ => false

/-- May the lease carry one more command (R215)? -/
def leaseTakes (s : State) (c : CoreId) : Bool :=
  let a := s.array (coreCluster c)
  holdsLease s c && a.cmds < 16 && !a.expired

/-- Does the start rule of its queue let a command start now (R356)? -/
def mayStart (s : State) (c : CoreId) (q : QueueId) (d : Cmd) : Bool :=
  let k := s.core c
  let v := k.queue q
  match d.instr with
  | .seRun f => (s.prog? (.stream c ⟨(fld f.w1 5 2).toNat, (fld f.w1 5 2).isLt⟩)).isNone
  | .teRun f => (s.tideProgs (tideOf f)).length < 8
  | .seHalt _ => true
  | .teHalt _ => true
  | .swRoute f => v.flights.isEmpty && routeFree k (fld f.w1 0 5).toNat
  | .grCfg _ => k.loops.length < 2 && !configuring v
  | .grGo _ => k.loops.length < 2 && (k.loops.all fun l => l.off && k.gridLast ≠ some l.ver) && !configuring v && !slicing v
  | .grDrain _ => true
  | .grDump _ => v.flights.isEmpty && k.loops.isEmpty
  | .grFill _ => v.flights.isEmpty && k.loops.isEmpty
  | .mxMma _ => v.flights.isEmpty && (!k.intent || leaseTakes s c)
  | .mxDrain _ => v.flights.isEmpty && (!k.intent || leaseTakes s c)
  | .mxZero _ => v.flights.isEmpty && (!k.intent || leaseTakes s c)
  | .note _ => false
  | _ => match q with
    | .copy => v.flights.length < 4
    | .quay => v.flights.length < 2
    | _ => v.flights.isEmpty

/-! ## First effects -/

/-- How far a command has come at its start. -/
def firstProgress (s : State) (c : CoreId) (d : Cmd) : Progress :=
  match d.instr with
  | .scnChunk _ => .scan 0 (s.core c).fade
  | .scnCarry _ => .pieces 0
  | .grDump _ => .pieces 0
  | .grFill _ => .pieces 0
  | .mxMma _ => .matrix 0 0 []
  | .mxDrain _ => .matrix 0 0 []
  | .xfCopy _ => .copy (copyPieces d).length [] none false
  | .xfCopy2d _ => .copy (copyPieces d).length [] none false
  | .xfFill _ => .copy (copyPieces d).length [] none false
  | .xfGather _ => .copy (copyPieces d).length [] none false
  | _ => .plain

/-- The start of a Quay command: its table work, and its job (R382 to R385), or what it must wait for. -/
def beginQuay (c : CoreId) (fl : Flight) (s : State) : Except WaitFor State :=
  let pos := fl.cmd.pos
  let noted (s : State) (cause : Option Nat) : State := match cause with
    | some e => s.report c .quay pos e 0
    | none => s
  match attempt (quayBegin (quayWho s c) c fl.item fl.cmd) s with
  | .waits what => .error what
  | .failed cause _ _ => .ok (s.failCommand c .quay pos cause 0)
  | .done (.fails cause) t => .ok (t.failCommand c .quay pos cause 0)
  | .done (.table cause) t =>
    let t := noted t cause
    match fl.cmd.instr with
    | .slDrop f => .ok (if f.w1.getLsbD 16 then t.finish c .quay pos else t)
    | _ => .ok (t.finish c .quay pos)
  | .done (.job j cause) t =>
    let t := (noted t cause).modFlight c .quay pos fun f => { f with prog := .quay j }
    .ok (if j.writesBank then t.setBank c j.bank (some j.desc) else t)

/-- A matrix command's start: without the intent it records 223 and ends, else it counts in its lease, and its array is in
narrowed mode from here on exactly where the power alarm is raised (R216, R374, R444). -/
def beginMatrix (c : CoreId) (fl : Flight) (s : State) : State :=
  if !(s.core c).intent then s.failCommand c .matrix fl.cmd.pos 223 0
  else s.modArray (coreCluster c) fun a => { a with cmds := a.cmds + 1, narrow := s.alarm }

/-- What a command does as it starts, or what it must wait for. -/
def beginCommand (c : CoreId) (fl : Flight) (s : State) : Except WaitFor State :=
  match fl.cmd.instr with
  | .seRun f => .ok (streamBegin f c fl s)
  | .seHalt f => .ok (streamHaltBegin f c s)
  | .teRun f => .ok (tideBegin f c fl s)
  | .teHalt f => .ok (tideHaltBegin f c fl s)
  | .swRoute f => .ok (routeWork f c fl s)
  | .swFmt f => .ok (formatWork f c fl s)
  | .grGo f => .ok (goBegin f c fl s)
  | .grDrain _ => .ok (drainBegin c fl s)
  | .mxLease _ => .ok (s.modCore c fun k => { k with intent := true })
  | .mxMma _ => .ok (beginMatrix c fl s)
  | .mxDrain _ => .ok (beginMatrix c fl s)
  | .mxZero _ => .ok (beginMatrix c fl s)
  | .xfCopy _ => .ok (if (copyPieces fl.cmd).isEmpty then s.finish c .copy fl.cmd.pos else s)
  | .xfCopy2d _ => .ok (if (copyPieces fl.cmd).isEmpty then s.finish c .copy fl.cmd.pos else s)
  | .xfFill _ => .ok (if (copyPieces fl.cmd).isEmpty then s.finish c .copy fl.cmd.pos else s)
  | .xfGather _ => .ok (if (copyPieces fl.cmd).isEmpty then s.finish c .copy fl.cmd.pos else s)
  | .slSave _ => beginQuay c fl s
  | .slLoad _ => beginQuay c fl s
  | .slSnap _ => beginQuay c fl s
  | .slFork _ => beginQuay c fl s
  | .slRoll _ => beginQuay c fl s
  | .slDrop _ => beginQuay c fl s
  | _ => .ok s

/-- The issue edge: the command, and those that its engine begins later, know the CP's stores before it (R91, R124)
(log 74: DEDUCED). -/
def learnIssue (s : State) (c : CoreId) (q : QueueId) (d : Cmd) : State :=
  s.learn (State.queueAgent c q) [((unitAgent c 0).toNat, d.issued)]

/-- Start the head command of a queue (R124, R356). -/
def startCommand (s : State) (c : CoreId) (q : QueueId) (d : Cmd) : State :=
  let (item, t) := s.newItem
  let t := learnIssue t c q d
  let fl : Flight := ⟨d, item, firstProgress t c d, false, [], [], t.known (State.queueAgent c q), false⟩
  let t := t.modCore c fun k =>
    let v := k.queue q
    k.setQueue q { v with waiting := v.waiting.drop 1, flights := v.flights ++ [fl], granted := false }
  match beginCommand c fl t with
  | .ok u => u
  | .error what => s.noteHeld what

/-- ENGINE_COMMAND_START: the head command's wait succeeds, and it starts once its queue's rule allows and every
earlier store of the CP has been performed (R115, R124, R356). A NOTE's wait is tested at the head as well (R386). -/
def execEngineCommandStart (c : CoreId) (q : QueueId) (s : State) : Out :=
  match ((s.core c).queue q).waiting with
  | [] => .next s
  | d :: _ =>
    if !s.engineGoes c || (isNote d.instr && d.reached) then .next s
    else
      let (goes, t) := headWait s c q d
      if goes && !isNote d.instr && t.acked (unitAgent c 0) && mayStart t c q d then .next (startCommand t c q d) else .next t

/-! ## Completion (R357) -/

/-- The agent whose completion a command's is (R357, R362). -/
def completionAgent (s : State) (c : CoreId) (q : QueueId) (d : Cmd) : AgentId :=
  match d.instr with
  | .teRun f => tideAgent (tideOf f)
  | _ => State.queueAgent c q

def isCopyCommand : Instr → Bool
  | .xfCopy _ => true
  | .xfCopy2d _ => true
  | .xfFill _ => true
  | .xfGather _ => true
  | _ => false

/-- Add a command's signal field, which passes on what is known (R91, R114, R357). -/
def addSignal (s : State) (c : CoreId) (q : QueueId) (d : Cmd) (a : AgentId) (know : Known) : State :=
  let n := scaled d.f.sigCount
  let s := countReport s c d.f.sigFlag n c q (queueCause q d.instr 2) d.pos 0
  s.addFlag c d.f.sigFlag ⟨a, n, know⟩

/-- Earlier Quay commands of the queue on the same session complete first (R81). -/
def earlierQuay (v : Queue) (fl : Flight) : Bool :=
  (v.flights.takeWhile fun f => f.cmd.pos ≠ fl.cmd.pos).any fun f => f.cmd.op 0 = fl.cmd.op 0

/-- ENGINE_COMMAND_COMPLETE: a command whose last access has been performed leaves its queue: a release event of
its engine, then its signal (R97, R99, R357). -/
def execEngineCommandComplete (c : CoreId) (q : QueueId) (pos : Nat) (s : State) : Out :=
  match s.flight? c q pos with
  | none => .next s
  | some fl =>
    let a := completionAgent s c q fl.cmd
    let imaged := s.held.any fun h => h.item = fl.item || h.tagItem = fl.item
    if !fl.finished || !s.acked a || !s.engineGoes c || (q = .quay && earlierQuay ((s.core c).queue q) fl) then .next s
    else if imaged then .next (s.endImages fl.item)
    else
      let s := settleOverlap s c fl
      let s := s.modCore c fun k =>
        let v := k.queue q
        k.setQueue q { v with flights := v.flights.filter fun f => f.cmd.pos ≠ pos }
      let s := (s.release a).releaseItem fl.item
      .next (if isCopyCommand fl.cmd.instr then s else addSignal s c q fl.cmd a fl.know)

/-! ## NOTE and the bell (R121 to R123, R386) -/

/-- The queue that a NOTE names. -/
def noteQueue (f : Ecmd) : QueueId :=
  match (fld f.w1 0 3).toNat with
  | 0 => .stream
  | 1 => .grid
  | 2 => .scan
  | 3 => .matrix
  | 4 => .copy
  | _ => .quay

/-- NOTE (R386): it enters the queue that it names. -/
def execNote (f : Ecmd) (s : State) : Out := enqueue (.note f) f (noteQueue f) s

/-- NOTE_REACHED: every earlier command of the queue has completed, and the NOTE's own wait has succeeded
(R121). -/
def execNoteReached (c : CoreId) (q : QueueId) (s : State) : Out :=
  let v := (s.core c).queue q
  match v.waiting with
  | [] => .next s
  | d :: _ =>
    if !isNote d.instr || d.reached || !s.engineGoes c then .next s
    else
      let (goes, t) := headWait s c q d
      if !goes || !v.flights.isEmpty then .next t
      else .next (t.modCore c fun k =>
        let v := k.queue q
        k.setQueue q { v with
          waiting := v.waiting.map fun (x : Cmd) => if x.pos = d.pos then { x with reached := true } else x, granted := false })

/-- Does the CP of core c wait in WFB? -/
def inWfb (k : Core) : Bool :=
  match k.x.blocked with
  | some (.wfb _, _) => true
  | _ => false

/-- The queues that hold a NOTE. -/
def notingQueues (k : Core) : List QueueId := allQueues.filter fun q => (k.queue q).holdsNote

/-- Retire the NOTE at the head of a queue: its own signal is added, and the CP knows what the queue did before
(R91, R122). -/
def retireNote (s : State) (c : CoreId) (q : QueueId) : State :=
  match ((s.core c).queue q).waiting with
  | d :: r =>
    let s := s.modCore c fun k => k.setQueue q { k.queue q with waiting := r }
    let a := State.queueAgent c q
    (addSignal s c q d a (s.known a)).learn (unitAgent c 0) (s.known a)
  | [] => s

/-- BELL_RING: the CP waits in WFB, a queue holds a NOTE and every one that does has reached it: the NOTEs retire
and WFB completes (R122, R123). -/
def execBellRing (c : CoreId) (s : State) : Out :=
  let k := s.core c
  let qs := notingQueues k
  if !inWfb k || qs.isEmpty || !(qs.all fun q => (k.queue q).reachedNote) || !s.engineGoes c then .next s
  else
    let s := qs.foldl (fun s q => retireNote s c q) s
    let failed := qs.any fun q => (s.core c).bellFail.getLsbD (queueIndex q).val
    .next (s.modCore c fun k => { k with
      x := { k.x with blocked := none }, rings := k.rings + 1, bellErr := failed, bellFail := 0 })

end Sys2Proof.Machine
end

