-- ==== Sys2Proof/Machine/Actions.lean ====
section
/-! DEFINITION. How a held core's trap is delivered and ended: the five actions of the action word, what they
abandon, the watchdog, and a system core's interrupts (R220 to R224, R227, R229, R231, R243, R407). -/

namespace Sys2Proof.Machine

/-! ## What a queue abandons (R224, R227) -/

/-- The items of a command that have not been performed, by the numbers under which they are reported. -/
def undone (d : Cmd) (p : Progress) : List Nat :=
  match p, d.instr with
  | .copy _ done _ _, _ => (copyPieces d).zipIdx.filterMap fun (x : (Nat × Nat × W64 × Nat) × Nat) =>
      if done.contains x.2 then none else some ((copyRows d).2.1 * x.1.1 + x.1.2.1)
  | .matrix i _ _, .mxMma _ => (List.range (mxRows d)).drop i
  | .matrix i _ _, .mxDrain _ => (List.range (mxRows d)).drop i
  | .scan k _, _ => (List.range (scanArgs d).blocks).drop k
  | .pieces i, .grDump f => ((piecesOf (d.op 0) (4096 * ((fld f.w1 16 6).toNat + 1))).drop i).map fun p => (p.1 - d.op 0).toNat
  | .pieces i, .grFill f => ((piecesOf (d.op 0) (4096 * ((fld f.w1 16 6).toNat + 1))).drop i).map fun p => (p.1 - d.op 0).toNat
  | .pieces i, .scnCarry f =>
    let n := 8 * ((fld f.w1 32 16).toNat + 1)
    if f.w1.getLsbD 5 then ((piecesOf (d.op 0) n).drop i).map fun p => (p.1 - d.op 0).toNat
    else ((List.range ((n + 63) / 64)).drop i).map (64 * ·)
  | .quay j, _ => (List.range (jobPages j)).drop j.pagesDone
  | _, _ => [0]

/-- The unit at which the program of a command stands. -/
def programUnit (s : State) (c : CoreId) (fl : Flight) : List Nat :=
  let ps := (s.core c).engines.toList.filterMap id ++ s.tides.toList.flatMap id
  match ps.find? fun p => p.issuer = c && p.item = fl.item with
  | some p => [p.unitIndex]
  | none => []

/-- The items that a command in flight leaves. -/
def flightItems (s : State) (c : CoreId) (fl : Flight) : List Nat :=
  if fl.finished then []
  else match fl.cmd.instr with
    | .seRun _ => programUnit s c fl
    | .teRun _ => programUnit s c fl
    | _ => undone fl.cmd fl.prog

/-- Engine reason 3 for a command of a queue. -/
def abandonCause (q : QueueId) (d : Cmd) : Nat := queueCause q d.instr 3

/-- Report the items of a command with a cause. -/
def reportItems (s : State) (c : CoreId) (q : QueueId) (pos cause : Nat) (items : List Nat) : State :=
  items.foldl (fun s i => s.report c q pos cause i) s

/-- Empty a queue: each abandoned item is reported, no signal is added (R224) (log 31: DEDUCED). -/
def abandonQueue (s : State) (c : CoreId) (q : QueueId) : State :=
  let v := (s.core c).queue q
  let s := v.flights.foldl (fun s fl =>
    ((reportItems s c q fl.cmd.pos (abandonCause q fl.cmd) (flightItems s c fl)).endImages fl.item).releaseItem fl.item) s
  let s := v.waiting.foldl (fun s d =>
    if isNote d.instr then s else reportItems s c q d.pos (abandonCause q d) (undone d (firstProgress s c d))) s
  s.modCore c fun k => k.setQueue q { k.queue q with waiting := [], flights := [], granted := false }

/-- The programs of core c on one tide engine end; chunks already admitted land (R221). -/
def abandonTide (c : CoreId) (s : State) (t : TideId) : State :=
  (List.range (s.tideProgs t).length).reverse.foldl (fun s slot =>
    match s.prog? (.tide t slot) with
    | some p => if p.issuer = c then endProg s (.tide t slot) p else s
    | none => s) s

/-- Empty the engine queues of a core, with its programs and its grid loops (R224). -/
def abandonQueues (s : State) (c : CoreId) : State :=
  let s := allQueues.foldl (fun s q => abandonQueue s c q) s
  let s := { s with feQueue := s.feQueue.filter fun (w : FeWaiter) => w ≠ FeWaiter.table c }
  let s := s.modCore c fun k => { k with
    engines := Vector.replicate 4 none, loops := [], waits := k.waits.filter (fun w => w.who = Waiter.cp),
    slateWait := k.slateWait.filter fun e => e.1.isNone }
  (List.finRange 64).foldl (abandonTide c) s

/-! ## Release of a held core -/

/-- Forget what the CP of core c waits in. -/
def dropCpWait (s : State) (c : CoreId) : State :=
  let s := { s with feQueue := s.feQueue.filter fun (w : FeWaiter) => w ≠ FeWaiter.proc (.compute c) }
  s.modCore c fun k => { k with
    waits := k.waits.filter (fun w => w.who ≠ Waiter.cp), slateWait := k.slateWait.filter (fun e => e.1.isSome),
    x := { k.x with blocked := none, ticket := none, reply := none, pushing := false } }

/-- The core is held no more: its CTPEND bit falls, and after a debug halt its watchdog goes on (R224, R243,
R406). -/
def releaseHold (s : State) (c : CoreId) (h : Hold) : State :=
  let s := match h.delivered with
    | some k => s.modSys k fun y => { y with ctpend := y.ctpend &&& ~~~((1 : BitVec 256) <<< c.val) }
    | none => s
  s.modCore c fun k => { k with
    held := none, dog := if h.cause = 327 then s.us - k.dog else k.dog,
    x := { k.x with fetched := [] } }

/-- The handler's edits take effect; a new PC leaves the instruction that waited, or the operands that were to be loaded at
the piece's entry (R223) (log 101: DEDUCED). -/
def takeEdits (s : State) (c : CoreId) (h : Hold) : State :=
  let s := s.modCore c fun k => applyEdits k h
  if edited h 8 8 then (dropCpWait s c).modPiece c fun q => { q with loading := false } else s

/-- Versions and slate go back (R224, R231). -/
def discardPiece (s : State) (c : CoreId) : State :=
  ((abandonQueues s c).discardVersion c).rollbackSlate c

/-- FAIL_TASK on a held core; outside a piece the CP stream ends (R224). -/
def failHeld (s : State) (c : CoreId) (h : Hold) : State :=
  let s := dropCpWait (releaseHold (discardPiece s c) c h) c
  if (s.core c).piece.isSome then s.pieceFailed c h.cause
  else s.modCore c fun k => { k with run := .off }

/-! ## Actions (R224) -/

/-- The actions of the action word. -/
inductive Action where
  | resume
  | resumeAt (target : BitVec 61)
  | restartTask
  | failTask
  | killPartition
  deriving DecidableEq, Repr

/-- What an action word asks for; none where the write is ignored. -/
def actionOf (w : W64) : Option Action :=
  let action := (fld w 0 3).toNat
  if action = 2 then some (.resumeAt (fld w 3 61))
  else if fld w 3 61 ≠ 0 then none
  else match action with
    | 1 => some .resume
    | 3 => some .restartTask
    | 4 => some .failTask
    | 5 => some .killPartition
    | _ => none

/-- Take an action on core c whose word has been written: `act` is its effect on the held core. -/
def takeAction (a : Action) (c : CoreId) (act : Hold → State → State) (s : State) : Out :=
  match s.actions with
  | [] => .next s
  | (k, w) :: rest =>
    if k ≠ c || actionOf w ≠ some a then .next s
    else
      let s := { s with actions := rest }
      match (s.core c).held with
      | some h => .next (act h s)
      | none => .next s

/-- RESUME (R224): the core goes on at the window's PC; after 323 as FAIL_TASK (R229). -/
def execResume (c : CoreId) (s : State) : Out :=
  takeAction .resume c (fun h s =>
    if h.cause = 323 then failHeld s c h else releaseHold (takeEdits s c h) c h) s

/-- A frozen command that faulted is ended: its undone items are reported with the trap's cause, and a copy's
flag receives their bytes (R116, R224). -/
def endFrozen (s : State) (c : CoreId) (h : Hold) : State :=
  match allQueues[(fld h.detail 12 3).toNat]? with
  | none => s
  | some q =>
    match ((s.core c).queue q).flights.find? fun f => f.cmd.pos % 32 = (fld h.detail 15 5).toNat && !f.finished with
    | none => s
    | some fl =>
      let pos := fl.cmd.pos
      let s := reportItems s c q pos h.cause (flightItems s c fl)
      let s := match fl.prog with
        | .copy _ done _ _ => (copyPieces fl.cmd).zipIdx.foldl (fun s (x : (Nat × Nat × W64 × Nat) × Nat) =>
            if done.contains x.2 then s
            else countRefused s (copyCount c fl.cmd x.1.2.2.2 ((copyRows fl.cmd).2.1 * x.1.1 + x.1.2.1))) s
        | _ => s
      s.finish c q pos

/-- RESUME_AT (R224): the CP goes on at TARGET. -/
def execResumeAt (c : CoreId) (target : BitVec 61) (s : State) : Out :=
  takeAction (.resumeAt target) c (fun h s =>
    if h.cause = 323 then failHeld s c h
    else
      let s := (dropCpWait (takeEdits s c h) c).modPiece c fun q => { q with loading := false }
      let s := if h.cls = .freeze then endFrozen s c h else s
      let pc := target ++ (0 : BitVec 3)
      (releaseHold s c h).modCore c fun k => { k with run := .run, x := { k.x with pc := pc, npc := pc } }) s

/-- RESTART_TASK (R224): a versioned piece begins again at its entry; any other ends as under FAIL_TASK. An arrival at a
barrier that the piece has made stands (log 107: DEDUCED). -/
def execRestartTask (c : CoreId) (s : State) : Out :=
  takeAction .restartTask c (fun h s =>
    match (s.core c).piece with
    | some q =>
      if q.versioned then (releaseHold (discardPiece (dropCpWait (takeEdits s c h) c) c) c h).enter c else failHeld s c h
    | none => failHeld s c h) s

/-- FAIL_TASK (R224). An arrival at a barrier that the piece has made stands (log 107: DEDUCED). -/
def execFailTask (c : CoreId) (s : State) : Out :=
  takeAction .failTask c (fun h s => failHeld s c h) s

/-! ## KILL_PARTITION (R224) -/

/-- A core of a partition that is killed stops; its version and its queues go. -/
def killCore (s : State) (c : CoreId) : State :=
  let s := ((s.releaseAll (coreAgents c)).discardVersion c)
  let s := abandonQueues s c
  let s := match (s.core c).piece with
    | some q => s.uncountPiece q.launch c
    | none => s
  let s := match (s.core c).held with
    | some h => releaseHold s c h
    | none => s
  ((dropCpWait s c).modCore c fun k => { k with workAt := none }).clearPiece c

/-- Set every session of a partition's table to failed (log 32: DEDUCED). -/
def failSessions (s : State) (t : PartId) : State :=
  (List.range 16384).foldl (fun s i =>
    let va := (s.part t).sesstab + BitVec.ofNat 64 (64 * i)
    match (s.peek t va 64).bind parseSession with
    | some x => if x.st = 0 then s else s.poke t (va + 4) [6]
    | none => s) s

/-- Every launch of a partition fails with 363. -/
def failLaunches (s : State) (t : PartId) : State :=
  let s := (List.range s.launches.length).foldl (fun s li =>
    match s.launches[li]? with
    | some l => if l.part = t then s.failLaunch li 363 else s
    | none => s) s
  let qs := s.launchQueue.filter fun q => q.part = t
  let s := { s with launchQueue := s.launchQueue.filter fun q => q.part ≠ t }
  qs.foldl (fun s q => s.writeDone q.part ((fld (wordAt q.desc 4) 0 48).setWidth 64) (some 363)) s

/-- Every core of a partition stops, all its versions are discarded, its launches fail with 363 and its sessions
are set to failed (R224). -/
def killPart (s : State) (t : PartId) : State :=
  let cs := (List.finRange 256).filter fun c => (s.core c).part = some t
  let ls := (List.range s.launches.length).filter fun li => (s.launches[li]?.map fun l => l.part) = some t
  let s := (cs.foldl killCore s).dropSaved fun v => v.image.part = some t
  let s := failSessions (failLaunches s t) t
  { s with
    readySessions := s.readySessions.filter fun r => r.part ≠ t,
    steps := s.steps.filter fun p => p.1 ≠ t, pins := s.pins.filter fun p => p.2.1 ≠ t,
    barriers := s.barriers.filter fun b => !ls.contains b.launch,
    steals := s.steals.filter fun c => !cs.contains c }

/-- KILL_PARTITION (R224): on a core outside every partition as FAIL_TASK. -/
def execKillPartition (c : CoreId) (s : State) : Out :=
  takeAction .killPartition c (fun h s =>
    match (s.core c).part with
    | some t => killPart s t
    | none => failHeld s c h) s

/-! ## Delivery (R222) -/

/-- The system cores in the order in which a trap of core c is offered to them. -/
def deliveryOrder (c : CoreId) : List SysId :=
  let die (base first : Nat) : List SysId := (List.range 8).map fun i =>
    ⟨(base + (first - base + i) % 8) % 16, Nat.mod_lt _ (by decide)⟩
  let y := coreY c
  let z := (y + 8) % 16
  die (y / 8 * 8) y ++ die (z / 8 * 8) z

/-- An uncorrectable internal error of core c is reported on the PF and on every bound VF, once (R222). -/
def reportInternal (s : State) (c : CoreId) : State :=
  let vfs := ((List.finRange 32).filter fun t => (s.part t).vf).map some
  { s with pfEvents := s.pfEvents ++ ((none :: vfs).map (PfEvent.internalError c)).filter fun e => !s.pfEvents.contains e }

/-- CORE_TRAP_DELIVERY: a held core's trap reaches the first enabled system core; one that was delivered to a system core
that has stopped since goes on to the next. With none, the core stays held and the PF and every bound VF report an
uncorrectable internal error (R222, R407). -/
def execCoreTrapDelivery (c : CoreId) (s : State) : Out :=
  match (s.core c).held with
  | none => .next s
  | some h =>
    if h.delivered.any fun k => (s.sysCore k).enabled then .next s
    else
      let bit := (1 : BitVec 256) <<< c.val
      let s := match h.delivered with
        | some k => s.modSys k fun y => { y with ctpend := y.ctpend &&& ~~~bit }
        | none => s
      match (deliveryOrder c).find? fun k => (s.sysCore k).enabled with
      | some k =>
        let s := s.modSys k fun y => { y with ctpend := y.ctpend ||| bit }
        .next (s.modCore c fun x => { x with held := some { h with delivered := some k } })
      | none => .next (reportInternal (s.modCore c fun x => { x with held := some { h with delivered := none } }) c)

/-! ## Watchdog (R243) -/

/-- WATCHDOG_EXPIRY: a resident context has counted its limit, that of its dispatch, or of the partition for a stream of
the core's own: the core stops with 322, or, held already, shows WDX. Under a debug halt nothing counts (R412). An expiry does
not begin the count again (log 108: DEDUCED). -/
def execWatchdogExpiry (c : CoreId) (s : State) : Out :=
  let k := s.core c
  match k.part with
  | none => .next s
  | some t =>
    let limit := ((k.piece.map (·.wdog)).getD (s.part t).wdog).toNat
    if limit = 0 || (k.piece.isNone && k.run ≠ .run) then .next s
    else match k.held with
      | some h =>
        if h.cause = 327 || s.us < k.dog + limit then .next s
        else .next (s.modCore c fun k => { k with held := some { h with wdx := true } })
      | none =>
        if s.us < k.dog + limit then .next s
        else .next (s.stopCore c .async 322 0 (detailWord (unitAgent c 0) 7 0))

/-! ## Interrupts of a system core (R407) -/

/-- The code of the interrupt that system core y takes next: core-trap before any other, then ascending codes. -/
def pendingCode (y : Sys) : Option Nat :=
  if y.ctpend ≠ 0 then some 0 else pickMin (fun r => [r]) y.reports

/-- INTERRUPT_ENTRY: with IE = 1 a pending interrupt is taken between two instructions; a report is thereby taken
from those that wait (R407). -/
def execInterruptEntry (k : SysId) (s : State) : Out :=
  let y := s.sysCore k
  match pendingCode y with
  | none => .next s
  | some code =>
    if !y.enabled || !y.running || !y.ie || y.x.blocked.isSome then .next s
    else .next ((s.setSys k { y with reports := y.reports.erase code }).interruptEntry k code)

end Sys2Proof.Machine
end

