-- ==== Sys2Proof/Machine/Crypto.lean ====
section
/-! DEFINITION. SHA-256, HMAC and ECDSA over P-256 with RFC 6979 nonces, for attestation, firmware and checkpoint
manifests (R246, R415, R442, R443). -/

namespace Sys2Proof.Machine

/-! ## SHA-256 -/

/-- The round constants. -/
def shaK : List (BitVec 32) :=
  [0x428A2F98, 0x71374491, 0xB5C0FBCF, 0xE9B5DBA5, 0x3956C25B, 0x59F111F1, 0x923F82A4, 0xAB1C5ED5] ++
  [0xD807AA98, 0x12835B01, 0x243185BE, 0x550C7DC3, 0x72BE5D74, 0x80DEB1FE, 0x9BDC06A7, 0xC19BF174] ++
  [0xE49B69C1, 0xEFBE4786, 0x0FC19DC6, 0x240CA1CC, 0x2DE92C6F, 0x4A7484AA, 0x5CB0A9DC, 0x76F988DA] ++
  [0x983E5152, 0xA831C66D, 0xB00327C8, 0xBF597FC7, 0xC6E00BF3, 0xD5A79147, 0x06CA6351, 0x14292967] ++
  [0x27B70A85, 0x2E1B2138, 0x4D2C6DFC, 0x53380D13, 0x650A7354, 0x766A0ABB, 0x81C2C92E, 0x92722C85] ++
  [0xA2BFE8A1, 0xA81A664B, 0xC24B8B70, 0xC76C51A3, 0xD192E819, 0xD6990624, 0xF40E3585, 0x106AA070] ++
  [0x19A4C116, 0x1E376C08, 0x2748774C, 0x34B0BCB5, 0x391C0CB3, 0x4ED8AA4A, 0x5B9CCA4F, 0x682E6FF3] ++
  [0x748F82EE, 0x78A5636F, 0x84C87814, 0x8CC70208, 0x90BEFFFA, 0xA4506CEB, 0xBEF9A3F7, 0xC67178F2]

/-- The initial hash value. -/
def shaInit : List (BitVec 32) :=
  [0x6A09E667, 0xBB67AE85, 0x3C6EF372, 0xA54FF53A, 0x510E527F, 0x9B05688C, 0x1F83D9AB, 0x5BE0CD19]

/-- A number from bytes, big-endian. -/
def beNat (bs : List Byte) : Nat := bs.foldl (fun n b => n * 256 + b.toNat) 0

/-- n bytes of a number, big-endian. -/
def beBytes (n v : Nat) : List Byte := (leBytes n v).reverse

/-- The message schedule, newest word first: n more words. -/
def shaExpand : Nat → List (BitVec 32) → List (BitVec 32)
  | 0, w => w
  | n + 1, w =>
    let at_ (i : Nat) : BitVec 32 := w.getD (i - 1) 0
    let s0 := let x := at_ 15; x.rotateRight 7 ^^^ x.rotateRight 18 ^^^ (x >>> 3)
    let s1 := let x := at_ 2; x.rotateRight 17 ^^^ x.rotateRight 19 ^^^ (x >>> 10)
    shaExpand n ((at_ 16 + s0 + at_ 7 + s1) :: w)

/-- One round over the eight working words. -/
def shaRound (h : List (BitVec 32)) (kw : BitVec 32) : List (BitVec 32) :=
  match h with
  | [a, b, c, d, e, f, g, hh] =>
    let s1 := e.rotateRight 6 ^^^ e.rotateRight 11 ^^^ e.rotateRight 25
    let ch := (e &&& f) ^^^ (~~~e &&& g)
    let t1 := hh + s1 + ch + kw
    let s0 := a.rotateRight 2 ^^^ a.rotateRight 13 ^^^ a.rotateRight 22
    let maj := (a &&& b) ^^^ (a &&& c) ^^^ (b &&& c)
    [t1 + s0 + maj, a, b, c, d + t1, e, f, g]
  | _ => h

/-- Compress one 64-byte block. -/
def shaBlock (h : List (BitVec 32)) (block : List Byte) : List (BitVec 32) :=
  let first := (List.range 16).map fun i => BitVec.ofNat 32 (beNat ((block.drop (4 * i)).take 4))
  let w := (shaExpand 48 first.reverse).reverse
  let r := ((w.zip shaK).map fun (a, b) => a + b).foldl shaRound h
  (h.zip r).map fun (a, b) => a + b

/-- Compress n blocks. -/
def shaBlocks : Nat → List Byte → List (BitVec 32) → List (BitVec 32)
  | 0, _, h => h
  | n + 1, bs, h => shaBlocks n (bs.drop 64) (shaBlock h (bs.take 64))

/-- The SHA-256 digest of bytes. -/
def sha256 (bs : List Byte) : List Byte :=
  let n := bs.length
  let padded := bs ++ [0x80] ++ List.replicate ((119 - n % 64) % 64) 0 ++ beBytes 8 (8 * n)
  (shaBlocks (padded.length / 64) padded shaInit).flatMap fun w => beBytes 4 w.toNat

/-- HMAC with SHA-256, for keys of at most 64 bytes. -/
def hmac (key msg : List Byte) : List Byte :=
  let k := key ++ List.replicate (64 - key.length) 0
  sha256 (k.map (· ^^^ 0x5C) ++ sha256 (k.map (· ^^^ 0x36) ++ msg))

/-! ## P-256 -/

def p256P : Nat := 0xFFFFFFFF00000001000000000000000000000000FFFFFFFFFFFFFFFFFFFFFFFF
def p256N : Nat := 0xFFFFFFFF00000000FFFFFFFFFFFFFFFFBCE6FAADA7179E84F3B9CAC2FC632551
def p256B : Nat := 0x5AC635D8AA3A93E7B3EBBD55769886BC651D06B0CC53B0F63BCE3C3E27D2604B
def p256G : Nat × Nat :=
  (0x6B17D1F2E12C4247F8BCE6E563A440F277037D812DEB33A0F4A13945D898C296,
   0x4FE342E2FE1A7F9B8EE7EB4A7C0F9E162BCE33576B315ECECBB6406837BF51F5)

/-- x ^ e mod m over the low `bits` bits of e. -/
def powMod (m x e : Nat) : Nat → Nat
  | 0 => 1 % m
  | bits + 1 =>
    let r := powMod m x (e / 2) bits
    r * r % m * (if e % 2 = 1 then x else 1) % m

/-- The inverse modulo a prime. -/
def invMod (m x : Nat) : Nat := powMod m (x % m) (m - 2) 256

/-- A point: none is the point at infinity. -/
abbrev Point := Option (Nat × Nat)

/-- The sum of two points. -/
def pointAdd (a b : Point) : Point :=
  match a, b with
  | none, q => q
  | q, none => q
  | some (x1, y1), some (x2, y2) =>
    let m := p256P
    let third (l : Nat) : Point :=
      let x := (l * l + 2 * m - x1 - x2) % m
      some (x, (l * (x1 + m - x) + m - y1) % m)
    if x1 = x2 then
      (if (y1 + y2) % m = 0 then none
       else third ((3 * x1 * x1 + (m - 3)) * invMod m (2 * y1) % m))
    else third ((y2 + m - y1) * invMod m (x2 + m - x1) % m)

/-- k times a point, over the low `bits` bits of k. -/
def pointMul (q : Point) (k : Nat) : Nat → Point
  | 0 => none
  | bits + 1 =>
    let r := pointMul q (k / 2) bits
    let d := pointAdd r r
    if k % 2 = 1 then pointAdd d q else d

/-- Is (x, y) on the curve? -/
def onCurve (x y : Nat) : Bool :=
  x < p256P && y < p256P && y * y % p256P = (x * x * x + (p256P - 3) * x + p256B) % p256P

/-! ## ECDSA -/

/-- Verify a signature over a 32-byte digest. -/
def ecdsaVerify (digest : List Byte) (kx ky r s : Nat) : Bool :=
  if onCurve kx ky && 0 < r && r < p256N && 0 < s && s < p256N then
    let w := invMod p256N s
    let u1 := beNat digest * w % p256N
    let u2 := r * w % p256N
    match pointAdd (pointMul (some p256G) u1 256) (pointMul (some (kx, ky)) u2 256) with
    | some (x, _) => x % p256N = r
    | none => false
  else false

/-- The signature with nonce k, where it is one. -/
def ecdsaWith (d : Nat) (digest : List Byte) (k : Nat) : Option (Nat × Nat) :=
  match pointMul (some p256G) k 256 with
  | none => none
  | some (x, _) =>
    let r := x % p256N
    let s := invMod p256N k * (beNat digest + r * d) % p256N
    if r = 0 || s = 0 then none else some (r, s)

/-- RFC 6979: draw nonces until one signs; `fuel` bounds the draws, each of which fails with probability below
2^-32. -/
def rfcDraw (d : Nat) (digest : List Byte) : Nat → List Byte → List Byte → Nat × Nat
  | 0, _, _ => (0, 0)
  | fuel + 1, k, v =>
    let v := hmac k v
    let t := beNat v
    let sig := if 1 ≤ t && t < p256N then ecdsaWith d digest t else none
    match sig with
    | some x => x
    | none =>
      let k := hmac k (v ++ [0])
      rfcDraw d digest fuel k (hmac k v)

/-- The signature of a digest under private key d, with the nonce of RFC 6979. -/
def ecdsaSign (d : Nat) (digest : List Byte) : Nat × Nat :=
  let x := beBytes 32 d ++ beBytes 32 (beNat digest % p256N)
  let v0 : List Byte := List.replicate 32 1
  let k0 : List Byte := List.replicate 32 0
  let k1 := hmac k0 (v0 ++ [0] ++ x)
  let v1 := hmac k1 v0
  let k2 := hmac k1 (v1 ++ [1] ++ x)
  rfcDraw d digest 64 k2 (hmac k2 v1)

/-- The device identity key (R443). -/
def identityKey : Nat :=
  let secret := (List.range 32).map Config.secretByte
  let tag : List Byte := [0x69, 0x64, 0x65, 0x6E, 0x74, 0x69, 0x74, 0x79]
  beNat (sha256 (secret ++ tag)) % (p256N - 1) + 1

/-- The device's public key, X then Y, big-endian (R443). -/
def publicKeyBytes : List Byte :=
  match pointMul (some p256G) identityKey 256 with
  | some (x, y) => beBytes 32 x ++ beBytes 32 y
  | none => []

/-- The public keys of devices that may coordinate a checkpoint: this device's own, and those whose certificates the module
knows (R246, R443) (log 53: DEDUCED). -/
def coordinatorKeys : List (Nat × Nat) :=
  (match pointMul (some p256G) identityKey 256 with
   | some q => [q]
   | none => []) ++ Config.coordinators

end Sys2Proof.Machine
end

