-- ==== Sys2Proof/Machine/Ports.lean ====
section
/-! DEFINITION. What crosses the host and peer ports: BAR2 accesses, BAR0 registers, mailbox requests, function
level resets, and register writes as such (R4, R22, R228, R429 to R433). -/

namespace Sys2Proof.Machine

/-! ## BAR2 (R430) -/

/-- The port function of a request as an accessor (R430). -/
def portWho (r : PortRequest) : Who :=
  { agent := match r.peer with
      | some n => peerAgent n
      | none => hostAgent
    own := none, sys := false, space := some r.part.val, part := some r.part, holder := .port }

/-- Is the function that makes a request there: the VF bound and the host link up, or a trained peer (R429)? -/
def portOpen (s : State) (r : PortRequest) : Bool :=
  s.boot = .up &&
  (match r.peer with
   | some n => s.peerLink && n.val < s.peers
   | none => s.hostLink && (s.part r.part).vf)

/-- A request refused: counted in HFAULT, a read or AtomicOp answered by Unsupported Request (R430). -/
def refuseRequest (s : State) (t : PartId) : State :=
  { s.modPart t fun p => { p with hfault := p.hfault + 1 } with portReply := none }

/-- Does an earlier posted write of the request's function wait? No request of the function passes one (R430)
(log 84: DEDUCED). -/
def writeAhead (s : State) (r : PortRequest) : Bool :=
  s.ports.any fun x => x.1 = .write && x.2.part = r.part && x.2.peer = r.peer

/-- Perform a request, or queue it behind the posted write or the access for which it waits (R430, R439). One whose data
does not match its check value is refused and reported with 372 or 373 (R436) (log 58: DEDUCED) (log 75: DESIGN CHOICE). -/
def portAccess (op : PortOp) (r : PortRequest) (m : M (Option (List Byte))) (s : State) : Out :=
  if !portOpen s r then .next s
  else if writeAhead s r then .next { s with ports := s.ports ++ [(op, r)] }
  else if 2 ^ 40 ≤ r.va.toNat then .next (refuseRequest s r.part)
  else match attempt m s with
    | .done reply t => .next { t with portReply := reply }
    | .failed cause _ _ =>
      let s := refuseRequest s r.part
      .next (if cause = 372 && r.peer.isNone || cause = 373 && r.peer.isSome then State.linkEvent s cause else s)
    | .waits what => .next { s.noteHeld what with ports := s.ports ++ [(op, r)] }

/-- BAR2_READ: a plain load (R430). -/
def execBar2Read (r : PortRequest) (s : State) : Out :=
  portAccess .read r (some <$> loadBytes (portWho r) .load {} r.va r.size) s

/-- BAR2_WRITE: a plain store; it has no reply (R430). -/
def execBar2Write (r : PortRequest) (s : State) : Out :=
  portAccess .write r (do
    storeBytes (portWho r) .store {} r.va (leBytes r.size (leNat r.data))
    pure s.portReply) s

/-- An AtomicOp of order ar at system scope, once the function's writes are acknowledged: `op` gives the new
value, none where nothing is written (R97, R430). -/
def portAtomic (r : PortRequest) (op : Nat → Option Nat) : M (Option (List Byte)) := do
  let w := portWho r
  let acc : Access := { atomic := true, rmw := true }
  if (r.size ≠ 4 && r.size ≠ 8) || r.va.toNat % r.size ≠ 0 then raise 44
  waitUnless ((← get).acked w.agent)
  modify fun s => s.release w.agent
  let ps ← translateRows w .atomic false [(r.va, r.size)]
  checkParts w acc true true ps
  let bs ← readParts w acc ps
  modify fun s => syncRead s w.agent true 4 ps
  match op (leNat bs) with
  | some new =>
    writeParts w acc ps (leBytes r.size new)
    modify fun s => syncWrite s w.agent true 4 ps
  | none => pure ()
  pure (some bs)

/-- An operand of an AtomicOp at its size. -/
def portOperand (r : PortRequest) (v : Nat) : Nat := v % 2 ^ (8 * r.size)

/-- BAR2_FETCHADD (R430). -/
def execBar2Fetchadd (r : PortRequest) (s : State) : Out :=
  portAccess .fetchadd r (portAtomic r fun old => some (amoOp 1 r.size old (portOperand r (leNat r.data)))) s

/-- BAR2_SWAP (R430). -/
def execBar2Swap (r : PortRequest) (s : State) : Out :=
  portAccess .swap r (portAtomic r fun old => some (amoOp 0 r.size old (portOperand r (leNat r.data)))) s

/-- BAR2_CAS (R430). -/
def execBar2Cas (r : PortRequest) (s : State) : Out :=
  portAccess .cas r (portAtomic r fun old =>
    if old = portOperand r r.cmp.toNat then some (portOperand r (leNat r.data)) else none) s

/-- A request by what it asks for. -/
def portRequest (op : PortOp) (r : PortRequest) : State → Out :=
  match op with
  | .read => execBar2Read r
  | .write => execBar2Write r
  | .fetchadd => execBar2Fetchadd r
  | .swap => execBar2Swap r
  | .cas => execBar2Cas r

/-- The turn of the n-th request that waits: it is made again at its own place in the order (R430). -/
def portTurn (n : Nat) (s : State) : Out :=
  match s.ports[n]? with
  | none => .next s
  | some (op, r) => match portRequest op r { s with ports := s.ports.take n } with
    | .next t => .next { t with ports := t.ports ++ s.ports.drop (n + 1) }
    | o => o

/-! ## BAR0 (R431) -/

/-- May the host reach VF t? -/
def vfOpen (s : State) (t : PartId) : Bool := s.boot = .up && s.hostLink && (s.part t).vf

/-- Set LQADDR: the address of a header lies on 64 bytes, and the low six bits of a value are dropped (R431)
(log 85: DESIGN CHOICE). -/
def setLqaddr (s : State) (t : PartId) (v : W64) : State :=
  s.modPart t fun p => { p with lqaddr := fld v 6 58 ++ (0 : BitVec 6) }

/-- LQADDR (R431). -/
def execLqaddr (t : PartId) (v : W64) (s : State) : Out :=
  .next (if vfOpen s t then setLqaddr s t v else s)

/-- A read of 8 bytes of BAR0: every offset that names no register reads zero (R431) (log 85: DESIGN CHOICE). -/
def readBar0 (s : State) (t : PartId) (o : Nat) : W64 :=
  let p := s.part t
  if o = 0 then p.lqaddr
  else if o = 0x08 then 6
  else if o = 0x10 then p.hfault
  else if o = 0x18 then p.pktfail
  else if o = 0x20 then p.rtmiss.foldl (fun n x => n + x.2) 0
  else if o = 0x28 then p.bwthr
  else if 0x100 ≤ o && o < 0x200 && o % 8 = 0 then tget 0 p.mailbox ((o - 0x100) / 8)
  else 0

/-- The host reads BAR0 of VF t (R431). -/
def bar0Read (t : PartId) (o : Nat) (s : State) : State :=
  if vfOpen s t then { s with portReply := some (leBytes 8 (readBar0 s t o).toNat) } else s

/-- A write of 8 bytes to a BAR0 register; every other offset ignores it (R431) (log 85: DESIGN CHOICE). -/
def writeBar0 (s : State) (t : PartId) (o : Nat) (v : W64) : State :=
  if o = 0 then setLqaddr s t v
  else if o = 0x10 then s.modPart t fun p => { p with hfault := v }
  else if o = 0x18 then s.modPart t fun p => { p with pktfail := v }
  else if 0x100 ≤ o && o < 0x200 && o % 8 = 0 then
    s.modPart t fun p => { p with mailbox := tput 0 p.mailbox ((o - 0x100) / 8) v }
  else s

/-- REGISTER_WRITE: a write of a register of no behaviour of its own, under its field access (R4): a special
register of the processor whose turn it is, which traps where a compute core may not name it; a word of a trap window;
or a BAR0 register. -/
def execRegisterWrite (r : RegRef) (v : W64) (s : State) : Out :=
  .next (match r with
    | .special num => match srReasons (s.env s.cur) num with
      | [] => writeSpecial s num v
      | n :: _ => s.trap (32 + n) 0 none
    | .window c o => s.windowWrite c (o.toNat / 8 * 8) (leBytes 8 v.toNat)
    | .bar0 t o => if vfOpen s t then writeBar0 s t o.toNat v else s)

/-! ## Mailboxes (R429, R431, R433) -/

/-- The version that Aedith agrees to: the highest of the driver's mask and VERSIONS (R433). -/
def agreedVersion (offer : W64) : Nat :=
  if offer.getLsbD 2 then 2 else if offer.getLsbD 1 then 1 else 0

/-- The firmware answers a request of a mailbox whose format the manual does not give (log 15: DESIGN CHOICE). -/
def answerMailbox (v : W64) (s : State) : State :=
  { s with portReply := some (leBytes 8 (Config.mailboxAnswer s.moment v).toNat), moment := s.moment + 1 }

/-- MAILBOX_REQUEST: the driver creates a queue, the PF binds or unbinds a VF or reads the device's public key and its
certificate, or a request whose format the manual does not give is answered (log 15: DESIGN CHOICE). After a failed boot only
the PF's recovery mailbox answers (R441, R443). -/
def execMailboxRequest (t : PartId) (m : MailboxRequest) (s : State) : Out :=
  .next (match m with
    | .queueCreate header offer =>
      if !vfOpen s t then s
      else
        let v := agreedVersion offer
        let s := if v = 0 then s else s.poke t (header + 38) [BitVec.ofNat 8 v]
        { s with portReply := some (leBytes 8 v) }
    | .bind part bound =>
      if s.boot = .up && s.hostLink then s.modPart part fun p => { p with vf := bound } else s
    | .other o v =>
      if vfOpen s t then
        answerMailbox v (s.modPart t fun p => { p with mailbox := tput 0 p.mailbox (o.toNat / 8) v })
      else s
    | .pf o v =>
      if s.boot = .cold || !s.hostLink then s
      else answerMailbox v { s with pfMailbox := tput 0 s.pfMailbox (o.toNat / 8) v }
    | .identity =>
      if s.boot = .up && s.hostLink then { s with portReply := some (publicKeyBytes ++ Config.certificate) } else s)

/-- FUNCTION_LEVEL_RESET: as KILL_PARTITION (R431). -/
def execFunctionLevelReset (t : PartId) (s : State) : Out :=
  .next (if s.boot = .up && s.hostLink then killPart s t else s)

/-! ## Links of the ports (R22, R228, R429) -/

/-- PEER_LINK_TRAINING: a peer device takes the next identifier; one beyond the fifteenth is refused (R22). After a loss of
the link, each peer that has an identifier keeps it, and the link comes up again for them (log 86: DESIGN CHOICE). -/
def execPeerLinkTraining (s : State) : Out :=
  .next (if s.boot ≠ .up then s
    else if !s.peerLink && 0 < s.peers then { s with peerLink := true }
    else if s.peers < 15 then { s with peers := s.peers + 1, peerLink := true } else s)

/-- HOST_LINK_DOWN: 368 (R228). -/
def execHostLinkDown (s : State) : Out :=
  .next (if s.hostLink then State.linkEvent { s with hostLink := false } 368 else s)

/-- HOST_LINK_TRAINING: traffic through the host port resumes. -/
def execHostLinkTraining (s : State) : Out := .next { s with hostLink := true }

/-- PEER_LINK_DOWN: 369 (R228). -/
def execPeerLinkDown (s : State) : Out :=
  .next (if s.peerLink then State.linkEvent { s with peerLink := false } 369 else s)

end Sys2Proof.Machine
end

