-- ==== Sys2Proof/Machine/Links.lean ====
section
/-! DEFINITION. The die link, the bandwidth regulators' clock, the power alarm and the forecast (R128, R218, R228,
R437 to R440, R444). -/

namespace Sys2Proof.Machine

/-! ## Exponent coding (R438) -/

/-- Meet exponent e: move it to the front, or put it there and drop the last. -/
def meetExponent (t : List (BitVec 8)) (e : BitVec 8) : List (BitVec 8) :=
  match t.findIdx? (· = e) with
  | some j => e :: t.eraseIdx j
  | none => e :: t.take 7

/-- The bits of bytes, the low bit of each first (log 60: DEDUCED). -/
def bitsOf (bs : List Byte) : List Bool := bs.flatMap fun b => (List.range 8).map fun i => b.getLsbD i

/-- The number of bits, low bit first. -/
def bitsNat : List Bool → Nat
  | [] => 0
  | b :: r => (if b then 1 else 0) + 2 * bitsNat r

/-- Decode n elements of `frac` fraction bits: their exponents, signs and fractions as numbers of the element's
width, and the table after them. -/
def decodeElements (frac : Nat) : Nat → List Bool → List (BitVec 8) → List Nat × List (BitVec 8)
  | 0, _, t => ([], t)
  | n + 1, bits, t =>
    let hit := bits.head? = some false
    let e : BitVec 8 := if hit then t.getD (bitsNat ((bits.drop 1).take 3)) 0 else BitVec.ofNat 8 (bitsNat ((bits.drop 1).take 8))
    let rest := bits.drop (if hit then 4 else 9)
    let v := bitsNat (rest.take (frac + 1))
    let x := v / 2 ^ frac * 2 ^ (frac + 8) + e.toNat * 2 ^ frac + v % 2 ^ frac
    let (xs, t) := decodeElements frac n (rest.drop (frac + 1)) (meetExponent t e)
    (x :: xs, t)

/-- Decode a coded line of FMT 1 (FP32) or 2 (BF16). -/
def decodeLine (bf16 : Bool) (bs : List Byte) (t : List (BitVec 8)) : List Byte × List (BitVec 8) :=
  let (xs, t) := if bf16 then decodeElements 7 64 (bitsOf bs) t else decodeElements 23 32 (bitsOf bs) t
  (xs.flatMap fun x => leBytes (if bf16 then 2 else 4) x, t)

/-- The low n bits of a number, low bit first. -/
def natBits (n v : Nat) : List Bool := (List.range n).map fun i => v.testBit i

/-- Bits in bytes, the low bit of each first; the last byte is filled up with zeros. -/
def bytesOfBits (bits : List Bool) : List Byte :=
  (cutEvery 8 ((bits.length + 7) / 8) bits).map fun b => BitVec.ofNat 8 (bitsNat b)

/-- Code elements of `frac` fraction bits: the bits, and the table after them. -/
def encodeElements (frac : Nat) : List Nat → List (BitVec 8) → List Bool × List (BitVec 8)
  | [], t => ([], t)
  | x :: xs, t =>
    let e : BitVec 8 := BitVec.ofNat 8 (x / 2 ^ frac)
    let v := x / 2 ^ (frac + 8) * 2 ^ frac + x % 2 ^ frac
    let head := match t.findIdx? (· = e) with
      | some j => false :: natBits 3 j
      | none => true :: natBits 8 e.toNat
    let (rest, t) := encodeElements frac xs (meetExponent t e)
    (head ++ natBits (frac + 1) v ++ rest, t)

/-- The elements of a line of FMT 1 (FP32) or 2 (BF16). -/
def lineElements (bf16 : Bool) (line : List Byte) : List Nat :=
  let w := if bf16 then 2 else 4
  (cutEvery w (128 / w) line).map leNat

/-- Code a line: its bytes, and the table after it, which is the table after the line sent as it is too (R438). -/
def encodeLine (bf16 : Bool) (line : List Byte) (t : List (BitVec 8)) : List Byte × List (BitVec 8) :=
  let (bits, t) := encodeElements (if bf16 then 7 else 23) (lineElements bf16 line) t
  (bytesOfBits bits, t)

/-! ## Flits (R437) -/

def State.modChannel (s : State) (k : Fin 22) (f : Channel → Channel) : State :=
  { s with channels := s.channels.set k.val (f s.channels[k.val]) }

/-- A link event that is reported to one die's system cores, and to the PF (R443). -/
def dieEvent (s : State) (die : Bool) (cause : Nat) : State :=
  let s := s.raiseReport die cause
  { s with pfEvents := s.pfEvents ++ [.link cause] }

/-- A link event that both dies' system cores are told of. -/
def bothDies (s : State) (cause : Nat) : State :=
  let s := (s.raiseReport false cause).raiseReport true cause
  { s with pfEvents := s.pfEvents ++ [.link cause] }

/-- Does a line match its two check values: CRC-32C of each 64-byte half (R436, R437)? -/
def lineChecks (line checks : List Byte) : Bool :=
  checks = leBytes 4 (crc32c (line.take 64)).toNat ++ leBytes 4 (crc32c (line.drop 64)).toNat

/-- Do lines of a channel have their exponents coded: those of FMT 1 and 2, on channels 0 to 8 (R438)? -/
def coded (ch fmt : Nat) : Bool := ch ≤ 8 && (fmt = 1 || fmt = 2)

/-! ## The sender (R128, R436 to R438) -/

/-- A field of n bytes: filled up with zeros. -/
def padTo (n : Nat) (bs : List Byte) : List Byte := (bs ++ List.replicate n 0).take n

/-- The credits, 4 bits for each channel, that a die returns in a flit. -/
def creditField (s : State) (die : Bool) : Nat :=
  (List.range 11).foldl (fun n ch => n + min 15 (s.channels[(channelIndex die ch).val]).owed * 16 ^ ch) 0

/-- Those credits are returned. -/
def creditsReturned (s : State) (die : Bool) : State :=
  (List.range 11).foldl (fun s ch => s.modChannel (channelIndex die ch) fun c => { c with owed := c.owed - min 15 c.owed }) s

/-- The flit of a kind and a body that a die sends on a channel: its sequence number, the highest one received in order on the
channel in the other direction, the credits, and its link CRC (R437). -/
def flitOf (s : State) (die : Bool) (ch kind : Nat) (body : List Byte) : List Byte :=
  let out := s.channels[(channelIndex (!die) ch).val]
  let back := s.channels[(channelIndex die ch).val]
  let bs := [BitVec.ofNat 8 kind, BitVec.ofNat 8 ch] ++ leBytes 2 out.sendSeq.toNat ++ leBytes 2 (back.seq - 1).toNat ++
    leBytes 6 (creditField s die) ++ List.replicate 4 0 ++ padTo 224 body ++ List.replicate 12 0
  bs ++ leBytes 4 (crc32c bs).toNat

/-- Send a flit: it is kept until the other die has it, and takes a credit unless it carries credits alone (R128, R437)
(log 55: DESIGN CHOICE). -/
def sendFlit (s : State) (die : Bool) (ch kind : Nat) (body : List Byte) (ls : List LinkLine) : State :=
  let flit := flitOf s die ch kind body
  (creditsReturned s die).modChannel (channelIndex (!die) ch) fun c => { c with
    sent := c.sent ++ [⟨c.sendSeq, flit, ls⟩], sendSeq := c.sendSeq + 1, used := if kind = 3 then c.used else c.used + 1 }

/-- The body of a plain line: its request's header, the line, its check values, its writer tags (R437). -/
def plainBody (l : LinkLine) : List Byte := padTo 16 l.header ++ padTo 128 l.bytes ++ padTo 8 l.checks ++ l.tags

/-- The exponents of lines meet the sender's table: the coded form of each line that is coded and fits in 112 bytes, and the
table (R438). -/
def codeLines (ch : Nat) : List LinkLine → List (BitVec 8) → List (LinkLine × Option (List Byte)) × List (BitVec 8)
  | [], t => ([], t)
  | l :: r, t =>
    let (bs, u) := encodeLine (l.fmt = 2) l.bytes t
    let (rest, v) := codeLines ch r (if coded ch l.fmt then u else t)
    ((l, if coded ch l.fmt && bs.length ≤ 112 then some bs else none) :: rest, v)

/-- Send lines: coded ones share a flit; where one of them is not coded, each goes in a flit of its own (R438). -/
def sendLines (s : State) (die : Bool) (ch : Nat) (ls : List LinkLine) : State :=
  let k := channelIndex (!die) ch
  let (xs, t) := codeLines ch ls (s.channels[k.val]).sendTable
  let s := s.modChannel k fun c => { c with sendTable := t }
  match xs.mapM (·.2) with
  | some bs => if ls.isEmpty then s else sendFlit s die ch 2 (bs.flatMap (padTo 112)) ls
  | none => xs.foldl (fun s x => match x.2 with
    | some bs => sendFlit s die ch 2 (padTo 112 bs) [x.1]
    | none => sendFlit s die ch 1 (plainBody x.1) [x.1]) s

/-- A die has something to send on a channel, for which it has a credit. A line that does not match its check values is not
sent on, and its item has failed (R436). -/
def linkSend (die : Bool) (ch : Fin 11) (what : LinkLoad) (s : State) : State :=
  let k := channelIndex (!die) ch.val
  let c := s.channels[k.val]
  if !s.dieLink then s
  else match what with
    | .credits => sendFlit s die ch.val 3 [] []
    | .requests rs => if c.used < Config.linkCredits ch.val + c.returned then
        sendFlit s die ch.val 0 ((rs.take 4).flatMap (padTo 56)) [] else s
    | .lines ls =>
      let (good, bad) := (ls.take 2).partition fun l => lineChecks l.bytes l.checks
      let s := s.modChannel k fun c => { c with failed := c.failed ++ bad.map (·.header) }
      if c.used < Config.linkCredits ch.val + c.returned then sendLines s die ch.val good else s

/-- What a flit tells the die that accepts it of its own sending: what has arrived on the channel leaves the replay store, and
credits of every channel come back (R437). -/
def noteAcks (s : State) (die : Bool) (ch : Nat) (flit : List Byte) : State :=
  let ack := leNat ((flit.drop 4).take 2)
  let credits := leNat ((flit.drop 6).take 6)
  let s := s.modChannel (channelIndex (!die) ch) fun c => { c with
    sent := if c.sent.any fun f => f.seq.toNat = ack then (c.sent.dropWhile fun f => f.seq.toNat ≠ ack).drop 1 else c.sent }
  (List.range 11).foldl (fun s j => s.modChannel (channelIndex (!die) j) fun c => { c with
    returned := c.returned + credits / 16 ^ j % 16 }) s

/-! ## The receiver -/

/-- A coded flit's lines (R438): those that pass their check values, the numbers of those that do not, and the table
(log 55: DESIGN CHOICE). -/
def codedLines (flit : List Byte) (t : List (BitVec 8)) : List LinkLine × List Nat × List (BitVec 8) :=
  (List.range (if Config.flitPair flit then 2 else 1)).foldl (fun (r : List LinkLine × List Nat × List (BitVec 8)) i =>
    let fmt := Config.flitFormat flit i
    let (bs, t) := decodeLine (fmt % 2 = 0) ((flit.drop (16 + 112 * i)).take 112) r.2.2
    let checks := leBytes 4 (crc32c (bs.take 64)).toNat ++ leBytes 4 (crc32c (bs.drop 64)).toNat
    if Config.flitCheck flit i then (r.1 ++ [⟨[], bs, checks, [], fmt⟩], r.2.1, t) else (r.1, r.2.1 ++ [i], t)) ([], [], t)

/-- A line of a flit failed its check value though the link CRC passed: 375 is reported, both ends' tables begin again, and
the lines that failed are sent again as they are (R438). -/
def tablesDiffer (s : State) (die : Bool) (k : Fin 22) (ch : Nat) (flit : List Byte) (bad : List Nat) : State :=
  let seq := leNat ((flit.drop 2).take 2)
  let again := match (s.channels[k.val]).sent.find? fun f => f.seq.toNat = seq with
    | some f => bad.filterMap fun i => f.lines[i]?
    | none => []
  let s := dieEvent (s.modChannel k fun c => { c with table := firstExponents, sendTable := firstExponents }) die 375
  again.foldl (fun s l =>
    (s.modChannel k fun c => { c with
      sendTable := if coded ch l.fmt then (encodeLine (l.fmt = 2) l.bytes c.sendTable).2 else c.sendTable })
    |> fun s => sendFlit s (!die) ch 1 (plainBody l) [l]) s

/-- Deliver an accepted flit at a channel of the receiving die. The item of a plain line that does not match its check values
fails, and the line goes no further (R436); coded lines are sent on channels 0 to 8 alone (R438). -/
def deliverFlit (s : State) (die : Bool) (k : Fin 22) (ch : Nat) (flit : List Byte) : State :=
  match (flit.getD 0 0).toNat with
  | 0 => s.modChannel k fun c => { c with
      delivered := c.delivered ++ [.requests ((List.range 4).map fun i => (flit.drop (16 + 56 * i)).take 56)], owed := c.owed + 1 }
  | 1 =>
    let fmt := Config.flitFormat flit 0
    let l : LinkLine := ⟨(flit.drop 16).take 16, (flit.drop 32).take 128, (flit.drop 160).take 8, (flit.drop 168).take 72, fmt⟩
    s.modChannel k fun c =>
      let c := { c with owed := c.owed + 1, table := if coded ch fmt then (encodeLine (fmt = 2) l.bytes c.table).2 else c.table }
      if lineChecks l.bytes l.checks then { c with delivered := c.delivered ++ [.lines [l]] }
      else { c with failed := c.failed ++ [l.header] }
  | 2 =>
    if 8 < ch then s
    else
      let (good, bad, t) := codedLines flit s.channels[k.val].table
      let s := s.modChannel k fun c => { c with delivered := c.delivered ++ [.lines good], table := t, owed := c.owed + 1 }
      if bad.isEmpty then s else tablesDiffer s die k ch flit bad
  | _ => s

/-- FLIT_RECEIVE: a flit arrives at a die. One that fails its link CRC counts a replay of its channel; one in
sequence is accepted and delivered; any other waits to be sent again (R128, R437). -/
def execFlitReceive (die : Bool) (flit : List Byte) (s : State) : Out :=
  let ch := (flit.getD 1 0).toNat
  if !s.dieLink || flit.length ≠ 256 || ch > 10 then .next s
  else
    let k := channelIndex die ch
    if leBytes 4 (crc32c (flit.take 252)).toNat ≠ flit.drop 252 then
      .next (s.modChannel k fun c => { c with replays := c.replays + 1 })
    else if (flit.getD 0 0).toNat > 3 || leNat ((flit.drop 2).take 2) ≠ s.channels[k.val].seq.toNat then .next s
    else
      let s := noteAcks (s.modChannel k fun c => { c with seq := c.seq + 1, replays := 0 }) die ch flit
      .next (deliverFlit s die k ch flit)

/-- REPLAY_LIMIT: after 16 replays of one flit 370 is reported to both dies (R437). -/
def execReplayLimit (s : State) : Out :=
  .next (if s.dieLink && s.channels.toList.any (fun c => 16 ≤ c.replays) then
    bothDies { s with dieLink := false } 370 else s)

/-- DIE_LINK_TRAINING: the link trains again, and its channels go on in sequence. -/
def execDieLinkTraining (s : State) : Out :=
  .next (if s.dieLink || s.dieLost then s
    else { s with dieLink := true, channels := s.channels.map fun c => { c with replays := 0 } })

/-! ## The loss of the die link (R437) -/

/-- The die on which an address lies for an accessor. -/
def homeDie (s : State) (w : Who) (va : W64) : Option Bool :=
  let v := (locate s w va).1
  if v.getLsbD 63 then some (v.getLsbD 55) else none

/-- Does the address lie on the other die than `die`? -/
def crosses (s : State) (w : Who) (die : Bool) (va : W64) : Bool := homeDie s w va = some (!die)

/-- Does a piece of a copy cross the link, at its source or its destination? -/
def pieceCrosses (s : State) (c : CoreId) (d : Cmd) (p : Nat × Nat × W64 × Nat) : Bool :=
  let w := s.queueWho c .copy
  let die := decide (coreDie c = 1)
  let (row, off, dst, _) := p
  let src := match d.instr with
    | .xfFill _ => none
    | .xfCopy2d _ => some (d.op 1 + BitVec.ofNat 64 row * ((fld (d.op 3) 0 32).signExtend 64) + BitVec.ofNat 64 off)
    | .xfGather f => some (d.op 3 + BitVec.ofNat 64 (4 * (off / 2 ^ (fld f.w1 24 3).toNat)))
    | _ => some (d.op 1 + BitVec.ofNat 64 off)
  crosses s w die dst || (match src with
    | some a => crosses s w die a
    | none => false)

/-- Fail the crossing pieces of a copy command in flight with 371; each still counts (R116, R244). -/
def failCrossing (s : State) (c : CoreId) (fl : Flight) : State :=
  match fl.prog with
  | .copy total _ _ _ =>
    (copyPieces fl.cmd).zipIdx.foldl (fun (s : State) (x : (Nat × Nat × W64 × Nat) × Nat) =>
      let now : Option Progress := (s.flight? c .copy fl.cmd.pos).map fun f => f.prog
      match now with
      | some (.copy _ done ov signalled) =>
        if done.contains x.2 || !pieceCrosses s c fl.cmd x.1 then s
        else
          let item := (copyRows fl.cmd).2.1 * x.1.1 + x.1.2.1
          let s := s.report c .copy fl.cmd.pos 371 item
          let s := countRefused s (copyCount c fl.cmd x.1.2.2.2 item)
          let s := s.modFlight c .copy fl.cmd.pos fun f => { f with
            prog := .copy total (done ++ [x.2]) ov signalled, finished := done.length + 1 = total }
          copyEnded s c fl.cmd.pos
      | _ => s) s
  | _ => s

/-- Fail the crossing chunks of a tide engine that have been sent. -/
def failChunks (s : State) (t : TideId) : State :=
  let die := decide (32 ≤ t.val)
  let (ps, s) := (s.tideProgs t).foldl (fun (r : List Prog × State) (p : Prog) =>
    let w := r.2.whoTide t p.issuer
    let lost := p.inflight.filter fun x => (x.dst.addr.map (crosses r.2 w die)).getD false
    let s := lost.foldl (fun (s : State) (x : TidePiece) =>
      countRefused (s.progReport p 371 x.unit) (x.bound.map fun (f, c) =>
        ⟨c, ⟨f, x.bytes.length, tideAgent t, []⟩, x.reserved, p.issuer, .stream, engineCode (.tide t 0) 2, p.cmdPos, x.unit⟩)) r.2
    (r.1 ++ [{ p with inflight := p.inflight.filter fun x => !lost.contains x }], s)) ([], s)
  s.setTideProgs t ps

/-- Launches under static placement that have a node left on the other die than the one they begin on lose that die: they
fail with 364 (R207, R228) (log 50: DEDUCED). -/
def failPlaced (s : State) : State :=
  (List.range s.launches.length).foldl (fun (s : State) (li : Nat) =>
    match s.launches[li]? with
    | none => s
    | some l =>
      let own := decide (coreDie (rankCore l.rect 0) = 1)
      let open_ (n : Nat) : Bool := l.insts.isEmpty || l.insts.any fun i => i.live && !i.complete.getD n true
      if !l.ended && (s.part l.part).place && l.nodes.zipIdx.any (fun (x : Node × Nat) => x.1.die ≠ own && open_ x.2) then
        s.failLaunch li 364
      else s) s

/-- DIE_LINK_LOST: the link has stayed untrained for 1 ms: 371 is reported and what crosses it fails (R437)
(log 54: DEDUCED). -/
def execDieLinkLost (s : State) : Out :=
  if s.dieLink || s.dieLost then .next s
  else
    let s := bothDies { s with dieLost := true, steals := [] } 371
    let s := (List.finRange 256).foldl (fun s c =>
      ((s.core c).queue .copy).flights.foldl (fun s fl => if fl.finished then s else failCrossing s c fl) s) s
    .next (failPlaced ((List.finRange 64).foldl failChunks s))

/-! ## Regulators (R439, R440) -/

/-- A regulator at an interval boundary. -/
def Regulator.interval (r : Regulator) : Regulator := { r with budget := r.next, used := 0, throttled := false }

/-- The regulators that hold a request: those that have one still held, or had one held in the interval that ends. -/
def holdingKeys (s : State) : List Nat :=
  (((s.regulators.filter fun x => x.2.throttled).map (·.1)) ++ s.requests.held.map (·.reg)).eraseDups

/-- REGULATOR_INTERVAL: every used count is reset, budgets take effect, held requests go on in the order of their arrival as
far as the new budgets let them, and BWTHR counts the intervals in which a request was held (R431, R439). -/
def execRegulatorInterval (s : State) : Out :=
  let t := (holdingKeys s).foldl (fun (s : State) (key : Nat) =>
    s.modPart ⟨key % 32, Nat.mod_lt _ (by decide)⟩ fun p => { p with bwthr := p.bwthr + 1 }) s
  .next { t with regulators := t.regulators.foldl (fun (m : Table Regulator) (x : Nat × Regulator) => tput Regulator.zero m x.1 x.2.interval) t.regulators }.admitDue

/-- REGULATOR_SOFT_ADMIT: the oldest request of a partition held in soft mode goes on while its controller holds none of a
partition below its budget (R439). -/
def execRegulatorSoftAdmit (ctrl : Nat) (t : PartId) (s : State) : Out :=
  let key := ctrl * 32 + t.val
  let r := s.regulator key
  let under := s.requests.held.any fun x => x.reg / 32 = ctrl && (s.regulator x.reg).admits
  match s.requests.held.find? fun x => x.reg = key with
  | some x => .next (if r.en && !r.hard && !under then admitHeld (fun _ y => y = x) [x] s else s)
  | none => .next s

/-! ## Power (R218, R444) -/

/-- POWER_ALARM_RAISE (R444). -/
def execPowerAlarmRaise (s : State) : Out := .next { s with alarm := true }

/-- POWER_ALARM_CLEAR (R444). -/
def execPowerAlarmClear (s : State) : Out := .next { s with alarm := false }

/-- The count A of a die: its arrays that hold or await a lease, ready nodes that use the array, and ready
sessions, those of launches that begin on the die (R218, log 61: DEDUCED). -/
def forecastCount (s : State) (die : Bool) : Nat :=
  let arrays := ((List.finRange 64).filter fun k => decide (32 ≤ k.val) = die &&
    (s.arrays[k.val].holder.isSome || (List.finRange 4).any fun m => wantsLease s (memberCore k m))).length
  let nodes := (s.pool.filter fun r => r.die = die && (match s.launches[r.launch]? with
    | some l => ((l.nodes[r.node]?).map fun n => n.mxuse).getD false
    | none => false)).length
  let sessions := (s.readySessions.filter fun r => match (s.sessionLaunch r.part r.sid).bind fun li => s.launches[li]? with
    | some l => decide (coreDie (rankCore l.rect 0) = 1) = die
    | none => false).length
  min 32 (arrays + nodes + sessions)

/-- FORECAST_UPDATE (R218). -/
def execForecastUpdate (die : Bool) (s : State) : Out :=
  let a := forecastCount s die
  let w := BitVec.ofNat 14 (a * 256 + (255 * a + 16) / 32)
  .next { s with forecast := s.forecast.set (if die then 1 else 0) w (by split <;> omega) }

end Sys2Proof.Machine
end

