-- ==== Sys2Proof/Machine/Boot.lean ====
section
/-! DEFINITION. Boot and the check of the firmware image; restoring a checkpoint (R245 to R248, R441, R442). -/

namespace Sys2Proof.Machine

/-- n bytes from offset o of an image. -/
def bytesAt (bs : List Byte) (o n : Nat) : List Byte := (bs.drop o).take n

/-! ## Firmware (R442) -/

/-- The body of a firmware image. -/
def firmwareBody (image : List Byte) : List Byte := bytesAt image 0x100 (leNat (bytesAt image 0x10 8))

/-- Where the firmware of an image begins: its entry offset within the body. -/
def firmwareEntry (image : List Byte) : W64 := Config.bootBase image + BitVec.ofNat 64 (leNat (bytesAt image 0x18 8))

/-- The bytes of an image's body at the addresses at which the ROM puts them (log 56: DESIGN CHOICE). -/
def bodyCells (image : List Byte) : List (Nat × Byte) :=
  (firmwareBody image).zipIdx.map fun (b, i) => (Config.bootPlace image + i, b)

/-- FIRMWARE_VERIFY: does the ROM accept the image? Its header must be one, and every check must hold. -/
def firmwareOk (image : List Byte) : Bool :=
  0x100 + leNat (bytesAt image 0x10 8) ≤ image.length &&
  leNat (bytesAt image 0 4) = 0x57464E59 && leNat (bytesAt image 4 4) = 1 &&
  sha256 (bytesAt image 0x80 64) = Config.firmwareKeyDigest &&
  ecdsaVerify (sha256 (bytesAt image 0 0x40)) (beNat (bytesAt image 0x80 32)) (beNat (bytesAt image 0xA0 32))
    (beNat (bytesAt image 0x40 32)) (beNat (bytesAt image 0x60 32)) &&
  bytesAt image 0x20 32 = sha256 (firmwareBody image) &&
  Config.firmwareMinVersion ≤ leNat (bytesAt image 8 8)

/-- Put bytes at physical addresses below `top`. -/
def putCells (m : List Host.Cell) (top : Nat) : List (Nat × Byte) → List Host.Cell
  | [] => m
  | (a, b) :: r => putCells (if a < top then memPut m a [b] else m) top r

/-- What the boot leaves once the units are tested: everything as after device reset but the units found good
(R52, R240); the clock and the model's own schedule go on. -/
def testedUnits (s : State) (b : BootReport) : State :=
  { State.reset with
    agenda := s.agenda, moment := s.moment, us := s.us, slices := b.slices, ctrls := b.channels,
    cores := Vector.ofFn fun c => { Core.reset with feat := b.feat.getD c.val 0x3F }
    sys := Vector.ofFn fun k => { Sys.reset with enabled := b.sysCores.getLsbD k.val } }

/-- Aedith runs on every enabled system core and has brought up links and ports (R441) (log 56: DESIGN CHOICE). -/
def bootedState (s : State) (b : BootReport) : State :=
  let t := testedUnits s b
  { t with
    boot := .up, fwDigest := sha256 b.image, superRoot := some (Config.bootRoot b.image),
    mem := putCells [] t.dramTop (Config.bootCells b.image ++ bodyCells b.image)
    sys := Vector.ofFn fun k =>
      let y := t.sys[k]
      let pc := firmwareEntry b.image
      if y.enabled then { y with running := true, x := { y.x with pc := pc, npc := pc } } else y }

/-- MODULE_BOOT: ROM, unit test, firmware check, Aedith, ports. A failed check stops the boot (R441). -/
def execModuleBoot (b : BootReport) (s : State) : Out :=
  .next (if firmwareOk b.image then bootedState s b else { testedUnits s b with boot := .stopped })

/-! ## Checkpoints (R245 to R248) -/

/-- The step number of a manifest (R246). -/
def manifestStep (m : List Byte) : Nat := leNat (bytesAt m 8 8)

/-- The number of shards of a manifest. -/
def manifestShards (m : List Byte) : Nat := leNat (bytesAt m 0x14 4)

/-- Entry k of a manifest. -/
def manifestEntry (m : List Byte) (k : Nat) : List Byte := bytesAt m (0x40 + 64 * k) 64

/-- Does a manifest have the layout of R246, and its signature verify with the identity key of a coordinating device? -/
def manifestSigned (c : CheckpointCopy) : Bool :=
  let m := c.manifest
  let n := manifestShards m
  m.length = 0x80 + 64 * n && leNat (bytesAt m 0 4) = 0x4B434E59 && leNat (bytesAt m 4 4) = 1 &&
  leNat (bytesAt m 0x18 40) = 0 && coordinatorKeys.contains (c.keyX, c.keyY) &&
  ecdsaVerify (sha256 (bytesAt m 0 (0x40 + 64 * n))) c.keyX c.keyY
    (leNat (bytesAt m (0x40 + 64 * n) 32)) (leNat (bytesAt m (0x60 + 64 * n) 32))

/-- Does every shard have its length and digest? -/
def shardsMatch (c : CheckpointCopy) : Bool :=
  (List.range (manifestShards c.manifest)).all fun k =>
    let e := manifestEntry c.manifest k
    match c.shards[k]? with
    | some b => b.length = leNat (bytesAt e 16 8) && sha256 b = bytesAt e 32 32
    | none => false

/-- Are all shards of the manifest's one step? -/
def oneStep (c : CheckpointCopy) : Bool :=
  (List.range (manifestShards c.manifest)).all fun k =>
    leNat (bytesAt (manifestEntry c.manifest k) 8 8) = manifestStep c.manifest

/-- The cause with which a manifest is refused, if it is (R247) (log 53: DEDUCED). -/
def manifestFault (c : CheckpointCopy) : Option Nat :=
  if !manifestSigned c then some 366
  else if !oneStep c then some 365
  else if !shardsMatch c then some 366
  else none

/-- The newest of the checkpoints that are not refused. -/
def newestValid (cs : List CheckpointCopy) : Option CheckpointCopy :=
  (cs.filter fun c => (manifestFault c).isNone).foldl (fun (best : Option CheckpointCopy) c =>
    match best with
    | some b => if manifestStep b.manifest < manifestStep c.manifest then some c else best
    | none => some c) none

/-- Report the refused manifests, each with its step (R247). -/
def reportRefused (s : State) : List CheckpointCopy → State
  | [] => s
  | c :: r =>
    reportRefused (match manifestFault c with
      | some cause =>
        let s := s.raiseAny cause
        { s with ckptReports := s.ckptReports ++ [(cause, manifestStep c.manifest)] }
      | none => s) r

/-- The sessions go back to their frames: no step runs or is suspended, no core runs a piece of one, and no bank holds a
slate or moves one (R248) (log 57: DESIGN CHOICE). -/
def rollBackSessions (s : State) : State :=
  let runs (c : CoreId) : Bool := (s.core c).piece.any fun q => q.session.isSome
  let s := ((List.finRange 256).filter runs).foldl killCore s
  let s := s.dropSaved fun v => v.image.piece.any fun q => q.session.isSome
  let s := { s with
    pool := s.pool.filter fun r => (match s.readyOf r with
      | some (_, i) => i.session.isNone
      | none => false)
    launches := s.launches.map fun l => { l with
      insts := l.insts.map fun i => if i.session.isSome then { i with live := false } else i }
    steps := [], arrivals := [], readySessions := []
    cores := s.cores.map fun k => { k with banks := Vector.replicate 2 none, moves := [], forks := [] } }
  s

/-- Restore the newest valid checkpoint: its shards' descriptors and frames, and its step number; sessions become
ready again from their input queues (R247, R248) (log 57: DESIGN CHOICE). -/
def restoreCheckpoint (cs : List CheckpointCopy) (s : State) : State :=
  let s := reportRefused s cs
  match newestValid cs with
  | some c =>
    let s := rollBackSessions s
    { s with
      checkpoint := some (manifestStep c.manifest)
      mem := putCells s.mem s.dramTop (c.shards.flatMap Config.shardCells)
      flaws := s.flaws.filter fun f => s.dramTop ≤ 8 * f.1 }
  | none => s

/-- CHECKPOINT_RESTORE (R247). -/
def execCheckpointRestore (cs : List CheckpointCopy) (s : State) : Out := .next (restoreCheckpoint cs s)

/-- DEVICE_FAILOVER: the copies of the failed device's shards are the buddy's; the newest valid checkpoint is
restored (R248). -/
def execDeviceFailover (cs : List CheckpointCopy) (s : State) : Out := .next (restoreCheckpoint cs s)

end Sys2Proof.Machine
end

