-- ==== Sys2Proof/Machine/Context.lean ====
section
/-! DEFINITION. Context switches: when a pre-empted piece's units have stopped, the save area, and the restore (R83,
R97, R212, R234 to R239, R397). -/

namespace Sys2Proof.Machine

/-! ## The pre-emption points (R234) -/

/-- The tide programs of core c, by engine. -/
def tidesOf (s : State) (c : CoreId) : List (TideId × Prog) :=
  (List.finRange 64).flatMap fun t => ((s.tideProgs t).filter fun p => p.issuer = c).map fun p => (t, p)

/-- Has every unit of core c reached its pre-emption point, with its accesses and additions performed (R234, R235,
R237)? -/
def unitsStopped (s : State) (c : CoreId) : Bool :=
  let k := s.core c
  (k.loops.all fun l => drained k l) && k.loops.length ≤ 1 &&
  (allQueues.all fun q => (k.queue q).flights.all fun f => f.outb.isEmpty) &&
  (k.engines.toList.all fun p => match p with | some p => p.off.isNone | none => true) &&
  ((tidesOf s c).all fun p => !p.2.admitted && (p.2.off.isNone || p.2.asked) && p.2.inflight.isEmpty) &&
  k.signals.isEmpty && k.x.ticket.isNone && (coreAgents c).all s.acked

/-- A pre-emption is given up: the grid's loops begin again at their first unstarted iteration (R212, R397). -/
def refillLoops (k : Core) : Core :=
  { k with preempt := false, loops := k.loops.map fun l =>
      if drained k l && !l.stopAsked && l.first + l.started < l.trip then newLoop l.ver l.trip (l.first + l.started) l.cmdPos l.item
      else l }

/-- A free save area of the context region that the partition of a piece named at its dispatch (R236, R412). -/
def freeArea (s : State) (t : PartId) (q : Piece) : Option Nat :=
  ((List.range q.ctxn).map fun i => q.ctxbase.toNat + 0x190000 * i).find? fun a =>
    !(s.saved.any fun v => v.image.part = some t && a < v.area + 0x190000 && v.area < a + 0x190000)

/-! ## The save area (R236) -/

/-- A hold under which a saved context's window image is read: no trap is held. -/
def savedHold : Hold := ⟨.async, 0, 0, 0, false, none, []⟩

/-- The image of the trap window. -/
def windowImage (k : Core) : List Byte :=
  (List.range 16384).flatMap fun i => leBytes 4 (windowUnit k savedHold (4 * i)).toNat

/-- The accumulator set, row by row. -/
def accImage (k : Core) : List Byte := (List.range 16384).flatMap fun i => leBytes 8 (tget 0 k.acc i).toNat

/-- The full/empty bits of a core's scratchpad, eight to a byte; a bad word of them is zero (R86). -/
def fullImage (s : State) (c : CoreId) : List Byte :=
  (List.range 8192).map fun i =>
    if (tfind s.flaws (fullKey (scratchHome c (128 * i)))).isSome then 0
    else BitVec.ofNat 8 (((List.range 8).map fun b =>
      if s.isFull (scratchHome c (16 * (8 * i + b))) then 2 ^ b else 0).foldl (· + ·) 0)

/-- A neighbour queue as the device copies it for itself: a bad slot is not passed on, and is zero (R86). -/
def goodSlots (q : NeighbourQueue) : NeighbourQueue :=
  if q.bad.isSome then { q with slots := q.slots.set 0 (Vector.replicate 16 0), bad := none } else q

/-- The core as its context is saved: without what is bad (R86). -/
def goodCore (k : Core) : Core := { k with down := goodSlots k.down, up := goodSlots k.up }

/-- The bad words of core c's context, by their offsets in the save area: its slices, scratchpad and full/empty bits, and
the neighbour-queue slots in the window's image (R86). -/
def badContext (s : State) (c : CoreId) : List Nat :=
  let slot (o : Nat) (q : NeighbourQueue) : List Nat := if q.bad.isSome then [o + 64 * q.head.toNat] else []
  (s.badOffsets (laneHome c 0 0 0) 0x40000).map (0x40000 + ·) ++ (s.badOffsets (scratchHome c 0) 0x100000).map (0x80000 + ·) ++
  ((s.flaws.filter fun f => fullKey (scratchHome c 0) ≤ f.1 && f.1 < fullKey (scratchHome c 0) + 1024).map fun f =>
    0x180000 + 8 * (f.1 - fullKey (scratchHome c 0))) ++
  slot 0xA100 (s.core c).down ++ slot 0xA308 (s.core c).up

/-- Write core c's context at an address of its partition. Past the mode word the engine state is the
implementation's (log 24: DESIGN CHOICE). Bad data is never passed on: its words are written as zeros, and the restore
raises 337 (R86, R228) (log 79: DESIGN CHOICE). -/
def writeArea (s : State) (t : PartId) (c : CoreId) (area : Nat) : State :=
  let k := goodCore (s.core c)
  let at_ (o : Nat) : W64 := BitVec.ofNat 64 (area + o)
  let engine := leBytes 8 (if k.accInt then 1 else 0) ++ (List.range 0xFFF8).map fun i => Config.saveByte s.moment i
  let s' := s.poke t (at_ 0) (windowImage k)
  let s' := s'.poke t (at_ 0x10000) (accImage k)
  let s' := s'.poke t (at_ 0x30000) engine
  let s' := s'.poke t (at_ 0x40000) (s.goodBytes (laneHome c 0 0 0) 0x40000)
  let s' := s'.poke t (at_ 0x80000) (s.goodBytes (scratchHome c 0) 0x100000)
  let s' := s'.poke t (at_ 0x180000) (fullImage s c)
  (s'.poke t (at_ 0x182000) (List.replicate 0xE000 0)).tick

/-- The core after its context has been saved: its queues, engines and fork records are empty, and its telemetry counts for
no context (R417, R421). The flags stay, so that what reaches them before the restore is added here and is lost with it
(R112) (log 100: DESIGN CHOICE). -/
def emptied (k : Core) : Core :=
  { k with
    waits := [], granted := [], queues := k.queues.map (fun (q : Queue) => { q with waiting := [], flights := [], granted := false }),
    engines := Vector.replicate 4 none, switch := [], loops := [], down := NeighbourQueue.empty,
    up := NeighbourQueue.empty, guardWait := [], slateWait := [], intent := false, forks := [],
    telemetry := Vector.replicate 10 0, countsOf := none,
    x := { k.x with blocked := none, ticket := none, reply := none, fetched := [], pushing := false } }

/-- The step of a saved piece is suspended once no core runs a piece of it (R209, R213). -/
def pauseStep (s : State) (t : PartId) (q : Piece) : State :=
  match q.session with
  | some (sid, _) =>
    if s.suspended t sid then
      (s.setSessionState t sid 4).modInst q.launch q.inst fun i => { i with pausedAt := some s.us }
    else s
  | none => s

/-- Save core c's context in an area: a release event of every agent of the core; the core then seeks work (log 25: DEDUCED)
(log 27: DEDUCED). -/
def saveContext (s : State) (t : PartId) (c : CoreId) (q : Piece) (area : Nat) : State :=
  let s := if holdsLease s c then s.endLease (coreCluster c) else s.dropTables c
  let s := takeEvents (s.releaseAll (coreAgents c)) c
  let bad := !(badContext s c).isEmpty
  let s := writeArea s t c area
  let tides := tidesOf s c
  let mine (h : HeldImage) : Bool := h.owner = some c
  let k := goodCore (s.core c)
  let image : Core := { k with
    dog := s.us - k.dog, guardWait := [], slateWait := [], preempt := false, moves := []
    x := { k.x with fetched := [], pushing := false } }
  let s := { s with
    tides := s.tides.map (fun (ps : List Prog) => ps.filter fun p => p.issuer ≠ c),
    held := s.held.filter (fun h => !mine h),
    saved := s.saved ++ [(⟨c, area, image, bad, tides, s.held.filter mine⟩ : SavedContext)],
    feQueue := s.feQueue.filter fun (q : FeWaiter) => q ≠ FeWaiter.proc (.compute c) && q ≠ FeWaiter.table c }
  let s := ((s.modCore c emptied).clearPiece c).modCore c fun k => { k with sliceOf := none }
  pauseStep s t q

/-- CONTEXT_SAVE: once every unit of a pre-empted piece has stopped, its context goes to a free save area; with
none, the piece goes on once its grid loops have drained (R212, R234 to R237, R397). -/
def execContextSave (c : CoreId) (s : State) : Out :=
  let k := s.core c
  match k.piece, k.part with
  | some q, some t =>
    if !k.preempt || k.held.isSome then .next s
    else match freeArea s t q with
      | none => .next (if k.loops.all fun l => drained k l then s.modCore c refillLoops else s)
      | some a => if unitsStopped s c then .next (saveContext s t c q a) else .next s
  | _, _ => .next s

/-! ## The restore (R237 to R239) -/

/-- The bytes of the area that differ from the saved image are taken as edits of it. -/
def areaEdits (k : Core) (bs : List Byte) : Hold :=
  { savedHold with edits := (bs.zipIdx.filterMap fun (b, o) =>
      if windowWritable o && b ≠ windowByte k savedHold o then some (o, some b) else none) }

/-- A restored flag: its value, W and RES, C = 0 and one addition equal to the value, which synchronises with
every addition that was unconsumed (R237). -/
def restoredFlag (a : AgentId) (f : Flag) : Flag :=
  let know := acquired f.consumed (f.consumed + (f.adds.foldl (fun n x => n + x.amount) 0)) f.adds 0 []
  { f with consumed := 0, adds := if f.value = 0 then [] else [⟨a, f.value.toNat, know⟩] }

/-- The accumulators of an area. -/
def accFrom (bs : List Byte) : Table (BitVec 48) :=
  (List.range 16384).filterMap fun i =>
    let v := BitVec.ofNat 48 (leNat ((bs.drop (8 * i)).take 6))
    if v = 0 then none else some (i, v)

/-- The flags of a core that resumes: their values and windows as they were saved, and the reserved totals of the chunks on
their way to this core, which land here (R119). -/
def resumedFlags (own image : Core) (a : AgentId) : Table Flag :=
  (own.flags.map (·.1) ++ image.flags.map (·.1)).eraseDups.foldl (fun t f =>
    tput Flag.zero t f { restoredFlag a (tget Flag.zero image.flags f) with res := (tget Flag.zero own.flags f).res }) []

/-- The core that resumes: the context's registers, with what stays the core's own (features, banks, rings, what the Quay
moves for the Timetable) (log 28: DEDUCED). The saved flags replace those of the core, but for what is reserved in them
(log 100: DESIGN CHOICE). -/
def resumedCore (own image : Core) (c : CoreId) : Core :=
  { image with
    part := own.part, lrect := image.lrect, feat := own.feat, banks := own.banks,
    forks := image.forks ++ own.forks.filter (!image.forks.contains ·), moves := own.moves, sliceOf := none,
    ringRect := own.ringRect, signals := own.signals, leaving := false, held := none, run := .run, workAt := own.workAt,
    down := { image.down with slots := (image.down.slots ++ own.down.slots).take 8 },
    up := { image.up with slots := (image.up.slots ++ own.up.slots).take 8 },
    flags := resumedFlags own image (unitAgent c 0),
    loops := (refillLoops image).loops }

/-- Move the pages, version marks and knowledge of a piece from one core to another (R91, R239); a restore is a dispatch,
from which the partition's watchdog limit and context region hold (R412). -/
def movePiece' (s : State) (v : SavedContext) (c : CoreId) (bank : Option Bool) (q : Piece) : Piece × State :=
  let pages (ns : List Nat) : List Nat := match bank with
    | some b => State.pagesIn b ns
    | none => ns
  let p := s.part (((s.core c).part).getD 0)
  let q := { q with guarded := pages q.guarded, rolled := pages q.rolled, wdog := p.wdog, ctxbase := p.ctxbase, ctxn := p.ctxn }
  if v.core = c then (q, s)
  else
    let s := { s with tags := s.tags.map fun (t : Nat × Tag) =>
      if t.2.version = some v.core && q.vtags.any (fun x => x.1 = t.1) then (t.1, { t.2 with version := some c }) else t }
    let s := (List.range 7).foldl (fun s u => s.learn (unitAgent c u) (s.passes (unitAgent v.core u))) s
    (q, (s.countPiece q.launch c).uncountPiece q.launch v.core)

/-- Put the memory of a context back: its scratchpad with full/empty bits, and its lane slices (log 29: DESIGN CHOICE). -/
def restoreMemory (s : State) (t : PartId) (c : CoreId) (area : Nat) : State :=
  let get (o n : Nat) : List Byte := (s.peek t (BitVec.ofNat 64 (area + o)) n).getD (List.replicate n 0)
  let s' := (s.setBytes (laneHome c 0 0 0) (get 0x40000 0x40000)).setBytes (scratchHome c 0) (get 0x80000 0x100000)
  let bits := get 0x180000 0x2000
  let s' := (List.range 65536).foldl (fun (s : State) n =>
    s.setFull (scratchHome c (16 * n)) ((bits.getD (n / 8) 0).getLsbD (n % 8))) s'
  let f := fullKey (scratchHome c 0)
  { s' with
    tags := s'.tags.filter fun (e : Nat × Tag) => !(scratchHome c 0 ≤ e.1 && e.1 < scratchHome c 0 + 2 ^ 20)
    flaws := s'.flaws.filter fun x => !(f ≤ x.1 && x.1 < f + 1024) }

/-- Does a saved context fail its check: is data of its area bad (R86, R228)? -/
def areaBad (s : State) (t : PartId) (area : Nat) : Bool :=
  match s.tableParts t .load (BitVec.ofNat 64 area) 0x182000 with
  | some (ps, u) => (flawStop u 0xFFF {} false ps).isSome
  | none => false

/-- The core whose restored context failed its check stops with 337 (R228) (log 79: DESIGN CHOICE). -/
def checkRestored (s : State) (bad : Bool) (c : CoreId) : State :=
  if bad then s.stopCore c .async 337 0 (detailWord (unitAgent c 0) 7 0) else s

/-- The bank number in SESSION (R193). -/
def sessionBank (r : BitVec 33) (b : Bool) : BitVec 33 := if b then r ||| 0x080000000 else r &&& ~~~0x080000000

/-- Resume a saved context on core c, its slate in the named bank. -/
def restoreOn (s : State) (t : PartId) (c : CoreId) (v : SavedContext) (q : Piece) (bank : Option Bool) : State :=
  let s := s.draw t .load (BitVec.ofNat 64 v.area) 0x182000
  let read (o n : Nat) : List Byte := (s.peek t (BitVec.ofNat 64 (v.area + o)) n).getD []
  let h := areaEdits v.image (read 0 0x9400)
  let accBytes := read 0x10000 0x20000
  let mode := read 0x30000 8
  let bad := v.bad || areaBad s t v.area
  let image := applyEdits v.image h
  let image := { image with
    acc := if accBytes.isEmpty then image.acc else accFrom accBytes,
    accInt := if mode.isEmpty then image.accInt else (mode.getD 0 0).getLsbD 0 }
  let s := { s with saved := s.saved.erase v }
  let (q, s) := movePiece' s v c bank q
  let s := takeEvents (restoreMemory s t c v.area) c
  let s := s.modCore c fun own =>
    let k := resumedCore own image c
    { k with
      piece := some q, dog := s.us - v.image.dog, sliceAt := s.us,
      session := match bank with | some b => sessionBank k.session b | none => k.session }
  let s := { s with held := s.held ++ v.images.map (fun (h : HeldImage) => { h with owner := some c }) }
  let s := v.tides.foldl (fun s p => s.setTideProgs p.1 (s.tideProgs p.1 ++ [p.2])) s
  let s := checkRestored (s.setRing c (s.core c).lrect) bad c
  match q.session with
  | some (sid, _) =>
    (s.setSessionState t sid 3).modInst q.launch q.inst fun i => match i.pausedAt with
      | some a => { i with paused := i.paused + (s.us - a), pausedAt := none }
      | none => i
  | none => s

/-- CONTEXT_RESTORE: a core that seeks work, and whose case 2 of R203 names a saved context, takes it up: a
session's slate is brought first (R203, R237 to R239). -/
def execContextRestore (c : CoreId) (s : State) : Out :=
  if !s.idle c then .next s
  else match s.candidate c, (s.core c).part with
    | some (.saved v), some t =>
      (match v.image.piece with
       | none => .next s
       | some q =>
         if v.tides.any fun p => (s.tideProgs p.1).length ≥ 8 then .next s
         else match q.session with
           | none => .next (restoreOn s t c v q none)
           | some (sid, _) => match s.session t sid with
             | none => .next (restoreOn s t c v q none)
             | some x => match s.bringSlate c t x with
               | some (b, s) => .next (restoreOn s t c v q (some b))
               | none => .next s)
    | _, _ => .next s

end Sys2Proof.Machine
end

