-- ==== Sys2Proof/Machine/Control.lean ====
section
/-! DEFINITION. Control: branches, calls, LOOP, jumps, HALT, SYSCALL, BRK and WFB (R297 to R304). -/

namespace Sys2Proof.Machine

/-- The PC-relative target of an LC word (R297). -/
def relTarget (s : State) (f : La) : W64 := s.cpu.pc + imm64 f * 8

/-- A taken transfer: the next word is at `t`, and words fetched ahead are discarded (R71, R297). -/
def State.jump (s : State) (t : W64) : State := s.modCpu fun x => { x with npc := t, fetched := [] }

/-- A transfer to a register's address, which must be a multiple of 8 or raises 43; `link` runs first
(R297). -/
def jumpReg (s : State) (t : W64) (link : State → State) : Out :=
  if fld t 0 3 ≠ 0 then .next (s.trap 43 0 none) else .next ((link s).jump t)

/-- BR (R298). -/
def execBr (f : La) (s : State) : Out :=
  .next (s.jump (relTarget s f))

/-- CALL: the link is PC + 8 (R298). -/
def execCall (f : La) (s : State) : Out :=
  .next ((s.setG f.d (s.cpu.pc + 8)).jump (relTarget s f))

/-- LOOP: count down and branch while the count is not zero (R298). -/
def execLoop (f : La) (s : State) : Out :=
  let n := s.g f.d - 1
  .next (if n ≠ 0 then (s.setG f.d n).jump (relTarget s f) else s.setG f.d n)

/-- RET (R299). -/
def execRet (f : Lb) (s : State) : Out :=
  jumpReg s (s.g f.a) id

/-- JMPR (R299). -/
def execJmpr (f : Lb) (s : State) : Out :=
  jumpReg s (s.g f.a) id

/-- CALLR: the target is read before the link is written (R299). -/
def execCallr (f : Lb) (s : State) : Out :=
  jumpReg s (s.g f.a) fun s => s.setG f.d (s.cpu.pc + 8)

/-- Has every command of the queue completed, or is it held behind a NOTE that its queue has reached
(R300)? -/
def Queue.settled (q : Queue) : Bool := q.flights.isEmpty && (q.waiting.isEmpty || q.reachedNote)

/-- HALT: an asynchronous stop with 327 once all earlier work has ended; on a system core its exception, once its earlier
stores are performed (R300, R304). -/
def execHalt (f : Lb) (s : State) : Out :=
  match s.cur with
  | .compute c =>
    if s.acked s.agent && allQueues.all fun q => ((s.core c).queue q).settled then .next (s.stopAfter .async 327)
    else .next (s.block (.halt f) .other)
  | .system _ => if s.acked s.agent then .next (s.stopAfter .async 327) else .next (s.block (.halt f) .other)

/-- SYSCALL: cause 320, PC at the next word (R302, R304). -/
def execSyscall (_ : La) (s : State) : Out :=
  .next (s.stopAfter .precise 320)

/-- BRK: cause 321 (R302, R304). -/
def execBrk (_ : La) (s : State) : Out :=
  .next (s.stopAfter .precise 321)

/-- WFB: waits for the bell, which BELL_RING rings; with no NOTE held, and on a system core, it completes
at once (R122, R303, R304). -/
def execWfb (f : Lb) (s : State) : Out :=
  match s.cur with
  | .compute c =>
    if allQueues.any fun q => ((s.core c).queue q).holdsNote then .next (s.block (.wfb f) .other)
    else .next s
  | .system _ => .next s

end Sys2Proof.Machine
end

