-- ==== Sys2Proof/Machine/Scalar.lean ====
section
/-! DEFINITION. The scalar slot and the long integer operations (R281 to R292). -/

namespace Sys2Proof.Machine

/-- The count of leading zero bits below bit n. -/
def leadingZeros (v : W64) : Nat → Nat
  | 0 => 0
  | n + 1 => if v.getLsbD n then 0 else 1 + leadingZeros v n

/-- The count of trailing zero bits, n bits from bit i on. -/
def trailingZeros (v : W64) : Nat → Nat → Nat
  | 0, _ => 0
  | n + 1, i => if v.getLsbD i then 0 else 1 + trailingZeros v n (i + 1)

/-- The amount of a 128-bit shift: sb, or g[sb][6:0] (R286). -/
def shiftQ (s : State) (f : SlotS) : Nat := if f.sx.getLsbD 3 then f.sb.toNat else (fld (s.g f.sb) 0 7).toNat

/-- The second operand of a predicate operation, sx[3] inverting it (R290). -/
def predB (s : State) (f : SlotS) : Bool := Bool.xor (s.p (fld f.sb 0 3)) (f.sx.getLsbD 3)

/-- SNOP does nothing (R290). -/
def execSnop (_ : SlotS) (s : State) : Out :=
  .next s

/-- ADD: g[a] + B (R285). -/
def execAdd (f : SlotS) (s : State) : Out :=
  .next (s.setG f.sd (s.g f.sa + s.opB f))

/-- SUB: g[a] - B (R285). -/
def execSub (f : SlotS) (s : State) : Out :=
  .next (s.setG f.sd (s.g f.sa - s.opB f))

/-- AND (R285). -/
def execAnd (f : SlotS) (s : State) : Out :=
  .next (s.setG f.sd (s.g f.sa &&& s.opB f))

/-- OR (R285). -/
def execOr (f : SlotS) (s : State) : Out :=
  .next (s.setG f.sd (s.g f.sa ||| s.opB f))

/-- XOR (R285). -/
def execXor (f : SlotS) (s : State) : Out :=
  .next (s.setG f.sd (s.g f.sa ^^^ s.opB f))

/-- ANDN: g[a] and not B (R285). -/
def execAndn (f : SlotS) (s : State) : Out :=
  .next (s.setG f.sd (s.g f.sa &&& ~~~(s.opB f)))

/-- SHL by B[5:0] (R285). -/
def execShl (f : SlotS) (s : State) : Out :=
  .next (s.setG f.sd (s.g f.sa <<< (fld (s.opB f) 0 6).toNat))

/-- SHR, logical, by B[5:0] (R285). -/
def execShr (f : SlotS) (s : State) : Out :=
  .next (s.setG f.sd (s.g f.sa >>> (fld (s.opB f) 0 6).toNat))

/-- SRA, arithmetic, by B[5:0] (R285). -/
def execSra (f : SlotS) (s : State) : Out :=
  .next (s.setG f.sd ((s.g f.sa).sshiftRight (fld (s.opB f) 0 6).toNat))

/-- MUL: the low half of the product (R285). -/
def execMul (f : SlotS) (s : State) : Out :=
  .next (s.setG f.sd (s.g f.sa * s.opB f))

/-- MULH: bits [127:64] of the signed product (R285). -/
def execMulh (f : SlotS) (s : State) : Out :=
  .next (s.setG f.sd (fld ((s.g f.sa).signExtend 128 * (s.opB f).signExtend 128) 64 64))

/-- MULHU: bits [127:64] of the unsigned product (R285). -/
def execMulhu (f : SlotS) (s : State) : Out :=
  .next (s.setG f.sd (fld ((s.g f.sa).setWidth 128 * (s.opB f).setWidth 128) 64 64))

/-- MIN, signed (R285). -/
def execMin (f : SlotS) (s : State) : Out :=
  .next (s.setG f.sd (if (s.g f.sa).slt (s.opB f) then s.g f.sa else s.opB f))

/-- MAX, signed (R285). -/
def execMax (f : SlotS) (s : State) : Out :=
  .next (s.setG f.sd (if (s.g f.sa).slt (s.opB f) then s.opB f else s.g f.sa))

/-- MINU (R285). -/
def execMinu (f : SlotS) (s : State) : Out :=
  .next (s.setG f.sd (if (s.g f.sa).ult (s.opB f) then s.g f.sa else s.opB f))

/-- MAXU (R285). -/
def execMaxu (f : SlotS) (s : State) : Out :=
  .next (s.setG f.sd (if (s.g f.sa).ult (s.opB f) then s.opB f else s.g f.sa))

/-- MOV: B (R285). -/
def execMov (f : SlotS) (s : State) : Out :=
  .next (s.setG f.sd (s.opB f))

/-- ADDQ modulo 2^128 (R286). -/
def execAddq (f : SlotS) (s : State) : Out :=
  .next (s.setGPair f.sd (s.gPair f.sa + s.opBQ f))

/-- SHLQ (R286). -/
def execShlq (f : SlotS) (s : State) : Out :=
  .next (s.setGPair f.sd (s.gPair f.sa <<< shiftQ s f))

/-- SHRQ, logical (R286). -/
def execShrq (f : SlotS) (s : State) : Out :=
  .next (s.setGPair f.sd (s.gPair f.sa >>> shiftQ s f))

/-- SRAQ, arithmetic (R286). -/
def execSraq (f : SlotS) (s : State) : Out :=
  .next (s.setGPair f.sd ((s.gPair f.sa).sshiftRight (shiftQ s f)))

/-- CLZ: leading zero bits, 64 for 0 (R287). -/
def execClz (f : SlotS) (s : State) : Out :=
  .next (s.setG f.sd (BitVec.ofNat 64 (leadingZeros (s.g f.sa) 64)))

/-- CTZ: trailing zero bits, 64 for 0 (R287). -/
def execCtz (f : SlotS) (s : State) : Out :=
  .next (s.setG f.sd (BitVec.ofNat 64 (trailingZeros (s.g f.sa) 64 0)))

/-- POPC: one bits (R287). -/
def execPopc (f : SlotS) (s : State) : Out :=
  .next (s.setG f.sd (BitVec.ofNat 64 (((List.range 64).filter (s.g f.sa).getLsbD).length)))

/-- SEL by p[sx[2:0]] xor sx[3] (R288). -/
def execSel (f : SlotS) (s : State) : Out :=
  .next (s.setG f.sd (if Bool.xor (s.p (fld f.sx 0 3)) (f.sx.getLsbD 3) then s.g f.sa else s.g f.sb))

/-- SETP: a 64-bit comparison into a predicate (R289). -/
def execSetp (f : SlotS) (s : State) : Out :=
  .next (s.setP (fld f.sd 0 3) (intCond (fld f.sx 0 3) (s.g f.sa) (s.opB f)))

/-- SETPQ: a 128-bit comparison into a predicate (R289). -/
def execSetpq (f : SlotS) (s : State) : Out :=
  .next (s.setP (fld f.sd 0 3) (intCond (fld f.sx 0 3) (s.gPair f.sa) (s.opBQ f)))

/-- PAND (R290). -/
def execPand (f : SlotS) (s : State) : Out :=
  .next (s.setP (fld f.sd 0 3) (s.p (fld f.sa 0 3) && predB s f))

/-- POR (R290). -/
def execPor (f : SlotS) (s : State) : Out :=
  .next (s.setP (fld f.sd 0 3) (s.p (fld f.sa 0 3) || predB s f))

/-- PXOR (R290). -/
def execPxor (f : SlotS) (s : State) : Out :=
  .next (s.setP (fld f.sd 0 3) (Bool.xor (s.p (fld f.sa 0 3)) (predB s f)))

/-- PNOT (R290). -/
def execPnot (f : SlotS) (s : State) : Out :=
  .next (s.setP (fld f.sd 0 3) (!s.p (fld f.sa 0 3)))

/-! ## Long integer operations (R291, R292) -/

/-- ADDI: g[a] + I32 (R291). -/
def execAddi (f : La) (s : State) : Out :=
  .next (s.setG f.d (s.g f.a + imm64 f))

/-- ANDI (R291). -/
def execAndi (f : La) (s : State) : Out :=
  .next (s.setG f.d (s.g f.a &&& imm64 f))

/-- ORI (R291). -/
def execOri (f : La) (s : State) : Out :=
  .next (s.setG f.d (s.g f.a ||| imm64 f))

/-- XORI (R291). -/
def execXori (f : La) (s : State) : Out :=
  .next (s.setG f.d (s.g f.a ^^^ imm64 f))

/-- SHLI by imm32[5:0] (R291). -/
def execShli (f : La) (s : State) : Out :=
  .next (s.setG f.d (s.g f.a <<< (fld f.imm 0 6).toNat))

/-- SHRI, logical (R291). -/
def execShri (f : La) (s : State) : Out :=
  .next (s.setG f.d (s.g f.a >>> (fld f.imm 0 6).toNat))

/-- SRAI, arithmetic (R291). -/
def execSrai (f : La) (s : State) : Out :=
  .next (s.setG f.d ((s.g f.a).sshiftRight (fld f.imm 0 6).toNat))

/-- MULI: the low half of the product (R291). -/
def execMuli (f : La) (s : State) : Out :=
  .next (s.setG f.d (s.g f.a * imm64 f))

/-- LI: I32 (R291). -/
def execLi (f : La) (s : State) : Out :=
  .next (s.setG f.d (imm64 f))

/-- LUI: imm32 over g[d][31:0] (R291). -/
def execLui (f : La) (s : State) : Out :=
  .next (s.setG f.d (f.imm ++ fld (s.g f.d) 0 32))

/-- SLTI: 1 if below I32, unsigned when x[0] = 1 (R291). -/
def execSlti (f : La) (s : State) : Out :=
  .next (s.setG f.d (if (if f.x.getLsbD 0 then (s.g f.a).ult (imm64 f) else (s.g f.a).slt (imm64 f)) then 1 else 0))

/-- SETPI: a comparison with I32 into a predicate (R291). -/
def execSetpi (f : La) (s : State) : Out :=
  .next (s.setP (fld f.d 0 3) (intCond (fld f.x 0 3) (s.g f.a) (imm64 f)))

/-- A division: code 256 for a zero divisor, with nothing written; else the result (R292). -/
def divide (f : Lb) (s : State) (r : W64) : Out :=
  if s.g f.b = 0 then .next (s.trap 256 0 none) else .next (s.setG f.d r)

/-- DIV, signed, rounded toward zero (R292). -/
def execDiv (f : Lb) (s : State) : Out :=
  divide f s ((s.g f.a).sdiv (s.g f.b))

/-- DIVU (R292). -/
def execDivu (f : Lb) (s : State) : Out :=
  divide f s ((s.g f.a).udiv (s.g f.b))

/-- REM, the sign of g[a] (R292). -/
def execRem (f : Lb) (s : State) : Out :=
  divide f s ((s.g f.a).srem (s.g f.b))

/-- REMU (R292). -/
def execRemu (f : Lb) (s : State) : Out :=
  divide f s ((s.g f.a).umod (s.g f.b))

end Sys2Proof.Machine
end

