-- ==== Sys2Proof/Machine/Supervisor.lean ====
section
/-! DEFINITION. The supervisor instructions: TRAPRET, TLBINV, WINMAP, PARTCFG, TTCMD, CORECTL and ATTEST (R405 to
R415). -/

namespace Sys2Proof.Machine

/-- A supervisor instruction on a system core; on a compute core it raises 41 and does nothing (R405). -/
def supervisor (i : Instr) (m : SysId → M Unit) (s : State) : Out :=
  match s.cur with
  | .compute _ => .next (s.trap 41 0 none)
  | .system k => runInstr i (m k) s

/-- TRAPRET (R408). -/
def execTrapret (f : Lb) (s : State) : Out :=
  supervisor (.trapret f) (fun k => modify fun s => s.exceptionReturn k) s

/-! ## TLBINV (R48, R409) -/

/-- Drop the translations and walk-cache pointers that a scope names, and the walks in flight for its pages: who has joined
one walks anew (R48). -/
def State.dropTranslations (s : State) (leaf : TlbEntry → Bool) (pointer : WalkEntry → Bool) (page : PageId → Bool) : State :=
  { s with
    tlb := s.tlb.filter fun e => !leaf e, walkCache := s.walkCache.filter fun w => !pointer w
    walks := s.walks.filter fun w => !page w.page }

/-- Is an access that used a translation of the scope still on its way: a store to an FBC block, or what a held image
holds (R48, R148, R151)? -/
def State.pageAccess (s : State) (page : PageId → Bool) : Bool :=
  (s.fbcStores.any fun f => page f.page) || s.held.any fun h => page h.page

/-- TLBINV of a scope: the translations and pointers are dropped; it completes, with a release event, once its own writes
are acknowledged and every access that used one has been performed at its home slice. A held image is encoded as it
stands, and what its item still writes is translated again (R48, R409) (log 102: DEDUCED). -/
def tlbinv (i : Instr) (leaf : TlbEntry → Bool) (pointer : WalkEntry → Bool) (page : PageId → Bool) (s : State) : Out :=
  match s.cur with
  | .compute _ => .next (s.trap 41 0 none)
  | .system _ =>
    let t := s.dropTranslations leaf pointer page
    let t := { t with held := t.held.map fun (h : HeldImage) => if page h.page then { h with due := true } else h }
    if t.acked t.agent && !t.pageAccess page then .next (t.release t.agent) else .next (t.block i .other)

/-- The space that TLBINV names. -/
def invSpace (f : La) : Nat := (fld f.imm 0 6).toNat

/-- TLBINV.all. -/
def execTlbinvAll (f : La) (s : State) : Out :=
  tlbinv (.tlbinvAll f) (fun _ => true) (fun _ => true) (fun _ => true) s

/-- TLBINV.space. -/
def execTlbinvSpace (f : La) (s : State) : Out :=
  tlbinv (.tlbinvSpace f) (fun e => e.space = invSpace f) (fun w => w.space = invSpace f) (fun p => p.space = invSpace f) s

/-- TLBINV.page: every entry whose page holds the address, and every pointer on its walk path. -/
def execTlbinvPage (f : La) (s : State) : Out :=
  let n := invSpace f
  let va := (s.g f.a).toNat
  tlbinv (.tlbinvPage f) (fun e => e.space = n && e.base ≤ va && va < e.base + 2 ^ e.log2)
    (fun w => w.space = n && w.tag = va / 2 ^ levelShift w.level)
    (fun p => p.space = n && p.base ≤ va && va < p.base + 2 ^ p.log2) s

/-! ## WINMAP (R31, R410) -/

/-- WINMAP: maps the trap window of a core, or with address 0 removes its mapping. A core has one window: mapping it
elsewhere takes the earlier one away (R410) (log 106: DEDUCED). -/
def execWinmap (f : La) (s : State) : Out :=
  supervisor (.winmap f) (fun _ => do
    let s ← get
    let va := s.g f.a
    let c : CoreId := ⟨(fld f.imm 0 8).toNat, (fld f.imm 0 8).isLt⟩
    if fld va 48 16 ≠ 0 || fld va 0 16 ≠ 0 then raise 84 va
    let rest := s.windows.filter fun m => m.2 ≠ c && m.1 ≠ va.toNat
    set { s with windows := if va = 0 then s.windows.filter (fun m => m.2 ≠ c) else rest ++ [(va.toNat, c)] }) s

/-- WINMAP.root: installs the root of the supervisor space. -/
def execWinmapRoot (f : La) (s : State) : Out :=
  supervisor (.winmapRoot f) (fun _ => do
    let s ← get
    let a := (s.g f.a).toNat
    if a % 4096 ≠ 0 || !s.backed a 4096 then raise 84 (s.g f.a)
    set { s with superRoot := some a }) s

/-! ## PARTCFG (R411, R412) -/

/-- A partition descriptor. -/
structure PartDesc where
  place : Bool
  rect : BitVec 16
  root : Nat
  base : Nat
  limit : Nat
  reqfeat : BitVec 6
  ways : BitVec 16
  sesstab : W64
  ctxbase : W64
  ctxn : Nat
  rbase : W64
  wdog : BitVec 32
  deriving DecidableEq, Repr

/-- Read a descriptor's 128 bytes; none where it is malformed. -/
def parsePart (bs : List Byte) : Option PartDesc :=
  let w := wordAt bs
  let zero := fld (w 0) 17 47 = 0 && fld (w 1) 0 12 = 0 && fld (w 1) 52 12 = 0 && fld (w 2) 32 32 = 0 &&
    fld (w 3) 22 42 = 0 && fld (w 4) 48 16 = 0 && fld (w 5) 48 16 = 0 && fld (w 6) 16 48 = 0 &&
    fld (w 7) 48 16 = 0 && fld (w 8) 32 32 = 0 && (List.range 7).all fun i => w (9 + i) = 0
  let aligned := fld (w 4) 0 6 = 0 && fld (w 5) 0 16 = 0 && fld (w 7) 0 19 = 0
  let base := (fld (w 2) 0 16).toNat
  let limit := (fld (w 2) 16 16).toNat
  if zero && aligned && base ≤ limit && limit ≤ 1536 then
    some {
      place := (w 0).getLsbD 16, rect := fld (w 0) 0 16, root := (w 1).toNat, base := base, limit := limit,
      reqfeat := fld (w 3) 16 6, ways := fld (w 3) 0 16, sesstab := w 4, ctxbase := w 5,
      ctxn := (fld (w 6) 0 16).toNat, rbase := w 7, wdog := fld (w 8) 0 32 }
  else none

/-- The storage that an assignment gives: the scratchpad, the share of cluster memory and the slate banks of cores
that join, and chip-scratchpad units (R12, R56, R98) (log 69: DEDUCED). -/
def assignedHome (cs : List CoreId) (unit : Nat → Bool) (a : Nat) : Bool :=
  if 2 ^ 54 ≤ a && a < 2 ^ 55 then unit ((a - 2 ^ 54) / 65536)
  else if 2 ^ 53 ≤ a && a < 2 ^ 54 then
    cs.any fun c => (a - 2 ^ 53) / 2 ^ 22 = (coreCluster c).val && a / 4096 % 4 = (coreMember c).val
  else if 2 ^ 52 ≤ a && a < 2 ^ 53 then cs.any fun c => (a - 2 ^ 52) / 2 ^ 20 = c.val
  else false

/-- Is a granule among the storage assigned? -/
def assignedGranule (cs : List CoreId) (unit : Nat → Bool) (a : Nat) : Bool :=
  assignedHome cs unit a || (2 ^ 55 ≤ a && a < 2 ^ 56 && cs.any fun c => (a - 2 ^ 55) / 2 ^ 20 = c.val)

/-- Storage is assigned: it reads as zero, its full/empty bits are empty, its granules have no writer (R56, R98). -/
def State.clearStorage (s : State) (cs : List CoreId) (unit : Nat → Bool) : State :=
  { s with
    mem := s.mem.filter fun b => !assignedHome cs unit b.1,
    flaws := s.flaws.filter fun f => !assignedHome cs unit (if 2 ^ 58 ≤ f.1 then 1024 * (f.1 - 2 ^ 58) else 8 * f.1),
    full := s.full.filter fun b => !assignedHome cs unit (16 * b.1),
    tags := s.tags.filter fun b => !assignedGranule cs unit b.1 }

/-- A core joins partition t: its flags, carry register and slate banks are as at reset, and its array counts
member 3 as the last holder (R18, R112, R371). -/
def joinCore (t : PartId) (s : State) (c : CoreId) : State :=
  let s := s.modCore c fun k => { k with
    part := some t, leaving := false, flags := [], carry := [], nheld := 0, banks := Vector.replicate 2 none }
  s.modArray (coreCluster c) fun a => { a with last := 3 }

/-- A core leaves its partition's rectangle: at once, or when its running piece ends (R412). -/
def leaveCore (s : State) (c : CoreId) : State :=
  s.modCore c fun k =>
    if k.piece.isSome then { k with leaving := true }
    else { k with part := none, leaving := false }

/-- The rectangles of launches that are in flight or queued in a partition. -/
def liveRects (s : State) (t : PartId) : List (BitVec 16) :=
  (s.launches.filter fun l => l.part = t && State.counting l).map (·.rect) ++
  (s.launchQueue.filter fun q => q.part = t).map fun q => fld (wordAt q.desc 1) 0 16

/-- Assign: the status, and the state (R412). -/
def assignPart (s : State) (t : PartId) (bs : List Byte) : Nat × State :=
  match parsePart bs with
  | none => (1, s)
  | some x =>
    let inside := if legalRect x.rect then (List.finRange 256).filter fun c => rectHas x.rect c else []
    let taken (c : CoreId) : Bool := match (s.core c).part with
      | some u => u ≠ t
      | none => false
    if !legalRect x.rect || inside.any taken then (2, s)
    else if (liveRects s t).any fun r => !rectInside r x.rect then (3, s)
    else
      let old := s.part t
      let joined := inside.filter fun c => (s.core c).part ≠ some t
      let left := (List.finRange 256).filter fun c => (s.core c).part = some t && !inside.contains c
      let unit (u : Nat) : Bool := x.base ≤ u && u < x.limit && !(old.assigned && old.base ≤ u && u < old.limit)
      let s := s.modPart t fun p => { p with
        assigned := true, place := x.place, rect := x.rect, root := x.root, base := x.base, limit := x.limit,
        reqfeat := x.reqfeat, ways := x.ways, sesstab := x.sesstab, ctxbase := x.ctxbase, ctxn := x.ctxn,
        rbase := x.rbase, wdog := x.wdog }
      let s := (left.foldl leaveCore (s.clearStorage joined unit))
      let s := inside.foldl (fun s c => s.modCore c fun k => { k with leaving := false }) s
      (0, joined.foldl (joinCore t) s)

/-- Release: the status, and the state (R31, R412). -/
def releasePart (s : State) (t : PartId) : Nat × State :=
  if !(s.part t).assigned then (4, s)
  else if !(liveRects s t).isEmpty then (3, s)
  else
    let cs := (List.finRange 256).filter fun c => (s.core c).part = some t
    let s := cs.foldl leaveCore s
    let s := { s with pins := s.pins.filter fun p => p.2.1 ≠ t, readySessions := s.readySessions.filter fun r => r.part ≠ t }
    (0, s.modPart t fun p => { p with assigned := false, rect := 0, base := 0, limit := 0 })

/-- PARTCFG: a release event, the read of the descriptor, the change, the status (R411, R412). -/
def partcfg (i : Instr) (f : La) (change : State → PartId → List Byte → Nat × State) (s : State) : Out :=
  supervisor i (fun _ => do
    let s ← get
    let va := s.g f.a + imm64 f
    if va.toNat % 128 ≠ 0 then raise 44
    releaseEvent
    let bs ← loadBytes s.who .load {} va 128
    let t : PartId := ⟨(fld f.x 0 5).toNat, (fld f.x 0 5).isLt⟩
    modify fun s =>
      let (n, s) := change s t bs
      s.setG f.d (BitVec.ofNat 64 n)) s

/-- PARTCFG.assign. -/
def execPartcfgAssign (f : La) (s : State) : Out := partcfg (.partcfgAssign f) f assignPart s

/-- PARTCFG.release. -/
def execPartcfgRelease (f : La) (s : State) : Out := partcfg (.partcfgRelease f) f (fun s t _ => releasePart s t) s

/-! ## TTCMD (R413) -/

/-- TTCMD.weight. -/
def execTtcmdWeight (f : La) (s : State) : Out :=
  supervisor (.ttcmdWeight f) (fun _ => modify fun s =>
    let w := fld (s.g f.a) 0 8
    let t : PartId := ⟨(fld f.imm 8 5).toNat, (fld f.imm 8 5).isLt⟩
    if w = 0 then s.setG f.d 1
    else (s.modPart t fun p => { p with weights := tput 1 p.weights (fld f.imm 0 5).toNat w }).setG f.d 0) s

/-- Close the session set of a launch: a session whose step runs is closed as that ends (R209, R217). A real-time session's
pin stays until its partition is released or killed (R211) (log 105: DEDUCED). -/
def closeLaunch (s : State) (t : PartId) (n : BitVec 16) : Option State :=
  match s.launches.findIdx? fun l => l.part = t && l.number = n && !l.ended && l.perSession with
  | none => none
  | some li =>
    let sids := ((s.launches[li]?).map (·.sids)).getD []
    let s := { s with readySessions := s.readySessions.filter fun r => !(r.part = t && sids.contains r.sid) }
    let s := (sids.filter fun sid => !s.steps.contains (t, sid)).foldl (fun s sid => s.setSessionState t sid 5) s
    some ((s.modLaunch li fun l => { l with closed := true }).checkEnd li)

/-- TTCMD.close. -/
def execTtcmdClose (f : La) (s : State) : Out :=
  supervisor (.ttcmdClose f) (fun _ => modify fun s =>
    match closeLaunch s ⟨(fld f.imm 0 5).toNat, (fld f.imm 0 5).isLt⟩ (fld (s.g f.a) 0 16) with
    | some s => s.setG f.d 0
    | none => s.setG f.d 1) s

/-- Have the slate of a bank saved, which stays in it: whether there is one that is not pinned. -/
def saveBank (s : State) (c : CoreId) (b : Bool) : Bool × State :=
  let k := s.core c
  match (if b then k.banks[1] else k.banks[0]), k.part with
  | some va, some t =>
    match (s.peek t va 64).bind parseSession with
    | none => (false, s)
    | some x =>
      if s.pins.any fun p => p.2.1 = t && p.2.2 = x.sid then (false, s)
      else (true, s.addMove c (State.slateJob x va b false) true)
  | _, _ => (false, s)

/-- Have every resident slate that is not pinned saved: how many (R245, R413). -/
def saveSlates (s : State) : Nat × State :=
  let full (x : CoreId × Bool) : Bool := (if x.2 then (s.core x.1).banks[1] else (s.core x.1).banks[0]).isSome
  (((List.finRange 256).flatMap fun c => [(c, false), (c, true)]).filter full).foldl (fun (r : Nat × State) x =>
    let (ok, s) := saveBank r.2 x.1 x.2
    (if ok then r.1 + 1 else r.1, s)) (0, s)

/-- Is a slate on its way to its frame for a quiesce? -/
def quiesceSaves (s : State) : Bool := s.cores.toList.any fun k => k.moves.any (·.keeps)

/-- TTCMD.quiesce: no new step starts; once no step runs, the slates are saved, and once they are it returns how many. -/
def execTtcmdQuiesce (f : La) (s : State) : Out :=
  match s.cur with
  | .compute _ => supervisor (.ttcmdQuiesce f) (fun _ => pure ()) s
  | .system _ =>
    let s := { s with quiesced := true }
    if !s.steps.isEmpty then .next (s.block (.ttcmdQuiesce f) .other)
    else
      let s := match s.saving with
        | some _ => s
        | none =>
          let (n, s) := saveSlates s
          { s with saving := some n }
      if quiesceSaves s then .next (s.block (.ttcmdQuiesce f) .other)
      else .next ({ s with saving := none }.setG f.d (BitVec.ofNat 64 (s.saving.getD 0)))

/-- TTCMD.resume. -/
def execTtcmdResume (f : La) (s : State) : Out :=
  supervisor (.ttcmdResume f) (fun _ => modify fun s => { s with quiesced := false }.setG f.d 0) s

/-! ## CORECTL (R414) -/

/-- The compute core that CORECTL names. -/
def ctlCore (f : La) : CoreId := ⟨(fld f.imm 0 8).toNat, (fld f.imm 0 8).isLt⟩

/-- CORECTL.clrfeat. -/
def execCorectlClrfeat (f : La) (s : State) : Out :=
  supervisor (.corectlClrfeat f) (fun _ => modify fun s =>
    (s.modCore (ctlCore f) fun k => { k with feat := k.feat &&& ~~~(fld (s.g f.a) 0 6) }).setG f.d 1) s

/-- CORECTL.halt: an asynchronous stop with 327; a core already held drops it. -/
def execCorectlHalt (f : La) (s : State) : Out :=
  supervisor (.corectlHalt f) (fun _ => modify fun s =>
    let c := ctlCore f
    if (s.core c).held.isSome then s.setG f.d 0
    else (s.stopCore c .async 327 0 (detailWord (unitAgent c 0) 7 0)).setG f.d 1) s

/-- CORECTL.state. -/
def execCorectlState (f : La) (s : State) : Out :=
  supervisor (.corectlState f) (fun _ => modify fun s =>
    let k := s.core (ctlCore f)
    let part := match k.part with
      | some t => 1 + 2 * t.val
      | none => 0
    s.setG f.d (BitVec.ofNat 64 (k.feat.toNat * 256 + (if k.piece.isSome then 128 else 0) +
      (if k.held.isSome then 64 else 0) + part))) s

/-! ## ATTEST (R415) -/

/-- The first 96 bytes of a report. -/
def attestBody (s : State) (nonce : List Byte) : List Byte :=
  let sysMask := ((List.finRange 16).map fun k => if (s.sysCore k).enabled then 2 ^ k.val else 0).foldl (· + ·) 0
  leBytes 4 0x54414E59 ++ leBytes 4 1 ++ leBytes 8 Config.serial.toNat ++
  (s.fwDigest ++ List.replicate 32 0).take 32 ++ nonce ++
  leBytes 8 (sysMask * 2 ^ 16 + s.nChannels * 2 ^ 8 + s.nSlices) ++ List.replicate 8 0

/-- ATTEST: a release event, the read of the nonce, the write of the signed report. -/
def execAttest (f : La) (s : State) : Out :=
  supervisor (.attest f) (fun _ => do
    let s ← get
    let nonceAt := s.g f.a
    let reportAt := s.g f.d
    if nonceAt.toNat % 64 ≠ 0 then raise 44
    if reportAt.toNat % 64 ≠ 0 then raise 44
    releaseEvent
    let nonce ← loadBytes s.who .load {} nonceAt 32
    let body := attestBody s nonce
    let sig := ecdsaSign identityKey (sha256 body)
    storeBytes s.who .store {} reportAt (body ++ beBytes 32 sig.1 ++ beBytes 32 sig.2)) s

end Sys2Proof.Machine
end

