-- ==== Sys2Proof/Machine/Vector.lean ====
section
/-! DEFINITION. The meanings of the vector slot, the long vector operations and tile control (R305 to R326). -/

namespace Sys2Proof.Machine

/-- VNOP does nothing (R259, R264). -/
def execVnop (_ : SlotV) (s : State) : Out :=
  .next s

/-- VADD in the vector slot (R310, R264). -/
def execVaddSlot (f : SlotV) (s : State) : Out :=
  vAdd (.vaddSlot f) (.ofSlot f) s

/-- VSUB in the vector slot (R310, R264). -/
def execVsubSlot (f : SlotV) (s : State) : Out :=
  vSub (.vsubSlot f) (.ofSlot f) s

/-- VMUL in the vector slot (R310, R264). -/
def execVmulSlot (f : SlotV) (s : State) : Out :=
  vMul (.vmulSlot f) (.ofSlot f) s

/-- VFMA in the vector slot (R310, R264). -/
def execVfmaSlot (f : SlotV) (s : State) : Out :=
  vFma (.vfmaSlot f) (.ofSlot f) s

/-- VMAX in the vector slot (R310, R264). -/
def execVmaxSlot (f : SlotV) (s : State) : Out :=
  vMax (.vmaxSlot f) (.ofSlot f) s

/-- VMIN in the vector slot (R310, R264). -/
def execVminSlot (f : SlotV) (s : State) : Out :=
  vMin (.vminSlot f) (.ofSlot f) s

/-- VABS in the vector slot (R310, R264). -/
def execVabsSlot (f : SlotV) (s : State) : Out :=
  vAbs (.vabsSlot f) (.ofSlot f) s

/-- VNEG in the vector slot (R310, R264). -/
def execVnegSlot (f : SlotV) (s : State) : Out :=
  vNeg (.vnegSlot f) (.ofSlot f) s

/-- VAND in the vector slot (R312, R264). -/
def execVandSlot (f : SlotV) (s : State) : Out :=
  vAnd (.vandSlot f) (.ofSlot f) s

/-- VOR in the vector slot (R312, R264). -/
def execVorSlot (f : SlotV) (s : State) : Out :=
  vOr (.vorSlot f) (.ofSlot f) s

/-- VXOR in the vector slot (R312, R264). -/
def execVxorSlot (f : SlotV) (s : State) : Out :=
  vXor (.vxorSlot f) (.ofSlot f) s

/-- VSHL in the vector slot (R312, R264). -/
def execVshlSlot (f : SlotV) (s : State) : Out :=
  vShl (.vshlSlot f) (.ofSlot f) s

/-- VSHR in the vector slot (R312, R264). -/
def execVshrSlot (f : SlotV) (s : State) : Out :=
  vShr (.vshrSlot f) (.ofSlot f) s

/-- VCMP in the vector slot (R313, R264). -/
def execVcmpSlot (f : SlotV) (s : State) : Out :=
  vCmp (.vcmpSlot f) (.ofSlot f) s

/-- VSEL in the vector slot (R314, R264). -/
def execVselSlot (f : SlotV) (s : State) : Out :=
  vSel (.vselSlot f) (.ofSlot f) s

/-- VCVT in the vector slot (R316, R264). -/
def execVcvtSlot (f : SlotV) (s : State) : Out :=
  vCvt (.vcvtSlot f) (.ofSlot f) s

/-- VMOV in the vector slot (R315, R264). -/
def execVmovSlot (f : SlotV) (s : State) : Out :=
  vMov (.vmovSlot f) (.ofSlot f) s

/-- VCACC in the vector slot (R318, R264). -/
def execVcaccSlot (f : SlotV) (s : State) : Out :=
  vCacc (.vcaccSlot f) (.ofSlot f) s

/-- VTWOSUM in the vector slot (R319, R264). -/
def execVtwosumSlot (f : SlotV) (s : State) : Out :=
  vTwosum (.vtwosumSlot f) (.ofSlot f) s

/-- VRED in the vector slot (R320, R264). -/
def execVredSlot (f : SlotV) (s : State) : Out :=
  vRed (.vredSlot f) (.ofSlot f) s

/-- VADD, long form (R310). -/
def execVadd (f : Lv) (s : State) : Out :=
  vAdd (.vadd f) (.ofLong f) s

/-- VSUB, long form (R310). -/
def execVsub (f : Lv) (s : State) : Out :=
  vSub (.vsub f) (.ofLong f) s

/-- VMUL, long form (R310). -/
def execVmul (f : Lv) (s : State) : Out :=
  vMul (.vmul f) (.ofLong f) s

/-- VFMA, long form (R310). -/
def execVfma (f : Lv) (s : State) : Out :=
  vFma (.vfma f) (.ofLong f) s

/-- VMAX, long form (R310). -/
def execVmax (f : Lv) (s : State) : Out :=
  vMax (.vmax f) (.ofLong f) s

/-- VMIN, long form (R310). -/
def execVmin (f : Lv) (s : State) : Out :=
  vMin (.vmin f) (.ofLong f) s

/-- VABS, long form (R310). -/
def execVabs (f : Lv) (s : State) : Out :=
  vAbs (.vabs f) (.ofLong f) s

/-- VNEG, long form (R310). -/
def execVneg (f : Lv) (s : State) : Out :=
  vNeg (.vneg f) (.ofLong f) s

/-- VAND, long form (R312). -/
def execVand (f : Lv) (s : State) : Out :=
  vAnd (.vand f) (.ofLong f) s

/-- VOR, long form (R312). -/
def execVor (f : Lv) (s : State) : Out :=
  vOr (.vor f) (.ofLong f) s

/-- VXOR, long form (R312). -/
def execVxor (f : Lv) (s : State) : Out :=
  vXor (.vxor f) (.ofLong f) s

/-- VSHL, long form (R312). -/
def execVshl (f : Lv) (s : State) : Out :=
  vShl (.vshl f) (.ofLong f) s

/-- VSHR, long form (R312). -/
def execVshr (f : Lv) (s : State) : Out :=
  vShr (.vshr f) (.ofLong f) s

/-- VCMP, long form (R313). -/
def execVcmp (f : Lv) (s : State) : Out :=
  vCmp (.vcmp f) (.ofLong f) s

/-- VSEL, long form (R314). -/
def execVsel (f : Lv) (s : State) : Out :=
  vSel (.vsel f) (.ofLong f) s

/-- VCVT, long form (R316). -/
def execVcvt (f : Lv) (s : State) : Out :=
  vCvt (.vcvt f) (.ofLong f) s

/-- VMOV, long form (R315). -/
def execVmov (f : Lv) (s : State) : Out :=
  vMov (.vmov f) (.ofLong f) s

/-- VCACC, long form (R318). -/
def execVcacc (f : Lv) (s : State) : Out :=
  vCacc (.vcacc f) (.ofLong f) s

/-- VTWOSUM, long form (R319). -/
def execVtwosum (f : Lv) (s : State) : Out :=
  vTwosum (.vtwosum f) (.ofLong f) s

/-- VRED, long form (R320). -/
def execVred (f : Lv) (s : State) : Out :=
  vRed (.vred f) (.ofLong f) s

/-- VEXP2, long form (R321). -/
def execVexp2 (f : Lv) (s : State) : Out :=
  vExp2 (.vexp2 f) (.ofLong f) s

/-- VRCP, long form (R321). -/
def execVrcp (f : Lv) (s : State) : Out :=
  vRcp (.vrcp f) (.ofLong f) s

/-- VRSQ, long form (R321). -/
def execVrsq (f : Lv) (s : State) : Out :=
  vRsq (.vrsq f) (.ofLong f) s

/-- VSPLAT, long form (R322). -/
def execVsplat (f : Lv) (s : State) : Out :=
  vSplat (.vsplat f) (.ofLong f) s

/-- VEXTR, long form (R322). -/
def execVextr (f : Lv) (s : State) : Out :=
  vExtr (.vextr f) (.ofLong f) s

/-- VPERM, long form (R323). -/
def execVperm (f : Lv) (s : State) : Out :=
  vPerm (.vperm f) (.ofLong f) s

/-- VQUANT, long form (R324). -/
def execVquant (f : Lv) (s : State) : Out :=
  vQuant (.vquant f) (.ofLong f) s

/-! ## Tile full/empty control (R325, R326) -/

/-- The tiles that an instruction names: m[d] to m[d + c]. -/
def namedTiles (f : Lb) : List Nat := (List.range (f.c.toNat + 1)).map (f.d.toNat + ·)

/-- The change that TCLR makes to one tile: empty, every element zero. -/
def clearTile (s : State) (t : Nat) : State :=
  (s.setTileFull s.here t false).modHere fun k => { k with tiles := k.tiles.filter fun e => e.1 / 256 ≠ t }

/-- Change tiles by TCLR or TMARK: the gated test, the wait for a switch transfer, then the change. -/
def tileControl (i : Instr) (ts : List Nat) (change : State → Nat → State) (s : State) : Out :=
  runInstr i (do
    powerTiles ts
    let s ← get
    waitUnless (ts.all fun t => !s.tileBusy s.here t)
    set (ts.foldl change s)) s

/-- TCLR (R325). -/
def execTclr (f : Lb) (s : State) : Out :=
  tileControl (.tclr f) (namedTiles f) clearTile s

/-- TMARK (R325). -/
def execTmark (f : Lb) (s : State) : Out :=
  tileControl (.tmark f) (namedTiles f) (fun s t => s.setTileFull s.here t true) s

/-- TWAIT: x[0] 0 waits full, 1 empty (R325). -/
def execTwait (f : Lb) (s : State) : Out :=
  runInstr (.twait f) (do
    powerTiles (namedTiles f)
    let s ← get
    waitUnless ((namedTiles f).all fun t => s.tileFull s.here t = !f.x.getLsbD 0)) s

end Sys2Proof.Machine
end

