-- ==== Sys2Proof/Machine/Dispatch.lean ====
section
/-! DEFINITION. One arm for each constructor of Instr: a direct call of its meaning. -/

namespace Sys2Proof.Machine

def exec (i : Instr) (s : State) : Host.Outcome State Fault Refusal :=
  match i with
  | .snop f => Sys2Proof.Machine.execSnop f s
  | .add f => Sys2Proof.Machine.execAdd f s
  | .sub f => Sys2Proof.Machine.execSub f s
  | .and f => Sys2Proof.Machine.execAnd f s
  | .or f => Sys2Proof.Machine.execOr f s
  | .xor f => Sys2Proof.Machine.execXor f s
  | .andn f => Sys2Proof.Machine.execAndn f s
  | .shl f => Sys2Proof.Machine.execShl f s
  | .shr f => Sys2Proof.Machine.execShr f s
  | .sra f => Sys2Proof.Machine.execSra f s
  | .mul f => Sys2Proof.Machine.execMul f s
  | .mulh f => Sys2Proof.Machine.execMulh f s
  | .mulhu f => Sys2Proof.Machine.execMulhu f s
  | .min f => Sys2Proof.Machine.execMin f s
  | .max f => Sys2Proof.Machine.execMax f s
  | .minu f => Sys2Proof.Machine.execMinu f s
  | .maxu f => Sys2Proof.Machine.execMaxu f s
  | .mov f => Sys2Proof.Machine.execMov f s
  | .addq f => Sys2Proof.Machine.execAddq f s
  | .shlq f => Sys2Proof.Machine.execShlq f s
  | .shrq f => Sys2Proof.Machine.execShrq f s
  | .sraq f => Sys2Proof.Machine.execSraq f s
  | .clz f => Sys2Proof.Machine.execClz f s
  | .ctz f => Sys2Proof.Machine.execCtz f s
  | .popc f => Sys2Proof.Machine.execPopc f s
  | .sel f => Sys2Proof.Machine.execSel f s
  | .setp f => Sys2Proof.Machine.execSetp f s
  | .setpq f => Sys2Proof.Machine.execSetpq f s
  | .pand f => Sys2Proof.Machine.execPand f s
  | .por f => Sys2Proof.Machine.execPor f s
  | .pxor f => Sys2Proof.Machine.execPxor f s
  | .pnot f => Sys2Proof.Machine.execPnot f s
  | .vnop f => Sys2Proof.Machine.execVnop f s
  | .vaddSlot f => Sys2Proof.Machine.execVaddSlot f s
  | .vsubSlot f => Sys2Proof.Machine.execVsubSlot f s
  | .vmulSlot f => Sys2Proof.Machine.execVmulSlot f s
  | .vfmaSlot f => Sys2Proof.Machine.execVfmaSlot f s
  | .vmaxSlot f => Sys2Proof.Machine.execVmaxSlot f s
  | .vminSlot f => Sys2Proof.Machine.execVminSlot f s
  | .vabsSlot f => Sys2Proof.Machine.execVabsSlot f s
  | .vnegSlot f => Sys2Proof.Machine.execVnegSlot f s
  | .vandSlot f => Sys2Proof.Machine.execVandSlot f s
  | .vorSlot f => Sys2Proof.Machine.execVorSlot f s
  | .vxorSlot f => Sys2Proof.Machine.execVxorSlot f s
  | .vshlSlot f => Sys2Proof.Machine.execVshlSlot f s
  | .vshrSlot f => Sys2Proof.Machine.execVshrSlot f s
  | .vcmpSlot f => Sys2Proof.Machine.execVcmpSlot f s
  | .vselSlot f => Sys2Proof.Machine.execVselSlot f s
  | .vcvtSlot f => Sys2Proof.Machine.execVcvtSlot f s
  | .vmovSlot f => Sys2Proof.Machine.execVmovSlot f s
  | .vcaccSlot f => Sys2Proof.Machine.execVcaccSlot f s
  | .vtwosumSlot f => Sys2Proof.Machine.execVtwosumSlot f s
  | .vredSlot f => Sys2Proof.Machine.execVredSlot f s
  | .addi f => Sys2Proof.Machine.execAddi f s
  | .andi f => Sys2Proof.Machine.execAndi f s
  | .ori f => Sys2Proof.Machine.execOri f s
  | .xori f => Sys2Proof.Machine.execXori f s
  | .shli f => Sys2Proof.Machine.execShli f s
  | .shri f => Sys2Proof.Machine.execShri f s
  | .srai f => Sys2Proof.Machine.execSrai f s
  | .muli f => Sys2Proof.Machine.execMuli f s
  | .li f => Sys2Proof.Machine.execLi f s
  | .lui f => Sys2Proof.Machine.execLui f s
  | .slti f => Sys2Proof.Machine.execSlti f s
  | .setpi f => Sys2Proof.Machine.execSetpi f s
  | .div f => Sys2Proof.Machine.execDiv f s
  | .divu f => Sys2Proof.Machine.execDivu f s
  | .rem f => Sys2Proof.Machine.execRem f s
  | .remu f => Sys2Proof.Machine.execRemu f s
  | .fadd f => Sys2Proof.Machine.execFadd f s
  | .fsub f => Sys2Proof.Machine.execFsub f s
  | .fmul f => Sys2Proof.Machine.execFmul f s
  | .ffma f => Sys2Proof.Machine.execFfma f s
  | .fdiv f => Sys2Proof.Machine.execFdiv f s
  | .fsqrt f => Sys2Proof.Machine.execFsqrt f s
  | .fmin f => Sys2Proof.Machine.execFmin f s
  | .fmax f => Sys2Proof.Machine.execFmax f s
  | .fcmp f => Sys2Proof.Machine.execFcmp f s
  | .fcvt f => Sys2Proof.Machine.execFcvt f s
  | .br f => Sys2Proof.Machine.execBr f s
  | .call f => Sys2Proof.Machine.execCall f s
  | .loop f => Sys2Proof.Machine.execLoop f s
  | .ret f => Sys2Proof.Machine.execRet f s
  | .jmpr f => Sys2Proof.Machine.execJmpr f s
  | .callr f => Sys2Proof.Machine.execCallr f s
  | .halt f => Sys2Proof.Machine.execHalt f s
  | .yield f => Sys2Proof.Machine.execYield f s
  | .syscall f => Sys2Proof.Machine.execSyscall f s
  | .brk f => Sys2Proof.Machine.execBrk f s
  | .wfb f => Sys2Proof.Machine.execWfb f s
  | .ld f => Sys2Proof.Machine.execLd f s
  | .st f => Sys2Proof.Machine.execSt f s
  | .ldp f => Sys2Proof.Machine.execLdp f s
  | .stp f => Sys2Proof.Machine.execStp f s
  | .ldv f => Sys2Proof.Machine.execLdv f s
  | .stv f => Sys2Proof.Machine.execStv f s
  | .ldt f => Sys2Proof.Machine.execLdt f s
  | .stt f => Sys2Proof.Machine.execStt f s
  | .pref f => Sys2Proof.Machine.execPref f s
  | .fence f => Sys2Proof.Machine.execFence f s
  | .amo f => Sys2Proof.Machine.execAmo f s
  | .cas f => Sys2Proof.Machine.execCas f s
  | .enq f => Sys2Proof.Machine.execEnq f s
  | .enqCommit f => Sys2Proof.Machine.execEnqCommit f s
  | .deq f => Sys2Proof.Machine.execDeq f s
  | .deqFree f => Sys2Proof.Machine.execDeqFree f s
  | .qpush f => Sys2Proof.Machine.execQpush f s
  | .qpop f => Sys2Proof.Machine.execQpop f s
  | .vadd f => Sys2Proof.Machine.execVadd f s
  | .vsub f => Sys2Proof.Machine.execVsub f s
  | .vmul f => Sys2Proof.Machine.execVmul f s
  | .vfma f => Sys2Proof.Machine.execVfma f s
  | .vmax f => Sys2Proof.Machine.execVmax f s
  | .vmin f => Sys2Proof.Machine.execVmin f s
  | .vabs f => Sys2Proof.Machine.execVabs f s
  | .vneg f => Sys2Proof.Machine.execVneg f s
  | .vand f => Sys2Proof.Machine.execVand f s
  | .vor f => Sys2Proof.Machine.execVor f s
  | .vxor f => Sys2Proof.Machine.execVxor f s
  | .vshl f => Sys2Proof.Machine.execVshl f s
  | .vshr f => Sys2Proof.Machine.execVshr f s
  | .vcmp f => Sys2Proof.Machine.execVcmp f s
  | .vsel f => Sys2Proof.Machine.execVsel f s
  | .vcvt f => Sys2Proof.Machine.execVcvt f s
  | .vmov f => Sys2Proof.Machine.execVmov f s
  | .vcacc f => Sys2Proof.Machine.execVcacc f s
  | .vtwosum f => Sys2Proof.Machine.execVtwosum f s
  | .vred f => Sys2Proof.Machine.execVred f s
  | .vexp2 f => Sys2Proof.Machine.execVexp2 f s
  | .vrcp f => Sys2Proof.Machine.execVrcp f s
  | .vrsq f => Sys2Proof.Machine.execVrsq f s
  | .vsplat f => Sys2Proof.Machine.execVsplat f s
  | .vextr f => Sys2Proof.Machine.execVextr f s
  | .vperm f => Sys2Proof.Machine.execVperm f s
  | .vquant f => Sys2Proof.Machine.execVquant f s
  | .tclr f => Sys2Proof.Machine.execTclr f s
  | .tmark f => Sys2Proof.Machine.execTmark f s
  | .twait f => Sys2Proof.Machine.execTwait f s
  | .fwait f => Sys2Proof.Machine.execFwait f s
  | .fsig f => Sys2Proof.Machine.execFsig f s
  | .frd f => Sys2Proof.Machine.execFrd f s
  | .fset f => Sys2Proof.Machine.execFset f s
  | .fwin f => Sys2Proof.Machine.execFwin f s
  | .spawn f => Sys2Proof.Machine.execSpawn f s
  | .work f => Sys2Proof.Machine.execWork f s
  | .done f => Sys2Proof.Machine.execDone f s
  | .gbar f => Sys2Proof.Machine.execGbar f s
  | .rdsr f => Sys2Proof.Machine.execRdsr f s
  | .wrsr f => Sys2Proof.Machine.execWrsr f s
  | .featq f => Sys2Proof.Machine.execFeatq f s
  | .locq f => Sys2Proof.Machine.execLocq f s
  | .cycle f => Sys2Proof.Machine.execCycle f s
  | .regpwr f => Sys2Proof.Machine.execRegpwr f s
  | .trapret f => Sys2Proof.Machine.execTrapret f s
  | .tlbinvAll f => Sys2Proof.Machine.execTlbinvAll f s
  | .tlbinvSpace f => Sys2Proof.Machine.execTlbinvSpace f s
  | .tlbinvPage f => Sys2Proof.Machine.execTlbinvPage f s
  | .winmap f => Sys2Proof.Machine.execWinmap f s
  | .winmapRoot f => Sys2Proof.Machine.execWinmapRoot f s
  | .partcfgAssign f => Sys2Proof.Machine.execPartcfgAssign f s
  | .partcfgRelease f => Sys2Proof.Machine.execPartcfgRelease f s
  | .ttcmdWeight f => Sys2Proof.Machine.execTtcmdWeight f s
  | .ttcmdClose f => Sys2Proof.Machine.execTtcmdClose f s
  | .ttcmdQuiesce f => Sys2Proof.Machine.execTtcmdQuiesce f s
  | .ttcmdResume f => Sys2Proof.Machine.execTtcmdResume f s
  | .corectlClrfeat f => Sys2Proof.Machine.execCorectlClrfeat f s
  | .corectlHalt f => Sys2Proof.Machine.execCorectlHalt f s
  | .corectlState f => Sys2Proof.Machine.execCorectlState f s
  | .attest f => Sys2Proof.Machine.execAttest f s
  | .seRun f => Sys2Proof.Machine.execSeRun f s
  | .seHalt f => Sys2Proof.Machine.execSeHalt f s
  | .teRun f => Sys2Proof.Machine.execTeRun f s
  | .teHalt f => Sys2Proof.Machine.execTeHalt f s
  | .swRoute f => Sys2Proof.Machine.execSwRoute f s
  | .swFmt f => Sys2Proof.Machine.execSwFmt f s
  | .grCfg f => Sys2Proof.Machine.execGrCfg f s
  | .grGo f => Sys2Proof.Machine.execGrGo f s
  | .grDrain f => Sys2Proof.Machine.execGrDrain f s
  | .grDump f => Sys2Proof.Machine.execGrDump f s
  | .grFill f => Sys2Proof.Machine.execGrFill f s
  | .scnChunk f => Sys2Proof.Machine.execScnChunk f s
  | .scnCarry f => Sys2Proof.Machine.execScnCarry f s
  | .mxLease f => Sys2Proof.Machine.execMxLease f s
  | .mxMma f => Sys2Proof.Machine.execMxMma f s
  | .mxDrain f => Sys2Proof.Machine.execMxDrain f s
  | .mxFree f => Sys2Proof.Machine.execMxFree f s
  | .mxZero f => Sys2Proof.Machine.execMxZero f s
  | .xfCopy f => Sys2Proof.Machine.execXfCopy f s
  | .xfCopy2d f => Sys2Proof.Machine.execXfCopy2d f s
  | .xfFill f => Sys2Proof.Machine.execXfFill f s
  | .xfGather f => Sys2Proof.Machine.execXfGather f s
  | .slSave f => Sys2Proof.Machine.execSlSave f s
  | .slLoad f => Sys2Proof.Machine.execSlLoad f s
  | .slSnap f => Sys2Proof.Machine.execSlSnap f s
  | .slFork f => Sys2Proof.Machine.execSlFork f s
  | .slRoll f => Sys2Proof.Machine.execSlRoll f s
  | .slDrop f => Sys2Proof.Machine.execSlDrop f s
  | .note f => Sys2Proof.Machine.execNote f s
  | .cellCnop f => Sys2Proof.Machine.execCellCnop f s
  | .cellPass f => Sys2Proof.Machine.execCellPass f s
  | .cellFadd f => Sys2Proof.Machine.execCellFadd f s
  | .cellFsub f => Sys2Proof.Machine.execCellFsub f s
  | .cellFmul f => Sys2Proof.Machine.execCellFmul f s
  | .cellFfma f => Sys2Proof.Machine.execCellFfma f s
  | .cellFmax f => Sys2Proof.Machine.execCellFmax f s
  | .cellFmin f => Sys2Proof.Machine.execCellFmin f s
  | .cellFabs f => Sys2Proof.Machine.execCellFabs f s
  | .cellFexp2 f => Sys2Proof.Machine.execCellFexp2 f s
  | .cellFrcp f => Sys2Proof.Machine.execCellFrcp f s
  | .cellIadd f => Sys2Proof.Machine.execCellIadd f s
  | .cellIsub f => Sys2Proof.Machine.execCellIsub f s
  | .cellImul f => Sys2Proof.Machine.execCellImul f s
  | .cellAnd f => Sys2Proof.Machine.execCellAnd f s
  | .cellOr f => Sys2Proof.Machine.execCellOr f s
  | .cellXor f => Sys2Proof.Machine.execCellXor f s
  | .cellShl f => Sys2Proof.Machine.execCellShl f s
  | .cellShr f => Sys2Proof.Machine.execCellShr f s
  | .cellSel f => Sys2Proof.Machine.execCellSel f s
  | .cellCmplt f => Sys2Proof.Machine.execCellCmplt f s
  | .cellCmpeq f => Sys2Proof.Machine.execCellCmpeq f s
  | .cellSld f => Sys2Proof.Machine.execCellSld f s
  | .cellSst f => Sys2Proof.Machine.execCellSst f s
  | .cellAcc2 f => Sys2Proof.Machine.execCellAcc2 f s
  | .cellCvt f => Sys2Proof.Machine.execCellCvt f s
  | .pend f => Sys2Proof.Machine.execPend f s
  | .pbase f => Sys2Proof.Machine.execPbase f s
  | .pdst f => Sys2Proof.Machine.execPdst f s
  | .pmove f => Sys2Proof.Machine.execPmove f s
  | .pnest f => Sys2Proof.Machine.execPnest f s
  | .pwrap f => Sys2Proof.Machine.execPwrap f s
  | .pfmt f => Sys2Proof.Machine.execPfmt f s
  | .pwait f => Sys2Proof.Machine.execPwait f s
  | .psig f => Sys2Proof.Machine.execPsig f s
  | .pwin f => Sys2Proof.Machine.execPwin f s
  | .pjump f => Sys2Proof.Machine.execPjump f s
  | .ploop f => Sys2Proof.Machine.execPloop f s
  | .pgath f => Sys2Proof.Machine.execPgath f s
  | .pfillv f => Sys2Proof.Machine.execPfillv f s
  | .pskip f => Sys2Proof.Machine.execPskip f s
  | .pnote f => Sys2Proof.Machine.execPnote f s
  | .registerWrite a0 a1 => Sys2Proof.Machine.execRegisterWrite a0 a1 s
  | .resume a0 => Sys2Proof.Machine.execResume a0 s
  | .resumeAt a0 a1 => Sys2Proof.Machine.execResumeAt a0 a1 s
  | .restartTask a0 => Sys2Proof.Machine.execRestartTask a0 s
  | .failTask a0 => Sys2Proof.Machine.execFailTask a0 s
  | .killPartition a0 => Sys2Proof.Machine.execKillPartition a0 s
  | .coreTrapDelivery a0 => Sys2Proof.Machine.execCoreTrapDelivery a0 s
  | .watchdogExpiry a0 => Sys2Proof.Machine.execWatchdogExpiry a0 s
  | .interruptEntry a0 => Sys2Proof.Machine.execInterruptEntry a0 s
  | .releaseEvent a0 => Sys2Proof.Machine.execReleaseEvent a0 s
  | .pageWalk a0 a1 => Sys2Proof.Machine.execPageWalk a0 a1 s
  | .l2MissFill a0 a1 a2 => Sys2Proof.Machine.execL2MissFill a0 a1 a2 s
  | .fbcBlockRmw a0 => Sys2Proof.Machine.execFbcBlockRmw a0 s
  | .fbcHeldImageEncode a0 => Sys2Proof.Machine.execFbcHeldImageEncode a0 s
  | .ticketedAtomic => Sys2Proof.Machine.execTicketedAtomic s
  | .fullEmptyAccess a0 => Sys2Proof.Machine.execFullEmptyAccess a0 s
  | .piecePerformed a0 a1 => Sys2Proof.Machine.execPiecePerformed a0 a1 s
  | .flagAddition a0 => Sys2Proof.Machine.execFlagAddition a0 s
  | .flagWaitSuccess a0 a1 => Sys2Proof.Machine.execFlagWaitSuccess a0 a1 s
  | .tidelineAdmission a0 a1 => Sys2Proof.Machine.execTidelineAdmission a0 a1 s
  | .neighbourPushAccept a0 => Sys2Proof.Machine.execNeighbourPushAccept a0 s
  | .neighbourPopComplete a0 => Sys2Proof.Machine.execNeighbourPopComplete a0 s
  | .noteReached a0 a1 => Sys2Proof.Machine.execNoteReached a0 a1 s
  | .bellRing a0 => Sys2Proof.Machine.execBellRing a0 s
  | .engineCommandStart a0 a1 => Sys2Proof.Machine.execEngineCommandStart a0 a1 s
  | .engineCommandComplete a0 a1 a2 => Sys2Proof.Machine.execEngineCommandComplete a0 a1 a2 s
  | .leaseGrant a0 => Sys2Proof.Machine.execLeaseGrant a0 s
  | .leaseCycleLimit a0 => Sys2Proof.Machine.execLeaseCycleLimit a0 s
  | .leaseCommandLimit a0 => Sys2Proof.Machine.execLeaseCommandLimit a0 s
  | .cb3TableTake a0 => Sys2Proof.Machine.execCb3TableTake a0 s
  | .narrowModeChange a0 => Sys2Proof.Machine.execNarrowModeChange a0 s
  | .quayPageRead a0 a1 => Sys2Proof.Machine.execQuayPageRead a0 a1 s
  | .quayPageArrived a0 a1 => Sys2Proof.Machine.execQuayPageArrived a0 a1 s
  | .guardedPageCopy a0 a1 => Sys2Proof.Machine.execGuardedPageCopy a0 a1 s
  | .tileSourceRead a0 a1 => Sys2Proof.Machine.execTileSourceRead a0 a1 s
  | .tileSinkFill a0 a1 => Sys2Proof.Machine.execTileSinkFill a0 a1 s
  | .gridIterationStart a0 a1 => Sys2Proof.Machine.execGridIterationStart a0 a1 s
  | .gridTokenPush a0 a1 => Sys2Proof.Machine.execGridTokenPush a0 a1 s
  | .gbarComplete a0 => Sys2Proof.Machine.execGbarComplete a0 s
  | .launchAccept => Sys2Proof.Machine.execLaunchAccept s
  | .launchPacketTake a0 => Sys2Proof.Machine.execLaunchPacketTake a0 s
  | .dispatch a0 => Sys2Proof.Machine.execDispatch a0 s
  | .stealAnswer a0 => Sys2Proof.Machine.execStealAnswer a0 s
  | .sessionReady a0 a1 => Sys2Proof.Machine.execSessionReady a0 a1 s
  | .timeSliceEnd a0 => Sys2Proof.Machine.execTimeSliceEnd a0 s
  | .preemptRequest a0 => Sys2Proof.Machine.execPreemptRequest a0 s
  | .contextSave a0 => Sys2Proof.Machine.execContextSave a0 s
  | .contextRestore a0 => Sys2Proof.Machine.execContextRestore a0 s
  | .batchPromotion a0 a1 => Sys2Proof.Machine.execBatchPromotion a0 a1 s
  | .forecastUpdate a0 => Sys2Proof.Machine.execForecastUpdate a0 s
  | .bar2Read a0 => Sys2Proof.Machine.execBar2Read a0 s
  | .bar2Write a0 => Sys2Proof.Machine.execBar2Write a0 s
  | .bar2Fetchadd a0 => Sys2Proof.Machine.execBar2Fetchadd a0 s
  | .bar2Swap a0 => Sys2Proof.Machine.execBar2Swap a0 s
  | .bar2Cas a0 => Sys2Proof.Machine.execBar2Cas a0 s
  | .lqaddr a0 a1 => Sys2Proof.Machine.execLqaddr a0 a1 s
  | .mailboxRequest a0 a1 => Sys2Proof.Machine.execMailboxRequest a0 a1 s
  | .functionLevelReset a0 => Sys2Proof.Machine.execFunctionLevelReset a0 s
  | .peerLinkTraining => Sys2Proof.Machine.execPeerLinkTraining s
  | .hostLinkDown => Sys2Proof.Machine.execHostLinkDown s
  | .peerLinkDown => Sys2Proof.Machine.execPeerLinkDown s
  | .flitReceive a0 a1 => Sys2Proof.Machine.execFlitReceive a0 a1 s
  | .replayLimit => Sys2Proof.Machine.execReplayLimit s
  | .dieLinkLost => Sys2Proof.Machine.execDieLinkLost s
  | .regulatorInterval => Sys2Proof.Machine.execRegulatorInterval s
  | .regulatorSoftAdmit a0 a1 => Sys2Proof.Machine.execRegulatorSoftAdmit a0 a1 s
  | .moduleBoot a0 => Sys2Proof.Machine.execModuleBoot a0 s
  | .powerAlarmRaise => Sys2Proof.Machine.execPowerAlarmRaise s
  | .powerAlarmClear => Sys2Proof.Machine.execPowerAlarmClear s
  | .checkpointRestore a0 => Sys2Proof.Machine.execCheckpointRestore a0 s
  | .deviceFailover a0 => Sys2Proof.Machine.execDeviceFailover a0 s
  | .hostLinkTraining => Sys2Proof.Machine.execHostLinkTraining s
  | .dieLinkTraining => Sys2Proof.Machine.execDieLinkTraining s

end Sys2Proof.Machine
end

