-- ==== Sys2Proof/Machine/Mishap.lean ====
section
/-! DEFINITION. Errors of storage and the counts that come with them, each a turn of its own: double-bit errors, check
values that do not match, corrected errors, tile reads that lose arbitration (R86, R228, R252, R417, R436). -/

namespace Sys2Proof.Machine

/-- Does a store or an image that waits at its slice rest on the n bytes from home a? -/
def blockPending (s : State) (a n : Nat) : Bool :=
  let meets (enc : Nat) (leaf : W64) : Bool := enc < a + n && a < enc + 2 * budBits (leafBud leaf)
  (s.fbcStores.any fun f => meets f.enc f.leaf) || s.held.any fun h => meets h.enc h.leaf

/-- Is the home address one of the device's own storage, as the host windows are not? -/
def ownStorage (a : Nat) : Bool := a < 2 ^ 57 && !(isHostWindow a && a < 2 ^ 52)

/-- The words from a to a + n are bad from now on; where a store or an image is under way in its block, no error arises
before it is performed (log 79: DESIGN CHOICE). -/
def spoilWords (s : State) (f : Flaw) (a n : Nat) : State :=
  if ownStorage a && !blockPending s a n then (List.range (n / 8)).foldl (fun s i => s.spoil f (a / 8 + i)) s else s

/-- An error in a core's register storage: the core stops with 336, and nothing is known of its registers (R228) (log 79:
DESIGN CHOICE). -/
def loseRegisters (s : State) (c : CoreId) : State :=
  let w (i : Nat) : W64 := Config.lostWord s.moment i
  let s := s.modCore c fun k => { k with
    x := { k.x with g := Vector.ofFn fun i => w i.val, p := Vector.ofFn fun i => (w 32).getLsbD i.val }
    v := Vector.ofFn fun i => Vector.ofFn fun j => fld (w (33 + 16 * i.val + j.val)) 0 32
    lat := Vector.ofFn fun j => fld (w (161 + j.val)) 0 32 }
  s.tick.stopCore c .async 336 0 (detailWord (unitAgent c 0) 7 0)

/-- What goes wrong or is counted in a turn of its own (R86, R252, R417, R436). -/
def mishap (m : Mishap) (s : State) : State :=
  match m with
  | .doubleBit a => spoilWords s .ecc (a / 8 * 8) 8
  | .badCheck a => spoilWords s .check (a / 64 * 64) 64
  | .fullBits a => if 2 ^ 52 ≤ a && a < 2 ^ 55 then s.spoil .ecc (fullKey a) else s
  | .slot c up f =>
    let q := s.qDown c up
    if q.slots.isEmpty then s else s.setQ c up { q with bad := some f }
  | .registers c => if (s.core c).run = .off || (s.core c).held.isSome then s else loseRegisters s c
  | .corrected c => s.modCore c fun k => { k with telemetry := k.telemetry.set 6 (k.telemetry[6] + 1) }
  | .tileReadLost c b => s.modCore c fun k =>
    let n := k.bankloss[b.val]
    { k with bankloss := k.bankloss.set b.val (if n = BitVec.allOnes 32 then n else n + 1) }

end Sys2Proof.Machine
end

