-- ==== Sys2Proof/Machine/Issue.lean ====
section
/-! DEFINITION. What a turn does: a processor fetches, decodes and runs its next word or takes up the instruction
that waits; an engine, a pattern program or a grid loop does its next piece of work; a device step takes place
(R71, R114, R115, R221, R224, R255 to R259, R407). -/

namespace Sys2Proof.Machine

/-! ## Fetching (R71, R255) -/

/-- Read n bytes at pc as an instruction fetch, through its lines; it raises no memory-model exception (log 18: DEDUCED). -/
def fetchBytes (va : W64) (n : Nat) : M (List Byte) := do
  let w := (← get).who
  let ps ← translateRows w .fetch false [(va, n)]
  let s ← get
  orStop (flawStop s w.agent {} false ps)
  useLines w {} false ps
  pure (ps.flatMap fun p => s.partBytes (versionOf s w.agent {} p) p)

/-- Fetch the word at an address: its 8 bytes and, of an E command, the 8 after them. A fault names the address
of word 0 (R255), bad data the failing unit (R220). -/
def fetchWord (va : W64) : M (W64 × W64) := do
  let w := BitVec.ofNat 64 (leNat (← fetchBytes va 8))
  if wordLength w = 16 then
    fun s => match fetchBytes (va + 8) 8 s with
      | .ok (bs, t) => .ok ((w, BitVec.ofNat 64 (leNat bs)), t)
      | .error (.trap c a d) => .error (.trap c (if c = 324 || c = 325 then a else va) d)
      | .error e => .error e
  else pure (w, 0)

/-- The 64-bit words of commands that are held ahead. -/
def heldWords (xs : List (W64 × W64 × W64)) : Nat := xs.foldl (fun n x => n + wordLength x.2.1 / 8) 0

/-- Fetch up to n commands ahead from an address, of at most `room` words in all; the path stops where a fetch fails. -/
def fetchAhead : Nat → Nat → W64 → State → List (W64 × W64 × W64) × State
  | 0, _, _, s => ([], s)
  | n + 1, room, va, s =>
    match fetchWord va s with
    | .ok ((w, w1), t) =>
      if wordLength w / 8 ≤ room then
        let (r, t) := fetchAhead n (room - wordLength w / 8) (va + BitVec.ofNat 64 (wordLength w)) t
        ((va, w, w1) :: r, t)
      else ([], s)
    | .error _ => ([], s)

/-- The words held ahead from an address on. -/
def heldFrom (va : W64) : List (W64 × W64 × W64) → List (W64 × W64 × W64)
  | [] => []
  | x :: r => if x.1 = va then x :: r else heldFrom va r

/-- The next word of the current processor: one held ahead, or one fetched from memory; the words after it are
then held as far as the path runs ahead, which is free up to 16 (R71, log 8: DEDUCED). -/
def nextFetch (s : State) : Except Stop ((W64 × W64) × State) :=
  let pc := s.cpu.pc
  let held := heldFrom pc s.cpu.fetched
  let first : Except Stop ((W64 × W64) × State) := match held with
    | x :: _ => .ok (x.2, s)
    | [] => fetchWord pc s
  match first with
  | .error e => .error e
  | .ok ((w, w1), s) =>
    let rest := held.drop 1
    let next := match rest.getLast? with
      | some x => x.1 + BitVec.ofNat 64 (wordLength x.2.1)
      | none => pc + BitVec.ofNat 64 (wordLength w)
    let room := s.cpu.ahead - heldWords rest
    let (more, s) := fetchAhead room room next s
    .ok ((w, w1), s.modCpu fun x => { x with fetched := rest ++ more, ahead := Config.fetchAhead s.moment % 17 })

/-! ## Running a word (R255 to R259) -/

/-- Has the current processor stopped or begun to wait in a slot? A system core's exception gives it another next
word. -/
def slotStops (s t : State) : Bool :=
  t.cpu.blocked.isSome || t.cpu.npc ≠ s.cpu.npc ||
  (match s.cur with
   | .compute c => (t.core c).held.isSome
   | .system k => !(t.sysCore k).enabled)

/-- Run a decoded word. The vector slot reads and writes nothing that the scalar slot writes, so it goes first,
and a fault in it leaves both slots undone (R259). -/
def runWord (f : Fetched) (s : State) : Out :=
  let go (g : Guard) : Bool := s.p g.pred ≠ g.neg
  match f with
  | .p g a b =>
    if go g then
      match exec b s with
      | .next t => if slotStops s t then .next t else exec a t
      | o => o
    else .next s
  | .l g i => if go g then exec i s else .next s
  | .e g i => if go g then exec i (s.modCpu fun x => { x with guard := g }) else .next s

/-- A word has been done: the next one is due, and a word that did not trap has been retired (R417) (log 63: DEDUCED). -/
def retire (q : Proc) (counts : Bool) (s : State) : State :=
  let s := match q with
    | .compute c => s.modCore c fun k =>
        let trapped := (match k.held with | some h => decide (h.cls = StopClass.precise) && k.x.npc = k.x.pc | none => false)
        let n : W64 := if counts then (if trapped then 0 else 1) else (if trapped then -1 else 0)
        let k := { k with telemetry := k.telemetry.set 0 (k.telemetry[0] + n) }
        if k.x.blocked.isNone then { k with slateWait := k.slateWait.filter fun e => e.1.isSome } else k
    | .system _ => s
  s.advance q

/-- Finish the outcome of a processor's turn. -/
def retireOut (q : Proc) (counts : Bool) : Out → Out
  | .next s => .next (retire q counts s)
  | o => o

/-- Run the word (w, w1) at the current processor's PC: decode it, then execute it or raise its decode fault
(R226, R257). -/
def runAt (q : Proc) (w w1 : W64) (s : State) : Out :=
  let s := s.setNpc (s.cpu.pc + BitVec.ofNat 64 (wordLength w))
  retireOut q true (match decodeWord (s.env q) w w1 with
    | .ok f => runWord f s
    | .error code => .next (s.trap code 0 none))

/-- Has the piece of a core arrived at its GBAR (R348)? -/
def atBarrier (s : State) : Proc → Bool
  | .compute c => match (s.core c).piece with
    | some q => s.barriers.any fun b => b.launch = q.launch && b.arrived.contains (q.member c)
    | none => false
  | .system _ => false

/-- Is the waiting instruction of a processor tried again in its turns: not where another step completes it? -/
def retried (s : State) (q : Proc) (i : Instr) : Bool :=
  !s.feQueue.contains (.proc q) &&
  (match i with
   | .fwait _ => false
   | .wfb _ => false
   | .qpush _ => false
   | .qpop _ => false
   | .gbar _ => !atBarrier s q
   | .amo f => f.order ≠ 6 || (s.cpuOf q).reply.isSome
   | .cas f => f.order ≠ 6 || (s.cpuOf q).reply.isSome
   | _ => true)

/-- Does a compute core have the operands of its piece still to load, with nothing that keeps it from that (R198)? -/
def entryDue (s : State) : Proc → Option CoreId
  | .compute c => let k := s.core c
    if k.run = .run && k.held.isNone && !k.preempt && s.loading c then some c else none
  | .system _ => none

/-- A processor's turn: the operands of its piece, an interrupt, its waiting instruction, or its next word. -/
def issue (q : Proc) (s : State) : Out :=
  let s := { s with cur := q, unit := .cp }
  if !s.canGo q then .next (match entryDue s q with
    | some c => s.loadEntry c
    | none => s)
  else match (s.cpuOf q).blocked with
    | some (i, _) =>
      if retried s q i then
        match s.takeUp q with
        | some (i, t) => retireOut q false (exec i t)
        | none => .next s
      else .next s
    | none =>
      match q with
      | .system k =>
        if (s.sysCore k).ie && (pendingCode (s.sysCore k)).isSome then execInterruptEntry k s
        else run s
      | .compute _ => run s
where
  /-- Fetch and run the next word. -/
  run (s : State) : Out :=
    match nextFetch s with
    | .ok ((w, w1), t) => runAt q w w1 t
    | .error (.trap code a d) => .next (retire q true ((s.setNpc (s.cpu.pc + 8)).trap code a d))
    | .error (.wait what) => .next (s.noteHeld what)

/-! ## Engines, programs, grid loops -/

/-- A turn of a command in flight. -/
def engineTurn (c : CoreId) (q : QueueId) (pos : Nat) (s : State) : Out :=
  let s := { s with cur := .compute c, unit := .queue q pos }
  match s.flight? c q pos with
  | some fl => exec fl.cmd.instr s
  | none => .next s

/-- A turn of a pattern program. -/
def programTurn (r : EngineRef) (s : State) : Out :=
  let s := match r with
    | .stream c e => { s with cur := .compute c, unit := .streamProg e }
    | .tide t slot => { s with unit := .tideProg t slot }
  match progTurn s r with
  | .word i t => exec i t
  | .over t => .next t

/-- A turn of a grid loop: its iteration, its next cell operation, its next token, or its next cycle (R388,
R389) (log 34: DESIGN CHOICE). -/
def gridTurn (c : CoreId) (ver : Bool) (s : State) : Out :=
  match s.loop? c ver with
  | none => .next s
  | some l =>
    let k := s.core c
    if !s.gridGoes c then .next s
    else if !l.decided && l.cell = 0 && l.clock % imageII (imageHead k ver) = 0 then execGridIterationStart c ver s
    else
      match (List.range 64).findSome? fun x =>
          if l.cell ≤ x then (cellDue k l x).map fun n => (x, n) else none with
      | some (x, n) =>
        let s := (s.modLoop c ver fun l => { l with cell := x + 1 }).modCore c fun k => { k with cellAt := (ver, x, n) }
        (match decodeCell (imageCell k ver x) with
         | some i => exec i { s with cur := .compute c, unit := .cell }
         | none => .next s)
      | none =>
        if l.pushes.any fun p => p.1 ≤ l.clock then execGridTokenPush c ver s else .next (nextClock s c ver)

/-! ## Steps that come of themselves -/

/-- The device steps that take place at a time of their own, which the free schedule can bring in. The rest is
part of other steps, or acts at once when it is due (log 10: DESIGN CHOICE). -/
def spontaneous : Instr → Bool
  | .coreTrapDelivery _ => true
  | .watchdogExpiry _ => true
  | .pageWalk _ _ => true
  | .l2MissFill _ _ _ => true
  | .fbcBlockRmw _ => true
  | .fbcHeldImageEncode _ => true
  | .ticketedAtomic => true
  | .piecePerformed _ _ => true
  | .flagAddition _ => true
  | .tidelineAdmission _ _ => true
  | .neighbourPushAccept _ => true
  | .neighbourPopComplete _ => true
  | .noteReached _ _ => true
  | .bellRing _ => true
  | .engineCommandStart _ _ => true
  | .engineCommandComplete _ _ _ => true
  | .leaseGrant _ => true
  | .leaseCycleLimit _ => true
  | .leaseCommandLimit _ => true
  | .cb3TableTake _ => true
  | .narrowModeChange _ => true
  | .quayPageRead _ _ => true
  | .quayPageArrived _ _ => true
  | .guardedPageCopy _ _ => true
  | .tileSourceRead _ _ => true
  | .tileSinkFill _ _ => true
  | .gbarComplete _ => true
  | .launchAccept => true
  | .launchPacketTake _ => true
  | .dispatch _ => true
  | .stealAnswer _ => true
  | .sessionReady _ _ => true
  | .timeSliceEnd _ => true
  | .preemptRequest _ => true
  | .contextSave _ => true
  | .contextRestore _ => true
  | .batchPromotion _ _ => true
  | .forecastUpdate _ => true
  | .bar2Read _ => true
  | .bar2Write _ => true
  | .bar2Fetchadd _ => true
  | .bar2Swap _ => true
  | .bar2Cas _ => true
  | .lqaddr _ _ => true
  | .mailboxRequest _ _ => true
  | .registerWrite (.bar0 _ _) _ => true
  | .functionLevelReset _ => true
  | .peerLinkTraining => true
  | .hostLinkDown => true
  | .peerLinkDown => true
  | .flitReceive _ _ => true
  | .replayLimit => true
  | .dieLinkLost => true
  | .regulatorInterval => true
  | .regulatorSoftAdmit _ _ => true
  | .moduleBoot _ => true
  | .powerAlarmRaise => true
  | .powerAlarmClear => true
  | .checkpointRestore _ => true
  | .deviceFailover _ => true
  | .hostLinkTraining => true
  | .dieLinkTraining => true
  | _ => false

/-- What a turn does, where no regulator holds a request that the Timetable makes in it (R439). -/
def turn (t : Turn) (s : State) : Out :=
  heldBack s (match t with
  | .cp q => issue q s
  | .engine c q pos => engineTurn c q pos s
  | .slateMove c n ahead => .next (slateMoveTurn c n ahead s)
  | .streamProg c e => programTurn (.stream c e) s
  | .tideProg t slot => programTurn (.tide t slot) s
  | .grid c ver => gridTurn c ver s
  | .event i => if spontaneous i then exec i s else .next s
  | .port n => portTurn n s
  | .bar0Read t o => .next (bar0Read t o s)
  | .linkSend die ch what => .next (linkSend die ch what s)
  | .mishap m => .next (mishap m s)
  | .walkBegin a va => .next (walkBegin a va s))

/-! ## Which turn comes next -/

/-- The turn that comes next, and the state as it begins: from the agenda, or a free choice. A free number of
microseconds passes (log 4, 7: DESIGN CHOICE). -/
def State.beginTurn (s : State) : Turn × State :=
  let s := s.noteAllArrivals
  let t := { s with
    moment := s.moment + 1, us := s.us + Config.microseconds s.moment, requests := { s.requests with paid := [], unpaid := none } }
  match s.agenda with
  | x :: r => (x, { t with agenda := r })
  | [] => (Config.schedule s.moment, t)

/-- May a turn take place after a boot that failed: only another boot, and the recovery mailbox (R441)? -/
def afterFailedBoot : Turn → Bool
  | .event (.moduleBoot _) => true
  | .event (.mailboxRequest _ (.pf _ _)) => true
  | _ => false

/-! ## Steps that are due at once -/

/-- Act on the oldest action word that a store has written (R224). -/
def urgentAction (c : CoreId) (w : W64) (s : State) : Out :=
  match actionOf w with
  | none => .next { s with actions := s.actions.drop 1 }
  | some .resume => execResume c s
  | some (.resumeAt target) => execResumeAt c target s
  | some .restartTask => execRestartTask c s
  | some .failTask => execFailTask c s
  | some .killPartition => execKillPartition c s

/-- The flag of a core on which a pending wait succeeds (R115). -/
def readyFlag (k : Core) : Option (BitVec 8) :=
  if k.held.isSome then none
  else (k.waits.find? fun w => w.threshold ≤ (k.flag w.flag).value.toNat).map (·.flag)

/-- The first core, counted from n, with such a flag. -/
def firstReady : Nat → List Core → Option (CoreId × BitVec 8)
  | _, [] => none
  | n, k :: r => match readyFlag k with
    | some f => some (⟨n % 256, Nat.mod_lt _ (by decide)⟩, f)
    | none => firstReady (n + 1) r

/-- The step of one that waits on full/empty bits, where it can go on now (R65). -/
def waiterStep (s : State) : FeWaiter → Option Out
  | .proc q => (performWaiting s q).map fun _ => execFullEmptyAccess q s
  | .table c => (takeWaiting s c).map .next

/-- A step that is due before any turn: an action word's, a release event that waited for its agent's writes, the end of a slot
that the Timetable claimed, a waiting full/empty access's, a flag wait's (log 22: DESIGN CHOICE). -/
def urgent (s : State) : Option Out :=
  match s.actions with
  | (c, w) :: _ => some (urgentAction c w s)
  | [] =>
    match (s.releases.find? s.acked).map fun a => { s.release a with releases := s.releases.filter (· ≠ a) } with
    | some t => some (.next t)
    | none => match s.openSlots.findSome? s.slotDue with
    | some t => some (.next t)
    | none => match s.feQueue.findSome? (waiterStep s) with
    | some o => some o
    | none => (firstReady 0 s.cores.toList).map fun x => execFlagWaitSuccess x.1 x.2 s

end Sys2Proof.Machine
end

