-- ==== Sys2Proof/Machine/Step.lean ====
section
/-! DEFINITION. One step of the device, and the state in which a given instruction is the next to be fetched. -/

namespace Sys2Proof.Machine

/-- One step: what is due at once, or else the next turn. -/
def step (s : State) : Host.Outcome State Fault Refusal :=
  match (if s.boot = .stopped then none else urgent s) with
  | some o => o
  | none =>
    let (t, u) := s.beginTurn
    if s.boot = .stopped && !afterFailedBoot t then .fault .bootStopped
    else turn t u

namespace State

/-- The page table entry of level 0 that points to the level-1 table of `withFetchWord`. -/
def fetchPointer : Nat := 0x40001000 + 1

/-- The leaf at level 1 that maps the first GiB to itself: valid, leaf, readable, executable, raw. -/
def fetchLeaf : Nat := 0x17

/-- Memory with the instruction at 0 and the two table entries that map it. -/
def fetchMemory (m : List Host.Cell) (bs : List Byte) : List Host.Cell :=
  memPut (memPut (memPut m 0 bs) 0x40000000 (leBytes 8 fetchPointer)) 0x40001000 (leBytes 8 fetchLeaf)

/-- The cores with no flag wait pending. -/
def noWaits (v : Vector Core 256) : Vector Core 256 :=
  ⟨(v.toList.map fun k => { k with waits := [] }).toArray, by simp⟩

/-- The state in which the next step fetches and runs the instruction w: on core 0 in a partition whose space maps
it, or, for a supervisor word, on system core 0 (log 5: DESIGN CHOICE). -/
def withFetchWord (s : State) (nbits w : Nat) : State :=
  let bs := leBytes 16 (w % 2 ^ nbits)
  let user := match decodeBytes .full bs with
    | .ok _ => true
    | .error _ => false
  let s := { s with
    boot := .cold, actions := [], releases := [], feQueue := [], tlb := [], walkCache := [], walks := [], lines := [],
    requests := Requests.none, openSlots := [],
    mem := fetchMemory s.mem bs, flaws := [] }
  if user then
    let k := s.core 0
    { s with
      agenda := [.cp (.compute 0)],
      parts := s.parts.set 0 { s.parts[0] with assigned := true, root := 0x40000000 },
      cores := (noWaits s.cores).set 0 { k with
        run := .run, held := none, preempt := false, piece := none, part := some 0, waits := [],
        x := { k.x with pc := 0, npc := 0, blocked := none, fetched := [], ahead := 0 } } }
  else
    let y := s.sysCore 0
    { s with
      agenda := [.cp (.system 0)], superRoot := some 0x40000000, windows := [],
      cores := noWaits s.cores,
      sys := s.sys.set 0 { y with
        enabled := true, running := true, ie := false,
        x := { y.x with pc := 0, npc := 0, blocked := none, fetched := [], ahead := 0 } } }

end State

end Sys2Proof.Machine
end

