-- ==== Sys2Proof/WellFormed.lean ====
section
/-! DEFINITION. Well-formedness: the fields of an instruction meet every decode rule of the manual
on the processor that runs it (R226, R257). The checks themselves are `Instr.reasons` of Decode. -/

namespace Sys2Proof

/-- An instruction whose fields raise no decode reason on this processor (R257). -/
def Instr.wf (e : DecodeEnv) (i : Instr) : Bool := i.reasons e = []

/-- A guard that raises no decode reason: p0 is not negated (R256). -/
def Guard.wf (g : Guard) : Bool := !(g.neg && g.pred = 0)

/-- A fetched word whose guard and slots are well-formed and stand where they can. -/
def Fetched.wf (e : DecodeEnv) : Fetched → Bool
  | .p g s v => g.wf && s.wf e && v.wf e && s.scalarCode.isSome && v.vectorCode.isSome
  | .l g i => g.wf && i.wf e && i.longCode.isSome
  | .e g i => g.wf && i.wf e && i.engineCode.isSome

end Sys2Proof
end

