-- ==== Sys2Proof/Safety.lean ====
section
/-! DEFINITION. The terms in which claims are stated: completion, frames, conditions on the operands, the invariants
that a step keeps. -/

namespace Sys2Proof.Machine

/-! ## Completion -/

/-- The instruction answers a next state of which `post` holds. -/
def Completes (i : Instr) (s : State) (post : State → Prop) : Prop := ∃ t, exec i s = .next t ∧ post t

/-! ## Frames -/

/-- Every byte of memory reads as before. -/
def SameMemory (s t : State) : Prop := ∀ a, t.bytes a 1 = s.bytes a 1

/-- Every byte of memory outside the n bytes from a reads as before. -/
def SameMemoryOutside (s t : State) (a n : Nat) : Prop := ∀ x, x < a ∨ a + n ≤ x → t.bytes x 1 = s.bytes x 1

/-- Only g[r] is written, with v; g0 reads 0 and a write to it is discarded (R249). -/
def WritesG (s t : State) (r : BitVec 5) (v : W64) : Prop :=
  t.g r = (if r = 0 then 0 else v) ∧ (∀ x, x ≠ r → t.g x = s.g x) ∧
  t = s.setCpu { s.cpu with g := t.cpu.g } ∧ SameMemory s t

/-- Only the pair g[r], g[r+1] is written. -/
def WritesPair (s t : State) (r : BitVec 5) (lo hi : W64) : Prop :=
  t.g r = (if r = 0 then 0 else lo) ∧ t.g (r + 1) = (if r + 1 = 0 then 0 else hi) ∧
  (∀ x, x ≠ r → x ≠ r + 1 → t.g x = s.g x) ∧
  t = s.setCpu { s.cpu with g := t.cpu.g } ∧ SameMemory s t

/-- Only p[r] is written, with b; p0 reads 1 and a write to it is discarded (R249). -/
def WritesP (s t : State) (r : BitVec 3) (b : Bool) : Prop :=
  t.p r = (if r = 0 then true else b) ∧ (∀ x, x ≠ r → t.p x = s.p x) ∧
  t = s.setCpu { s.cpu with p := t.cpu.p } ∧ SameMemory s t

/-- Only g[r] is written, and FPSTAT takes more flags (R165). -/
def WritesGF (s t : State) (r : BitVec 5) (v : W64) (fl : FpFlags) : Prop :=
  t.g r = (if r = 0 then 0 else v) ∧ (∀ x, x ≠ r → t.g x = s.g x) ∧ t.cpu.fpstat = s.cpu.fpstat ||| fl ∧
  t = s.setCpu { s.cpu with g := t.cpu.g, fpstat := t.cpu.fpstat } ∧ SameMemory s t

/-- Only p[r] is written, and FPSTAT takes more flags. -/
def WritesPF (s t : State) (r : BitVec 3) (b : Bool) (fl : FpFlags) : Prop :=
  t.p r = (if r = 0 then true else b) ∧ (∀ x, x ≠ r → t.p x = s.p x) ∧ t.cpu.fpstat = s.cpu.fpstat ||| fl ∧
  t = s.setCpu { s.cpu with p := t.cpu.p, fpstat := t.cpu.fpstat } ∧ SameMemory s t

/-! ## Operands as the manual words them -/

/-- B of a scalar-slot operation (R284). -/
def slotB (s : State) (f : SlotS) : W64 :=
  if f.sx.getLsbD 3 then BitVec.ofNat 64 f.sb.toNat else s.g f.sb

/-- The 128-bit value of a register pair, the low half in the first register (R286). -/
def pairNat (s : State) (r : BitVec 5) : Nat := (s.g r).toNat + 2 ^ 64 * (s.g (r + 1)).toNat

/-- BQ of a scalar-slot operation (R284). -/
def slotBQ (s : State) (f : SlotS) : Nat := if f.sx.getLsbD 3 then f.sb.toNat else pairNat s f.sb

/-- The low and high words of a 128-bit number. -/
def lowWord (n : Nat) : W64 := BitVec.ofNat 64 n
def highWord (n : Nat) : W64 := BitVec.ofNat 64 (n / 2 ^ 64)

/-- Cond of R289 on numbers: unsigned values, their signed readings at w bits. -/
def condOf (c : BitVec 3) (w a b : Nat) : Bool :=
  let sg (n : Nat) : Int := if n < 2 ^ (w - 1) then n else n - 2 ^ w
  match c.toNat with
  | 0 => a = b
  | 1 => a ≠ b
  | 2 => sg a < sg b
  | 3 => sg a ≥ sg b
  | 4 => a < b
  | 5 => a ≥ b
  | 6 => Nat.land a b ≠ 0
  | _ => Nat.land a b = 0

/-- I32 of R291 as a number. -/
def immInt (f : La) : Int := f.imm.toInt

/-- The exact value of a finite floating-point value. -/
def FVal.rat : FVal → Option ℚ
  | .fin n m e => some ((if n then -1 else 1) * m * (2 : ℚ) ^ e)
  | _ => none

/-- The integer that x rounds to by a mode (R163): 0 the nearest, and of two the even one; 1 toward zero; 2 down; 3 up. -/
def RoundsTo (mode : BitVec 2) (x : ℚ) (i : Int) : Prop :=
  match mode.toNat with
  | 0 => |x - i| < 1 / 2 ∨ (|x - i| = 1 / 2 ∧ i % 2 = 0)
  | 1 => i = if 0 ≤ x then ⌊x⌋ else ⌈x⌉
  | 2 => i = ⌊x⌋
  | _ => i = ⌈x⌉

/-- A value as an integer between lo and hi (R172): rounded by the mode, clamped, 0 for a NaN; NV for a NaN or a clamped value,
else NX for an inexact one. -/
def IntegerOf (mode : BitVec 2) (lo hi : Int) (v : FVal) (r : Int × FpFlags) : Prop :=
  match v with
  | .nan _ => r = (0, fNV)
  | .inf n => r = (if n then lo else hi, fNV)
  | .fin _ _ _ => ∃ x i, v.rat = some x ∧ RoundsTo mode x i ∧
      r = if i < lo then (lo, fNV) else if hi < i then (hi, fNV) else (i, if x = i then 0 else fNX)

/-- v stands for x wherever it is rounded once to at most 53 bits: it is x, or an odd multiple of a unit, at least 2^60 of it,
less than a unit from x. -/
def StandsFor (v : FVal) (x : ℚ) : Prop :=
  v.rat = some x ∨ ∃ (m : Nat) (e : Int), v = .fin (decide (x < 0)) m e ∧ m % 2 = 1 ∧ 2 ^ 60 ≤ m ∧
    ((m : ℚ) - 1) * 2 ^ e < |x| ∧ |x| < (m + 1) * 2 ^ e

/-- v stands so for the positive square root of x. -/
def StandsForRoot (v : FVal) (x : ℚ) : Prop :=
  (∃ y, v.rat = some y ∧ 0 ≤ y ∧ y ^ 2 = x) ∨ ∃ (m : Nat) (e : Int), v = .fin false m e ∧ m % 2 = 1 ∧ 2 ^ 60 ≤ m ∧
    (((m : ℚ) - 1) * 2 ^ e) ^ 2 < x ∧ x < ((m + 1) * 2 ^ e) ^ 2

/-- r is the code, and the flags, of a nonzero x rounded once by the mode to a format whose codes `decode` reads (R163, R165,
R167): to the format's precision, but no finer than its least subnormal; a result of `limit` or more overflows and gives
`beyond`. NX for an inexact result, and UF with it where the result of an unlimited exponent lies below the least normal. -/
def RoundedTo (F : FFmt) (decode : Nat → FVal) (limit : ℚ) (beyond : Nat × FpFlags) (mode : BitVec 2) (x : ℚ)
    (r : Nat × FpFlags) : Prop :=
  ∃ i e j d : Int,
    let y : ℚ := i * 2 ^ e
    let z : ℚ := j * 2 ^ d
    F.emin ≤ e ∧ (e = F.emin ∨ (2 : ℚ) ^ (F.p - 1 + e) ≤ |x|) ∧ |x| < (2 : ℚ) ^ (F.p + e) ∧ RoundsTo mode (x / 2 ^ e) i ∧
    (2 : ℚ) ^ (F.p - 1 + d) ≤ |x| ∧ |x| < (2 : ℚ) ^ (F.p + d) ∧ RoundsTo mode (x / 2 ^ d) j ∧
    if limit ≤ |y| then r = beyond
    else (decode r.1).rat = some y ∧ (decode r.1).neg? = decide (x < 0) ∧ r.1 < 2 ^ F.width ∧
      r.2 = if x = y then 0 else if |z| < (2 : ℚ) ^ (F.emin + F.p - 1) then fNX ||| fUF else fNX

/-- Does an overflow in this mode give an infinity (R171)? -/
def toInfinity (mode : BitVec 2) (neg : Bool) : Bool := mode = 0 || (mode = 2 && neg) || (mode = 3 && !neg)

/-- The code of a reduction's element 0 and its flags, out of the tree of R320: level l + 1 combines element i of level l with
the one half a level further. -/
def TreeGives (f : Nat → Nat → Nat × FpFlags) (start : List (Nat × FpFlags)) (r : Nat × FpFlags) : Prop :=
  ∃ x : Nat → Nat → Nat × FpFlags, (∀ i, x 0 i = start.getD i (0, 0)) ∧
    (∀ l h i, h * 2 ^ (l + 1) = start.length → i < h →
      let v := f (x l i).1 (x l (i + h)).1
      x (l + 1) i = (v.1, v.2 ||| (x l i).2 ||| (x l (i + h)).2)) ∧
    ∃ n, start.length = 2 ^ n ∧ r = x n 0

/-- Twice the value of a grid code of E2M1 (R174). -/
def gridTwice (c : Nat) : Int :=
  (if 8 ≤ c then -1 else 1) * ([0, 1, 2, 3, 4, 6, 8, 12].getD (c % 8) 0 : Int)

/-- c is the grid code nearest u; of two, the one with mantissa 0 (R175). -/
def NearestGrid (u : ℚ) (c : Nat) : Prop :=
  c < 16 ∧ c ≠ 8 ∧ ∀ b, b < 16 → b ≠ 8 → b ≠ c → |u - gridTwice c / 2| < |u - gridTwice b / 2| ∨
    (|u - gridTwice c / 2| = |u - gridTwice b / 2| ∧ c % 2 = 0)

/-- The format that x[0] selects (R293). -/
def scalarFmt (f : Lb) : FFmt := if f.x.getLsbD 0 then .f64 else .f32

/-- The operand's code: bits [31:0] at FP32, the whole register at FP64 (R293). -/
def scalarCode (s : State) (f : Lb) (r : BitVec 5) : Nat := (s.g r).toNat % 2 ^ (scalarFmt f).width

def scalarVal (s : State) (f : Lb) (r : BitVec 5) : FVal := (scalarFmt f).decode (scalarCode s f r)

/-- The conditions of R295. -/
def fcondOf (c : Nat) (a b : FVal) : Bool :=
  let un := a.isNan || b.isNan
  let le := a.lt b || a.eqv b
  match c with
  | 0 => !un && a.eqv b
  | 1 => !un && a.lt b
  | 2 => !un && le
  | 3 => un
  | 4 => un || !a.eqv b
  | 5 => un || !a.lt b
  | 6 => un || !le
  | _ => !un

/-! ## Encodings of one operation -/

/-- The scalar-slot operation of number n is c, and its fields raise no decode reason exactly where `ok` holds (R257,
R258). -/
def SlotCode (n : Nat) (c : SlotS → Instr) (ok : SlotS → Prop) : Prop :=
  ∀ e f, scalarOfOp n f = some (c f) ∧ (c f).scalarCode = some (n, f) ∧ ((c f).wf e = true ↔ ok f)

/-- The long operation of number n in the LA layout is c; its fields raise no decode reason exactly where `ok` holds, and
code 34 elsewhere (R257, R260). -/
def LongCode (n : Nat) (c : La → Instr) (ok : La → Prop) : Prop :=
  ∀ e f, (c f).longCode = some (n, f.bits) ∧ (∀ w, fld w 0 50 = f.bits → longOfOp n w = some (c f)) ∧
    ((c f).wf e = true ↔ ok f) ∧ (¬ok f → slotResult e 2 (some (c f)) = .error 34)

/-- Does a register begin a pair (R250)? -/
def evenReg (r : BitVec 5) : Prop := r.toNat % 2 = 0

/-! ## Stops and exceptions -/

/-- Nothing but core c's state differs, apart from the release events of its agents: the release numbers, and the events
that wait for writes of theirs (R97). -/
def OnlyCore (s t : State) (c : CoreId) : Prop :=
  t = { s with cores := s.cores.set c.val (t.core c), seqs := t.seqs, stamp := t.stamp, releases := t.releases } ∧ SameMemory s t

/-- Core c stops (R220 to R223): its trap is held with this cause, fault address and detail word, its next word is at
`next`, and every register stands as before. A debug halt makes the watchdog stand still. -/
def Stops (s t : State) (c : CoreId) (cls : StopClass) (cause : Nat) (addr detail next : W64) : Prop :=
  t.core c = { s.core c with
    held := some ⟨cls, cause, addr, detail, false, none, []⟩
    x := { (s.core c).x with npc := next }
    dog := if cause = 327 then s.us - (s.core c).dog else (s.core c).dog } ∧ OnlyCore s t c

/-- The detail word of a cause that core c's CP raises outside group 2 (R223): its agent, queue 7, position 0. -/
def cpDetail (c : CoreId) : W64 := BitVec.ofNat 64 (8 * c.val + 7 * 2 ^ 12)

/-- System core k takes an exception with IE = 1 (R407): SEPC, SCAUSE, SFADDR, PIE and IE, and the next word at the
entry address; nothing else changes. -/
def Enters (s t : State) (k : SysId) (cause : Nat) (addr ret : W64) : Prop :=
  t = s.setSys k { s.sysCore k with
    sepc := fld ret 3 61, scause := BitVec.ofNat 10 cause, sfaddr := addr, pie := true, ie := false
    x := { (s.sysCore k).x with npc := (s.sysCore k).svec ++ (0 : BitVec 3), fetched := [], blocked := none } } ∧ SameMemory s t

/-- A transfer: the next word is at `target`, words fetched ahead are discarded (R71), and nothing else changes but
general registers. -/
def TransfersTo (s t : State) (target : W64) : Prop :=
  t = s.setCpu { s.cpu with g := t.cpu.g, npc := target, fetched := [] } ∧ SameMemory s t

/-- Every general register reads as before, but r, which takes v. -/
def GBut (s t : State) (r : BitVec 5) (v : W64) : Prop :=
  t.g r = (if r = 0 then 0 else v) ∧ ∀ x, x ≠ r → t.g x = s.g x

/-! ## Accesses to memory -/

/-- t is u but for what every access may change beside its effect: cached translations, resident lines and their
replacement order, the counts of telemetry and regulators, the requests that these hold, writer tags, full/empty bits, release numbers, and what agents know. -/
def AccessFrame (u t : State) : Prop :=
  t = { u with
    tlb := t.tlb, walkCache := t.walkCache, lines := t.lines, plru := t.plru, events := t.events, regulators := t.regulators
    requests := t.requests, tags := t.tags, full := t.full
    seqs := t.seqs, stamp := t.stamp, know := t.know, sync := t.sync, seen := t.seen, fences := t.fences }

/-- The address of an LM word (R329): g[a] and the signed displacement, modulo 2^64. -/
def accessAddr (s : State) (f : Lm) : W64 := BitVec.ofInt 64 ((s.g f.a).toNat + f.imm.toInt)

/-- An access of n bytes can be performed now: it is aligned where its order asks for that (R330), the earlier writes
of a releasing agent are acknowledged (R97), its address translates, into the parts ps, and no part waits, meets
a race or bad data, no version overflows and no regulator holds it. -/
def Reaches (s : State) (va : W64) (o : BitVec 3) (k : Kind) (fe : Bool) (acc : Access) (read write : Bool) (n : Nat)
    (ps : List Part) : Prop :=
  (o ≠ 0 → va.toNat % n = 0) ∧ (orderReleases o.toNat → s.acked s.agent) ∧
  ∃ u v, translateRows s.who k fe [(va, n)] (if orderReleases o.toNat then s.release s.agent else s) = .ok (ps, u) ∧
    checkParts s.who acc read write ps u = .ok ((), v)

/-- A load or store of an LM word can be performed now. -/
def LmReaches (s : State) (f : Lm) (k : Kind) (write : Bool) (n : Nat) (ps : List Part) : Prop :=
  Reaches s (accessAddr s f) f.order k (f.fe ≠ 0) ⟨f.order ≠ 0, false, f.fe.toNat, none, false⟩ (!write) write n ps

/-- An atomic read-modify-write of n bytes can be performed now. -/
def AtomicReaches (s : State) (f : Lm) (n : Nat) (ps : List Part) : Prop :=
  Reaches s (accessAddr s f) f.order .atomic false ⟨true, true, 0, none, false⟩ true true n ps

/-- The bytes that the parts hold, as the access of an LM word sees them: through the version of its core (R230). -/
def heldBytes (s : State) (acc : Access) (ps : List Part) : List Byte :=
  ps.flatMap fun p => s.partBytes (versionOf s s.who.agent acc p) p

/-- The byte that a write of bs over the parts stores at home a, in a version or in memory itself: none where it stores none
there. A part of an FBC page or of a trap window stores nothing there itself. -/
def storedIn (s : State) (acc : Access) (ver : Option CoreId) : List Part → List Byte → Nat → Option Byte
  | [], _, _ => none
  | p :: r, bs, a => (storedIn s acc ver r (bs.drop p.len) a).or
      (match p.home with
       | .plain h => if versionOf s s.who.agent acc p = ver ∧ h ≤ a then (bs.take p.len)[a - h]? else none
       | _ => none)

/-- The byte that a write of bs over the parts stores in memory at home a. -/
def storedAt (s : State) (acc : Access) (ps : List Part) (bs : List Byte) (a : Nat) : Option Byte := storedIn s acc none ps bs a

/-- What a write of bs over the parts sends to the slices: for each block of each FBC part, the bytes that it names (R148). -/
def storedBlocks (s : State) (acc : Access) : List Part → List Byte → List FbcStore
  | [], _ => []
  | p :: r, bs => (match p.home with
      | .fbc _ off => p.blocks.zipIdx.map fun (e, j) =>
          ⟨e, p.leaf, p.page s.who, s.who.agent, namedBytes off j (bs.take p.len), versionOf s s.who.agent acc p⟩
      | _ => []) ++ storedBlocks s acc r (bs.drop p.len)

/-- Memory after a write of bs over the parts: the stored bytes, and every other byte as before. -/
def Stored (s t : State) (acc : Access) (ps : List Part) (bs : List Byte) : Prop :=
  ∀ a, t.bytes a 1 = [(storedAt s acc ps bs a).getD (tget 0 s.mem a)]

/-- The full/empty bits after an access: its granules take v, where v is given, and every other granule's bit stays. -/
def FullAfter (s t : State) (ps : List Part) (v : Option Bool) : Prop :=
  ∀ a, t.isFull a = (match v with
    | some b => if ps.any (fun p => p.feHomes.contains (a / 16 * 16)) then b else s.isFull a
    | none => s.isFull a)

/-- A store leaves every register, flag and engine as before: of a core only its version and a handler's edits of its
trap window can change. -/
def StoreFrame (s t : State) : Prop :=
  AccessFrame { s with mem := t.mem, flaws := t.flaws, fbcStores := t.fbcStores, cores := t.cores, actions := t.actions } t ∧
  ∀ c, t.core c = { s.core c with piece := (t.core c).piece, held := (t.core c).held }

/-- Where a write of bs over the parts goes: memory, the versions of cores, the slices that hold the blocks of FBC pages, and
in a trap window the bytes that a handler may write, or the action word. Nothing else is stored, and the granules' bits take
`full`, where it is given. -/
def Lands (s t : State) (acc : Access) (ps : List Part) (bs : List Byte) (full : Option Bool) : Prop :=
  Stored s t acc ps bs ∧ FullAfter s t ps full ∧ t.fbcStores = s.fbcStores ++ storedBlocks s acc ps bs ∧
  (∀ c a, (t.core c).piece.bind (fun q => tfind q.vbytes a) =
    (storedIn s acc (some c) ps bs a).or ((s.core c).piece.bind fun q => tfind q.vbytes a)) ∧
  ∀ p c o h, ps = [p] → p.home = .window c o → (s.core c).held = some h →
    (∀ i < bs.length, t.windowRead c (o + i) 1 = if windowWritable (o + i) then
      [((bs.getD i 0) &&& windowMask (o + i)) ||| (if o + i = 0x200 then 1 else 0)] else s.windowRead c (o + i) 1) ∧
    t.actions = (if o = 0xFF00 ∧ bs.length = 8 then s.actions ++ [(c, BitVec.ofNat 64 (leNat bs))]
      else if o < 0xFF08 ∧ 0xFF00 < o + bs.length then t.actions else s.actions)

/-- The number that bytes hold, as a signed number of n bytes. -/
def signedNat (n : Nat) (v : Nat) : Int := if v < 2 ^ (8 * n - 1) then v else v - 2 ^ (8 * n)

/-! ## Vector operations and tiles -/

/-- The tiles that an instruction reads and writes let it go on (R308, R242): no bank is gated, a tile that is read is
full, a tile that is only written is empty, and none is in a switch transfer. -/
def TilesReady (s : State) (reads writes : List Nat) : Prop :=
  (∀ t ∈ reads ++ writes, s.tilePower s.here t ≠ 2) ∧
  (∀ t ∈ reads, s.tileFull s.here t = true ∧ s.tileBusy s.here t = false) ∧
  ∀ t ∈ writes, t ∈ reads ∨ (s.tileFull s.here t = false ∧ s.tileBusy s.here t = false)

/-- The banks of the tiles that are accessed wake from retention, their contents intact (R242). -/
def woken (s : State) (ts : List Nat) : State :=
  s.modHere fun k => { k with
    power := Vector.ofFn fun b => if k.power[b.val] = 1 ∧ ts.any (fun t => t % 8 = b.val) then 0 else k.power[b.val] }

/-- The vector operation runs once its tiles are ready, on every type that it accepts, and its effect is `effect` on the
state with their banks awake. -/
def VecRuns (i : Instr) (op : VecOp) (v : VecArgs) (readsD : Bool) (effect : State → State) (s : State) : Prop :=
  let tiles := vecTiles op v readsD
  op.accepts v = true → TilesReady s tiles.1 tiles.2 → Completes i s (fun t => t = effect (woken s (tiles.1 ++ tiles.2)) ∧ SameMemory s t)

/-- Results and flags, element by element: the flags of all elements combine by OR (R309). -/
def writeResults (s : State) (ty : Nat) (d : Option Spec) (rs : List (Nat × FpFlags)) : State :=
  (s.writeElems ty d (rs.map fun r => r.1)).addFlags (rs.foldl (fun f r => f ||| r.2) 0)

/-- Bits of an integer element, the integer it holds, and an exact integer narrowed to it by R311. -/
def elemBits (ty : Nat) : Nat := if ty = 6 then 8 else 32
def elemValue (ty c : Nat) : Int := if ty = 2 ∨ c < 2 ^ (elemBits ty - 1) then c else c - 2 ^ elemBits ty
def narrowed (ty : Nat) (sat : Bool) (x : Int) : Nat × FpFlags :=
  let w := elemBits ty
  let lo : Int := if ty = 2 then 0 else -2 ^ (w - 1)
  let hi : Int := if ty = 2 then 2 ^ w - 1 else 2 ^ (w - 1) - 1
  if sat = true ∧ x < lo then ((lo % 2 ^ w).toNat, fSAT)
  else if sat = true ∧ hi < x then ((hi % 2 ^ w).toNat, fSAT)
  else ((x % 2 ^ w).toNat, 0)

/-- A floating-point result rounded once, with the flags of R165. -/
def floated (ty : Nat) (rnd : BitVec 2) (r : FVal × Bool) (operands : List FVal) : Nat × FpFlags :=
  let c := (fmtFloat ty).round rnd r.1
  (c.1, c.2 ||| flagIf r.2 fNV ||| sigFlag operands)

/-- Is the type one of INT32, UINT32 and INT8? -/
def isIntType (ty : Nat) : Bool := ty = 1 || ty = 2 || ty = 6

/-- Apply a function to element i of two or three operands, for every i (R305). -/
def elements2 (s : State) (v : VecArgs) (f : Nat → Nat → Nat × FpFlags) : List (Nat × FpFlags) :=
  List.zipWith f (s.specElems v.ty.toNat v.a) (s.specElems v.ty.toNat v.b)
def elements3 (s : State) (v : VecArgs) (c : Option Spec) (f : Nat → Nat → Nat → Nat × FpFlags) : List (Nat × FpFlags) :=
  List.zipWith (fun g x => g x) (List.zipWith f (s.specElems v.ty.toNat v.a) (s.specElems v.ty.toNat v.b))
    (s.specElems v.ty.toNat c)

/-! ## Cells -/

/-- What a source of a cell's operation reads in iteration n of loop l (R389, R390, R271). A neighbour's result register holds
its latest result that is ready, and shows it where its own word's bit toward the reader is set. -/
def sourceReads (s : State) (c : CoreId) (l : GridLoop) (cell n : Nat) (f : CellWord) (src : Nat) : Lanes :=
  let zeros : Lanes := Vector.replicate 8 0
  let latest (m : Nat) : Lanes :=
    (((l.results.filter fun r => r.cell = m && r.ready ≤ l.clock).map fun r => r.lanes).getLast?).getD zeros
  let side (inside : Bool) (m bit : Nat) : Lanes :=
    if inside && (imageCell (s.core c) l.ver m).getLsbD bit then latest m else zeros
  match src with
  | 0 => side (8 ≤ cell) (cell - 8) 43
  | 1 => side (cell % 8 ≠ 7) (cell + 1) 42
  | 2 => side (cell < 56) (cell + 8) 45
  | 3 => side (cell % 8 ≠ 0) (cell - 1) 44
  | 4 => latest cell
  | 5 => Vector.ofFn fun x => s.read32 (laneHome c cell f.slice.toNat x.val)
  | 6 => Vector.replicate 8 (if f.ctype = 1 then f.imm.signExtend 32 else if f.ctype = 2 then f.imm ++ f.imm
      else f.imm ++ (0 : BitVec 16))
  | 12 => Vector.replicate 8 (BitVec.ofNat 32 (l.first + n))
  | 7 => zeros
  | p => (((l.tokens.filter fun t => t.1 = n && t.2.1 = p - 8).map fun t => t.2.2).head?).getD zeros

/-- A cell operation of iteration n gives its lanes at its ready cycle, with slice writes, and a token where its result
goes to an out port; of the core only the loop and the arithmetic reports of the grid's queue change (R387 to
R394). -/
def CellGives (s t : State) (c : CoreId) (l : GridLoop) (cell n lat : Nat) (f : CellWord) (lanes : Lanes)
    (writes : List (List Nat × Lanes)) : Prop :=
  let out := imageOut (imageHead (s.core c) l.ver)
  let goes : Prop := cell % 8 = 7 ∧ f.outm.getLsbD 0 = true ∧ out.getLsbD (cell / 32) = true
  (t.core c).loops = ((s.core c).loops.map fun (x : GridLoop) => if x.ver = l.ver then { x with
      results := x.results ++ [⟨cell, l.clock + lat, lanes⟩]
      slices := x.slices ++ writes.map fun w => ⟨cell, l.clock + lat, w.1, w.2⟩
      pushes := x.pushes ++ if goes then [(l.clock + lat, n, cell / 8, decide (4 ≤ cell / 8), lanes)] else [] } else x) ∧
  t = s.setCore c { s.core c with loops := (t.core c).loops, queues := (t.core c).queues } ∧
  (∀ q, (t.core c).queue q = { (s.core c).queue q with stat := { ((s.core c).queue q).stat with arith := ((t.core c).queue q).stat.arith } }) ∧
  (∀ q, q ≠ .grid → (t.core c).queue q = (s.core c).queue q) ∧ SameMemory s t

/-! ## Accesses of engines -/

/-- The n bytes at va lie whole in one plain part for an accessor's accesses of kind k: at home h, outside every version, and for
writes not on an E2M1 page, whose padding stays zero (R173). -/
def PlainAt (s : State) (w : Who) (k : Kind) (va : W64) (n h : Nat) : Prop :=
  ∃ p t, translateRows w k false [(va, n)] s = .ok ([p], t) ∧ p.home = .plain h ∧ p.len = n ∧ (k = .engWrite → p.fmt ≠ 5) ∧
    versionOf s w.agent {} p = none

/-- An engine reads ranges one after the other. -/
def ReadsAll (w : Who) (k : Kind) (item : Nat) : List (W64 × Nat) → State → List (List Byte) → State → Prop
  | [], s, out, u => out = [] ∧ u = s
  | (va, n) :: r, s, out, u => ∃ bs v rest, engineRead w k item va n s = .ok (bs, v) ∧ bs.length = n ∧
      ReadsAll w k item r v rest u ∧ out = bs :: rest

/-- An engine writes chunks of bytes one after the other. -/
def WritesAll (w : Who) (item : Nat) : List (W64 × List Byte) → State → State → Prop
  | [], s, u => u = s
  | (va, bs) :: r, s, u => ∃ v, engineWrite w item [] va bs s = .ok ((), v) ∧ WritesAll w item r v u

/-- The elements of a gather from base: for element k, its 32-bit index at index + 4k, then m bytes from byte o of the element of
that index (R380). -/
def GatherReads (w : Who) (item : Nat) (base index : W64) (e : Nat) : List (Nat × Nat × Nat) → State → List Byte → State → Prop
  | [], s, out, u => out = [] ∧ u = s
  | (k, o, m) :: r, s, out, u => ∃ ib v bs x rest, engineRead w .engRead item (index + BitVec.ofNat 64 (4 * k)) 4 s = .ok (ib, v) ∧
      engineRead w .engRead item (base + BitVec.ofNat 64 (leNat ib * e + o)) m v = .ok (bs, x) ∧
      GatherReads w item base index e r x rest u ∧ out = bs ++ rest

/-- The bytes that bytes [off, off + n) of a row of a copy command take (R379, R380). -/
def CopyBrings (w : Who) (item : Nat) (d : Cmd) (row off n : Nat) (s : State) (bs : List Byte) (u : State) : Prop :=
  match d.instr with
  | .xfCopy _ => engineRead w .engRead item (d.op 1 + BitVec.ofNat 64 off) n s = .ok (bs, u)
  | .xfCopy2d _ => engineRead w .engRead item
      (d.op 1 + BitVec.ofNat 64 row * (fld (d.op 3) 0 32).signExtend 64 + BitVec.ofNat 64 off) n s = .ok (bs, u)
  | .xfFill _ => u = s ∧ bs = (List.range n).map fun b => fld (d.op 3) (8 * ((off + b) % 8)) 8
  | .xfGather f =>
    let e := 2 ^ (fld f.w1 24 3).toNat
    GatherReads w item (d.op 1) (d.op 3) e ((List.range ((off + n - 1) / e - off / e + 1)).map fun i =>
      let k := off / e + i
      (k, max off (k * e) - k * e, min (off + n) ((k + 1) * e) - max off (k * e))) s bs u
  | _ => False

/-- The rows of a copy command, the bytes of a row, and the stride of its destination (R379). -/
def copyShape (d : Cmd) : Nat × Nat × W64 :=
  match d.instr with
  | .xfCopy2d _ => ((fld (d.op 2) 32 32).toNat, (fld (d.op 2) 0 32).toNat, (fld (d.op 3) 32 32).signExtend 64)
  | .xfGather f => (1, (fld (d.op 2) 0 32).toNat * 2 ^ (fld f.w1 24 3).toNat, 0)
  | _ => (1, (fld (d.op 2) 0 32).toNat, 0)

/-! ## Matrix and scan -/

/-- The integer that an INT8 element stands for. -/
def wholeValue : FVal → Int
  | .fin n m _ => if n then -(m : Int) else m
  | _ => 0

/-- An accumulator after n groups of eight products of a row's and a column's elements (R184, R185). -/
def accumulated (int : Bool) (acc : BitVec 48) (n : Nat) (a b : List FVal) : BitVec 48 :=
  (List.range n).foldl (fun acc g =>
    let ps := ((a.drop (8 * g)).take 8).zip ((b.drop (8 * g)).take 8)
    if int then (intAdd acc (ps.map fun p => wholeValue p.1 * wholeValue p.2).sum).1 else a48Add acc (groupSum ps)) acc

/-- The bytes of an accumulator's value in a destination format: rounded once by RNE, clamped to an integer format (R378). -/
def DrainsTo (int sat : Bool) (fmt : Nat) (v : FVal) (bs : List Byte) : Prop :=
  let whole (n : Nat) (lo hi : Int) : Prop := ∃ i fl, IntegerOf 0 lo hi v (i, fl) ∧ bs = leBytes n (i % 2 ^ (8 * n)).toNat
  match fmt with
  | 0 => if int then whole 4 (-2 ^ 31) (2 ^ 31 - 1) else bs = leBytes 4 (FFmt.f32.round 0 v).1
  | 1 => bs = leBytes 4 (FFmt.f32.round 0 v).1
  | 2 => bs = leBytes 2 (FFmt.bf16.round 0 v).1
  | 3 => bs = leBytes 1 (roundE4M3 0 sat v).1
  | 4 => bs = leBytes 1 (roundE5M2 0 sat v).1
  | 6 => whole 1 (-128) 127
  | 10 => bs = leBytes 8 (FFmt.f64.round 0 v).1
  | _ => False

/-- Row i of a drain: its accumulators one after the other. -/
def RowDrains (k : Core) (sat : Bool) (fmt i cols : Nat) (bs : List Byte) : Prop :=
  ∃ x : Nat → List Byte, (∀ j < cols, DrainsTo k.accInt sat fmt
    (if k.accInt then FVal.ofInt (tget 0 k.acc (128 * i + j)).toInt else FFmt.a48.decode (tget 0 k.acc (128 * i + j)).toNat) (x j)) ∧
    bs = (List.range cols).flatMap x

/-- Element i of operator j after d levels of a scan (R188): from 2^d on, every operator is combined with the one 2^d before it,
as the level before left both. -/
def scanOp (fade : W64) (op : Nat → Nat → ScanOp) : Nat → Nat → Nat → ScanOp
  | 0, j, i => op j i
  | d + 1, j, i => if 2 ^ d ≤ j then (combine fade (scanOp fade op d j i) (scanOp fade op d (j - 2 ^ d) i)).1 else scanOp fade op d j i

/-- The state of element i of operator j: the carry is applied last, as the b part of an operator with a = 1 (R188). -/
def scanState (fade : W64) (op : Nat → Nat → ScanOp) (carry : Nat → Lane × Lane) (levels j i : Nat) : Lane × Lane :=
  (combine fade (scanOp fade op levels j i) (0x3F800000, carry i)).1.2

/-- The FP32 code at byte o of bytes, and a pair as bytes. -/
def laneOf (bs : List Byte) (o : Nat) : Lane := BitVec.ofNat 32 (leNat ((bs.drop o).take 4))
def pairOut (p : Lane × Lane) : List Byte := leBytes 4 p.1.toNat ++ leBytes 4 p.2.toNat

/-- b element i of bytes, FP32 or a pair (R371). -/
def inputOf (bcf : Bool) (bs : List Byte) (i : Nat) : Lane × Lane :=
  if bcf then (laneOf bs (8 * i), laneOf bs (8 * i + 4)) else (laneOf bs (4 * i), 0)

/-- Pair i of the carry register. -/
def carryAt (k : Core) (i : Nat) : Lane × Lane := (tget 0 k.carry (2 * i), tget 0 k.carry (2 * i + 1))

/-! ## Pieces -/

/-- Core c begins a new piece of node n of run ii of launch li over [lo, hi), in the entry state of R197 (R193, R206): the piece
takes the node's next number and is counted at the core (R217), its in-operands begin to load (R198), and what R197 does not
list keeps its value. -/
def BeginsPiece (s t : State) (c : CoreId) (li ii n : Nat) (lo hi : W64) (sid : Option (BitVec 24)) : Prop :=
  ∃ l l' x i q, s.launches[li]? = some l ∧ t.launches[li]? = some l' ∧ l.nodes[n]? = some x ∧ l.insts[ii]? = some i ∧
    let number := i.made.getD n 0
    let k := t.core c
    let old := s.core c
    tget 0 l'.byCore c.val = tget 0 l.byCore c.val + 1 ∧
    k.piece = some q ∧ q.launch = li ∧ q.inst = ii ∧ q.node = n ∧ q.number = number ∧ q.lo = lo ∧ q.session.map (·.1) = sid ∧
    k.x = { old.x with
      pc := x.entry, npc := x.entry, blocked := none, fetched := [], ticket := none, reply := none, pushing := false
      g := ((Vector.replicate 32 (0 : W64)).set 2 (0xFFFFF00000000000 + l.stack)).set 3 (l.graph + BitVec.ofNat 64 (128 * n))
      p := Vector.replicate 8 false } ∧
    k.v = Vector.replicate 8 (Vector.replicate 16 0) ∧ k.lat = Vector.replicate 16 0 ∧
    k.taskId = l.number ++ BitVec.ofNat 16 n ++ BitVec.ofNat 32 number ∧ k.rangeLo = lo ∧ k.rangeHi = hi ∧
    (match sid with
     | none => k.session = 0
     | some z => fld k.session 0 24 = z ∧ k.session.getLsbD 32 = true) ∧
    k.flags = old.flags ∧ k.fade = old.fade ∧ k.run = .run ∧ (x.opnds = [] → k.held = none ∧ k.tiles = old.tiles)

/-- Can the running piece of core v be split for core c: c may run the node, and at least 2 × max(GRAIN, 1) indices are left
(R206)? -/
def Splittable (s : State) (c v : CoreId) : Prop :=
  ∃ q l n, (s.core v).piece = some q ∧ s.launches[q.launch]? = some l ∧ l.nodes[q.node]? = some n ∧
    s.mayRun c l = true ∧ s.dieOk c l q.node = true ∧ 2 * max n.grain 1 ≤ (s.core v).rangeHi.toNat - (s.core v).rangeLo.toNat

/-- Core v runs the largest range on a die that can be split for core c; of equal ones, the lower core's (R206). -/
def LargestRange (s : State) (c : CoreId) (die : Bool) (v : CoreId) : Prop :=
  let left (w : CoreId) : Nat := (s.core w).rangeHi.toNat - (s.core w).rangeLo.toNat
  decide (coreDie v = 1) = die ∧ Splittable s c v ∧
  ∀ w, decide (coreDie w = 1) = die → Splittable s c w → left w < left v ∨ (left w = left v ∧ v ≤ w)

/-- The piece of core v is split for core c: v keeps the first half of what is left, an odd index over, and c begins a piece
of the rest (R206). -/
def SplitsFor (s t : State) (v c : CoreId) : Prop :=
  ∀ q l i, (s.core v).piece = some q → s.launches[q.launch]? = some l → l.insts[q.inst]? = some i →
    (∀ z, i.session = some z → (s.session l.part z).isSome = true) →
    let cur := (s.core v).rangeLo
    let hi := (s.core v).rangeHi
    let mid := cur + BitVec.ofNat 64 ((hi.toNat - cur.toNat + 1) / 2)
    BeginsPiece s t c q.launch q.inst q.node mid hi i.session ∧ t.core v = { s.core v with rangeHi := mid } ∧
    ∀ d, d ≠ c → d ≠ v → t.core d = s.core d

/-- Core c takes the node of a pool entry, over its whole range: of a session's step once its slate can be brought (R203, R210). -/
def TakesNode (s t : State) (c : CoreId) (r : Ready) : Prop :=
  ∀ l i x, s.launches[r.launch]? = some l → l.insts[r.inst]? = some i → l.nodes[r.node]? = some x →
    (i.session = none → t.pool = s.pool.erase r ∧ BeginsPiece s t c r.launch r.inst r.node x.lo x.hi none ∧
      ∀ d, d ≠ c → t.core d = s.core d) ∧
    ∀ z y b u, i.session = some z → s.session l.part z = some y → s.bringSlate c l.part y = some (b, u) →
      t.pool = s.pool.erase r ∧ BeginsPiece s t c r.launch r.inst r.node x.lo x.hi (some z) ∧
      (u.slateAt l.part (s.sessionAddr l.part z) = some (c, b) → (t.core c).session.getLsbD 31 = b)

/-! ## Flags of a core -/

/-- The amount of a flag operation (R5, R343). -/
def flagAmount (s : State) (f : Ls) : Nat :=
  if f.a = 0 then f.count.toNat / 16 * 4 ^ (f.count.toNat % 16) else (s.g f.a).toNat % 2 ^ 32

/-- Only flag f of core c differs, and it is v. -/
def WritesFlag (s t : State) (c : CoreId) (f : BitVec 8) (v : Flag) : Prop :=
  t = s.setCore c { s.core c with flags := (t.core c).flags } ∧ (t.core c).flag f = v ∧
  (∀ g, g ≠ f → (t.core c).flag g = (s.core c).flag g) ∧ SameMemory s t

/-- Flag v after an addition (R114): the value saturates, and the first agent that saturates it is kept. -/
def flagAdded (v : Flag) (a : Addition) : Flag :=
  { v with
    value := BitVec.ofNat 32 (min (v.value.toNat + a.amount) 0xFFFFFFFF), adds := v.adds ++ [a]
    overflow := if v.value.toNat + a.amount > 0xFFFFFFFF ∧ v.overflow = none then some a.agent else v.overflow }

/-- A release event of an agent (R97): its number rises by 1. -/
def released (s : State) (a : AgentId) : State :=
  { s with seqs := tput 0 s.seqs a.toNat (s.seq a + 1), stamp := s.stamp + 1 }

end Sys2Proof.Machine
end

