-- ==== Sys2Proof/Certificates/Slice0/Obligations.lean ====
section
/-! DEFINITION. The statements for the provers. Each is about every state and every operand that meets its
hypotheses; the predicates they are said with are those of Safety. -/

section

open Sys2Proof Sys2Proof.Machine

/-- R284, R285: the two-operand integer operations and MOV, at every operand form; g0 discards its write. Their numbers, and
which of their fields must be zero. -/
def Obligations.ScalarArithmetic : Prop :=
  SlotCode 0x01 .add (fun f => fld f.sx 0 3 = 0) ∧
  SlotCode 0x02 .sub (fun f => fld f.sx 0 3 = 0) ∧
  SlotCode 0x03 .and (fun f => fld f.sx 0 3 = 0) ∧
  SlotCode 0x04 .or (fun f => fld f.sx 0 3 = 0) ∧
  SlotCode 0x05 .xor (fun f => fld f.sx 0 3 = 0) ∧
  SlotCode 0x06 .andn (fun f => fld f.sx 0 3 = 0) ∧
  SlotCode 0x07 .shl (fun f => fld f.sx 0 3 = 0) ∧
  SlotCode 0x08 .shr (fun f => fld f.sx 0 3 = 0) ∧
  SlotCode 0x09 .sra (fun f => fld f.sx 0 3 = 0) ∧
  SlotCode 0x0A .mul (fun f => fld f.sx 0 3 = 0) ∧
  SlotCode 0x0B .mulh (fun f => fld f.sx 0 3 = 0) ∧
  SlotCode 0x0C .mulhu (fun f => fld f.sx 0 3 = 0) ∧
  SlotCode 0x0D .min (fun f => fld f.sx 0 3 = 0) ∧
  SlotCode 0x0E .max (fun f => fld f.sx 0 3 = 0) ∧
  SlotCode 0x0F .minu (fun f => fld f.sx 0 3 = 0) ∧
  SlotCode 0x10 .maxu (fun f => fld f.sx 0 3 = 0) ∧
  SlotCode 0x11 .mov (fun f => fld f.sx 0 3 = 0 ∧ f.sa = 0) ∧
  ∀ (f : SlotS) (s : State),
    let a := s.g f.sa
    let b := slotB s f
    let n := b.toNat % 64
    Completes (.add f) s (fun t => WritesG s t f.sd (BitVec.ofNat 64 (a.toNat + b.toNat))) ∧
    Completes (.sub f) s (fun t => WritesG s t f.sd (BitVec.ofInt 64 ((a.toNat : Int) - b.toNat))) ∧
    Completes (.and f) s (fun t => WritesG s t f.sd (BitVec.ofNat 64 (Nat.land a.toNat b.toNat))) ∧
    Completes (.or f) s (fun t => WritesG s t f.sd (BitVec.ofNat 64 (Nat.lor a.toNat b.toNat))) ∧
    Completes (.xor f) s (fun t => WritesG s t f.sd (BitVec.ofNat 64 (Nat.xor a.toNat b.toNat))) ∧
    Completes (.andn f) s (fun t => WritesG s t f.sd (BitVec.ofNat 64 (Nat.land a.toNat (2 ^ 64 - 1 - b.toNat)))) ∧
    Completes (.shl f) s (fun t => WritesG s t f.sd (BitVec.ofNat 64 (a.toNat * 2 ^ n))) ∧
    Completes (.shr f) s (fun t => WritesG s t f.sd (BitVec.ofNat 64 (a.toNat / 2 ^ n))) ∧
    Completes (.sra f) s (fun t => WritesG s t f.sd (BitVec.ofInt 64 (a.toInt / 2 ^ n))) ∧
    Completes (.mul f) s (fun t => WritesG s t f.sd (BitVec.ofNat 64 (a.toNat * b.toNat))) ∧
    Completes (.mulh f) s (fun t => WritesG s t f.sd (BitVec.ofInt 64 (a.toInt * b.toInt / 2 ^ 64))) ∧
    Completes (.mulhu f) s (fun t => WritesG s t f.sd (BitVec.ofNat 64 (a.toNat * b.toNat / 2 ^ 64))) ∧
    Completes (.min f) s (fun t => WritesG s t f.sd (BitVec.ofInt 64 (min a.toInt b.toInt))) ∧
    Completes (.max f) s (fun t => WritesG s t f.sd (BitVec.ofInt 64 (max a.toInt b.toInt))) ∧
    Completes (.minu f) s (fun t => WritesG s t f.sd (BitVec.ofNat 64 (min a.toNat b.toNat))) ∧
    Completes (.maxu f) s (fun t => WritesG s t f.sd (BitVec.ofNat 64 (max a.toNat b.toNat))) ∧
    Completes (.mov f) s (fun t => WritesG s t f.sd b)

/-- R286: the 128-bit operations on register pairs; a write to the pair g0:g1 changes g1 only, and an odd
register where a pair is named raises code 4. -/
def Obligations.PairArithmetic : Prop :=
  let even (f : SlotS) : Prop := evenReg f.sd ∧ evenReg f.sa
  let evenB (f : SlotS) : Prop := even f ∧ (f.sx.getLsbD 3 = true ∨ evenReg f.sb)
  SlotCode 0x12 .addq (fun f => fld f.sx 0 3 = 0 ∧ evenB f) ∧ SlotCode 0x13 .shlq (fun f => fld f.sx 0 3 = 0 ∧ even f) ∧
  SlotCode 0x14 .shrq (fun f => fld f.sx 0 3 = 0 ∧ even f) ∧ SlotCode 0x15 .sraq (fun f => fld f.sx 0 3 = 0 ∧ even f) ∧
  (∀ e f, fld f.sx 0 3 = 0 → (¬evenB f → slotResult e 0 (some (.addq f)) = .error 4) ∧ (¬even f →
    slotResult e 0 (some (.shlq f)) = .error 4 ∧ slotResult e 0 (some (.shrq f)) = .error 4 ∧
    slotResult e 0 (some (.sraq f)) = .error 4)) ∧
  ∀ (f : SlotS) (s : State),
    let a := pairNat s f.sa
    let n := if f.sx.getLsbD 3 then f.sb.toNat else (s.g f.sb).toNat % 128
    let signed : Int := if a < 2 ^ 127 then a else a - 2 ^ 128
    let shifted := ((signed / 2 ^ n) % 2 ^ 128).toNat
    Completes (.addq f) s (fun t =>
      WritesPair s t f.sd (lowWord (a + slotBQ s f)) (highWord ((a + slotBQ s f) % 2 ^ 128))) ∧
    Completes (.shlq f) s (fun t => WritesPair s t f.sd (lowWord (a * 2 ^ n)) (highWord (a * 2 ^ n % 2 ^ 128))) ∧
    Completes (.shrq f) s (fun t => WritesPair s t f.sd (lowWord (a / 2 ^ n)) (highWord (a / 2 ^ n))) ∧
    Completes (.sraq f) s (fun t => WritesPair s t f.sd (lowWord shifted) (highWord shifted))

/-- R287, R288: bit counts, and SEL by a predicate. CLZ and CTZ are said by what they count: n leading zero
bits lie above a one bit, or n is 64 and the operand is 0. -/
def Obligations.CountAndSelect : Prop :=
  SlotCode 0x16 .clz (fun f => f.sb = 0 ∧ f.sx = 0) ∧ SlotCode 0x17 .ctz (fun f => f.sb = 0 ∧ f.sx = 0) ∧
  SlotCode 0x18 .popc (fun f => f.sb = 0 ∧ f.sx = 0) ∧ SlotCode 0x19 .sel (fun _ => True) ∧
  ∀ (f : SlotS) (s : State),
    let a := s.g f.sa
    Completes (.clz f) s (fun t => ∃ n, WritesG s t f.sd (BitVec.ofNat 64 n) ∧
      (if a = 0 then n = 64 else n < 64 ∧ 2 ^ (63 - n) ≤ a.toNat ∧ a.toNat < 2 ^ (64 - n))) ∧
    Completes (.ctz f) s (fun t => ∃ n, WritesG s t f.sd (BitVec.ofNat 64 n) ∧
      (if a = 0 then n = 64 else n < 64 ∧ a.toNat % 2 ^ n = 0 ∧ a.toNat / 2 ^ n % 2 = 1)) ∧
    Completes (.popc f) s (fun t =>
      WritesG s t f.sd (BitVec.ofNat 64 ((List.range 64).countP fun i => a.toNat / 2 ^ i % 2 = 1))) ∧
    Completes (.sel f) s (fun t =>
      WritesG s t f.sd (if Bool.xor (s.p (fld f.sx 0 3)) (f.sx.getLsbD 3) then a else s.g f.sb))

/-- R289, R290: comparisons and logic into a predicate; p0 discards its write. SNOP does nothing. -/
def Obligations.PredicateResults : Prop :=
  let high (f : SlotS) : Prop := fld f.sd 3 2 = 0 ∧ fld f.sa 3 2 = 0
  let evenAB (f : SlotS) : Prop := evenReg f.sa ∧ (f.sx.getLsbD 3 = true ∨ evenReg f.sb)
  SlotCode 0x1A .setp (fun f => fld f.sd 3 2 = 0) ∧ SlotCode 0x1B .setpq (fun f => fld f.sd 3 2 = 0 ∧ evenAB f) ∧
  (∀ e f, fld f.sd 3 2 = 0 → ¬evenAB f → slotResult e 0 (some (.setpq f)) = .error 4) ∧
  SlotCode 0x1C .pand (fun f => high f ∧ fld f.sb 3 2 = 0 ∧ fld f.sx 0 3 = 0) ∧
  SlotCode 0x1D .por (fun f => high f ∧ fld f.sb 3 2 = 0 ∧ fld f.sx 0 3 = 0) ∧
  SlotCode 0x1E .pxor (fun f => high f ∧ fld f.sb 3 2 = 0 ∧ fld f.sx 0 3 = 0) ∧
  SlotCode 0x1F .pnot (fun f => high f ∧ f.sb = 0 ∧ f.sx = 0) ∧
  SlotCode 0x00 .snop (fun f => f.sd = 0 ∧ f.sa = 0 ∧ f.sb = 0 ∧ f.sx = 0) ∧
  ∀ (f : SlotS) (s : State),
    let pa := s.p (fld f.sa 0 3)
    let pb := Bool.xor (s.p (fld f.sb 0 3)) (f.sx.getLsbD 3)
    Completes (.setp f) s (fun t =>
      WritesP s t (fld f.sd 0 3) (condOf (fld f.sx 0 3) 64 (s.g f.sa).toNat (slotB s f).toNat)) ∧
    Completes (.setpq f) s (fun t =>
      WritesP s t (fld f.sd 0 3) (condOf (fld f.sx 0 3) 128 (pairNat s f.sa) (slotBQ s f))) ∧
    Completes (.pand f) s (fun t => WritesP s t (fld f.sd 0 3) (pa && pb)) ∧
    Completes (.por f) s (fun t => WritesP s t (fld f.sd 0 3) (pa || pb)) ∧
    Completes (.pxor f) s (fun t => WritesP s t (fld f.sd 0 3) (Bool.xor pa pb)) ∧
    Completes (.pnot f) s (fun t => WritesP s t (fld f.sd 0 3) (!pa)) ∧ exec (.snop f) s = .next s

/-- R290, R259, R387: SNOP, VNOP change nothing at all. -/
def Obligations.NoOperations : Prop :=
  ∀ (f : SlotS) (v : SlotV) (s : State), exec (.snop f) s = .next s ∧ exec (.vnop v) s = .next s

/-- R291: the immediate operations, their numbers, and which of their fields must be zero. -/
def Obligations.ImmediateArithmetic : Prop :=
  LongCode 0x00 .addi (fun f => f.x = 0) ∧
  LongCode 0x01 .andi (fun f => f.x = 0) ∧
  LongCode 0x02 .ori (fun f => f.x = 0) ∧
  LongCode 0x03 .xori (fun f => f.x = 0) ∧
  LongCode 0x04 .shli (fun f => f.x = 0 ∧ fld f.imm 6 26 = 0) ∧
  LongCode 0x05 .shri (fun f => f.x = 0 ∧ fld f.imm 6 26 = 0) ∧
  LongCode 0x06 .srai (fun f => f.x = 0 ∧ fld f.imm 6 26 = 0) ∧
  LongCode 0x07 .muli (fun f => f.x = 0) ∧ LongCode 0x08 .li (fun f => f.a = 0 ∧ f.x = 0) ∧
  LongCode 0x09 .lui (fun f => f.a = 0 ∧ f.x = 0) ∧ LongCode 0x0A .slti (fun f => fld f.x 1 7 = 0) ∧
  LongCode 0x0B .setpi (fun f => fld f.d 3 2 = 0 ∧ fld f.x 3 5 = 0) ∧
  ∀ (f : La) (s : State),
    let a := s.g f.a
    let k := BitVec.ofInt 64 (immInt f)
    let n := f.imm.toNat % 64
    Completes (.addi f) s (fun t => WritesG s t f.d (BitVec.ofInt 64 (a.toInt + immInt f))) ∧
    Completes (.andi f) s (fun t => WritesG s t f.d (BitVec.ofNat 64 (Nat.land a.toNat k.toNat))) ∧
    Completes (.ori f) s (fun t => WritesG s t f.d (BitVec.ofNat 64 (Nat.lor a.toNat k.toNat))) ∧
    Completes (.xori f) s (fun t => WritesG s t f.d (BitVec.ofNat 64 (Nat.xor a.toNat k.toNat))) ∧
    Completes (.shli f) s (fun t => WritesG s t f.d (BitVec.ofNat 64 (a.toNat * 2 ^ n))) ∧
    Completes (.shri f) s (fun t => WritesG s t f.d (BitVec.ofNat 64 (a.toNat / 2 ^ n))) ∧
    Completes (.srai f) s (fun t => WritesG s t f.d (BitVec.ofInt 64 (a.toInt / 2 ^ n))) ∧
    Completes (.muli f) s (fun t => WritesG s t f.d (BitVec.ofInt 64 (a.toInt * immInt f))) ∧
    Completes (.li f) s (fun t => WritesG s t f.d k) ∧
    Completes (.lui f) s (fun t =>
      WritesG s t f.d (BitVec.ofNat 64 (f.imm.toNat * 2 ^ 32 + (s.g f.d).toNat % 2 ^ 32))) ∧
    Completes (.slti f) s (fun t => WritesG s t f.d
      (if (if f.x.getLsbD 0 then a.toNat < k.toNat else a.toInt < immInt f) then 1 else 0)) ∧
    Completes (.setpi f) s (fun t => WritesP s t (fld f.d 0 3) (condOf (fld f.x 0 3) 64 a.toNat k.toNat))

/-- R292: division by a divisor that is not zero. DIV rounds toward zero and REM takes the sign of g[a]; the
quotient wraps, so DIV of the most negative value by -1 gives it back. -/
def Obligations.Division : Prop :=
  ∀ (f : Lb) (s : State), s.g f.b ≠ 0 →
    let a := s.g f.a
    let b := s.g f.b
    let q := BitVec.ofInt 64 (a.toInt.tdiv b.toInt)
    Completes (.div f) s (fun t => WritesG s t f.d q) ∧
    Completes (.divu f) s (fun t => WritesG s t f.d (BitVec.ofNat 64 (a.toNat / b.toNat))) ∧
    Completes (.rem f) s (fun t => WritesG s t f.d (BitVec.ofInt 64 (a.toInt - q.toInt * b.toInt))) ∧
    Completes (.remu f) s (fun t => WritesG s t f.d (BitVec.ofNat 64 (a.toNat % b.toNat)))

/-- R293, R294: FADD, FSUB, FMUL and FFMA round the exact result once by RMODE; FDIV, FSQRT, FMIN and FMAX with
their special cases. FPSTAT takes the flags of the rounding, NV of an invalid operation or a signalling NaN, and
DZ. An FP32 result has zero upper bits. -/
def Obligations.ScalarFloatArithmetic : Prop :=
  ∀ (f : Lb) (s : State),
    let F := scalarFmt f
    let m := s.cpu.rmode
    let a := scalarVal s f f.a
    let b := scalarVal s f f.b
    let c := scalarVal s f f.c
    let rounded (t : State) (v : FVal) (fl : FpFlags) : Prop :=
      WritesGF s t f.d (BitVec.ofNat 64 (F.round m v).1) ((F.round m v).2 ||| fl) ∧ (F.round m v).1 < 2 ^ F.width
    Completes (.fadd f) s (fun t => ∃ v nv, rounded t v (flagIf nv fNV ||| sigFlag [a, b]) ∧ (v, nv) = FVal.add m a b ∧
      ∀ x y, a.rat = some x → b.rat = some y → v.rat = some (x + y) ∧ nv = false) ∧
    Completes (.fsub f) s (fun t => ∃ v nv, rounded t v (flagIf nv fNV ||| sigFlag [a, b]) ∧
      (v, nv) = FVal.add m a b.negate ∧
      ∀ x y, a.rat = some x → b.rat = some y → v.rat = some (x - y) ∧ nv = false) ∧
    Completes (.fmul f) s (fun t => ∃ v nv, rounded t v (flagIf nv fNV ||| sigFlag [a, b]) ∧ (v, nv) = FVal.mul a b ∧
      ∀ x y, a.rat = some x → b.rat = some y → v.rat = some (x * y) ∧ nv = false) ∧
    Completes (.ffma f) s (fun t => ∃ v nv, rounded t v (flagIf nv fNV ||| sigFlag [a, b, c]) ∧
      (v, nv) = FVal.fma m a b c ∧
      ∀ x y z, a.rat = some x → b.rat = some y → c.rat = some z → v.rat = some (x * y + z) ∧ nv = false) ∧
    Completes (.fdiv f) s (fun t => ∃ v nv dz,
      rounded t v (flagIf nv fNV ||| flagIf dz fDZ ||| sigFlag [a, b]) ∧ (v, nv, dz) = FVal.div a b ∧
      (∀ x y, a.rat = some x → b.rat = some y → y ≠ 0 →
        StandsFor v (x / y) ∧ (x = 0 → v.neg? = (a.neg? != b.neg?)) ∧ nv = false ∧ dz = false) ∧
      (b.isZero → (∃ x, a.rat = some x ∧ x ≠ 0) → v = .inf (a.neg? != b.neg?) ∧ dz = true ∧ nv = false) ∧
      (a.isInf → (b.rat).isSome → v = .inf (a.neg? != b.neg?) ∧ nv = false ∧ dz = false) ∧
      (b.isInf → (a.rat).isSome → v.isZero ∧ v.neg? = (a.neg? != b.neg?) ∧ nv = false ∧ dz = false) ∧
      (a.isNan ∨ b.isNan → v = .nan false ∧ nv = false ∧ dz = false) ∧
      (a.isZero ∧ b.isZero ∨ a.isInf ∧ b.isInf → v = .nan false ∧ nv = true)) ∧
    Completes (.fsqrt f) s (fun t => ∃ v nv, rounded t v (flagIf nv fNV ||| sigFlag [a]) ∧ (v, nv) = FVal.sqrt a ∧
      (∀ x, a.rat = some x → 0 < x → StandsForRoot v x ∧ nv = false) ∧
      (a.isZero → v.isZero ∧ v.neg? = a.neg? ∧ nv = false) ∧
      (a = .inf false → v = .inf false ∧ nv = false) ∧ (a.isNan → v = .nan false ∧ nv = false) ∧
      (a.lt (.fin false 0 0) → v = .nan false ∧ nv = true)) ∧
    (let pick (larger : Bool) : Nat :=
      if a.isNan then (if b.isNan then F.nanCode else scalarCode s f f.b)
      else if b.isNan then scalarCode s f f.a
      else if (if larger then a.below b else b.below a) then scalarCode s f f.b else scalarCode s f f.a
    Completes (.fmin f) s (fun t => WritesGF s t f.d (BitVec.ofNat 64 (pick false)) (sigFlag [a, b])) ∧
    Completes (.fmax f) s (fun t => WritesGF s t f.d (BitVec.ofNat 64 (pick true)) (sigFlag [a, b])))

/-- R295, R296: FCMP's conditions with their NV, and every kind of FCVT. -/
def Obligations.ScalarFloatCompareConvert : Prop :=
  ∀ (f : Lb) (s : State),
    let F := scalarFmt f
    let m := s.cpu.rmode
    let k := (fld f.x 1 3).toNat
    let a := scalarVal s f f.a
    let b := scalarVal s f f.b
    let ordered := k = 1 ∨ k = 2 ∨ k = 5 ∨ k = 6
    Completes (.fcmp f) s (fun t => WritesPF s t (fld f.d 0 3) (fcondOf k a b)
      (if a.isSig ∨ b.isSig ∨ (ordered ∧ (a.isNan ∨ b.isNan)) then fNV else 0)) ∧
    (k ≠ 7 → Completes (.fcvt f) s (fun t =>
      let out (r : Nat × FpFlags) (v : FVal) : Prop := WritesGF s t f.d (BitVec.ofNat 64 r.1) (r.2 ||| sigFlag [v])
      let integer (lo hi : Int) : Prop := ∃ i fl, IntegerOf m lo hi a (i, fl) ∧
        WritesGF s t f.d (BitVec.ofInt 64 i) (fl ||| sigFlag [a])
      match k with
      | 0 => out ((if f.x.getLsbD 0 then FFmt.f32 else FFmt.f64).round m a) a
      | 1 => integer (-2 ^ 63) (2 ^ 63 - 1)
      | 2 => integer 0 (2 ^ 64 - 1)
      | 3 => out (F.round m (FVal.ofInt (s.g f.a).toInt)) (.fin false 0 0)
      | 4 => out (F.round m (FVal.ofInt (s.g f.a).toNat)) (.fin false 0 0)
      | 5 => out (FFmt.bf16.round m a) a
      | _ =>
        let w := FFmt.bf16.decode ((s.g f.a).toNat % 65536)
        out (F.round m w) w))

/-- R163, R167, R169, R170, R171, R172, R175, R179, R180, R184, R185, R187, R296 (a conversion to a wider format is exact), R317,
R320, R321: the values that the operations share. Rounding gives back the code of every value that the format holds, in every
mode and with no flag, and rounds every other once; FP8 overflow and saturation; one over a value and over its root, and 2 to
a power, whose fraction is a truncated series (log 13: DEDUCED); conversions of elements, a pair's low half by log 109
(DEDUCED); the reduction tree; the CF32 sequences, fade and combine; the accumulation of a group; the quantiser, but for
values that scale below the FP32 subnormals (log 16: DEDUCED). -/
def Obligations.RoundingKeepsCodes : Prop :=
  (∀ (F : FFmt) (m : BitVec 2) (c : Nat), F = .f32 ∨ F = .f64 ∨ F = .bf16 → c < 2 ^ F.width →
    (F.decode c).isNan = false → F.round m (F.decode c) = (c, 0)) ∧
  (∀ (F : FFmt) (m : BitVec 2) (v : FVal) (x : ℚ), F ∈ [FFmt.f32, .f64, .bf16, .a48, .e5m2] → v.rat = some x → x ≠ 0 →
    RoundedTo F F.decode (2 ^ (F.emin + F.p + F.emax - 2))
      (if toInfinity m (decide (x < 0)) then F.infCode (decide (x < 0)) else F.maxCode (decide (x < 0)), fOF ||| fNX)
      m x (F.round m v)) ∧
  (∀ (m : BitVec 2) (sat : Bool) (v : FVal) (x : ℚ), v.rat = some x → x ≠ 0 →
    let most (c : Nat) : Nat := if x < 0 then c + 128 else c
    RoundedTo .e4m3 decodeE4M3 480 (if sat then (most 0x7E, fSAT ||| fNX) else (0x7F, fOF ||| fNX)) m x (roundE4M3 m sat v) ∧
    RoundedTo .e5m2 FFmt.e5m2.decode 65536
      (if sat then (most 0x7B, fSAT ||| fNX) else (most (if toInfinity m (decide (x < 0)) then 0x7C else 0x7B), fOF ||| fNX))
      m x (roundE5M2 m sat v)) ∧
  (∀ (m : BitVec 2) (sat n : Bool),
    let most (c : Nat) : Nat := if n then c + 128 else c
    roundE4M3 m sat (.inf n) = (if sat then (most 0x7E, fSAT) else (0x7F, fNV)) ∧
    roundE5M2 m sat (.inf n) = (if sat then (most 0x7B, fSAT) else (most 0x7C, 0)) ∧
    roundE4M3 m sat (.nan n) = (0x7F, 0) ∧ roundE5M2 m sat (.nan n) = (0x7E, 0)) ∧
  (∀ (v : FVal) (x : ℚ), v.rat = some x →
    (x ≠ 0 → StandsFor v.recip.1 (1 / x) ∧ v.recip.2 = false) ∧
    (x = 0 → v.recip = (.inf v.neg?, true) ∧ v.rsqrt = (.inf v.neg?, false, true)) ∧
    (0 < x → StandsForRoot v.rsqrt.1 (1 / x) ∧ v.rsqrt.2 = (false, false)) ∧
    (x < 0 → v.rsqrt = (.nan false, true, false))) ∧
  (∀ (F : FFmt) (c : Nat) (x : ℚ), F = .f32 ∨ F = .bf16 → (F.decode c).rat = some x →
    ∃ y, (F.decode c).exp2.rat = some y ∧ (∀ i : Int, x = i → |x| < 4096 → y = 2 ^ i) ∧
      (|x| < 4096 → (2 : ℚ) ^ ⌊x⌋ ≤ y ∧ y < 2 ^ (⌊x⌋ + 1)) ∧ (4096 ≤ x → y = 2 ^ (4096 : Int)) ∧ (x ≤ -4096 → y = 2 ^ (-4096 : Int))) ∧
  (∀ (sf df : Nat) (m : BitVec 2) (sat : Bool) (c : Nat), sf < 9 → df < 9 → c < 2 ^ fmtBits sf →
    let v := (fmtValue sf c).1
    let hi := FFmt.f32.decode (c % 2 ^ 32)
    let lo := FFmt.f32.decode (c / 2 ^ 32)
    let flags := flagIf ((fmtValue sf c).2 || fmtSig sf c) fNV
    (sf = 5 → ∀ x y, hi.rat = some x → lo.rat = some y → v.rat = some (x + y) ∧ flags = 0) ∧
    (sf = 7 → v = decodeE4M3 c) ∧ (sf = 8 → v = FFmt.e5m2.decode c) ∧ (sf = 0 ∨ sf = 3 ∨ sf = 4 → v = (fmtFloat sf).decode c) ∧
    (isIntType sf → v.rat = some (elemValue sf c : ℚ) ∧ flags = 0) ∧
    (isIntType sf → isIntType df → convertElem sf df m sat c = narrowed df sat (elemValue sf c)) ∧
    (¬isIntType sf → isIntType df →
      let least : Int := if df = 2 then 0 else -2 ^ (elemBits df - 1)
      let most : Int := if df = 2 then 2 ^ 32 - 1 else 2 ^ (elemBits df - 1) - 1
      ∃ i fl, IntegerOf m least most v (i, fl) ∧
        convertElem sf df m sat c = ((i % 2 ^ elemBits df).toNat, flags ||| fl)) ∧
    (df = 0 ∨ df = 3 ∨ df = 4 →
      convertElem sf df m sat c = (((fmtFloat df).round m v).1, flags ||| ((fmtFloat df).round m v).2)) ∧
    (df = 7 → convertElem sf df m sat c = ((roundE4M3 m sat v).1, flags ||| (roundE4M3 m sat v).2)) ∧
    (df = 8 → convertElem sf df m sat c = ((roundE5M2 m sat v).1, flags ||| (roundE5M2 m sat v).2)) ∧
    (df = 5 → match v with
      | .nan _ => convertElem sf df m sat c = (0x7FC00000, flags)
      | .inf n => convertElem sf df m sat c = (FFmt.f32.infCode n, flags)
      | .fin _ _ _ =>
        let h := (FFmt.f32.round m v).1
        ((FFmt.f32.decode h).isInf → convertElem sf df m sat c = (h, flags ||| fOF ||| fNX)) ∧
        ∀ x y, v.rat = some x → (FFmt.f32.decode h).rat = some y → ∃ w, w.rat = some (x - y) ∧
          let l := (FFmt.f32.round m w).1
          let inexact := (FFmt.f32.decode l).rat ≠ some (x - y)
          ∃ fl, convertElem sf df m sat c = (h + 2 ^ 32 * l, flags ||| fl) ∧ (¬inexact → fl = 0) ∧
            (inexact → x - y ≠ 0 ∧ |x - y| < (2 : ℚ) ^ (-126 : Int) → fl = fNX ||| fUF) ∧
            (inexact → ¬|x - y| < (2 : ℚ) ^ (-126 : Int) → fl = fNX))) ∧
  (∀ (ty op : Nat) (rnd : BitVec 2) (sat : Bool) (es : List Nat), ty ∈ [0, 1, 2, 3, 4, 6] → op ≤ 2 → es.length = fmtElems ty →
    (∀ e ∈ es, e < 2 ^ fmtBits ty) →
    let r := reduceElems ty op rnd sat es
    let plain := es.map fun e => (e, (0 : FpFlags))
    let sum (F : FFmt) (a b : Nat) : Nat × FpFlags :=
      let z := F.round rnd (FVal.add rnd (F.decode a) (F.decode b)).1
      (z.1, z.2 ||| flagIf (FVal.add rnd (F.decode a) (F.decode b)).2 fNV ||| sigFlag [F.decode a, F.decode b])
    let G := fmtFloat ty
    let pick (a b : Nat) : Nat × FpFlags :=
      if isIntType ty then (if (if op = 1 then elemValue ty a < elemValue ty b else elemValue ty b < elemValue ty a) then b else a, 0)
      else (if (G.decode a).isNan then (if (G.decode b).isNan then G.nanCode else b) else if (G.decode b).isNan then a
        else if (if op = 1 then (G.decode a).below (G.decode b) else (G.decode b).below (G.decode a)) then b else a,
        sigFlag [G.decode a, G.decode b])
    (op = 0 → isIntType ty → r = narrowed (if ty = 6 then 1 else ty) sat (es.map (elemValue ty)).sum) ∧
    (op = 0 → ty = 0 ∨ ty = 4 → TreeGives (sum G) plain r) ∧
    (op = 0 → ty = 3 → TreeGives (sum .f32) (es.map fun e => (65536 * e, sigFlag [FFmt.bf16.decode e])) r) ∧
    (op ≠ 0 → ∃ z, TreeGives pick plain z ∧
      r = if ty = 3 then (65536 * z.1, z.2) else if ty = 6 then ((elemValue 6 z.1 % 2 ^ 32).toNat, z.2) else z)) ∧
  (let value (n : Lane) : FVal := FFmt.f32.decode n.toNat
   let rne (v : FVal) : Lane := BitVec.ofNat 32 (FFmt.f32.round 0 v).1
   let add (m n : Lane) : Lane := rne (FVal.add 0 (value m) (value n)).1
   let sub (m n : Lane) : Lane := rne (FVal.add 0 (value m) (value n).negate).1
   let mul (m n : Lane) : Lane := rne (FVal.mul (value m) (value n)).1
   let fma (m n k : Lane) : Lane := rne (FVal.fma 0 (value m) (value n) (value k)).1
   let orZero (s e : Lane) : Lane × Lane := (s, if (value s).rat.isSome then e else 0)
   let two (a b : Lane) : Lane × Lane :=
     let s := add a b
     let a1 := sub s b
     let b1 := sub s a1
     orZero s (add (sub a a1) (sub b b1))
   let fast (a b : Lane) : Lane × Lane := orZero (add a b) (sub b (sub (add a b) a))
   let acc (p : Lane × Lane) (x : Lane) : Lane × Lane := fast (two p.1 x).1 (add p.2 (two p.1 x).2)
   let times (a : Lane) (b : Lane × Lane) : Lane × Lane :=
     let ph := mul a b.1
     fast ph (fma a b.2 (fma a b.1 (ph ^^^ 0x80000000)))
   ∀ (a b : Lane) (p q : Lane × Lane) (fade : W64) (n : Nat),
     let small := fade.getLsbD 0 ∧ ∃ x, (value p.1).rat = some x ∧ |x| < (2 : ℚ) ^ (fade.extractLsb' 8 8).toInt
     twoSum a b = two a b ∧ fast2Sum a b = fast a b ∧ cAcc p a = acc p a ∧ exactProduct a p = times a p ∧
     (small → fadePair fade p = ((0, 0), decide (p ≠ (0, 0)))) ∧ (¬small → fadePair fade p = (p, false)) ∧
     (fadeCount fade n).toNat = fade.toNat % 2 ^ 32 + 2 ^ 32 * min (fade.toNat / 2 ^ 32 + n) 0xFFFFFFFF ∧
     (let r := fadePair fade (acc (acc (times b p) q.1) q.2)
      combine fade (b, q) (a, p) = ((mul b a, r.1), r.2))) ∧
  (∀ (ps : List (FVal × FVal)),
    ((∀ p ∈ ps, p.1.rat.isSome ∧ p.2.rat.isSome) →
      let x := (ps.map fun p => p.1.rat.getD 0 * p.2.rat.getD 0).sum
      (groupSum ps).rat = some x ∧ (x = 0 → (groupSum ps).neg? = false)) ∧
    ((∃ p ∈ ps, p.1.isNan ∨ p.2.isNan ∨ (p.1.isInf ∧ p.2.isZero) ∨ (p.1.isZero ∧ p.2.isInf)) → (groupSum ps).isNan)) ∧
  (∀ (acc : BitVec 48) (v : FVal) (z : Int),
    let A := FFmt.a48.decode acc.toNat
    (∀ x y, A.rat = some x → v.rat = some y → if x + y = 0 then a48Add acc v = 0
      else ∃ w, w.rat = some (x + y) ∧ a48Add acc v = BitVec.ofNat 48 (FFmt.a48.round 0 w).1) ∧
    (A.isNan ∨ v.isNan ∨ (A.isInf ∧ v.isInf ∧ A.neg? ≠ v.neg?) → a48Add acc v = BitVec.ofNat 48 FFmt.a48.nanCode) ∧
    (∀ n, (A = .inf n ∧ (v.rat.isSome ∨ v = .inf n)) ∨ (A.rat.isSome ∧ v = .inf n) →
      a48Add acc v = BitVec.ofNat 48 (FFmt.a48.infCode n)) ∧
    (let y := acc.toInt + z
     (intAdd acc z).1.toInt = max (-2 ^ 47) (min y (2 ^ 47 - 1)) ∧
       (intAdd acc z).2 = decide (y < -2 ^ 47 ∨ 2 ^ 47 ≤ y))) ∧
  ∀ vs : List FVal, vs.length = 64 →
    ((∃ v ∈ vs, v.isNan ∨ v.isInf) → quantiseBytes vs = List.replicate 32 0 ++ [0xFF, 0] ∧
      quantiseInexact vs = vs.any fun v => !v.isNan) ∧
    ((∀ v ∈ vs, v.isZero) → quantiseBytes vs = List.replicate 34 0 ∧ quantiseInexact vs = false) ∧
    ∀ (x : Nat → ℚ) (k0 : Int), (∀ i < 64, (vs.getD i (.nan false)).rat = some (x i)) →
      (∃ i < 64, (2 : ℚ) ^ (k0 + 2) ≤ |x i|) → (∀ i < 64, |x i| < (2 : ℚ) ^ (k0 + 3)) →
      let k := min (max k0 (-127)) 127
      let u (i : Nat) : ℚ := x i / 2 ^ k
      (∀ i < 64, u i = 0 ∨ (2 : ℚ) ^ (-149 : Int) ≤ |u i|) →
      ∃ (near code : Nat → Nat) (j p : Nat) (w : FVal) (special : ℚ),
        let err (i : Nat) : ℚ := |u i - gridTwice (near i) / 2|
        (∀ i < 64, NearestGrid (u i) (near i)) ∧ j < 64 ∧ (∀ i < 64, err i ≤ err j ∧ (i < j → err i < err j)) ∧
        w.rat = some (u j) ∧ p = (if (roundE4M3 0 true w).1 = 0x80 then 0 else (roundE4M3 0 true w).1) ∧
        (decodeE4M3 p).rat = some special ∧
        (∀ i < 64, if |u i - special| < err i then code i = 8 else code i = near i) ∧
        quantiseBytes vs = ((List.range 32).map fun i => BitVec.ofNat 8 (code (2 * i) + 16 * code (2 * i + 1))) ++
          [BitVec.ofNat 8 (k + 127).toNat, BitVec.ofNat 8 p] ∧
        (quantiseInexact vs = true ↔ ∃ i < 64, (if code i = 8 then special else gridTwice (code i) / 2) ≠ u i)


/-- R297, R298, R299: BR, CALL, LOOP, and the jumps to a register's address. CALLR reads its target before it writes its
link; a transfer that is not taken leaves the next word as it is. -/
def Obligations.Transfers : Prop :=
  ∀ (f : La) (j : Lb) (s : State),
    let target := BitVec.ofInt 64 (s.cpu.pc.toNat + 8 * immInt f)
    let n := BitVec.ofInt 64 ((s.g f.d).toNat - 1)
    Completes (.br f) s (fun t => TransfersTo s t target ∧ GBut s t 0 0) ∧
    Completes (.call f) s (fun t => TransfersTo s t target ∧ GBut s t f.d (s.cpu.pc + 8)) ∧
    Completes (.loop f) s (fun t => if n = 0 then WritesG s t f.d n else TransfersTo s t target ∧ GBut s t f.d n) ∧
    ((s.g j.a).toNat % 8 = 0 →
      Completes (.ret j) s (fun t => TransfersTo s t (s.g j.a) ∧ GBut s t 0 0) ∧
      Completes (.jmpr j) s (fun t => TransfersTo s t (s.g j.a) ∧ GBut s t 0 0) ∧
      Completes (.callr j) s (fun t => TransfersTo s t (s.g j.a) ∧ GBut s t j.d (s.cpu.pc + 8)))

/-- R292, R297, R407: a division by zero raises 256 and a jump to a misaligned address raises 43. Nothing is
written: a compute core stops precisely at the instruction, a system core takes the exception with its PC as return
address. -/
def Obligations.ScalarTraps : Prop :=
  ∀ (f : Lb) (s : State) (i : Instr) (cause : Nat),
    ((i = .div f ∨ i = .divu f ∨ i = .rem f ∨ i = .remu f) ∧ cause = 256 ∧ s.g f.b = 0) ∨
    ((i = .ret f ∨ i = .jmpr f ∨ i = .callr f) ∧ cause = 43 ∧ (s.g f.a).toNat % 8 ≠ 0) →
    (∀ c, s.cur = .compute c → (s.core c).held = none →
      Completes i s (fun t => Stops s t c .precise cause 0 (cpDetail c) s.cpu.pc)) ∧
    (∀ k, s.cur = .system k → (s.sysCore k).ie = true → Completes i s (fun t => Enters s t k cause 0 s.cpu.pc))

/-- R302, R300, R304, R407: SYSCALL and BRK stop a compute core precisely with 320 and 321, HALT asynchronously with 327
once its queues have settled; the PC names the next word, and there is no fault address. On a system core each
enters the exception entry with the next word as return address (log 73: DEDUCED), HALT once the core's earlier writes are
acknowledged. -/
def Obligations.SystemCalls : Prop :=
  ∀ (f : La) (j : Lb) (s : State),
    (∀ c, s.cur = .compute c → (s.core c).held = none →
      Completes (.syscall f) s (fun t => Stops s t c .precise 320 0 (cpDetail c) s.cpu.npc) ∧
      Completes (.brk f) s (fun t => Stops s t c .precise 321 0 (cpDetail c) s.cpu.npc) ∧
      (s.acked s.agent → (∀ q ∈ allQueues, let u := (s.core c).queue q
          u.flights = [] ∧ (u.waiting = [] ∨ ∃ d r, u.waiting = d :: r ∧ isNote d.instr ∧ d.reached)) →
        Completes (.halt j) s (fun t => Stops s t c .async 327 0 (cpDetail c) s.cpu.npc))) ∧
    (∀ k, s.cur = .system k → (s.sysCore k).ie = true →
      Completes (.syscall f) s (fun t => Enters s t k 320 0 s.cpu.npc) ∧
      Completes (.brk f) s (fun t => Enters s t k 321 0 s.cpu.npc) ∧
      (s.acked s.agent → Completes (.halt j) s (fun t => Enters s t k 327 0 s.cpu.npc)))

/-- R407, R408: TRAPRET sets PC := SEPC and IE := PIE; an interrupt is entered with INT, its code, no fault address and
the next word's address, at the core's next turn after a TRAPRET that sets IE; an exception with IE = 0 disables the
system core. -/
def Obligations.SystemExceptions : Prop :=
  decodeWord .system 0x05C0000000000000 0 = .ok (.l .always (.trapret ⟨0, 0, 0, 0, 0, 0⟩)) ∧
  (∀ e f, (Instr.trapret f).wf e = true ↔ e.sys = true ∧ lbZero f = true) ∧
  (∀ (s : State) (k : SysId), s.canGo (.system k) = true → (s.cpuOf (.system k)).blocked = none →
    (s.sysCore k).ie = true → (pendingCode (s.sysCore k)).isSome = true →
    issue (.system k) s = execInterruptEntry k { s with cur := .system k, unit := .cp }) ∧
  ∀ (f : Lb) (s : State) (k : SysId), let y := s.sysCore k
    (s.cur = .system k → Completes (.trapret f) s (fun t =>
      t = s.setSys k { y with ie := y.pie, x := { y.x with npc := y.sepc ++ (0 : BitVec 3), fetched := [] } } ∧ SameMemory s t)) ∧
    (∀ j : La, s.cur = .system k → y.ie = false → Completes (.brk j) s (fun t =>
      (t.sysCore k).enabled = false ∧ (t.sysCore k).running = false ∧ (t.sysCore k).svec = y.svec ∧ (t.sysCore k).sepc = y.sepc ∧
      (t.sysCore k).scause = y.scause ∧ (∀ h, h ≠ k → t.sysCore h = s.sysCore h) ∧ t.cores = s.cores ∧ SameMemory s t ∧
      (.systemCore k ∈ t.pfEvents ∨ ∀ h : SysId, h.val / 8 = k.val / 8 → (t.sysCore h).enabled = false))) ∧
    (y.ie = true → y.enabled = true → y.running = true → y.x.blocked = none → (y.ctpend ≠ 0 ∨ y.reports ≠ []) →
      Completes (.interruptEntry k) s (fun t =>
      let entry := y.svec ++ (0 : BitVec 3)
      ∃ code, (if y.ctpend ≠ 0 then code = 0 else code ∈ y.reports ∧ ∀ q ∈ y.reports, code ≤ q) ∧
      t = s.setSys k { y with
        sepc := fld y.x.pc 3 61, scause := BitVec.ofNat 10 (512 + code), sfaddr := 0, pie := true, ie := false
        reports := (t.sysCore k).reports
        x := { y.x with pc := entry, npc := entry, fetched := [] } } ∧
      (∀ q ∈ (t.sysCore k).reports, q ∈ y.reports) ∧ SameMemory s t))

/-- R329, R331: LD, LDP and LDV give what their bytes hold, and change nothing else: no byte of memory, and full/empty bits
only where the qualifier empties their granules (R63). -/
def Obligations.Loads : Prop :=
  ∀ (f : Lm) (s : State) (ps : List Part),
    let acc : Access := ⟨f.order ≠ 0, false, f.fe.toNat, none, false⟩
    let bs := heldBytes s acc ps
    let n := 2 ^ f.size.toNat
    let d := fld f.d 0 3
    let word (o : Nat) : Lane := BitVec.ofNat 32 (leNat ((bs.drop o).take 4))
    let done (t u : State) : Prop := AccessFrame u t ∧ SameMemory s t ∧ FullAfter s t ps (if f.fe = 2 then some false else none)
    (LmReaches s f .load false n ps →
      Completes (.ld f) s (fun t => ∃ u, done t u ∧
        WritesG s u f.d (if f.x.getLsbD 0 then BitVec.ofInt 64 (signedNat n (leNat bs)) else BitVec.ofNat 64 (leNat bs)))) ∧
    (LmReaches s f .load false 16 ps →
      Completes (.ldp f) s (fun t => ∃ u, done t u ∧ WritesPair s u f.d (lowWord (leNat bs)) (highWord (leNat bs)))) ∧
    (LmReaches s f .load false (if f.x.getLsbD 0 then 128 else 64) ps →
      Completes (.ldv f) s (fun t => ∃ u, done t u ∧ (∃ v lat, u = s.modHere fun k => { k with v := v, lat := lat }) ∧
        (∀ r, r ≠ d → (f.x.getLsbD 0 → r ≠ d + 1) → u.vreg r = s.vreg r) ∧
        (if f.x.getLsbD 0 then u.thisCore.lat = s.thisCore.lat ∧
            ∀ i : Fin 16, (u.vreg d)[i] = word (8 * i) ∧ (u.vreg (d + 1))[i] = word (8 * i + 4)
         else u.thisCore.lat = u.vreg d ∧ ∀ i : Fin 16, (u.vreg d)[i] = word (4 * i))))

/-- R331: ST, STP and STV store their bytes at the homes of their parts and nowhere else: in memory, in the version of the
core (R230), at the slice that merges them into the blocks of an FBC page (R148), in a trap window (R223); a qualified
store fills its granules (R63), and every register stays. What an sc store, and a store to an SC page, sends to the slices is
performed before anything else issues (R105, R108). -/
def Obligations.Stores : Prop :=
  ∀ (f : Lm) (s : State) (ps : List Part),
    let acc : Access := ⟨f.order ≠ 0, false, f.fe.toNat, none, false⟩
    let n := 2 ^ f.size.toNat
    let d := fld f.d 0 3
    let drains : Prop := f.order = 5 ∨ ∃ p ∈ ps, leafSC p.leaf = true ∧ isCpuAgent s.agent = true ∧ p.blocks ≠ []
    let done (t : State) (bs : List Byte) : Prop :=
      let lands (u : State) : Prop := Lands s u acc ps bs (if f.fe = 1 ∨ f.fe = 3 then some true else none)
      StoreFrame s t ∧ (¬drains → lands t) ∧
      (drains → ∀ p, ps = [p] → ∃ u, lands u ∧ StoreFrame s u ∧ AccessFrame (drainFbc u s.agent) t ∧ t.full = u.full)
    (LmReaches s f .store true n ps → ∃ t, exec (.st f) s = .next t ∧ done t (leBytes n (s.g f.d).toNat)) ∧
    (LmReaches s f .store true 16 ps → ∃ t, exec (.stp f) s = .next t ∧ done t (leBytes 16 (pairNat s f.d))) ∧
    (LmReaches s f .store true (if f.x.getLsbD 0 then 128 else 64) ps → ∃ t, exec (.stv f) s = .next t ∧ done t
      (if f.x.getLsbD 0 then (List.range 16).flatMap fun i =>
          leBytes 4 (vlane (s.vreg d) i).toNat ++ leBytes 4 (vlane (s.vreg (d + 1)) i).toNat
       else (List.range 16).flatMap fun i => leBytes 4 (vlane (s.vreg d) i).toNat))

/-- R335, R336, R107: PREF never faults and changes no register and no byte, and leaves the lines of its address resident
where its page is one that the L2 may keep and no regulator holds the request (R439); FENCE changes no register and no byte, and a rel, ar or sc fence is a
release event once the agent's writes are acknowledged. -/
def Obligations.PrefetchAndFence : Prop :=
  ∀ (f : Lm) (s : State),
    Completes (.pref f) s (fun t => AccessFrame s t ∧ t.full = s.full ∧ t.tags = s.tags ∧ t.seqs = s.seqs ∧ t.know = s.know ∧
      SameMemory s t ∧
      ∀ p r u v, translateRows s.who .load false [(accessAddr s f, 1)] s = .ok (p :: r, u) → p.isWindow = false →
        allocates u s.who {} p = true → chargeRequests (memoryRequests u s.who p) u = .ok ((), v) →
        (∀ m, versionLine s m = false) →
        ∀ l ∈ p.lines, (tfind t.lines l.1).isSome) ∧
    ((orderReleases f.order.toNat → s.acked s.agent) →
      Completes (.fence f) s (fun t => AccessFrame s t ∧ t.full = s.full ∧ t.tags = s.tags ∧ SameMemory s t ∧
        (orderReleases f.order.toNat → t.seq s.agent = s.seq s.agent + 1) ∧
        (f.order = 2 → t.seqs = s.seqs)))

/-- R337, R338, R109: an AMO or CAS that is not ticketed reads its old value, writes the new one, or for a CAS that fails
nothing, and puts the old value in its destination. A ticketed one takes the next ticket and waits; once
TICKETED_ATOMIC has performed it, its answer is delivered. -/
def Obligations.Atomics : Prop :=
  ∀ (f : Lm) (s : State) (ps : List Part),
    let acc : Access := ⟨true, true, 0, none, false⟩
    let n := 2 ^ f.size.toNat
    let w := 2 ^ (8 * n)
    let old := leNat (heldBytes s acc ps)
    let v := (s.g f.d).toNat % w
    let low (r : BitVec 5) : Nat := if n = 16 then pairNat s r else (s.g r).toNat % w
    let new : Nat := match f.x.toNat with
      | 0 => v
      | 1 => (old + v) % w
      | 2 => Nat.land old v
      | 3 => Nat.lor old v
      | 4 => Nat.xor old v
      | 5 => if signedNat n old ≤ signedNat n v then old else v
      | 6 => if signedNat n old ≤ signedNat n v then v else old
      | 7 => min old v
      | _ => max old v
    let gives (u t : State) (x : Nat) : Prop :=
      if f.size = 4 then WritesPair u t f.d (lowWord x) (highWord x) else WritesG u t f.d (BitVec.ofNat 64 x)
    (f.order ≠ 6 → AtomicReaches s f n ps →
      Completes (.amo f) s (fun t => ∃ u, StoreFrame s u ∧ Stored s u acc ps (leBytes n new) ∧ u.full = s.full ∧ gives u t old) ∧
      Completes (.cas f) s (fun t => ∃ u, StoreFrame s u ∧ u.full = s.full ∧ gives u t old ∧
        (if old = low f.x then Stored s u acc ps (leBytes n (low f.d)) else SameMemory s u))) ∧
    (∀ i, i = .amo f ∨ i = .cas f → f.order = 6 → (accessAddr s f).toNat % n = 0 →
      (s.cpu.ticket = none → Completes i s (fun t =>
        t.ticketNext = s.ticketNext + 1 ∧ t.tickets = s.tickets ++ [(s.ticketNext, s.cur, i, s.cpu.g)] ∧
        t.cpu = { s.cpu with ticket := some s.ticketNext, reply := none, blocked := some (i, s.cpu.pc) } ∧ SameMemory s t)) ∧
      (∀ m r, s.cpu.ticket = some m → s.cpu.reply = some r → r.fault = none → Completes i s (fun t => ∃ u,
        u = s.setCpu { s.cpu with ticket := none, reply := none } ∧ gives u t r.value.toNat)))

/-- R339, R340: ENQ claims, ENQ.commit commits, DEQ claims and DEQ.free frees, on a well-formed header at home b. One index
of the header moves on by 1, or the operation answers 0 and writes nothing. -/
def Obligations.UserQueues : Prop :=
  ∀ (f : Lm) (s : State) (p : Part) (b : Nat) (h : Header),
    (accessAddr s f).toNat % 64 = 0 → AtomicReaches s f 64 [p] → p.home = .plain b →
    parseHeader (leNat (s.bytes b 64)) = some h →
    let slots := 2 ^ h.log2n
    let slot (k : W64) : W64 := h.ring + BitVec.ofNat 64 (64 * (k.toNat % slots))
    -- where it goes on, index number i takes v and g[d] the result r
    let does (ins : Instr) (go : Bool) (r : W64) (i : Nat) (v : W64) : Prop :=
      Completes ins s (fun t => ∃ u, StoreFrame s u ∧ u.full = s.full ∧
        (if go then WritesG u t f.d r ∧ SameMemoryOutside s u (b + 8 * i) 8 ∧ u.bytes (b + 8 * i) 8 = leBytes 8 v.toNat
         else WritesG u t f.d 0 ∧ SameMemory s u))
    does (.enq f) ((h.wi - h.fi).toNat < slots) (slot h.wi) 0 (h.wi + 1) ∧
    does (.enqCommit f) (h.ci.toNat < h.wi.toNat ∧ slot h.ci = s.g f.d) 1 1 (h.ci + 1) ∧
    does (.deq f) (h.ri.toNat < h.ci.toNat) (slot h.ri) 2 (h.ri + 1) ∧
    does (.deqFree f) (h.fi.toNat < h.ri.toNat ∧ slot h.fi = s.g f.d) 1 3 (h.fi + 1)

/-- R329, R330, R43: a CP access whose order is not plain and which is not aligned to its size raises 44, and one whose
translation fails raises that cause with the access's address; the alignment is tested first (log 80: DEDUCED). A compute core stops precisely at the instruction,
and no byte is written and no register changes. -/
def Obligations.AccessTraps : Prop :=
  ∀ (f : Lm) (s : State) (c : CoreId) (i : Instr) (k : Kind) (n : Nat),
    ((i = .ld f ∧ k = .load ∨ i = .st f ∧ k = .store ∨ (i = .amo f ∨ i = .cas f) ∧ k = .atomic ∧ f.order ≠ 6) ∧ n = 2 ^ f.size.toNat) ∨
    ((i = .ldp f ∧ k = .load ∨ i = .stp f ∧ k = .store) ∧ n = 16) →
    s.cur = .compute c → (s.core c).held = none →
    let va := accessAddr s f
    (f.order ≠ 0 → va.toNat % n ≠ 0 → Completes i s (fun t => Stops s t c .precise 44 0 (cpDetail c) s.cpu.pc)) ∧
    ∀ cause x, (f.order ≠ 0 → va.toNat % n = 0) → (orderReleases f.order.toNat → s.acked s.agent) →
      -- no walker and no regulator makes it wait (R45, R439)
      walkGate s.who k va n (if orderReleases f.order.toNat then s.release s.agent else s) = .ok ((), x) →
      translateAccess x s.who k (f.fe ≠ 0 && k ≠ .atomic) va n = .error cause →
      Completes i s (fun t => Stops s t c .precise cause va (cpDetail c) s.cpu.pc)

/-- R86, R220, R436: a CP access to plain bytes one of whose words is bad raises 324 for an uncorrectable error and 325 for a
check value that does not match, once it would neither wait nor meet a race; a store meets only words that it would
replace in part. The core stops precisely, the fault address is the first byte of the 64-byte unit, no register
changes and no byte is written. -/
def Obligations.BadData : Prop :=
  ∀ (f : Lm) (s u : State) (c : CoreId) (i : Instr) (kind : Kind) (n : Nat) (p : Part) (h k : Nat) (x : Flaw),
    ((i = .ld f ∧ kind = .load ∨ i = .st f ∧ kind = .store ∨ (i = .amo f ∨ i = .cas f) ∧ kind = .atomic ∧ f.order ≠ 6) ∧
      n = 2 ^ f.size.toNat) ∨ ((i = .ldp f ∧ kind = .load ∨ i = .stp f ∧ kind = .store) ∧ n = 16) →
    s.cur = .compute c → (s.core c).held = none → f.fe = 0 →
    let va := accessAddr s f
    let acc : Access := if kind = .atomic then ⟨true, true, 0, none, false⟩ else ⟨f.order ≠ 0, false, 0, none, false⟩
    let write := decide (kind ≠ .load)
    (f.order ≠ 0 → va.toNat % n = 0) → (orderReleases f.order.toNat → s.acked s.agent) →
    translateRows s.who kind false [(va, n)] (if orderReleases f.order.toNat then s.release s.agent else s) = .ok ([p], u) →
    p.home = .plain h → p.len = n → versionOf u s.agent acc p = none →
    partWaits u s.who acc write p = none → partRace u s.agent acc write p = none →
    u.flawIn (decide (kind = .store)) h n = some (k, x) →
    Completes i s (fun t => Stops s t c .precise (if x = .ecc then 324 else 325)
      (unitOf (p.va + BitVec.ofInt 64 (8 * k - h))) (cpDetail c) s.cpu.pc)

/-- R86, R228, R252, R417 (log 79): what goes wrong with storage in a turn of its own. A double-bit error makes its word bad, a
check value that does not match every word of its unit; no byte, register or flag changes. An error in register
storage stops the core with 336. Corrected errors and lost arbitrations are counted. -/
def Obligations.StorageErrors : Prop :=
  ∀ (s : State) (c : CoreId), s.requests.unpaid = none → let k := s.core c
    let bad (t : State) (w : Nat) (x : Flaw) : Prop := tfind t.flaws w = some x
    (∀ a, ownStorage a = true → s.fbcStores = [] → s.held = [] →
      (∃ t, turn (.mishap (.doubleBit a)) s = .next t ∧ t = { s with flaws := t.flaws } ∧ SameMemory s t ∧
        bad t (a / 8) .ecc ∧ ∀ w, w ≠ a / 8 → tfind t.flaws w = tfind s.flaws w) ∧
      (∃ t, turn (.mishap (.badCheck a)) s = .next t ∧ t = { s with flaws := t.flaws } ∧ SameMemory s t ∧
        ∀ w, if w / 8 = a / 64 then (t.flaws.any fun f => f.1 = w) = true else tfind t.flaws w = tfind s.flaws w)) ∧
    (k.run ≠ .off → k.held = none → ∃ t, turn (.mishap (.registers c)) s = .next t ∧ SameMemory s t ∧
      (t.core c).held = some ⟨.async, 336, 0, cpDetail c, false, none, []⟩ ∧ ∀ d, d ≠ c → t.core d = s.core d) ∧
    (∃ t, turn (.mishap (.corrected c)) s = .next t ∧ SameMemory s t ∧
      t = s.setCore c { k with telemetry := k.telemetry.set 6 (k.telemetry[6] + 1) }) ∧
    ∀ b : Fin 8, ∃ t, turn (.mishap (.tileReadLost c b)) s = .next t ∧ SameMemory s t ∧
      let n := k.bankloss[b.val]
      t = s.setCore c { k with bankloss := k.bankloss.set b.val (if n = 0xFFFFFFFF then n else n + 1) }

/-- R308, R309, R310, R311: the elementwise arithmetic of the vector slot and of the long form. Integer results are exact and
then wrap or clamp; floating results round once; VMAX, VMIN, VABS and VNEG never round. -/
def Obligations.VectorArithmetic : Prop :=
  ∀ (x : SlotV) (y : Lv) (s : State),
    let both (short : SlotV → Instr) (long : Lv → Instr) (op : VecOp) (readsD : VecArgs → Bool)
        (effect : VecArgs → State → List (Nat × FpFlags)) : Prop :=
      let run (i : Instr) (v : VecArgs) : Prop :=
        VecRuns i op v (readsD v) (fun w => writeResults w v.ty.toNat v.d (effect v w)) s
      run (short x) (.ofSlot x) ∧ run (long y) (.ofLong y)
    let arith (iop : Int → Int → Int) (fop : BitVec 2 → FVal → FVal → FVal × Bool) (v : VecArgs) (w : State) :=
      elements2 w v fun a b =>
        let ty := v.ty.toNat
        let F := fmtFloat ty
        if isIntType ty then narrowed ty v.sat (iop (elemValue ty a) (elemValue ty b))
        else floated ty v.rnd (fop v.rnd (F.decode a) (F.decode b)) [F.decode a, F.decode b]
    let order (larger : Bool) (v : VecArgs) (w : State) := elements2 w v fun a b =>
      let ty := v.ty.toNat
      let F := fmtFloat ty
      if isIntType ty then ((if larger then (if elemValue ty a < elemValue ty b then b else a)
        else (if elemValue ty b < elemValue ty a then b else a)), 0)
      else ((if (F.decode a).isNan then (if (F.decode b).isNan then F.nanCode else b)
        else if (F.decode b).isNan then a
        else if (if larger then (F.decode a).below (F.decode b) else (F.decode b).below (F.decode a)) then b else a),
        sigFlag [F.decode a, F.decode b])
    let sign (iop : Int → Int) (fop : Nat → Nat → Nat) (v : VecArgs) (w : State) :=
      (w.specElems v.ty.toNat v.a).map fun a =>
        let ty := v.ty.toNat
        let F := fmtFloat ty
        if isIntType ty then narrowed ty v.sat (iop (elemValue ty a))
        else if (F.decode a).isNan then (F.nanCode, sigFlag [F.decode a]) else (fop (F.width - 1) a, 0)
    both .vaddSlot .vadd .add (fun _ => false) (arith (· + ·) FVal.add) ∧
    both .vsubSlot .vsub .sub (fun _ => false) (arith (· - ·) fun m a b => FVal.add m a b.negate) ∧
    both .vmulSlot .vmul .mul (fun _ => false) (arith (· * ·) fun _ => FVal.mul) ∧
    both .vfmaSlot .vfma .fma (fun v => v.long) (fun v w => elements3 w v (if v.long then v.d else v.c) fun a b c =>
      let ty := v.ty.toNat
      let F := fmtFloat ty
      if isIntType ty then narrowed ty v.sat (elemValue ty a * elemValue ty b + elemValue ty c)
      else floated ty v.rnd (FVal.fma v.rnd (F.decode a) (F.decode b) (F.decode c)) [F.decode a, F.decode b, F.decode c]) ∧
    both .vmaxSlot .vmax .max (fun _ => false) (order true) ∧
    both .vminSlot .vmin .min (fun _ => false) (order false) ∧
    both .vabsSlot .vabs .abs (fun _ => false) (sign (fun a => |a|) fun n a => a % 2 ^ n) ∧
    both .vnegSlot .vneg .neg (fun _ => false)
      (sign (fun a => -a) fun n a => if a / 2 ^ n % 2 = 1 then a - 2 ^ n else a + 2 ^ n)

/-- R312 to R317: the bitwise operations on 512 bits, shifts, comparisons, selection, moves and conversions, in both
forms. -/
def Obligations.VectorBitsAndMoves : Prop :=
  ∀ (x : SlotV) (y : Lv) (s : State),
    let both (short : SlotV → Instr) (long : Lv → Instr) (op : VecOp) (readsD : VecArgs → Bool)
        (effect : VecArgs → State → State) : Prop :=
      VecRuns (short x) op (.ofSlot x) (readsD (.ofSlot x)) (effect (.ofSlot x)) s ∧
      VecRuns (long y) op (.ofLong y) (readsD (.ofLong y)) (effect (.ofLong y)) s
    let no (_ : VecArgs) : Bool := false
    let bits (f : Nat → Nat → Nat) (v : VecArgs) (w : State) : State :=
      w.writeSingle v.d (Vector.ofFn fun i => BitVec.ofNat 32
        (f (w.specValue false false v.ty v.a)[i].toNat (w.specValue false false v.ty v.b)[i].toNat))
    let amount (v : VecArgs) (b : Nat) : Nat := if v.ty = 6 then b % 8 else b % 32
    -- the width of a mask element: that of the type, or a lane for the pair types
    let maskTy (v : VecArgs) : Nat := if v.ty = 3 ∨ v.ty = 6 then v.ty.toNat else 1
    both .vandSlot .vand .and no (bits Nat.land) ∧
    both .vorSlot .vor .or no (bits Nat.lor) ∧
    both .vxorSlot .vxor .xor no (bits Nat.xor) ∧
    both .vshlSlot .vshl .shl no (fun v w => writeResults w v.ty.toNat v.d (elements2 w v fun a b =>
      (a * 2 ^ amount v b % 2 ^ elemBits v.ty.toNat, 0))) ∧
    both .vshrSlot .vshr .shr no (fun v w => writeResults w v.ty.toNat v.d (elements2 w v fun a b =>
      ((elemValue v.ty.toNat a / 2 ^ amount v b % 2 ^ elemBits v.ty.toNat).toNat, 0))) ∧
    both .vcmpSlot .vcmp .cmp no (fun v w =>
      let ty := v.ty.toNat
      let F := fmtFloat ty
      let ordered := v.ext = 1 ∨ v.ext = 2 ∨ v.ext = 5 ∨ v.ext = 6
      let rs := elements2 w v fun a b =>
        let holds := if isIntType ty then condOf v.ext (elemBits ty) a b
          else fcondOf v.ext.toNat (F.decode a) (F.decode b)
        ((if holds then 2 ^ (if ty = 3 then 16 else if ty = 6 then 8 else 32) - 1 else 0),
         if isIntType ty then 0
         else if (F.decode a).isSig ∨ (F.decode b).isSig ∨ (ordered ∧ ((F.decode a).isNan ∨ (F.decode b).isNan)) then fNV else 0)
      (w.writeElems (maskTy v) v.d (rs.map fun r => r.1)).addFlags (rs.foldl (fun f r => f ||| r.2) 0)) ∧
    both .vselSlot .vsel .sel no (fun v w =>
      let ms := elemsOf (maskTy v) (w.specValue false false v.ty (if v.long then some .lat else v.c)) (Vector.replicate 16 0)
      let top := 2 ^ (if v.ty = 3 then 15 else if v.ty = 6 then 7 else 31)
      w.writeElems v.ty.toNat v.d (List.zipWith (fun (p : Nat × Nat) m => if m ≥ top then p.1 else p.2)
        (List.zipWith Prod.mk (w.specElems v.ty.toNat v.a) (w.specElems v.ty.toNat v.b)) ms)) ∧
    both .vmovSlot .vmov .mov no (fun v w => w.writeElems v.ty.toNat v.d (w.specElems v.ty.toNat v.a)) ∧
    (let wide (f : Nat) : Bool := f = 3 || f = 6 || f = 7 || f = 8
     let formats (v : VecArgs) : Nat × Nat := cvtFormats v.ty (fld v.bRaw 0 4).toNat
     both .vcvtSlot .vcvt .cvt (fun v => wide (formats v).2) (fun v w =>
      let src := w.specElems (formats v).1 v.a
      let o := 16 * v.ops.toNat
      let rs := ((if wide (formats v).1 then src.drop o else src).take 16).map
        (convertElem (formats v).1 (formats v).2 v.rnd v.sat)
      let es := rs.map fun r => r.1
      let old := w.specElems (formats v).2 v.d
      (w.writeElems (formats v).2 v.d
        (if wide (formats v).2 then old.take o ++ es ++ old.drop (o + 16) else es)).addFlags (rs.foldl (fun f r => f ||| r.2) 0)))

/-- R318 to R324: compensated pairs, reductions, the functions of one operand, rearrangement, and VQUANT. -/
def Obligations.VectorSpecial : Prop :=
  ∀ (x : SlotV) (y : Lv) (s : State),
    let both (short : SlotV → Instr) (long : Lv → Instr) (op : VecOp) (readsD : Bool) (effect : VecArgs → State → State) : Prop :=
      VecRuns (short x) op (.ofSlot x) readsD (effect (.ofSlot x)) s ∧
      VecRuns (long y) op (.ofLong y) readsD (effect (.ofLong y)) s
    let only (i : Instr) (op : VecOp) (effect : VecArgs → State → State) : Prop :=
      VecRuns i op (.ofLong y) false (effect (.ofLong y)) s
    let pairs (w : State) (sp : Option Spec) : List (Lane × Lane) :=
      (w.specElems 5 sp).map fun c => (BitVec.ofNat 32 c, BitVec.ofNat 32 (c / 2 ^ 32))
    let singles (w : State) (sp : Option Spec) : List Lane := (w.specValue false false 0 sp).toList
    let code (p : Lane × Lane) : Nat := p.1.toNat + 2 ^ 32 * p.2.toNat
    let unary (f : Nat → Nat × FpFlags) (v : VecArgs) (w : State) : State :=
      writeResults w v.ty.toNat v.d ((w.specElems v.ty.toNat v.a).map f)
    let F := fmtFloat (VecArgs.ofLong y).ty.toNat
    let ty := (VecArgs.ofLong y).ty.toNat
    let rnd := (VecArgs.ofLong y).rnd
    let index (v : VecArgs) (w : State) (n : Nat) : Nat := (w.specValue false false 0 v.b)[0].toNat % 64 % n
    both .vcaccSlot .vcacc .cacc true (fun v w =>
      let rs := List.zipWith (fun p a => (fadePair w.thisCore.fade (cAcc p a), cfFlags [p.1, p.2, a] (cAcc p a)))
        (pairs w v.d) (singles w v.a)
      let fade := fadeCount w.thisCore.fade (rs.countP fun r => r.1.2)
      writeResults (w.modHere fun k => { k with fade := fade }) 5 v.d (rs.map fun r => (code r.1.1, r.2))) ∧
    both .vtwosumSlot .vtwosum .twosum false (fun v w =>
      writeResults w 5 v.d (List.zipWith (fun a b => (code (twoSum a b), cfFlags [a, b] (twoSum a b)))
        (singles w v.a) (singles w v.b))) ∧
    both .vredSlot .vred .red false (fun v w =>
      -- element 0 takes the result, and every other lane zero
      let r := reduceElems v.ty.toNat v.ext.toNat v.rnd v.sat (w.specElems v.ty.toNat v.a)
      writeResults w (if v.ty = 4 then 4 else 1) v.d (r :: List.replicate 15 (0, 0))) ∧
    only (.vexp2 y) .exp2 (unary fun a => floated ty rnd ((F.decode a).exp2, false) [F.decode a]) ∧
    only (.vrcp y) .rcp (unary fun a =>
      let r := floated ty rnd ((F.decode a).recip.1, false) [F.decode a]
      (r.1, r.2 ||| flagIf (F.decode a).isZero fDZ)) ∧
    only (.vrsq y) .rsq (unary fun a =>
      let r := floated ty rnd ((F.decode a).rsqrt.1, (F.decode a).rsqrt.2.1) [F.decode a]
      (r.1, r.2 ||| flagIf (F.decode a).isZero fDZ)) ∧
    only (.vsplat y) .splat (fun v w =>
      let es := w.specElems v.ty.toNat v.a
      w.writeElems v.ty.toNat v.d (es.map fun _ => es.getD (index v w es.length) 0)) ∧
    only (.vextr y) .extr (fun v w =>
      let es := w.specElems v.ty.toNat v.a
      let e := es.getD (index v w es.length) 0
      match v.d with
      | some (.scalar n) => w.setG n (if v.ty = 1 ∨ v.ty = 6 then BitVec.ofInt 64 (elemValue v.ty.toNat e) else BitVec.ofNat 64 e)
      | _ => w) ∧
    only (.vperm y) .perm (fun v w =>
      let b := singles w v.b
      if v.ext = 1 then
        w.writeElems 6 v.d ((b.flatMap fun l => [l.toNat % 256, l.toNat / 256 % 256, l.toNat / 65536 % 256, l.toNat / 2 ^ 24]).map
          fun k => if k ≥ 128 then 0 else (w.specElems 6 v.a).getD (k % 64) 0)
      else
        let f := if v.ty = 4 ∨ v.ty = 5 then v.ty.toNat else 1
        w.writeElems f v.d (b.map fun k => if k.toNat ≥ 2 ^ 31 then 0 else (w.specElems f v.a).getD (k.toNat % 16) 0)) ∧
    only (.vquant y) .quant (fun v w =>
      let vs := quantSources w v
      (w.writeElems 6 v.d ((quantiseBytes vs).map fun b => b.toNat)).addFlags (flagIf (quantiseInexact vs) fNX))

/-- R250, R251, R254, R305: what is written to a destination is read back from it, element for element; a single
register's or tile line's result is in lat as well and a pair's leaves lat; nothing else of the core changes. -/
def Obligations.VectorDestinations : Prop :=
  ∀ (ty : Nat) (sp : Spec) (es : List Nat) (s : State),
    let pair := ty = 4 ∨ ty = 5
    ty ≤ 8 → es.length = fmtElems ty → (∀ e ∈ es, e < 2 ^ fmtBits ty) →
    (match sp with
     | .lat => ¬pair
     | .reg n => pair → n.toNat % 2 = 0
     | .tile t _ _ => pair → t.toNat % 2 = 0
     | .scalar _ => False) →
    let t := s.writeElems ty (some sp) es
    t.specElems ty (some sp) = es ∧ SameMemory s t ∧
    (if pair then t.thisCore.lat = s.thisCore.lat else elemsOf ty t.thisCore.lat (Vector.replicate 16 0) = es) ∧
    t = s.modHere (fun k => { k with v := t.thisCore.v, lat := t.thisCore.lat, tiles := t.thisCore.tiles }) ∧
    (∀ r, (match sp with | .reg n => r ≠ n ∧ (pair → r ≠ n + 1) | _ => True) → t.vreg r = s.vreg r) ∧
    ∀ a i j, i < 16 → j < 16 → (match sp with
      | .tile u dir k => (a ≠ u.toNat ∧ (pair → a ≠ u.toNat + 1)) ∨ ∀ n < 16, tileElem dir k.toNat n ≠ (i, j)
      | _ => True) → t.tileAt s.here a i j = s.tileAt s.here a i j

/-- R325, R326, R242: TCLR empties its tiles and zeroes their elements, TMARK fills them, and TWAIT goes on once they are full,
or empty; no other tile changes. -/
def Obligations.TileControl : Prop :=
  ∀ (f : Lb) (s : State),
    let named (n : Nat) : Prop := f.d.toNat ≤ n ∧ n ≤ f.d.toNat + f.c.toNat
    let tiles := (List.range (f.c.toNat + 1)).map fun i => f.d.toNat + i
    let w := woken s tiles
    f.d.toNat + f.c.toNat < 32 → (∀ n ∈ tiles, s.tilePower s.here n ≠ 2) →
    ((∀ n ∈ tiles, s.tileBusy s.here n = false) →
      Completes (.tclr f) s (fun t =>
        t = w.modHere (fun k => { k with tiles := t.thisCore.tiles, tfull := t.thisCore.tfull }) ∧ SameMemory s t ∧
        ∀ n < 32, (named n → t.tileFull s.here n = false ∧ ∀ i < 16, ∀ j < 16, t.tileAt s.here n i j = 0) ∧
          (¬named n → t.tileFull s.here n = s.tileFull s.here n ∧ ∀ i < 16, ∀ j < 16, t.tileAt s.here n i j = s.tileAt s.here n i j)) ∧
      Completes (.tmark f) s (fun t =>
        t = w.modHere (fun k => { k with tfull := t.thisCore.tfull }) ∧ SameMemory s t ∧
        ∀ n < 32, t.tileFull s.here n = (if named n then true else s.tileFull s.here n))) ∧
    ((∀ n ∈ tiles, s.tileFull s.here n = !f.x.getLsbD 0) → Completes (.twait f) s (fun t => t = w ∧ SameMemory s t))

/-- R114, R115, R117, R118, R343, R344, R351: the flag operations on a compute core's own flags, and on the flags of the core
that imm16 names on a system core. FWAIT takes its threshold where no earlier wait would go first. FSIG to
another core sends its addition, and one outside the partition raises 75. On a system core FRD reads the value whatever it
selects (log 20: DEDUCED), and an addition to the core's own flag takes effect in the same step (log 21: DESIGN
CHOICE). -/
def Obligations.FlagOperations : Prop :=
  ∀ (f : Ls) (s : State) (c : CoreId),
    let n := flagAmount s f
    let v := (s.core c).flag f.flag
    let target : CoreId := ⟨(fld f.imm 0 8).toNat, (fld f.imm 0 8).isLt⟩
    let a := s.agent
    (s.cur = .compute c ∨ ((∃ k, s.cur = .system k) ∧ c = target) →
      Completes (.fset f) s (fun t => WritesFlag s t c f.flag { v with value := BitVec.ofNat 32 n, adds := [], consumed := 0 }) ∧
      Completes (.fwin f) s (fun t => WritesFlag s t c f.flag { v with window := BitVec.ofNat 32 n }) ∧
      Completes (.frd f) s (fun t =>
        let sel := if s.cur = .compute c then (fld f.imm 0 2).toNat else 0
        match sel with
        | 0 => WritesG s t f.d (v.value.setWidth 64)
        | 1 => WritesG s t f.d (v.window.setWidth 64)
        | 2 => WritesG s t f.d (v.res.setWidth 64)
        | _ => ∃ u, WritesFlag s u c f.flag { v with overflow := none } ∧
            WritesG u t f.d (match v.overflow with | some g => BitVec.ofNat 64 (2 ^ 63 + g.toNat) | none => 0))) ∧
    (s.cur = .compute c → (n = 0 → Completes (.fwait f) s (fun t => t = s)) ∧
      (0 < n → n ≤ v.value.toNat → (∀ w ∈ (s.core c).waits, w.flag = f.flag → v.value.toNat < w.threshold) →
        Completes (.fwait f) s (fun t => ∃ u, t = { u with know := t.know } ∧ WritesFlag s u c f.flag
          { v with value := BitVec.ofNat 32 (v.value.toNat - n), consumed := v.consumed + n })) ∧
      (s.acked a → (f.imm.getLsbD 8 = false ∨ (c = target ∧ ∃ t, (s.core c).part = some t ∧ rectHas (s.part t).rect c)) →
        Completes (.fsig f) s (fun t => if n = 0 then t = released s a else ∃ k,
          WritesFlag (released s a) t c f.flag (flagAdded v ⟨a, n, k⟩))) ∧
      (s.acked a → f.imm.getLsbD 8 = true → c ≠ target →
        (∃ t, (s.core c).part = some t ∧ rectHas (s.part t).rect target) →
        Completes (.fsig f) s (fun t => if n = 0 then t = released s a else ∃ k,
          t = (released s a).modCore target (fun x => { x with signals := x.signals ++ [⟨f.flag, n, a, k⟩] }))) ∧
      ((s.core c).held = none → f.imm.getLsbD 8 = true →
        (∀ t, (s.core c).part = some t → rectHas (s.part t).rect target = false) →
        Completes (.fsig f) s (fun t => Stops s t c .precise 75 0 (cpDetail c) s.cpu.pc))) ∧
    (∀ k, s.cur = .system k → Completes (.fwait f) s (fun t => t = s) ∧
      (s.acked a → Completes (.fsig f) s (fun t => if n = 0 then t = released s a else ∃ k,
          t = (released s a).modCore target (fun x => { x with signals := x.signals ++ [⟨f.flag, n, a, k⟩] }))))

/-- R83, R125, R126, R220, R342: QPUSH is a release event, made once, and puts v[a] last into the queue of its neighbour, for one
credit; without credit it makes the release event and waits; across the lost die link it raises 371 (R437) (log 54: DEDUCED).
QPOP takes the oldest slot of the core's own queue into v[d] and lat, or raises 324 or 325, with fault address 0, where its
data is bad (log 79: DESIGN CHOICE). Nothing else of any core changes but credits. -/
def Obligations.NeighbourQueues : Prop :=
  ∀ (f : Lb) (s : State) (c : CoreId), s.cur = .compute c →
    let up := f.x.getLsbD 0
    let k := s.core c
    let next := ringTarget k c up
    -- the release event belongs to the first try
    let after : State := if k.x.pushing then s else released s s.agent
    let lost : Bool := s.linkLost (dieOf c) (dieOf next)
    (lost = true → k.held = none → Completes (.qpush f) s (fun t => Stops s t c .precise 371 0 (cpDetail c) s.cpu.pc)) ∧
    (lost = false → (k.x.pushing = false → s.acked s.agent) → 0 < (if up then k.creditUp else k.creditDown) →
      (s.qDown next up).slots.length < 8 → s.linkHolds (dieOf c) (dieOf next) .push = false →
      Completes (.qpush f) s (fun t => SameMemory s t ∧
        t = { after with cores := t.cores } ∧
        t.qDown next up = { s.qDown next up with slots := (s.qDown next up).slots ++ [s.vreg (fld f.a 0 3)] } ∧
        (if up then (t.core c).creditUp = k.creditUp - 1 ∧ (t.core c).creditDown = k.creditDown
         else (t.core c).creditDown = k.creditDown - 1 ∧ (t.core c).creditUp = k.creditUp) ∧
        ∀ d, t.core d = { s.core d with
          up := (t.core d).up, down := (t.core d).down
          creditUp := (t.core d).creditUp, creditDown := (t.core d).creditDown
          x := if d = c then { (s.core d).x with pushing := false } else (s.core d).x } ∧
          (d ≠ next → t.qDown d up = s.qDown d up) ∧ t.qDown d (!up) = s.qDown d (!up))) ∧
    (lost = false → (k.x.pushing = false → s.acked s.agent) → (if up then k.creditUp else k.creditDown) = 0 →
      Completes (.qpush f) s (fun t =>
        t = after.setCore c { k with x := { k.x with pushing := true, blocked := some (.qpush f, k.x.pc) } })) ∧
    (∀ x, (s.qDown c up).slots ≠ [] → (s.qDown c up).bad = some x → k.held = none →
      Completes (.qpop f) s (fun t => Stops s t c .precise (if x = .ecc then 324 else 325) 0 (cpDetail c) s.cpu.pc)) ∧
    (∀ v r, (s.qDown c up).slots = v :: r → (s.qDown c up).bad = none →
      Completes (.qpop f) s (fun t => SameMemory s t ∧
        t = { s with cores := t.cores } ∧
        t.vreg (fld f.d 0 3) = v ∧ (t.core c).lat = v ∧ (∀ n, n ≠ fld f.d 0 3 → t.vreg n = s.vreg n) ∧
        t.qDown c up = ⟨r, (s.qDown c up).head + 1, none⟩ ∧
        ∀ d, t.core d = { s.core d with
          up := (t.core d).up, down := (t.core d).down, v := (t.core d).v, lat := (t.core d).lat
          creditUp := (t.core d).creditUp, creditDown := (t.core d).creditDown } ∧
          (d ≠ c → (t.core d).v = (s.core d).v ∧ (t.core d).lat = (s.core d).lat ∧ t.qDown d up = s.qDown d up) ∧
          t.qDown d (!up) = s.qDown d (!up)))

/-- R97, R199, R301, R303, R345, R346, R348, R351: SPAWN queues a launch; WORK and DONE end a running piece, and outside one
DONE does nothing and WORK seeks work; GBAR is a release event, and a piece arrives with it, as a member of its own at each
barrier (log 107: DEDUCED), and waits; YIELD is a release event; WFB and GBAR complete at once where there is nothing
to wait for. The piece's stores to FBC blocks are performed before its commit (log 67: DEDUCED). -/
def Obligations.TaskInstructions : Prop :=
  ∀ (f : La) (j : Lb) (s : State),
    let a := s.agent
    (∀ c p, s.cur = .compute c → (s.core c).part = some p →
      let va := BitVec.ofInt 64 ((s.g f.a).toNat + immInt f)
      va.toNat % 64 = 0 → s.acked a → ∀ bs u,
      loadBytes s.who .load {} va 64 (noteFence (released s a) a 4 (s.passes a)) = .ok (bs, u) →
      Completes (.spawn f) s (fun t =>
        t.launchQueue = s.launchQueue ++ [⟨p, (s.part p).nextLaunch, bs, s.passes a⟩] ∧
        (t.part p).nextLaunch = (s.part p).nextLaunch + 1 ∧ GBut s t f.d ((s.part p).nextLaunch.setWidth 64) ∧ SameMemory s t)) ∧
    (∀ c, s.cur = .compute c → (s.core c).piece = none →
      Completes (.done j) s (fun t => t = s) ∧ (s.acked a → Completes (.gbar f) s (fun t => t = released s a)) ∧
      Completes (.work j) s (fun t => t = s.modCore c fun k => { k with run := .seek, workAt := some k.x.npc })) ∧
    (∀ c q, s.cur = .compute c → (s.core c).piece = some q →
      (s.acked a → Completes (.gbar f) s (fun t => t.seq a = s.seq a + 1 ∧ SameMemory s t ∧
        t.cpu = { s.cpu with blocked := some (.gbar f, s.cpu.pc) } ∧
        ∃ b ∈ t.barriers, b.launch = q.launch ∧ b.group = barrierGroup f (s.core c).lrect c ∧ q.member c ∈ b.arrived ∧
          ∀ d ∈ b.arrived, d = q.member c ∨ ∃ o ∈ s.barriers, o.launch = b.launch ∧ o.group = b.group ∧ d ∈ o.arrived)) ∧
      ((∀ x ∈ allQueues, ((s.core c).queue x).flights = [] ∧ ((s.core c).queue x).waiting = []) → ∀ u,
        storeOperands (s.whoCore c 0) c q.opnds s = .ok ((), u) →
        let w := (drainFbc u (unitAgent c 0)).commitVersion c
        w.acked w.agent → ∀ i, i = .done j ∨ i = .work j →
          Completes i s (fun t => t = (released w w.agent).pieceDone c ∧ (t.core c).piece = none))) ∧
    (∀ c, s.cur = .compute c → s.acked a → Completes (.yield j) s (fun t =>
      let w := (released s a).modCore c fun k => { k with dog := s.us }
      t = if (s.core c).piece.isSome ∧ w.hasCandidate c then w.modCore c fun k => { k with preempt := true } else w)) ∧
    (∀ c, s.cur = .compute c → (∀ q ∈ allQueues, ((s.core c).queue q).holdsNote = false) →
      Completes (.wfb j) s (fun t => t = s)) ∧
    (∀ k, s.cur = .system k → Completes (.done j) s (fun t => t = s) ∧ Completes (.work j) s (fun t => t = s) ∧
      Completes (.gbar f) s (fun t => t = s) ∧ Completes (.wfb j) s (fun t => t = s) ∧
      (s.acked a → Completes (.yield j) s (fun t => t = released s a)))

/-- R123, R164, R165, R181, R193, R204, R240, R349: RDSR gives a user register and WRSR writes one under its field access, on a compute
core: the QSTAT, switch-format, telemetry and codec registers among them (R157, R359, R364, R417); read-only registers
ignore the write. Only the cycle counter and telemetry move with a read. -/
def Obligations.UserSpecialRegisters : Prop :=
  ∀ (f : La) (s : State) (c : CoreId), s.cur = .compute c →
    let n := f.imm.toNat % 4096
    let k := s.core c
    let x := c.val % 16
    let y := c.val / 16
    let v := s.g f.a
    -- the region that CODECSEL names, and whether it is assigned to the core's own space
    let reg : Region := s.regions[k.codecsel.toNat]'k.codecsel.isLt
    let own : Prop := ∃ p, k.part = some p ∧ reg.space = some (BitVec.ofNat 6 p.val)
    Completes (.rdsr f) s (fun t => ∃ r u, WritesG u t f.d r ∧
      u = { s with moment := u.moment, events := u.events, cores := s.cores.set c.val { k with
        x := { k.x with cycle := (u.core c).x.cycle }, telemetry := (u.core c).telemetry } } ∧
      (n < 0x200 → n ≠ 0x008 → n ≠ 0x018 → u = s) ∧
      (n = 0x000 → r.toNat = (y % 2 * 2 + x % 2) * 2 ^ 14 + (y / 2 * 8 + x / 2) * 2 ^ 8 + c.val) ∧
      (n = 0x002 → r = k.taskId) ∧ (n = 0x003 → r = k.rangeLo) ∧ (n = 0x004 → r = k.rangeHi) ∧
      (n = 0x005 → r.toNat = k.session.toNat) ∧ (n = 0x006 → r.toNat = k.feat.toNat) ∧ (n = 0x010 → r = k.fade) ∧
      (n = 0x011 → r.toNat = k.x.rmode.toNat) ∧ (n = 0x012 → r.toNat = k.x.fpstat.toNat) ∧
      (n = 0x020 → r.toNat = 8 * k.faultpc.toNat) ∧
      (∀ i : Fin 8, n = 0x030 + i → r.toNat = k.bankloss[i].toNat) ∧
      (n = 0x040 → r.toNat / 2 ^ 32 = k.rings.toNat ∧ r.getLsbD 14 = k.bellErr) ∧
      (n = 0x2F0 → r.toNat = k.codecsel.toNat) ∧
      (∀ i : Fin 32, (n = 0x100 + 2 * i.val → r.toNat = (s.switchQueue c i.val).srcFmt.toNat) ∧
        (n = 0x101 + 2 * i.val → r.toNat = (s.switchQueue c i.val).snkFmt.toNat)) ∧
      (∀ i : Fin 6, n = 0x2E0 + i.val → let q := k.queues[i].stat
        r.toNat = q.failed.toNat * 2 ^ 48 + q.arith.toNat * 2 ^ 41 + q.cause.toNat * 2 ^ 32 + q.pos.toNat * 2 ^ 27 + q.item.toNat) ∧
      (own → (n = 0x2F1 → r = reg.enc) ∧ (n = 0x2F2 → r = reg.lossy) ∧ (n = 0x2F3 → r = reg.maxerr)) ∧
      (¬own → n ∈ [0x2F1, 0x2F2, 0x2F3] → r = 0)) ∧
    Completes (.wrsr f) s (fun t => SameMemory s t ∧ t.cpu.g = s.cpu.g ∧
      (n = 0x003 → t = s.modCore c fun k => { k with rangeLo := v }) ∧
      (n = 0x010 → t = s.modCore c fun k => { k with fade := v &&& 0xFFFFFFFF0000FF01 }) ∧
      (n = 0x011 → t = s.modCore c fun k => { k with x := { k.x with rmode := v.setWidth 2 } }) ∧
      (n = 0x012 → t = s.modCore c fun k => { k with x := { k.x with fpstat := k.x.fpstat &&& ~~~(v.setWidth 6) } }) ∧
      (n = 0x020 → t = s.modCore c fun k => { k with faultpc := BitVec.ofNat 61 (v.toNat / 8) }) ∧
      (∀ i : Fin 8, n = 0x030 + i → t = s.modCore c fun k => { k with bankloss := k.bankloss.set i (v.setWidth 32) }) ∧
      (n = 0x2F0 → t = s.modCore c fun k => { k with codecsel := v.setWidth 6 }) ∧
      (n ∈ [0x000, 0x001, 0x002, 0x004, 0x005, 0x006, 0x008, 0x018, 0x040] → t = s) ∧
      -- a switch format register takes a byte that is not at fault
      (∀ (i : Fin 32) (sink : Bool), n = 0x100 + 2 * i.val + (if sink then 1 else 0) →
        t = s.setCore c { k with switch := (t.core c).switch } ∧ (∀ m, m ≠ i.val → t.switchQueue c m = s.switchQueue c m) ∧
        t.switchQueue c i.val = (let q := s.switchQueue c i.val
          if formatByteFault (v.setWidth 8) sink then q
          else if sink then { q with snkFmt := v.setWidth 8 } else { q with srcFmt := v.setWidth 8 })) ∧
      (∀ i : Fin 10, n = 0x200 + i.val →
        (if i = 7 ∧ k.part.isSome ∧ (∃ q, k.piece = some q ∧ q.session.isSome) then ∀ p, k.part = some p →
          tget 0 (t.part p).rtmiss (k.session.toNat / 2 ^ 26 % 32) = v
        else (t.core c).telemetry[i] = v ∧ t = { s.setCore c { k with telemetry := (t.core c).telemetry } with events := t.events }) ∧
        ∀ j : Fin 10, j ≠ i → j.val ∉ [3, 8, 9] → (t.core c).telemetry[j] = k.telemetry[j]) ∧
      (∀ i : Fin 6, n = 0x2E0 + i.val → t = s.setCore c { k with queues := k.queues.set i { k.queues[i] with
        stat := { k.queues[i].stat with
          failed := BitVec.ofNat 16 (v.toNat / 2 ^ 48), arith := k.queues[i].stat.arith &&& ~~~BitVec.ofNat 5 (v.toNat / 2 ^ 41) } } }) ∧
      (let region (x : Region) : State := if own then { s with regions := s.regions.set k.codecsel.toNat x k.codecsel.isLt } else s
       (n = 0x2F1 → t = region { reg with enc := v }) ∧ (n = 0x2F2 → t = region { reg with lossy := v }) ∧
        (n = 0x2F3 → t = region { reg with maxerr := v })))

/-- R351, R406, R158, R218, R440: RDSR and WRSR on a system core: its exception registers, CTPEND, its own RMODE and FPSTAT, the
bandwidth regulators, the codec regions and the forecasts. Every other user number reads zero and ignores writes. -/
def Obligations.SystemSpecialRegisters : Prop :=
  ∀ (f : La) (s : State) (k : SysId), s.cur = .system k →
    let n := f.imm.toNat % 4096
    let y := s.sysCore k
    let v := s.g f.a
    -- the regulator that BWSEL selects
    let key := s.bwsel.toNat / 2 ^ 8 * 32 + s.bwsel.toNat % 32
    let reg := tget Regulator.zero s.regulators key
    Completes (.rdsr f) s (fun t => ∃ r u, WritesG u t f.d r ∧ (n ≠ 0x008 → u = s) ∧
      (n = 0x008 → u = { s.setSys k { y with x := { y.x with cycle := r } } with moment := s.moment + 1 }) ∧
      (n = 0x011 → r.toNat = y.x.rmode.toNat) ∧ (n = 0x012 → r.toNat = y.x.fpstat.toNat) ∧
      (n < 0x800 → n ∉ [0x008, 0x011, 0x012] → r = 0) ∧
      (n = 0x800 → r.toNat = 8 * y.svec.toNat) ∧ (n = 0x801 → r.toNat = 8 * y.sepc.toNat) ∧
      (n = 0x802 → r.toNat = y.scause.toNat / 512 * 2 ^ 63 + y.scause.toNat % 512) ∧
      (n = 0x803 → r.toNat = (if y.pie then 2 else 0) + (if y.ie then 1 else 0)) ∧
      (n = 0x804 → r = y.sscratch) ∧ (n = 0x805 → r = y.sfaddr) ∧
      (∀ i : Fin 4, n = 0x810 + i → r.toNat = y.ctpend.toNat / 2 ^ (64 * i.val) % 2 ^ 64) ∧ (n = 0x820 → r.toNat = k.val) ∧
      (n = 0xA00 → r.toNat = s.forecast[0].toNat) ∧ (n = 0xA01 → r.toNat = s.forecast[1].toNat) ∧
      (n = 0xB00 → r.toNat = s.bwsel.toNat) ∧
      (n = 0xB01 → r.toNat = (if reg.en then 2 ^ 63 else 0) + (if reg.hard then 2 ^ 62 else 0) + min 65535 (reg.used / 64) * 2 ^ 32 + reg.next.toNat) ∧
      (∀ i : Fin 64, let x := s.regions[i]
        (n = 0xC00 + i.val → r.toNat = (match x.space with | some m => 64 + m.toNat | none => x.spaceBits.toNat)) ∧
        (n = 0xC40 + 3 * i.val → r = x.enc) ∧ (n = 0xC41 + 3 * i.val → r = x.lossy) ∧ (n = 0xC42 + 3 * i.val → r = x.maxerr))) ∧
    Completes (.wrsr f) s (fun t => SameMemory s t ∧ t.cpu.g = s.cpu.g ∧ t.cores = s.cores ∧
      (n = 0x011 → t = s.modSys k fun y => { y with x := { y.x with rmode := v.setWidth 2 } }) ∧
      (n = 0x012 → t = s.modSys k fun y => { y with x := { y.x with fpstat := y.x.fpstat &&& ~~~(v.setWidth 6) } }) ∧
      (n < 0x800 → n ∉ [0x011, 0x012] → t = s) ∧
      (n = 0x800 → t = s.modSys k fun y => { y with svec := BitVec.ofNat 61 (v.toNat / 8) }) ∧
      (n = 0x801 → t = s.modSys k fun y => { y with sepc := BitVec.ofNat 61 (v.toNat / 8) }) ∧
      (n = 0x803 → t = s.modSys k fun y => { y with pie := v.getLsbD 1, ie := v.getLsbD 0 }) ∧
      (n = 0x804 → t = s.modSys k fun y => { y with sscratch := v }) ∧
      (n = 0x805 → t = s.modSys k fun y => { y with sfaddr := v }) ∧
      (n = 0x802 → t = s.modSys k fun y => { y with scause := BitVec.ofNat 10 (v.toNat / 2 ^ 63 * 2 ^ 9 + v.toNat % 2 ^ 9) }) ∧
      (n ∈ [0x810, 0x811, 0x812, 0x813, 0x820, 0xA00, 0xA01] → t = s) ∧
      (n = 0xB00 → t = if 48 ≤ v.toNat / 2 ^ 8 % 64 then s else { s with bwsel := BitVec.ofNat 14 (v.toNat / 2 ^ 8 % 64 * 2 ^ 8 + v.toNat % 32) }) ∧
      (n = 0xB01 → let x := tget Regulator.zero t.regulators key
        t = { s with regulators := t.regulators, requests := t.requests } ∧
        x.en = v.getLsbD 63 ∧ x.hard = v.getLsbD 62 ∧ x.next = v.setWidth 16 ∧ x.budget = reg.budget ∧
        -- one that is switched off holds nothing
        (x.en = false → ∀ m ∈ t.requests.held, m.reg = key → ∃ o ∈ t.requests.held, o.line = m.line ∧ o.reg ≠ key) ∧
        (s.requests.held = [] → t.requests = s.requests ∧ x.used = reg.used ∧
          ∀ j, j ≠ key → tget Regulator.zero t.regulators j = tget Regulator.zero s.regulators j)) ∧
      (∀ i : Fin 64, let x := s.regions[i]
        let region (y : Region) : State := { s with regions := s.regions.set i y }
        let space := BitVec.ofNat 6 (v.toNat % 64)
        (n = 0xC00 + i.val → t = if v.getLsbD 6 then (if 32 < space.toNat then s else region ⟨some space, space, 0, 0, 0⟩)
          else region { x with space := none, spaceBits := space }) ∧
        (n = 0xC40 + 3 * i.val → t = region { x with enc := v }) ∧ (n = 0xC41 + 3 * i.val → t = region { x with lossy := v }) ∧
        (n = 0xC42 + 3 * i.val → t = region { x with maxerr := v })))

/-- R53, R232, R242, R350, R351: FEATQ, CYCLE and LOCQ write their word; LOCQ never faults, and names the core of an own
scratchpad address. REGPWR puts each named tile bank into its state; a bank that is gated or comes back from that is
zero and empty at once (log 23: DEDUCED). -/
def Obligations.FeatureLocationPower : Prop :=
  ∀ (f : La) (j : Lb) (s : State),
    (∀ c, s.cur = .compute c → Completes (.featq j) s (fun t => WritesG s t j.d (BitVec.ofNat 64
      (256 * (match (s.core c).part with | some p => (s.part p).reqfeat.toNat | none => 0) + (s.core c).feat.toNat)))) ∧
    Completes (.cycle j) s (fun t => ∃ r, WritesG { s.setCpu { s.cpu with cycle := r } with moment := s.moment + 1 } t j.d r) ∧
    (let va := BitVec.ofInt 64 ((s.g f.a).toNat + immInt f)
     (∀ e, walkGate s.who .load va 1 s = .error e → Completes (.locq f) s (fun t => SameMemory s t ∧
      t.cpu = { s.cpu with blocked := some (.locq f, s.cpu.pc) })) ∧
     ∀ x, walkGate s.who .load va 1 s = .ok ((), x) → Completes (.locq f) s (fun t => ∃ r u, WritesG u t f.d r ∧ SameMemory s t ∧
      u = { s with tlb := u.tlb, walkCache := u.walkCache, regulators := u.regulators, requests := u.requests } ∧
      ∀ c, s.cur = .compute c → va.toNat / 2 ^ 44 = 0xFFFFF → va.toNat % 2 ^ 44 < 2 ^ 20 →
        r.toNat = 2 ^ 63 + 2 * 2 ^ 60 + c.val / 128 * 2 ^ 55 + (c.val / 32 * 8 + c.val % 16 / 2) * 2 ^ 49 + c.val * 2 ^ 41 + 3 * 2 ^ 27)) ∧
    (∀ k, s.cur = .system k → Completes (.regpwr f) s (fun t => t = s)) ∧
    (∀ c, s.cur = .compute c → Completes (.regpwr f) s (fun t => SameMemory s t ∧
      t = s.modCore c (fun k => { k with power := (t.core c).power, tiles := (t.core c).tiles, tfull := (t.core c).tfull }) ∧
      ∀ b : Fin 8,
        let named := f.imm.getLsbD (16 + b.val)
        let v := BitVec.ofNat 2 (f.imm.toNat / 4 ^ b.val)
        let old := (s.core c).power[b]
        (t.core c).power[b] = (if named then v else old) ∧
        ∀ i < 4, let n := 8 * i + b.val
          if named ∧ (v = 2 ∨ old = 2) then t.tileFull c n = false ∧ ∀ a < 16, ∀ e < 16, t.tileAt c n a e = 0
          else t.tileFull c n = s.tileFull c n ∧ ∀ a < 16, ∀ e < 16, t.tileAt c n a e = s.tileAt c n a e))

/-- R333, R334: LDT fills its tile or pair from sixteen rows, once it is empty, and leaves it full where it has a qualifier;
STT stores its rows once it is full and leaves it full, and FPSTAT takes the flags of their conversions. The granules take
the qualifier's effect (R63). No other tile and no other register changes. -/
def Obligations.TileMoves : Prop :=
  ∀ (f : Lm) (s w : State) (rows : List TileRow) (u : State),
    let acc : Access := ⟨f.order ≠ 0, false, f.fe.toNat, none, false⟩
    let pair := f.x.getLsbD 4
    let tiles := if pair then [f.d.toNat, f.d.toNat + 1] else [f.d.toNat]
    let stride : Option W64 := if f.x.toNat % 16 = 0 then none else some (s.g (BitVec.ofNat 5 (f.x.toNat % 16)))
    w = woken s tiles → (pair → f.d.toNat < 31) →
    (TilesReady s [] tiles → tileRows w.who .load (f.fe ≠ 0) pair (accessAddr s f) stride 16 16 w = .ok (rows, u) →
      (∃ v, checkParts w.who acc true false (rows.flatMap fun r => r.parts) u = .ok ((), v)) →
      ∃ t, exec (.ldt f) s = .next t ∧ SameMemory s t ∧ t.cpu = s.cpu ∧
        FullAfter s t (rows.flatMap fun r => r.parts) (if f.fe = 2 then some false else none) ∧
        AccessFrame (w.modHere fun k => { k with tiles := (t.core s.here).tiles, tfull := (t.core s.here).tfull }) t ∧
        (∀ n < 32, t.tileFull s.here n = (if n ∈ tiles then decide (f.fe ≠ 0) else s.tileFull s.here n)) ∧
        (∀ n < 32, n ∉ tiles → ∀ i < 16, ∀ e < 16, t.tileAt s.here n i e = s.tileAt s.here n i e) ∧
        (pair = false → ∀ i (h : i < rows.length), ∀ e < 16, i < 16 →
          t.tileAt s.here f.d.toNat i e = BitVec.ofNat 32 (loadLane rows[i].fmt
            ((rowCodes rows[i].size (heldBytes s acc rows[i].parts)).getD e 0))) ∧
        (pair = true → ∀ i (h : i < rows.length), ∀ e < 16, i < 16 →
          let code := loadLane rows[i].fmt ((rowCodes rows[i].size (heldBytes s acc rows[i].parts)).getD e 0)
          t.tileAt s.here f.d.toNat i e = BitVec.ofNat 32 code ∧
          t.tileAt s.here (f.d.toNat + 1) i e = BitVec.ofNat 32 (code / 2 ^ 32))) ∧
    (TilesReady s tiles [] → tileRows w.who .store (f.fe ≠ 0) pair (accessAddr s f) stride 16 16 w = .ok (rows, u) →
      (∃ v, checkParts w.who acc false true (rows.flatMap fun r => r.parts) u = .ok ((), v)) →
      let out := (rows.zipIdx).map fun r => s.tileRowBytes s.here f.d.toNat pair r.1 r.2 16
      ∃ t, exec (.stt f) s = .next t ∧
        StoreFrame (w.setCpu { w.cpu with fpstat := out.foldl (fun fl r => fl ||| r.2) s.cpu.fpstat }) t ∧
        -- what goes to an SC page is performed at its slices before anything else issues (R108)
        ((∀ p ∈ rows.flatMap fun r => r.parts, leafSC p.leaf = true → p.blocks = []) →
          Lands s t acc (rows.flatMap fun r => r.parts) (out.flatMap fun r => r.1) (if f.fe = 1 ∨ f.fe = 3 then some true else none)))

/-- R405, R408 to R415: on a compute core every supervisor instruction raises 41 and does nothing: the core stops precisely at
it and nothing is written. -/
def Obligations.SupervisorPrivilege : Prop :=
  ∀ (f : La) (j : Lb) (s : State) (c : CoreId), s.cur = .compute c → (s.core c).held = none →
    ∀ i ∈ [.trapret j, .tlbinvAll f, .tlbinvSpace f, .tlbinvPage f, .winmap f, .winmapRoot f, .partcfgAssign f,
        .partcfgRelease f, .ttcmdWeight f, .ttcmdClose f, .ttcmdQuiesce f, .ttcmdResume f, .corectlClrfeat f,
        .corectlHalt f, .corectlState f, .attest f],
      Completes i s (fun t => Stops s t c .precise 41 0 (cpDetail c) s.cpu.pc)

/-- R48, R408 to R410, R414, R415 on a system core: TLBINV drops the translations and walk pointers in its scope, waits while an
access that used one is on its way, and is then a release event, and marks the held images of its pages due (log 102:
DEDUCED); the walks in flight for its pages are dropped with them. WINMAP maps or removes a window, a core's earlier one going (log 106: DEDUCED), and WINMAP.root installs
the root, or each raises 84; CORECTL clears feature bits, halts a core with 327 and gives its state; ATTEST stores the
report that it signs. -/
def Obligations.SupervisorTranslationAndCores : Prop :=
  ∀ (f : La) (s : State) (k : SysId), s.cur = .system k →
    let va := s.g f.a
    let space := f.imm.toNat % 64
    let c : CoreId := ⟨f.imm.toNat % 256, Nat.mod_lt _ (by decide)⟩
    let y := s.core c
    -- one TLBINV, of the entries, pointers and pages that its scope names
    let drops (i : Instr) (leaf : TlbEntry → Prop) (pointer : WalkEntry → Prop) (page : PageId → Prop) : Prop :=
      let dropped (t : State) : Prop := (∀ e, e ∈ t.tlb ↔ e ∈ s.tlb ∧ ¬leaf e) ∧
        (∀ w, w ∈ t.walkCache ↔ w ∈ s.walkCache ∧ ¬pointer w) ∧ ∀ w, w ∈ t.walks ↔ w ∈ s.walks ∧ ¬page w.page
      (s.acked s.agent → (∀ b ∈ s.fbcStores, ¬page b.page) → (∀ h ∈ s.held, ¬page h.page) →
        ∃ t, exec i s = .next t ∧ dropped t ∧ t = { released s s.agent with tlb := t.tlb, walkCache := t.walkCache, walks := t.walks }) ∧
      ((∃ b ∈ s.fbcStores, page b.page) ∨ (∃ h ∈ s.held, page h.page) → ∃ t, exec i s = .next t ∧ dropped t ∧
        t.cpu = { s.cpu with blocked := some (i, s.cpu.pc) } ∧ t.seqs = s.seqs ∧ SameMemory s t ∧
        ∀ h ∈ t.held, page h.page → h.due = true)
    drops (.tlbinvAll f) (fun _ => True) (fun _ => True) (fun _ => True) ∧
    drops (.tlbinvSpace f) (fun e => e.space = space) (fun w => w.space = space) (fun p => p.space = space) ∧
    drops (.tlbinvPage f) (fun e => e.space = space ∧ e.base ≤ va.toNat ∧ va.toNat < e.base + 2 ^ e.log2)
      (fun w => w.space = space ∧ w.tag = va.toNat / 2 ^ levelShift w.level)
      (fun p => p.space = space ∧ p.base ≤ va.toNat ∧ va.toNat < p.base + 2 ^ p.log2) ∧
    (va.toNat < 2 ^ 48 → va.toNat % 2 ^ 16 = 0 → ∃ t, exec (.winmap f) s = .next t ∧ t = { s with windows := t.windows } ∧
      ∀ m, m ∈ t.windows ↔ if va = 0 then m ∈ s.windows ∧ m.2 ≠ c
        else m = (va.toNat, c) ∨ (m ∈ s.windows ∧ m.2 ≠ c ∧ m.1 ≠ va.toNat)) ∧
    (2 ^ 48 ≤ va.toNat ∨ va.toNat % 2 ^ 16 ≠ 0 → (s.sysCore k).ie = true →
      ∃ t, exec (.winmap f) s = .next t ∧ Enters s t k 84 va s.cpu.pc) ∧
    (va.toNat % 4096 = 0 → s.backed va.toNat 4096 = true →
      ∃ t, exec (.winmapRoot f) s = .next t ∧ t = { s with superRoot := some va.toNat }) ∧
    (va.toNat % 4096 ≠ 0 ∨ s.backed va.toNat 4096 = false → (s.sysCore k).ie = true →
      ∃ t, exec (.winmapRoot f) s = .next t ∧ Enters s t k 84 va s.cpu.pc) ∧
    (∃ t, exec (.corectlClrfeat f) s = .next t ∧
      WritesG (s.setCore c { y with feat := y.feat &&& ~~~(va.setWidth 6) }) t f.d 1) ∧
    (y.held.isSome → ∃ t, exec (.corectlHalt f) s = .next t ∧ WritesG s t f.d 0) ∧
    (y.held = none → ∃ t, exec (.corectlHalt f) s = .next t ∧
      ∃ u, Stops s u c .async 327 0 (cpDetail c) y.x.npc ∧ WritesG u t f.d 1) ∧
    (∃ t, exec (.corectlState f) s = .next t ∧ WritesG s t f.d (BitVec.ofNat 64 (y.feat.toNat * 256 +
      (if y.piece.isSome then 128 else 0) + (if y.held.isSome then 64 else 0) +
      (match y.part with | some p => 2 * p.val + 1 | none => 0)))) ∧
    (va.toNat % 64 = 0 → (s.g f.d).toNat % 64 = 0 → s.acked s.agent → ∀ nonce u t,
      loadBytes s.who .load {} va 32 (released s s.agent) = .ok (nonce, u) →
      (let body := attestBody s nonce
       let sig := ecdsaSign identityKey (sha256 body)
       storeBytes s.who .store {} (s.g f.d) (body ++ beBytes 32 sig.1 ++ beBytes 32 sig.2) u = .ok ((), t)) →
      exec (.attest f) s = .next t)

/-- R31, R411 to R413, R217 on a system core: PARTCFG reads its descriptor and answers a status: with 0 the partition takes the
descriptor's fields, its cores join or leave, and storage newly assigned reads zero, a joining core's share of cluster
memory with it (log 69: DEDUCED); any other status changes
nothing. TTCMD sets a weight, closes a launch, quiesces and resumes. -/
def Obligations.SupervisorPartitions : Prop :=
  ∀ (f : La) (s : State) (k : SysId), s.cur = .system k →
    let va := BitVec.ofInt 64 ((s.g f.a).toNat + immInt f)
    let n : PartId := ⟨f.x.toNat % 32, Nat.mod_lt _ (by decide)⟩
    let weigher : PartId := ⟨f.imm.toNat / 256 % 32, Nat.mod_lt _ (by decide)⟩
    let closer : PartId := ⟨f.imm.toNat % 32, Nat.mod_lt _ (by decide)⟩
    let weight := (s.g f.a).toNat % 256
    let tenant := f.imm.toNat % 32
    (∀ bs u, va.toNat % 128 = 0 → s.acked s.agent → loadBytes s.who .load {} va 128 (released s s.agent) = .ok (bs, u) →
      (∃ t, exec (.partcfgAssign f) s = .next t ∧
        match parsePart bs with
        | none => WritesG u t f.d 1
        | some x =>
          let has (c : CoreId) : Prop := rectHas x.rect c
          if legalRect x.rect = false ∨ ∃ c, has c ∧ ∃ m, (u.core c).part = some m ∧ m ≠ n then WritesG u t f.d 2
          else if ∃ r ∈ liveRects u n, rectInside r x.rect = false then WritesG u t f.d 3
          else GBut u t f.d 0 ∧
            t.part n = { u.part n with
              assigned := true, place := x.place, rect := x.rect, root := x.root, base := x.base, limit := x.limit
              reqfeat := x.reqfeat, ways := x.ways, sesstab := x.sesstab, ctxbase := x.ctxbase, ctxn := x.ctxn
              rbase := x.rbase, wdog := x.wdog } ∧
            (∀ m, m ≠ n → t.part m = u.part m) ∧
            (∀ c, has c → (u.core c).part ≠ some n → (t.array (coreCluster c)).last = 3) ∧
            (∀ c, t.core c =
              if has c then (if (u.core c).part = some n then { u.core c with leaving := false } else { u.core c with
                  part := some n, leaving := false, flags := [], carry := [], nheld := 0, banks := Vector.replicate 2 none })
              else if (u.core c).part = some n then
                (if (u.core c).piece.isSome then { u.core c with leaving := true } else { u.core c with part := none, leaving := false })
              else u.core c) ∧
            let joining := (List.finRange 256).filter fun c => rectHas x.rect c && (u.core c).part ≠ some n
            let fresh (b : Nat) : Bool := x.base ≤ b && b < x.limit &&
              !((u.part n).assigned && (u.part n).base ≤ b && b < (u.part n).limit)
            ∀ h, t.bytes h 1 = if assignedHome joining fresh h then [0] else u.bytes h 1) ∧
      ∃ t, exec (.partcfgRelease f) s = .next t ∧
        if (u.part n).assigned = false then WritesG u t f.d 4
        else if liveRects u n ≠ [] then WritesG u t f.d 3
        else GBut u t f.d 0 ∧ t.part n = { u.part n with assigned := false, rect := 0, base := 0, limit := 0 } ∧
          (∀ m, m ≠ n → t.part m = u.part m) ∧ SameMemory u t ∧
          t.pins = u.pins.filter (fun p => p.2.1 ≠ n) ∧ t.readySessions = u.readySessions.filter (fun r => r.part ≠ n) ∧
          ∀ c, t.core c = if (u.core c).part = some n then
              (if (u.core c).piece.isSome then { u.core c with leaving := true } else { u.core c with part := none, leaving := false })
            else u.core c) ∧
    (∃ t, exec (.ttcmdWeight f) s = .next t ∧ if weight = 0 then WritesG s t f.d 1 else ∃ u, WritesG u t f.d 0 ∧
      u = s.modPart weigher (fun p => { p with weights := (u.part weigher).weights }) ∧
      ∀ m, State.weight (u.part weigher) m = if m = tenant then weight else State.weight (s.part weigher) m) ∧
    (let named (l : Launch) : Prop := l.part = closer ∧ l.number = (s.g f.a).setWidth 16 ∧ l.ended = false ∧ l.perSession = true
     ((∀ l ∈ s.launches, ¬named l) → ∃ t, exec (.ttcmdClose f) s = .next t ∧ WritesG s t f.d 1) ∧
     -- a session whose step runs is closed when that ends; the others are closed now, with STATE 5
     ((∃ l ∈ s.launches, named l) → ∃ t, exec (.ttcmdClose f) s = .next t ∧ ∃ i l u, s.launches[i]? = some l ∧ named l ∧
       WritesG u t f.d 0 ∧ u = (((l.sids.filter fun sid => !s.steps.contains (closer, sid)).foldl
           (fun (w : State) sid => w.setSessionState closer sid 5)
           { s with readySessions := s.readySessions.filter fun r => !(r.part = closer && l.sids.contains r.sid) }).modLaunch i
         fun l => { l with closed := true }).checkEnd i)) ∧
    -- no slate is left to save: the number saved is returned
    (s.steps = [] → s.saving = none → (∀ c, (s.core c).banks[0] = none ∧ (s.core c).banks[1] = none ∧ (s.core c).moves = []) →
      ∃ t, exec (.ttcmdQuiesce f) s = .next t ∧ WritesG { s with quiesced := true } t f.d 0) ∧
    (∀ m, s.steps = [] → s.saving = some m → quiesceSaves s = false →
      ∃ t, exec (.ttcmdQuiesce f) s = .next t ∧ WritesG { s with quiesced := true, saving := none } t f.d (BitVec.ofNat 64 m)) ∧
    -- a step runs, or slates are on their way: it waits, with what it has begun
    (s.steps ≠ [] → ∃ t, exec (.ttcmdQuiesce f) s = .next t ∧
      t = { s with quiesced := true }.setCpu { s.cpu with blocked := some (.ttcmdQuiesce f, s.cpu.pc) }) ∧
    (s.steps = [] → s.saving = none → quiesceSaves (saveSlates { s with quiesced := true }).2 = true →
      ∃ t, exec (.ttcmdQuiesce f) s = .next t ∧ t.saving = some (saveSlates { s with quiesced := true }).1 ∧ t.quiesced = true ∧
        t.cores = (saveSlates { s with quiesced := true }).2.cores ∧ SameMemory s t ∧
        t.cpu = { s.cpu with blocked := some (.ttcmdQuiesce f, s.cpu.pc) }) ∧
    ∃ t, exec (.ttcmdResume f) s = .next t ∧ WritesG { s with quiesced := false } t f.d 0

/-- R194, R353, R354, R356, R386: an engine command that the CP issues enters its queue, last, with the values that its
register fields have then and the queue's next position, and changes nothing else; it waits while its queue is full or, for a
NOTE, holds one already. A system core has no engines. -/
def Obligations.EngineCommandsEnqueue : Prop :=
  ∀ (f : Ecmd) (s : State),
    let enters (i : Instr) (q : QueueId) : Prop :=
      (∀ c, s.cur = .compute c → s.unit = .cp →
        let v := (s.core c).queue q
        let d : Cmd := ⟨i, f, [s.g (fld f.w1 0 5), s.g (fld f.w1 5 5), s.g (fld f.w1 10 5), s.g (fld f.w1 15 5)], v.nextPos,
          s.stamp + 1, false, s.cpu.guard⟩
        if v.flights.length + v.waiting.length < 32 ∧ (isNote i = true → v.holdsNote = false) then
          Completes i s (fun t => SameMemory s t ∧
            t = { s.setCore c { s.core c with queues := (t.core c).queues } with stamp := s.stamp + 1 } ∧
            (t.core c).queue q = { v with waiting := v.waiting ++ [d], nextPos := v.nextPos + 1 } ∧
            ∀ r, r ≠ q → (t.core c).queue r = (s.core c).queue r)
        else Completes i s (fun t => t = s.setCpu { s.cpu with blocked := some (i, s.cpu.pc) })) ∧
      (∀ k, s.cur = .system k → s.unit = .cp → Completes i s (fun t => t = s))
    enters (.seRun f) .stream ∧ enters (.seHalt f) .stream ∧ enters (.teRun f) .stream ∧ enters (.teHalt f) .stream ∧
    enters (.swRoute f) .stream ∧ enters (.swFmt f) .stream ∧ enters (.grCfg f) .grid ∧ enters (.grGo f) .grid ∧
    enters (.grDrain f) .grid ∧ enters (.grDump f) .grid ∧ enters (.grFill f) .grid ∧ enters (.scnChunk f) .scan ∧
    enters (.scnCarry f) .scan ∧ enters (.mxLease f) .matrix ∧ enters (.mxMma f) .matrix ∧ enters (.mxDrain f) .matrix ∧
    enters (.mxFree f) .matrix ∧ enters (.mxZero f) .matrix ∧ enters (.xfCopy f) .copy ∧ enters (.xfCopy2d f) .copy ∧
    enters (.xfFill f) .copy ∧ enters (.xfGather f) .copy ∧ enters (.slSave f) .quay ∧ enters (.slLoad f) .quay ∧
    enters (.slSnap f) .quay ∧ enters (.slFork f) .quay ∧ enters (.slRoll f) .quay ∧ enters (.slDrop f) .quay ∧
    enters (.note f) (noteQueue f)

/-- R37, R116, R160, R161, R173, R176, R184, R185, R361 to R364, R366 to R369, R371 to R373, R375 to R380, R382 to R385 in flight: SW.ROUTE
joins its endpoints once its queue is empty, SW.FMT writes the formats it names, MX.LEASE ends when the lease is held, MX.FREE
gives it up, MX.ZERO under the lease clears M by N accumulators and sets their mode, MX.MMA adds a segment's products, MX.DRAIN
sends a row, SCN.CHUNK scans a block and sends out its states and carry, SCN.CARRY clears, loads and stores pairs, SE.HALT and
TE.HALT end when what they name has stopped, GR.CFG holds a valid image, the version not loaded last where no loop runs (log 33:
DEDUCED), GR.DRAIN stops its loop and stores its index, GR.DUMP and GR.FILL copy pieces of slices, a copy command moves a piece
and counts its bytes, and SL.SAVE, SL.LOAD, SL.SNAP, SL.FORK, SL.ROLL and SL.DROP do what their session's descriptor and table
say. First, what an engine's read, write and piece do to plain memory. A run or an iteration is the work of its program or
loop. That a command does one piece of its work in a turn of its own is the model's choice (log 4: DESIGN CHOICE), and so is
that a piece's count is added there (log 39: DESIGN CHOICE). -/
def Obligations.EngineCommandEffects : Prop :=
  ∀ (f : Ecmd) (s : State) (c : CoreId) (pos : Nat) (fl : Flight),
    let flies (q : QueueId) : Prop := s.cur = .compute c ∧ s.unit = .queue q pos ∧ s.flight? c q pos = some fl ∧
      fl.finished = false ∧ fl.cmd.pos = pos ∧ (s.core c).held = none ∧ (s.core c).preempt = false
    let ends (q : QueueId) (i : Instr) (u : State) : Prop := Completes i s (fun t => t = u.finish c q pos)
    let n := f.w1.toNat % 32
    let v := s.switchQueue c n
    -- how far the command has come
    let inFlight (t : State) (g : Progress) (ended : Bool) : Prop :=
      ∀ q, s.unit = .queue q pos → (t.flight? c q pos).map (fun x => (x.prog, x.finished)) = some (g, ended)
    -- reads and writes of engines
    (∀ w k item va m bs u, 0 < m → m ≤ 4096 → engineRead w k item va m s = .ok (bs, u) →
      SameMemory s u ∧ ∀ h, PlainAt s w k va m h → bs = s.bytes h m) ∧
    (∀ w item later va bs u h, bs ≠ [] → bs.length ≤ 4096 → engineWrite w item later va bs s = .ok ((), u) →
      PlainAt s w .engWrite va bs.length h → u.bytes h bs.length = bs ∧ SameMemoryOutside s u h bs.length) ∧
    (∀ w item later va m r bs u, storePieces w item later ((va, m) :: r) bs s = .ok ([], u) → ∃ x,
      engineWrite w item (r ++ later) va (bs.take m) s = .ok ((), x) ∧ storePieces w item later r (bs.drop m) x = .ok ([], u)) ∧
    (∀ (va : W64) (m : Nat), va.toNat + m ≤ 2 ^ 64 →
      (∀ p ∈ piecesOf va m, 0 < p.2 ∧ va.toNat ≤ p.1.toNat ∧ p.1.toNat + p.2 ≤ va.toNat + m ∧ p.1.toNat % 64 + p.2 ≤ 64 ∧
        (p.1 = va ∨ p.1.toNat % 64 = 0)) ∧
      ∀ a, va.toNat ≤ a → a < va.toNat + m → ∃ p ∈ piecesOf va m, p.1.toNat ≤ a ∧ a < p.1.toNat + p.2 ∧
        ∀ q ∈ piecesOf va m, q.1.toNat ≤ a → a < q.1.toNat + q.2 → q = p) ∧
    (∀ inst ∈ [Instr.xfCopy f, .xfCopy2d f, .xfFill f, .xfGather f], flies .copy → fl.cmd.instr = inst →
      ∀ total done ov signalled i row off dst m bs u x h, fl.prog = .copy total done ov signalled → i < total → i ∉ done →
      (∀ j < i, j ∈ done) → (copyPieces fl.cmd)[i]? = some (row, off, dst, m) → passesEarlier s c fl (row, off, dst, m) = false →
      bs.length = m → ((s.sourceQueue c 14).isSome ∨ (s.sinkQueue c 14).isSome → done.length = i) →
      (if s.sourceQueue c 14 = none ∧ (s.sinkQueue c 14).isSome then s.popWhole c 14 m = some (bs, u)
        else CopyBrings (s.queueWho c .copy) fl.item fl.cmd row off m s bs u) →
      let moved (t : State) : Prop :=
        (∃ o g, (t.flight? c .copy pos).map (fun y => (y.prog, y.finished)) =
          some (.copy total (done ++ [i]) o g, decide (done.length + 1 = total))) ∧
        (t.core c).flag fl.cmd.f.sigFlag = if scaled fl.cmd.f.sigCount = 0 then (s.core c).flag fl.cmd.f.sigFlag
          else flagAdded ((s.core c).flag fl.cmd.f.sigFlag) ⟨unitAgent c 5, m, []⟩
      -- into the switch, or to memory
      ((s.sourceQueue c 14).isSome → s.sinkQueue c 14 = none → u.pushWhole c 14 bs = some x →
        Completes inst s (fun t => SameMemory s t ∧ moved t ∧ (done.length + 1 ≠ total → (t.core c).switch = (x.core c).switch))) ∧
      (s.sourceQueue c 14 = none → keptBytes u c fl dst m = [] →
      let later := ((copyPieces fl.cmd).zipIdx.filter fun q => q.2 ≠ i && !done.contains q.2).map fun q => (q.1.2.2.1, q.1.2.2.2)
      let shape := copyShape fl.cmd
      pieceStore (s.queueWho c .copy) fl.item fl.item later (copyCount c fl.cmd m (shape.2.1 * row + off)) dst bs u = .ok ([], x) →
      PlainAt u (s.queueWho c .copy) .engWrite dst m h →
      row < shape.1 ∧ off + m ≤ shape.2.1 ∧ dst = fl.cmd.op 0 + BitVec.ofNat 64 row * shape.2.2 + BitVec.ofNat 64 off ∧
      Completes inst s (fun t => SameMemory x t ∧ moved t ∧ t.bytes h m = bs ∧ SameMemoryOutside s t h m))) ∧
    (flies .stream →
      Completes (.seRun f) s (fun t => t = s) ∧ Completes (.teRun f) s (fun t => t = s) ∧
      ((∀ e ∈ haltNames f, ∀ p, s.prog? (.stream c e) = some p → p.halting = false) → ends .stream (.seHalt f) s) ∧
      ((∀ p ∈ s.tideProgs (tideOf f), tideNamed f c (fl.cmd.op 0) p = false ∨ p.halting = false) → ends .stream (.teHalt f) s) ∧
      (v.beats = [] → v.out = [] →
        if f.w1.getLsbD 31 then
          ends .stream (.swRoute f) (s.setSwitch c n { v with src := none, snk := none, tile := 0, srcRow := none, snkRow := none })
        else routeTaken (s.core c) n (f.w1.toNat / 2 ^ 8 % 32) (f.w1.toNat / 2 ^ 16 % 32) (fld f.w1 24 5) = false →
          ends .stream (.swRoute f) (s.setSwitch c n { v with
            src := some (f.w1.toNat / 2 ^ 8 % 32), snk := some (f.w1.toNat / 2 ^ 16 % 32), tile := fld f.w1 24 5
            srcRow := none, snkRow := none })) ∧
      ((f.w1.getLsbD 24 = true → formatByteFault (fld f.w1 8 8) false = false) →
        (f.w1.getLsbD 25 = true → formatByteFault (fld f.w1 16 8) true = false) →
       Completes (.swFmt f) s (fun t => ∃ u, t = u.finish c .stream pos ∧ u = s.modCore c (fun k => { k with switch := (u.core c).switch }) ∧
        (u.switchQueue c n).srcFmt = (if f.w1.getLsbD 24 then fld f.w1 8 8 else v.srcFmt) ∧
        (u.switchQueue c n).snkFmt = (if f.w1.getLsbD 25 then fld f.w1 16 8 else v.snkFmt) ∧
        ∀ m, m ≠ n → u.switchQueue c m = s.switchQueue c m))) ∧
    (flies .grid →
      ((s.core c).loops.any (fun l => l.item = fl.item) = true → Completes (.grGo f) s (fun t => t = s)) ∧
      (∀ bs u ver, f.z = 0 → (fl.cmd.op 0).toNat % 8 = 0 →
        engineRead (s.queueWho c .grid) .engRead fl.item (fl.cmd.op 0) 520 s = .ok (bs, u) →
        (∀ l ∈ (s.core c).loops.head?, ver = !l.ver) → ((s.core c).loops = [] → ver = (match (s.core c).gridLast with | some b => !b | none => false)) →
        let ws := (List.range 65).map (wordAt bs)
        if imageFault ws then Completes (.grCfg f) s (fun t => t = u.failCommand c .grid pos 201 0)
        else ends .grid (.grCfg f) (u.modCore c fun k => { k with
          gridCfg := if ver then k.gridCfg.set 1 (some ws) else k.gridCfg.set 0 (some ws), gridLast := some ver })) ∧
      -- a drain asks the newest loop to stop, and stores its index once it has
      (fl.prog = .plain → let last := (s.core c).loops.getLast?
        Completes (.grDrain f) s (fun t => SameMemory s t ∧ inFlight t (.drain (last.map fun l => l.item) 0) false ∧
          (t.core c).loops = (s.core c).loops.map fun l => if last.map (fun x => x.ver) = some l.ver then { l with stopAsked := true } else l)) ∧
      (∀ target i, fl.prog = .drain target i →
        ((∃ l ∈ (s.core c).loops, some l.item = target) → Completes (.grDrain f) s (fun t => t = s)) ∧
        ((∀ l ∈ (s.core c).loops, some l.item ≠ target) →
          if fld f.w1 0 5 = 0 then ends .grid (.grDrain f) s
          else ∀ u, engineWrite (s.queueWho c .grid) fl.item [] (fl.cmd.op 0) (leBytes 8 i) s = .ok ((), u) → ends .grid (.grDrain f) u)) ∧
      (∀ i va m u, fl.prog = .pieces i →
        let all := piecesOf (fl.cmd.op 0) (4096 * ((fld f.w1 16 6).toNat + 1))
        all[i]? = some (va, m) →
        let home := laneHome c (fld f.w1 8 6).toNat 0 0 + (va - fl.cmd.op 0).toNat
        (s.flawIn false home m = none → engineWrite (s.queueWho c .grid) fl.item (all.drop (i + 1)) va (s.bytes home m) s = .ok ((), u) →
          Completes (.grDump f) s (fun t => SameMemory u t ∧ inFlight t (.pieces (i + 1)) (decide (i + 1 = all.length)))) ∧
        ∀ bs, bs.length = m → engineRead (s.queueWho c .grid) .engRead fl.item va m s = .ok (bs, u) →
          Completes (.grFill f) s (fun t => t.bytes home m = bs ∧ SameMemoryOutside s t home m ∧ t.tags = u.tags ∧
            inFlight t (.pieces (i + 1)) (decide (i + 1 = all.length))))) ∧
    (flies .matrix →
      (holdsLease s c = true → ends .matrix (.mxLease f) s) ∧
      Completes (.mxFree f) s (fun t => (t.core c).intent = false ∧ (t.core c).acc = (s.core c).acc ∧ SameMemory s t ∧
        (holdsLease s c = true → (t.array (coreCluster c)).holder = none ∧ (t.array (coreCluster c)).last = coreMember c) ∧
        (holdsLease s c = false → t.arrays = s.arrays)) ∧
      (holdsLease s c = false → Completes (.mxZero f) s (fun t => t = s)) ∧
      (holdsLease s c = true → Completes (.mxZero f) s (fun t => (t.core c).accInt = f.w1.getLsbD 34 ∧ SameMemory s t ∧
        (∀ i j, j < 128 → tget 0 (t.core c).acc (128 * i + j) =
          if i < mxRows fl.cmd ∧ j < mxCols fl.cmd then 0 else tget 0 (s.core c).acc (128 * i + j)) ∧
        ∀ d, d ≠ c → (t.core d).acc = (s.core d).acc)) ∧
      (∀ i g tables, fl.prog = .matrix i g tables → holdsLease s c = true → (s.array (coreCluster c)).expired = false →
        let w := s.queueWho c .matrix
        let cols := (fld fl.cmd.f.w1 27 7).toNat + 1
        let groups := (fld fl.cmd.f.w1 34 16).toNat + 1
        let rows := (fld fl.cmd.f.w1 20 7).toNat + 1
        -- a segment of a product, whose tables have been taken; operand A may have come through the switch
        (∀ x m ea eb nan s1 s2 s3, mmaArgs w c fl.cmd s = .ok (x, s1) → mmaFault (s.core c).accInt (8 * groups) x = none →
          m = segmentGroups (mxRate (s.array (coreCluster c)).narrow x.a.fmt x.b.fmt) cols groups g →
          (∀ b ∈ tablesNeeded x i cols g m, (tfind tables b).isSome) →
          (if x.fromSwitch then switchRowBytes x.a.fmt (8 * groups) ≤ fl.inb.length ∧ s2 = s1 ∧ ea = switchElems x.a.fmt fl.inb (8 * g) (8 * m)
            else rowElems w fl.item x.a tables i (8 * g) (8 * m) s1 = .ok (ea, s2)) → ea.causes = [] →
          manyRows w fl.item x.b tables (8 * g) (8 * m) (List.range cols) s2 = .ok ((eb, nan, []), s3) →
          Completes (.mxMma f) s (fun t => SameMemory s t ∧
            (∀ j < cols, tget 0 (t.core c).acc (128 * i + j) =
              accumulated (s.core c).accInt (tget 0 (s.core c).acc (128 * i + j)) m ea.vals (eb.getD j [])) ∧
            (∀ q, (∀ j < cols, q ≠ 128 * i + j) → tget 0 (t.core c).acc q = tget 0 (s.core c).acc q) ∧
            if groups ≤ g + m then inFlight t (.matrix (i + 1) 0 tables) (decide (rows ≤ i + 1))
            else inFlight t (.matrix i (g + m) tables) (decide (rows ≤ i)))) ∧
        (fl.outb = [] → f.w1.getLsbD 16 = false → ∀ form bs ps s1 s2 u,
          let va := fl.cmd.op 0 + BitVec.ofNat 64 (i * (fld (fl.cmd.op 1) 0 32).toNat)
          pageFormat w .engWrite false va s = .ok (form, s1) → RowDrains (s.core c) (f.w1.getLsbD 17) form i cols bs →
          translateRows w .engWrite false (rangeRows va bs.length) s1 = .ok (ps, s2) → (∀ p ∈ ps, p.fmt = form) →
          let later := ((List.range rows).drop (i + 1)).map fun r =>
            (fl.cmd.op 0 + BitVec.ofNat 64 (r * (fld (fl.cmd.op 1) 0 32).toNat), bs.length)
          storePieces w fl.item later (piecesOf va bs.length) bs s2 = .ok ([], u) →
          Completes (.mxDrain f) s (fun t => SameMemory u t ∧ (t.core c).acc = (s.core c).acc ∧
            inFlight t (.matrix (i + 1) 0 []) (decide (rows ≤ i + 1)))) ∧
        (fl.outb = [] → f.w1.getLsbD 16 = true → ∀ bs, RowDrains (s.core c) (f.w1.getLsbD 17) 0 i cols bs →
          Completes (.mxDrain f) s (fun t => SameMemory s t ∧ (t.core c).acc = (s.core c).acc ∧
            (t.flight? c .matrix pos).map (fun y => y.outb) = some bs)) ∧
        ∀ u, fl.outb ≠ [] → f.w1.getLsbD 16 = true → s.pushEnd c 13 fl.outb = ([], u) →
          Completes (.mxDrain f) s (fun t => SameMemory s t ∧ (t.core c).acc = (s.core c).acc ∧
            inFlight t (.matrix (i + 1) 0 []) (decide (rows ≤ i + 1)) ∧ (t.flight? c .matrix pos).map (fun y => y.outb) = some []))) ∧
    -- operands of the arrays in memory
    (∀ w item form va m ps s1 bs u, translateRows w .matrix false (rangeRows va m) s = .ok (ps, s1) → (∀ p ∈ ps, p.fmt = form) →
      engineRead w .matrix item va m s1 = .ok (bs, u) → operandRead w item form [(va, m)] s = .ok (⟨bs.map some, []⟩, u)) ∧
    (∀ w item (x : MxOperand) tables r k0 m bs u, 0 < m →
      let reads (form : Nat) (rows : List (W64 × Nat)) : Prop := operandRead w item form rows s = .ok (⟨bs.map some, []⟩, u)
      let gives (vals : Nat → FVal) (nan : Bool) : Prop := rowElems w item x tables r k0 m s = .ok (⟨(List.range m).map vals, nan, []⟩, u)
      let e := r * x.stride + k0
      (x.fmt = 2 ∨ x.fmt = 3 ∨ x.fmt = 4 ∨ x.fmt = 6 →
        let b := if x.fmt = 2 then 2 else 1
        bs.length = m * b → reads x.fmt [(x.addr + BitVec.ofNat 64 (r * x.stride + k0 * b), m * b)] →
        gives (fun q => let code := leNat ((bs.drop (b * q)).take b)
          if x.fmt = 2 then FFmt.bf16.decode code else if x.fmt = 3 then decodeE4M3 code else if x.fmt = 4 then FFmt.e5m2.decode code
          else FVal.ofInt (elemValue 6 code)) false) ∧
      (x.fmt = 5 → e % 64 + m ≤ 64 → bs.length = 34 →
        let t := x.addr.toNat % 1024 / 32 + e / 64
        let unit := x.addr - BitVec.ofNat 64 (x.addr.toNat % 1024) + BitVec.ofNat 64 (1024 * (t / 30))
        reads 5 [(unit + BitVec.ofNat 64 (32 * (t % 30)), 32), (unit + BitVec.ofNat 64 (960 + 2 * (t % 30)), 2)] →
        let code (q : Nat) : Nat := (bs.getD ((e % 64 + q) / 2) 0).toNat / 16 ^ ((e % 64 + q) % 2) % 16
        let scale := (bs.getD 32 0).toNat
        let special := (bs.getD 33 0).toNat
        gives (fun q => e2m1Value scale special (code q))
          (decide (scale = 255) || ((decodeE4M3 special).isNan && (List.range m).any fun q => code q = 8))) ∧
      (x.fmt = 7 → e % 128 + m ≤ 128 → bs.length = 48 → reads 7 [(x.addr + BitVec.ofNat 64 (48 * (e / 128)), 48)] →
        gives (fun q => FFmt.bf16.decode
          ((tget 0 tables (e / 128)).toNat / 2 ^ (16 * (leNat bs / 8 ^ (e % 128 + q) % 8)) % 2 ^ 16)) false)) ∧
    (flies .scan →
      let pairs := f.w1.toNat / 2 ^ 32 % 2 ^ 16 + 1
      (pairs ≤ 2048 → f.w1.getLsbD 6 = true →
        Completes (.scnCarry f) s (fun t => SameMemory s t ∧ (t.core c).nheld = pairs ∧
          ∀ i, tget 0 (t.core c).carry i = if i < 2 * pairs then 0 else tget 0 (s.core c).carry i)) ∧
      (∀ i, pairs ≤ 2048 → f.w1.getLsbD 6 = false → fl.prog = .pieces i →
        -- eight pairs are loaded
        (∀ bs u, let m := min 8 (pairs - 8 * i)
          f.w1.getLsbD 5 = false → 8 * i < pairs → bs.length = 8 * m →
          engineRead (s.queueWho c .scan) .engRead fl.item (fl.cmd.op 0 + BitVec.ofNat 64 (64 * i)) (8 * m) s = .ok (bs, u) →
          Completes (.scnCarry f) s (fun t => SameMemory s t ∧ (∀ j < m, carryAt (t.core c) (8 * i + j) = inputOf true bs j) ∧
            (∀ j, (j < 8 * i ∨ 8 * i + m ≤ j) → carryAt (t.core c) j = carryAt (s.core c) j) ∧
            (t.core c).nheld = (if pairs ≤ 8 * (i + 1) then pairs else (s.core c).nheld) ∧
            inFlight t (.pieces (i + 1)) (decide (pairs ≤ 8 * (i + 1))))) ∧
        -- or a piece is stored
        (∀ va m u, f.w1.getLsbD 5 = true → let all := piecesOf (fl.cmd.op 0) (8 * pairs)
          all[i]? = some (va, m) →
          let bs := ((((List.range pairs).flatMap fun j => pairOut (carryAt (s.core c) j)).drop (va - fl.cmd.op 0).toNat).take m)
          engineWrite (s.queueWho c .scan) fl.item (all.drop (i + 1)) va bs s = .ok ((), u) →
          Completes (.scnCarry f) s (fun t => SameMemory u t ∧ (t.core c).nheld = (s.core c).nheld ∧ (t.core c).carry = (s.core c).carry ∧
            inFlight t (.pieces (i + 1)) (decide (all.length ≤ i + 1))))) ∧
      (∀ k fade, fl.prog = .scan k fade →
        let w := fl.cmd.f.w1
        let levels := (fld w 20 4).toNat
        let ops := 2 ^ levels
        let diagonal : Bool := fld w 24 2 = 1
        let fromSwitch := w.getLsbD 26
        let toSwitch := w.getLsbD 27
        let stores := w.getLsbD 29
        let wide := w.getLsbD 30
        let e := if wide then 8 else 4
        let total := (fld w 32 16).toNat + 1
        let wd := min 16 (total - 16 * k)
        let at_ (o n : Nat) : W64 := fl.cmd.op o + BitVec.ofNat 64 n
        let rowsOf (n : Nat) (r : Nat → W64 × Nat) : List (W64 × Nat) := (List.range n).map r
        let carryRow : List (W64 × Nat) := [(at_ 3 (128 * k), 8 * wd)]
        (16 * k < total → fl.outb = [] → (w.getLsbD 28 = true → total ≤ 2048 ∧ total ≤ (s.core c).nheld) → (fld w 24 2 = 2 → total = 256) →
          -- the operators and the carry of the block, from memory or through the switch
          ∀ (op : Nat → Nat → ScanOp) (carry : Nat → Lane × Lane) cbs abs bbs s1 u,
          (if w.getLsbD 28 then (∀ i, carry i = carryAt (s.core c) (16 * k + i)) ∧ s1 = s
            else ReadsAll (s.queueWho c .scan) .engRead fl.item carryRow s cbs s1 ∧ ∀ i, carry i = inputOf true (cbs.getD 0 []) i) →
          (if fromSwitch then u = s1 ∧ fl.inb.length = ops * (4 * (if diagonal then wd else 1) + e * wd) ∧ ∀ j i,
              let one := (fl.inb.drop (j * (4 * (if diagonal then wd else 1) + e * wd)))
              op j i = (laneOf one (if diagonal then 4 * i else 0), inputOf wide (one.drop (4 * (if diagonal then wd else 1))) i)
            else ReadsAll (s.queueWho c .scan) .engRead fl.item
                ((rowsOf ops fun j => if diagonal then (at_ 1 (4 * (total * j + 16 * k)), 4 * wd) else (at_ 1 (4 * j), 4)) ++
                  rowsOf ops fun j => (at_ 2 (e * (total * j + 16 * k)), e * wd)) s1 (abs ++ bbs) u ∧ abs.length = ops ∧
              ∀ j i, op j i = (laneOf (abs.getD j []) (if diagonal then 4 * i else 0), inputOf wide (bbs.getD j []) i)) →
          let state (j i : Nat) := scanState fade op carry levels j i
          Completes (.scnChunk f) s (fun t => SameMemory s t ∧
            (t.flight? c .scan pos).map (fun y => (y.inb, y.outb)) = some ([],
              ((List.range ops).flatMap fun j => (List.range wd).flatMap fun i => pairOut (state j i)) ++
                (if stores then (List.range wd).flatMap fun i => pairOut (state (ops - 1) i) else [])) ∧
            (t.core c).nheld = (if total ≤ 2048 ∧ total ≤ 16 * (k + 1) then total else (s.core c).nheld) ∧
            ∀ i, carryAt (t.core c) i = if total ≤ 2048 ∧ 16 * k ≤ i ∧ i < 16 * k + wd then state (ops - 1) (i - 16 * k)
              else carryAt (s.core c) i)) ∧
        -- the next piece of its results goes to memory
        (∀ gone va m rest u, 16 * k < total → fl.outb ≠ [] →
          let rows := (if toSwitch then [] else rowsOf ops fun j => (at_ 0 (8 * (total * j + 16 * k)), 8 * wd)) ++ (if stores then carryRow else [])
          let later := if total ≤ 16 * (k + 1) then [] else
            (if toSwitch then [] else rowsOf ops fun j => (at_ 0 (8 * (total * j + 16 * (k + 1))), 8 * (total - 16 * (k + 1)))) ++
            (if stores then [(at_ 3 (8 * (16 * (k + 1))), 8 * (total - 16 * (k + 1)))] else [])
          (rows.flatMap fun r => piecesOf r.1 r.2) = gone ++ (va, m) :: rest → fl.outb.length = m + (rest.map fun p => p.2).sum →
          engineWrite (s.queueWho c .scan) fl.item (rest ++ later) va (fl.outb.take m) s = .ok ((), u) →
          Completes (.scnChunk f) s (fun t => SameMemory u t ∧ (t.core c).carry = (s.core c).carry ∧
            (t.flight? c .scan pos).map (fun y => (y.outb, y.prog, y.finished)) = some (fl.outb.drop m,
              if fl.outb.drop m = [] then .scan (k + 1) fade else .scan k fade,
              decide (fl.outb.drop m = [] ∧ total ≤ 16 * (k + 1))))))) ∧
    -- the Quay: its start by the descriptor x of its session
    (∀ x s1, let w := quayWho s c
      let d := fl.cmd
      let job (frame : W64) (form : Nat) (writes : Bool) : QuayJob := ⟨d.op 0, d.f.w1.getLsbD 10, frame, form, x.size, writes, 0, 0, []⟩
      let begins (u : State) : Prop := beginCommand c fl s = .ok u
      let moves (u : State) (j : QuayJob) : Prop :=
        begins (let t := u.modFlight c .quay d.pos fun g => { g with prog := .quay j }
          if j.writesBank then t.setBank c j.bank (some j.desc) else t)
      let fits (u : State) (k : Kind) (frame : W64) (form : Nat) : Prop := frameFault u w k frame form (frameBytes form x.size) = none
      let free (es : List Entry) (frame : W64) : Prop := ∀ e ∈ es, e.forked = 0 ∨ e.sframe ≠ frame
      let entry (e : Entry) (s2 : State) : Prop := readEntry w fl.item x (fld d.f.w1 12 4).toNat s1 = .ok (.ok e, s2) ∧ e.sframe ≠ 0
      readDescriptor w fl.item (d.op 0) s = .ok (.ok x, s1) → d.f = f →
      (d.instr = .slLoad f →
        (recordOf (s1.core c) (d.op 0) = none → fits s1 .engRead x.frame x.ffmt → moves s1 (job x.frame x.ffmt true)) ∧
        ∀ r frame form s2, recordOf (s1.core c) (d.op 0) = some r → forkSource w fl.item r s1 = .ok (.ok (frame, form), s2) →
          fits s2 .engRead frame form → moves s2 (job frame form true)) ∧
      (d.instr = .slSave f → ∀ es s2, fits s1 .engWrite x.frame x.ffmt → allEntries w fl.item x s1 = .ok (.ok es, s2) →
        free es x.frame → fits s2 .engWrite x.frame x.ffmt → moves s2 (job x.frame x.ffmt false)) ∧
      (∀ e s2, entry e s2 →
        (d.instr = .slSnap f → ∀ es s3, fits s2 .engWrite e.sframe x.ffmt → allEntries w fl.item x s2 = .ok (.ok es, s3) →
          free es e.sframe → fits s3 .engWrite e.sframe x.ffmt → moves s3 (job e.sframe x.ffmt false)) ∧
        (d.instr = .slRoll f → fits s2 .engRead e.sframe x.ffmt → moves s2 (job e.sframe x.ffmt true)) ∧
        -- FORKED of the entry takes the new session's descriptor, and the core a record of it
        (d.instr = .slFork f → ∀ y s3 u, readDescriptor w fl.item (d.op 1) s2 = .ok (.ok y, s3) → y.size = x.size → e.forked = 0 →
          (s3.core c).forks.length < 16 → engineWrite w fl.item [] (e.addr + 8) (leBytes 8 (d.op 1).toNat) s3 = .ok ((), u) →
          begins ((u.modCore c fun k => { k with forks := k.forks ++ [(d.op 1, e.addr)] }).finish c .quay d.pos)) ∧
        (d.instr = .slDrop f → f.w1.getLsbD 16 = true → e.forked = 0 → ∀ u,
          engineWrite w fl.item [] e.addr (List.replicate 8 0) s2 = .ok ((), u) → begins (u.finish c .quay d.pos)))) ∧
    -- an entry of the table, and the copy that a fork has put off
    (∀ w item (x : Session) base count m bs u, parseSnaps x.snaps = some (base, count) → m < count →
      engineRead w .engRead item (base + BitVec.ofNat 64 (16 * m)) 16 s = .ok (bs, u) →
      readEntry w item x m s = .ok (.ok ⟨base + BitVec.ofNat 64 (16 * m), wordAt bs 0, wordAt bs 1⟩, u)) ∧
    (∀ w item (e : Entry) y s1 s2 bs s3 s4 u, readDescriptor w item e.forked s = .ok (.ok y, s1) → frameFormat w e.sframe s1 = .ok (.ok 9, s2) →
      y.ffmt = 9 → engineRead w .engRead item e.sframe y.size s2 = .ok (bs, s3) → engineWrite w item [] y.frame bs s3 = .ok ((), s4) →
      engineWrite w item [] (e.addr + 8) (List.replicate 8 0) s4 = .ok ((), u) →
      performFork w c item e s = .ok (none, freeRecord u c e.addr)) ∧
    -- its pages
    (∀ w item (j : QuayJob) m bs u, let len := min 4096 (j.size - 4096 * m)
      let home := slateHome c ((if j.bank then 524288 else 0) + 4096 * m)
      engineRead w .engRead item (j.frame + BitVec.ofNat 64 (4096 * m)) len s = .ok (bs, u) →
      let got := if j.ffmt = 8 then (List.range (bs.length / 8)).flatMap fun i => leBytes 8 (restoreLane (leNat ((bs.drop (8 * i)).take 8))) else bs
      got.length = len → (∀ i, 16 * i < len → bankRace u c true (home + 16 * i) = none) →
      ∃ t, loadPage s c w item j m = (t, none, none) ∧ t.bytes home len = got ∧ SameMemoryOutside s t home len) ∧
    (∀ w item form va bs u, let out := if form = 8 then bytesOfLanes ((List.range ((bs.length + 127) / 128 * 16)).map fun i =>
          if 8 * i < bs.length then archiveLane (leNat ((bs.drop (8 * i)).take 8)) else 0) else bs
      (form ≠ 8 → WritesAll w item ((List.range ((out.length + 63) / 64)).map fun i => (va + BitVec.ofNat 64 (64 * i), (out.drop (64 * i)).take 64)) s u →
        writeFrame s w item form va bs = (u, none, none)) ∧
      (form = 8 → out.length = 128 → writeBlocks w item va out s = .ok ((), u) → writeFrame s w item form va bs = (u, none, none))) ∧
    (flies .quay →
      (∀ inst ∈ [Instr.slSave f, .slSnap f], fl.cmd.instr = inst → ∀ j bs r u, fl.prog = .quay j → j.writesBank = false →
        j.staged = (bs, none) :: r → bs ≠ [] → frameDue (earlierJobs (s.core c) pos) j j.pagesDone = true → j.pagesDone + 1 < jobPages j →
        writeFrame s (quayWho s c) fl.item j.ffmt (j.frame + BitVec.ofNat 64 (4096 * j.pagesDone)) bs = (u, none, none) →
        Completes inst s (fun t => SameMemory u t ∧ inFlight t (.quay { j with pagesDone := j.pagesDone + 1, staged := r }) false)) ∧
      (∀ inst ∈ [Instr.slLoad f, .slRoll f], fl.cmd.instr = inst → ∀ j u, fl.prog = .quay j → j.writesBank = true →
        bankDue (s.core c) (earlierJobs (s.core c) pos) j j.pagesDone = true → frameDue (earlierJobs (s.core c) pos) j j.pagesDone = true →
        (∀ q, (s.core c).piece = some q → q.guarded = []) → j.pagesDone < jobPages j →
        loadPage s c (quayWho s c) fl.item j j.pagesDone = (u, none, none) → Completes inst s (fun t => SameMemory u t ∧
          inFlight t (.quay { j with pagesDone := j.pagesDone + 1 }) (decide (jobPages j ≤ j.pagesDone + 1)))) ∧
      (∀ inst ∈ [Instr.slFork f, .slDrop f], fl.cmd.instr = inst → fl.prog = .plain →
        (∀ e ∈ earlierJobs (s.core c) pos, e.bank = f.w1.getLsbD 10 → jobPages e ≤ if e.writesBank then e.pagesDone else e.read) →
        ends .quay inst (if inst = .slDrop f then s.setBank c (f.w1.getLsbD 10) none else s)))

/-- R387 to R394: every cell operation, in the cycle in which its loop executes it, gives its lanes at its ready cycle from the A, B and
C that its sources read, where no word of its slice is bad; CNOP gives nothing. Floating operations round once by RNE, on FP32 lanes or on
BF16 halves. -/
def Obligations.GridCells : Prop :=
  ∀ (f : CellWord) (s : State) (c : CoreId) (l : GridLoop) (cell n : Nat),
    s.unit = .cell → s.cur = .compute c → (s.core c).cellAt = (l.ver, cell, n) → s.loop? c l.ver = some l → cell < 64 →
    s.flawIn false (laneHome c cell 0 0) 4096 = none →
    -- sources 13 to 15 are reserved
    f.srcA.toNat < 13 → f.srcB.toNat < 13 → f.srcC.toNat < 13 →
    let A := sourceReads s c l cell n f f.srcA.toNat
    let B := sourceReads s c l cell n f f.srcB.toNat
    let C := sourceReads s c l cell n f f.srcC.toNat
    let row (r : Nat) (x : Fin 8) : Lane := s.read32 (laneHome c cell (r % 128) x.val)
    let named (x : Fin 8) : Nat := A[x].toNat % 128 + f.slice.toNat
    let pair : Prop := f.ctype = 2
    let gives (i : Instr) (lat : Nat) (lane : Fin 8 → Lane) : Prop :=
      Completes i s (fun t => CellGives s t c l cell n lat f (Vector.ofFn lane) [])
    -- a floating operation on the codes of each lane, or of each half
    let floats (i : Instr) (lat : Nat) (xs : List Lanes) (op : FFmt → List Nat → Nat) : Prop :=
      gives i lat fun x => if pair then
          BitVec.ofNat 32 (op .bf16 (xs.map fun v => v[x].toNat % 65536) + 65536 * op .bf16 (xs.map fun v => v[x].toNat / 65536))
        else BitVec.ofNat 32 (op .f32 (xs.map fun v => v[x].toNat))
    let rounds (r : FFmt → List FVal → FVal) (F : FFmt) (cs : List Nat) : Nat := (F.round 0 (r F (cs.map F.decode))).1
    let v (vs : List FVal) (k : Nat) : FVal := vs.getD k (.fin false 0 0)
    let code (cs : List Nat) (k : Nat) : Nat := cs.getD k 0
    let pick (larger : Bool) (F : FFmt) (cs : List Nat) : Nat :=
      let a := F.decode (code cs 0)
      let b := F.decode (code cs 1)
      if a.isNan then (if b.isNan then F.nanCode else code cs 1)
      else if b.isNan then code cs 0
      else if (if larger then a.below b else b.below a) then code cs 1 else code cs 0
    let ones (w : Nat) (b : Prop) [Decidable b] : Nat := if b then 2 ^ w - 1 else 0
    let compares (i : Instr) (fop : FVal → FVal → Bool) (iop : Lane → Lane → Bool) : Prop :=
      gives i 1 fun x =>
        if f.ctype = 1 then BitVec.ofNat 32 (ones 32 (iop A[x] B[x] = true))
        else if pair then
          let h (k : Nat) := ones 16 (fop (FFmt.bf16.decode (A[x].toNat / 65536 ^ k % 65536)) (FFmt.bf16.decode (B[x].toNat / 65536 ^ k % 65536)) = true)
          BitVec.ofNat 32 (h 0 + 65536 * h 1)
        else BitVec.ofNat 32 (ones 32 (fop (FFmt.f32.decode A[x].toNat) (FFmt.f32.decode B[x].toNat) = true))
    Completes (.cellCnop f) s (fun t => t = s) ∧
    gives (.cellPass f) 1 (fun x => A[x]) ∧
    floats (.cellFadd f) 3 [A, B] (rounds fun _ vs => (FVal.add 0 (v vs 0) (v vs 1)).1) ∧
    floats (.cellFsub f) 3 [A, B] (rounds fun _ vs => (FVal.add 0 (v vs 0) (v vs 1).negate).1) ∧
    floats (.cellFmul f) 3 [A, B] (rounds fun _ vs => (FVal.mul (v vs 0) (v vs 1)).1) ∧
    floats (.cellFfma f) 3 [A, B, C] (rounds fun _ vs => (FVal.fma 0 (v vs 0) (v vs 1) (v vs 2)).1) ∧
    floats (.cellFmax f) 1 [A, B] (pick true) ∧
    floats (.cellFmin f) 1 [A, B] (pick false) ∧
    floats (.cellFabs f) 1 [A] (fun F cs => if (F.decode (code cs 0)).isNan then F.nanCode else code cs 0 % 2 ^ (F.width - 1)) ∧
    floats (.cellFexp2 f) 6 [A] (rounds fun _ vs => (v vs 0).exp2) ∧
    floats (.cellFrcp f) 6 [A] (rounds fun _ vs => (v vs 0).recip.1) ∧
    gives (.cellIadd f) 1 (fun x => BitVec.ofNat 32 (A[x].toNat + B[x].toNat)) ∧
    gives (.cellIsub f) 1 (fun x => BitVec.ofInt 32 ((A[x].toNat : Int) - B[x].toNat)) ∧
    gives (.cellImul f) 2 (fun x => BitVec.ofNat 32 (A[x].toNat * B[x].toNat)) ∧
    gives (.cellAnd f) 1 (fun x => BitVec.ofNat 32 (Nat.land A[x].toNat B[x].toNat)) ∧
    gives (.cellOr f) 1 (fun x => BitVec.ofNat 32 (Nat.lor A[x].toNat B[x].toNat)) ∧
    gives (.cellXor f) 1 (fun x => BitVec.ofNat 32 (Nat.xor A[x].toNat B[x].toNat)) ∧
    gives (.cellShl f) 1 (fun x => BitVec.ofNat 32 (A[x].toNat * 2 ^ (B[x].toNat % 32))) ∧
    gives (.cellShr f) 1 (fun x => BitVec.ofNat 32 (A[x].toNat / 2 ^ (B[x].toNat % 32))) ∧
    gives (.cellSel f) 1 (fun x => if pair then
        BitVec.ofNat 32 ((if C[x].getLsbD 15 then A[x] else B[x]).toNat % 65536 +
          65536 * ((if C[x].getLsbD 31 then A[x] else B[x]).toNat / 65536))
      else if C[x].getLsbD 31 then A[x] else B[x]) ∧
    compares (.cellCmplt f) FVal.lt (fun a b => decide (a.toInt < b.toInt)) ∧
    compares (.cellCmpeq f) FVal.eqv (fun a b => decide (a = b)) ∧
    gives (.cellSld f) 2 (fun x => row (named x) x) ∧
    Completes (.cellSst f) s (fun t => CellGives s t c l cell n 2 f B [((List.finRange 8).map fun x => named x % 128, B)]) ∧
    Completes (.cellAcc2 f) s (fun t =>
      let r := f.slice.toNat
      let sum (x : Fin 8) : Lane × Lane := cAcc (row r x, row (r + 1) x) A[x]
      let h : Lanes := Vector.ofFn fun x => (sum x).1
      CellGives s t c l cell n 6 f h [(List.replicate 8 r, h), (List.replicate 8 ((r + 1) % 128), Vector.ofFn fun x => (sum x).2)]) ∧
    gives (.cellCvt f) 2 (fun x =>
      let from_ : Nat := if f.ctype = 2 then 3 else f.ctype.toNat
      let conv (dest : Nat) (y : Lane) : Nat := (convertElem from_ dest 0 false
        (if f.ctype = 2 then y.toNat / 65536 ^ (if f.imm.getLsbD 3 then 1 else 0) % 65536 else y.toNat)).1
      match f.imm.toNat % 4 with
      | 0 => BitVec.ofNat 32 (conv 0 A[x])
      | 1 => BitVec.ofNat 32 (conv 1 A[x])
      | 2 => BitVec.ofNat 32 (conv 3 A[x] + 65536 * conv 3 (if f.srcB = 6 then 0 else B[x]))
      | _ => A[x])

/-- R399, R401, R402, R115: the pattern words that set a cursor, a ring, a fill, a conversion, a loop or a binding, jump, wait or
signal, in the turn of a program that runs: the program goes on at the next word, or where a jump or loop sends
it. PEND ends the program, which leaves its engine once its accesses have been performed. An addition of PSIG or PNOTE takes
effect in the word's step, at another core too (log 39: DESIGN CHOICE; log 21: DESIGN CHOICE). -/
def Obligations.PatternControlWords : Prop :=
  ∀ (f : PatLoad) (g : PatStep) (h : PatSync) (s : State) (r : EngineRef) (p : Prog),
    s.curProg = some (r, p) → p.ended = false →
    -- a word is read when it is reached, again after a jump; one that nests repeat is kept
    let goes (i : Instr) (q : Prog) (index : Int) : Prop :=
      Completes i s (fun t => t = s.setProg r { q with index := index, words := [] } ∧ SameMemory s t)
    let next (i : Instr) (q : Prog) : Prop :=
      Completes i s (fun t => t = s.setProg r (q.goTo (p.index + 1)) ∧ SameMemory s t)
    let reps : Nat := if g.rep = 0 then 65536 else g.rep.toNat
    let selD := g.arg.getLsbD 0
    let left : Nat := (match p.loops.find? fun (l : Int × Nat) => l.1 = p.index with | some l => l.2 | none => reps) - 1
    let count : Nat := h.count.toNat / 16 * 4 ^ (h.count.toNat % 16)
    let target : CoreId := ⟨h.core.toNat, h.core.isLt⟩
    let who := (s.progWho p r).agent
    let signals (i : Instr) (c : CoreId) : Prop := progQuiet s r p = true → count ≤ 2 ^ 32 - 1 →
      s.linkHolds (agentDie who) (some (decide (coreDie c = 1))) .signal = false → Completes i s (fun t =>
      SameMemory s t ∧ t.seq who = s.seq who + 1 ∧ (∀ w, w ≠ h.flag → (t.core c).flag w = (s.core c).flag w) ∧
      t.prog? r = some (p.goTo (p.index + 1)) ∧
      ∃ k, (t.core c).flag h.flag = if count = 0 then (s.core c).flag h.flag else flagAdded ((s.core c).flag h.flag) ⟨who, count, k⟩)
    let leaves : Bool := !p.admitted && progQuiet s r p
    (∀ c e, r = .stream c e → Completes (.pend f) s (fun t => SameMemory s t ∧
      t.prog? r = if leaves then none else some { p with ended := true })) ∧
    (∀ t slot, r = .tide t slot → Completes (.pend f) s (fun u => SameMemory s u ∧
      u.tideProgs t = if leaves then (s.tideProgs t).eraseIdx slot else (s.tideProgs t).set slot { p with ended := true })) ∧
    (∀ cur, addressField (isTide r) p.start f.imm = some cur →
      (if f.imm.getLsbD 41 then cur.addr.isSome → next (.pbase f) { p with x := cur, wrapS := none }
        else next (.pbase f) { p with s := cur, wrapS := none }) ∧
      (f.imm.getLsbD 41 = false → next (.pdst f) { p with d := cur, wrapD := none })) ∧
    (f.imm.toNat / 2 ^ 32 = 0 → next (.pfillv f) { p with fill := f.imm.setWidth 32 }) ∧
    (let fmt (n : Nat) : Nat := f.imm.toNat / 2 ^ n % 64
     f.imm.toNat / 64 % 4 = 0 → f.imm.toNat / 2 ^ 15 = 0 →
      ((fmt 0 = 0 ∧ fmt 8 = 0) ∨ (fmt 0 ∈ [1, 2, 3, 4, 6, 10] ∧ fmt 8 ∈ [1, 2, 3, 4, 6, 10])) →
      next (.pfmt f) { p with conv := f.imm.setWidth 15 }) ∧
    goes (.pjump f) p (p.index + f.imm.toInt) ∧
    (g.arg.toNat / 2 = 0 → p.nests.length < 3 →
      next (.pnest g) { p with nests := ⟨reps, 0, selD, g.step, if selD then p.d else p.s⟩ :: p.nests }) ∧
    (∀ a, g.arg.toNat / 2 = 0 → g.step = 0 → (if selD then p.d else p.s).addr = some a → a.toNat % 64 = 0 →
      next (.pwrap g) (if selD then { p with wrapD := some (a, 64 * reps) } else { p with wrapS := some (a, 64 * reps) })) ∧
    (g.arg = 0 → (p.loops.any (fun (l : Int × Nat) => l.1 = p.index) = true ∨ p.loops.length < 4) →
      let others := p.loops.filter fun (l : Int × Nat) => l.1 ≠ p.index
      if left = 0 then next (.ploop g) { p with loops := others }
      else goes (.ploop g) { p with loops := others ++ [(p.index, left)] } (p.index + g.step.toInt)) ∧
    (∀ c e, r = .stream c e → h.core = 0 →
      (count = 0 → next (.pwait h) p) ∧ signals (.psig h) c ∧
      (0 < count → count ≤ 2 ^ 32 - 1 → s.waitReady c h.flag count = true →
        Completes (.pwait h) s (fun t => SameMemory s t ∧ (∃ kn, t.prog? r = some ({ p with know := kn }.goTo (p.index + 1))) ∧
          ((t.core c).flag h.flag).value.toNat = ((s.core c).flag h.flag).value.toNat - count ∧
          ((t.core c).flag h.flag).consumed = ((s.core c).flag h.flag).consumed + count)) ∧
      (0 < count → count ≤ 2 ^ 32 - 1 → s.waitReady c h.flag count = false →
        Completes (.pwait h) s (fun t => SameMemory s t ∧ t.prog? r = some ({ p with waiting := true }.goTo (p.index + 1)) ∧
          (t.core c).waits = (s.core c).waits ++ [⟨h.flag, count, .engine e⟩]))) ∧
    (∀ t slot, r = .tide t slot → progReaches s p target = true →
      signals (.psig h) target ∧ (count = 1 → next (.pwin h) { p with bound := some (h.flag, target) })) ∧
    (∀ t slot, r = .tide t slot → count = 0 → next (.pwin h) { p with bound := none }) ∧
    (h.core = 0 → signals (.pnote h) p.issuer)

/-- R400, R401, R403: the transfer words. PSKIP without a fill moves its cursors past all its units at once. PMOVE, PGATH and a filling
PSKIP begin a unit: a stream engine's bytes come from memory, the fill or its switch queue, and wait to go out; a tide
engine's go out as pieces, and its cursors advance. A unit is read in one step and written piece by piece (log 40: DESIGN
CHOICE); under a conversion D advances by the converted bytes of a PGATH and by the unit of a PSKIP (log 76: DEDUCED). -/
def Obligations.PatternTransferWords : Prop :=
  ∀ (f : PatStep) (s : State) (r : EngineRef) (p : Prog) (u : Nat),
    s.curProg = some (r, p) → p.ended = false → p.left = none → p.off = none → p.asked = false → p.admitted = false → p.nests = [] →
    let reps : Nat := if f.rep = 0 then 65536 else f.rep.toNat
    let step := f.step.toInt
    let ul := f.arg.toNat % 16
    let plain (n : Nat) : Prop := progConv p = none ∨ ∃ sf df, progConv p = some (sf, df) ∧ n % pageFmtBytes sf = 0
    let fresh : State := { s with nextItem := s.nextItem + 1 }
    -- a unit of a stream engine whose bytes come from memory or are the fill
    let reads (i : Instr) (x : Xfer) : Prop := ∀ (c : CoreId) (e : Fin 4) (b : ReadBack) (w : State), r = .stream c e → plain x.bytes → p.d ≠ .unset →
      (x.source ≠ .fill → p.s ≠ .switch ∧ p.d = .switch) →
      let q : Prog := { p with left := some reps, unitItem := s.nextItem, asked := true }
      -- no earlier access of the program order is on its way to a byte that it reads (R88, R89)
      orderHeld fresh r q (readTouch fresh q (s.whoCore c 1) x) = false →
      unitRead r q (s.whoCore c 1) x fresh = .ok (b, w) → b.causes = [] →
      Completes i s (fun t => t = w.setProg r { q with off := some 0, outb := b.bytes.map fun y => y.getD 0 })
    -- a unit of a stream engine whose bytes come from its switch queue, as they come
    let pops (i : Instr) (x : Xfer) : Prop := ∀ c e, r = .stream c e → plain x.bytes → p.d ≠ .unset → p.s = .switch → p.d ≠ .switch →
      p.inb = [] → let bs := (fresh.popEnd c e.val x.bytes).1
      Completes i s (fun t => SameMemory s t ∧ ∃ q, t.prog? r = some q ∧
        if bs.length < x.bytes then q = { p with left := some reps, unitItem := s.nextItem, asked := true, inb := bs }
        else q.off = some 0 ∧ q.outb = (progConvert p (bs.map some)).map fun y => y.getD 0)
    -- a unit of a tide engine that no flag bounds
    let sends (i : Instr) (x : Xfer) : Prop := ∀ (e : TideId) (slot : Nat) (bs : List Byte) (w : State), r = .tide e slot → plain x.bytes → p.d ≠ .unset → p.s ≠ .switch →
      p.bound = none → roundTurn s e slot p = true →
      let q : Prog := { p with left := some reps, unitItem := s.nextItem }
      orderHeld fresh r q (readTouch fresh q (s.whoTide e p.issuer) x) = false →
      unitRead r q (s.whoTide e p.issuer) x fresh = .ok (⟨bs.map some, []⟩, w) →
      Completes i s (fun t => ∃ z, t = w.setProg r z ∧ z.s = p.s.move x.advS ∧ z.d = p.d.move x.advD ∧
        z.x = p.x.move x.advX ∧ z.unitIndex = p.unitIndex + 1 ∧ z.left = (if reps = 1 then none else some (reps - 1)) ∧
        z.inflight = p.inflight ++ (destPieces p (x.dest p)).map fun y =>
          ⟨s.nextItem, p.d.at y.2.1, (bs.drop y.1).take y.2.2, none, p.unitIndex, p.reserved, none⟩)
    (ul ≤ 13 → (u = if ul = 0 then step.natAbs else 2 ^ (ul - 1)) → 0 < u → u ≤ 4096 →
      let swap5 := f.arg.getLsbD 5
      let swap4 := f.arg.getLsbD 4
      let filling : Xfer := ⟨reps, .fill, u, if swap5 then u else step, if swap5 then step else u, 0⟩
      let moving : Xfer := ⟨reps, .cursor, u, if swap4 then u else step, if swap4 then step else destBytes p u, 0⟩
      (f.arg.toNat / 64 = 0 → f.arg.getLsbD 4 = false →
        Completes (.pskip f) s (fun t => t = s.setProg r { p with
          s := (p.s.move (filling.advS * ((reps : Int) - 1))).move filling.advS
          d := (p.d.move (filling.advD * ((reps : Int) - 1))).move filling.advD
          inb := [], outb := [], admitted := false, reserved := false, unitIndex := p.unitIndex + reps, words := []
          index := p.index + 1 })) ∧
      (f.arg.toNat / 64 = 0 → f.arg.getLsbD 4 = true → reads (.pskip f) filling ∧ sends (.pskip f) filling) ∧
      (f.arg.toNat / 32 = 0 → reads (.pmove f) moving ∧ pops (.pmove f) moving ∧ sends (.pmove f) moving)) ∧
    (f.arg.toNat ≤ 12 →
      let gathering : Xfer := ⟨reps, .gather (2 ^ f.arg.toNat), 2 ^ f.arg.toNat, 0, destBytes p (2 ^ f.arg.toNat), step⟩
      reads (.pgath f) gathering ∧ sends (.pgath f) gathering)

/-- R220 to R224, R243, R406: the five actions on a held core, the delivery of its trap and the watchdog. RESUME without edits goes on at the
PC that the window shows with every register as it stands; RESUME_AT goes on at its target, and leaves operands that were still to be loaded (log 101); RESTART_TASK enters a versioned
piece again; FAIL_TASK ends the piece or the stream; KILL_PARTITION ends everything of the partition. Each
lowers the core's CTPEND bit where its trap was delivered. -/
def Obligations.TrapActions : Prop :=
  ∀ (s : State) (c : CoreId) (w : W64) (rest : List (CoreId × W64)) (h : Hold),
    (s.core c).held = some h →
    let k := s.core c
    let lowered (t : State) : Prop := ∀ y d, (t.sysCore y).ctpend.getLsbD d =
      ((s.sysCore y).ctpend.getLsbD d && !(decide (h.delivered = some y) && decide (d = c.val)))
    (s.actions = (c, w) :: rest →
      (w = 1 → h.cause ≠ 323 → h.edits = [] → Completes (.resume c) s (fun t =>
        t.actions = rest ∧ SameMemory s t ∧ lowered t ∧ (∀ d, d ≠ c → t.core d = s.core d) ∧
        (t.core c).held = none ∧ (t.core c).run = k.run ∧ (t.core c).x = { k.x with npc := k.x.pc, fetched := [] } ∧
        (t.core c).v = k.v ∧ (t.core c).lat = k.lat ∧ (t.core c).tiles = k.tiles ∧ (t.core c).tfull = k.tfull ∧
        (t.core c).flags = k.flags ∧ (t.core c).piece = k.piece)) ∧
      (∀ target : BitVec 61, w = target ++ (2 : BitVec 3) → h.cause ≠ 323 → Completes (.resumeAt c target) s (fun t =>
        let a := target ++ (0 : BitVec 3)
        t.actions = rest ∧ SameMemory s t ∧ lowered t ∧ (∀ d, d ≠ c → t.core d = s.core d) ∧
        (t.core c).held = none ∧ (t.core c).run = .run ∧ (t.core c).x.pc = a ∧ (t.core c).x.npc = a ∧
        (t.core c).x.blocked = none ∧ (t.core c).x.fetched = [] ∧
        (t.core c).piece = k.piece.map fun q => { q with loading := false })) ∧
      (w = 3 → ∀ q, k.piece = some q → q.versioned = true → Completes (.restartTask c) s (fun t =>
        t.actions = rest ∧ lowered t ∧ (t.core c).run = .run ∧ (t.core c).x.pc = q.entry ∧ (t.core c).x.npc = q.entry ∧
        (t.core c).rangeLo = q.lo ∧ (q.opnds = [] → (t.core c).held = none) ∧
        ∃ r, (t.core c).piece = some r ∧ r.launch = q.launch ∧ r.node = q.node ∧ r.number = q.number ∧ r.vbytes = [] ∧ r.vblocks = [])) ∧
      (w = 4 → Completes (.failTask c) s (fun t =>
        t.actions = rest ∧ lowered t ∧ (t.core c).held = none ∧ (t.core c).piece = none ∧ (t.core c).x.blocked = none ∧
        (k.piece = none → (t.core c).run = .off))) ∧
      (w = 5 → ∀ p, k.part = some p → Completes (.killPartition c) s (fun t =>
        (∀ d, (s.core d).part = some p → (t.core d).held = none ∧ (t.core d).piece = none ∧
          ∀ q, ((t.core d).queue q).flights = [] ∧ ((t.core d).queue q).waiting = []) ∧
        (∀ l ∈ t.launches, l.part = p → l.ended = true) ∧ (∀ q ∈ t.launchQueue, q.part ≠ p) ∧
        (∀ r ∈ t.readySessions, r.part ≠ p) ∧ (∀ x ∈ t.steps, x.1 ≠ p) ∧ (∀ x ∈ t.pins, x.2.1 ≠ p) ∧
        ∀ v ∈ t.saved, v.image.part ≠ some p))) ∧
    -- a trap that has not been delivered, or was delivered to a system core that has stopped since
    ((∀ z, h.delivered = some z → (s.sysCore z).enabled = false) →
      (∀ y, (deliveryOrder c).find? (fun y => (s.sysCore y).enabled) = some y → Completes (.coreTrapDelivery c) s (fun t =>
        t = { s with sys := t.sys, cores := t.cores } ∧ SameMemory s t ∧
        (∀ d, t.core d = if d = c then { k with held := some { h with delivered := some y } } else s.core d) ∧
        ∀ z, t.sysCore z = { s.sysCore z with ctpend := (t.sysCore z).ctpend } ∧ ∀ d : Nat, (t.sysCore z).ctpend.getLsbD d =
          if d = c.val then decide (z = y) || ((s.sysCore z).ctpend.getLsbD d && decide (h.delivered ≠ some z))
          else (s.sysCore z).ctpend.getLsbD d)) ∧
      ((∀ y, (s.sysCore y).enabled = false) → Completes (.coreTrapDelivery c) s (fun t =>
        t = { s with pfEvents := t.pfEvents, cores := t.cores, sys := t.sys } ∧ SameMemory s t ∧
        (∀ d, t.core d = if d = c then { k with held := some { h with delivered := none } } else s.core d) ∧
        .internalError c none ∈ t.pfEvents ∧ (∀ p, (s.part p).vf = true → .internalError c (some p) ∈ t.pfEvents) ∧
        ∀ e ∈ s.pfEvents, e ∈ t.pfEvents))) ∧
    (∀ p, let limit := ((k.piece.map (·.wdog)).getD (s.part p).wdog).toNat
      k.part = some p → 0 < limit → (k.piece.isSome ∨ k.run = .run) → k.dog + limit ≤ s.us →
      h.cause ≠ 327 → Completes (.watchdogExpiry c) s (fun t =>
        t = s.setCore c { k with held := some { h with wdx := true } } ∧ SameMemory s t))

/-- R91, R97, R101, R109, R114, R115, R117, R119, R125, R126, R243, R63, R65: the watchdog of a core that is not held stops it with 322; a release event; an
addition that arrives; a wait that succeeds; an admission; a stalled push or pop, a waiting access and a ticketed
atomic that are performed. -/
def Obligations.WaitingStepsComplete : Prop :=
  ∀ (s : State) (c : CoreId), let k := s.core c
    (∀ p, let limit := ((k.piece.map (·.wdog)).getD (s.part p).wdog).toNat
      k.part = some p → 0 < limit → (k.piece.isSome ∨ k.run = .run) → k.dog + limit ≤ s.us →
      k.held = none → Completes (.watchdogExpiry c) s (fun t => Stops s t c .async 322 0 (cpDetail c) k.x.npc)) ∧
    (∀ a, s.acked a → Completes (.releaseEvent a) s (fun t => t = released s a)) ∧
    -- signals that arrive together are added together; each is its agent's oldest
    (k.signals ≠ [] → (∀ g ∈ k.signals, s.linkHolds (agentDie g.agent) (dieOf c) .signal = false) →
      Completes (.flagAddition c) s (fun t => SameMemory s t ∧ ∃ now : List Signal, now ≠ [] ∧
        (∀ g ∈ now, k.signals.find? (fun x => x.agent = g.agent) = some g) ∧
        t = { s.setCore c { k with signals := now.foldl (·.erase ·) k.signals, flags := (t.core c).flags } with moment := s.moment + 1 } ∧
        ∀ f, (t.core c).flag f = now.foldl (fun (v : Flag) (g : Signal) =>
          if g.flag = f ∧ g.amount ≠ 0 then flagAdded v ⟨g.agent, g.amount, g.know⟩ else v) (k.flag f))) ∧
    (∀ f w, readyWait k f = some w → k.held = none → Completes (.flagWaitSuccess c f) s (fun t => SameMemory s t ∧
      (t.core c).waits = k.waits.erase w ∧ ((t.core c).flag f).value.toNat = (k.flag f).value.toNat - w.threshold ∧
      ((t.core c).flag f).consumed = (k.flag f).consumed + w.threshold ∧ (∀ g, g ≠ f → (t.core c).flag g = k.flag g) ∧
      (w.who = .cp → (t.core c).x.blocked = none) ∧ (∀ q, w.who = .queue q → ((t.core c).queue q).granted = true) ∧
      (∀ e p, w.who = .engine e → s.prog? (.stream c e) = some p →
        ∃ kn, t.prog? (.stream c e) = some { p with waiting := false, know := kn }))) ∧
    (∀ (t : TideId) (slot : Nat) p f d n, s.prog? (.tide t slot) = some p → p.bound = some (f, d) → p.off = some n → p.asked = true →
      p.admitted = false → p.ended = false → p.halting = false → progFree s p = true → earlierAsk s p = false →
      ((s.core d).flag f).admits n = true →
      Completes (.tidelineAdmission t slot) s (fun u => SameMemory s u ∧
        let v := (s.core d).flag f
        (u.core d).flag f = (if v.window = 0 then v else { v with res := v.res + BitVec.ofNat 32 n }) ∧
        u.prog? (.tide t slot) = some { p with admitted := true, reserved := decide (v.window ≠ 0), off := none })) ∧
    (∀ f a, k.x.blocked = some (.qpush f, a) → s.canGo (.compute c) = true →
      let up := f.x.getLsbD 0
      let next := ringTarget k c up
      (k.x.pushing = false → s.acked (unitAgent c 0)) → 0 < (if up then k.creditUp else k.creditDown) →
      (s.qDown next up).slots.length < 8 → s.linkHolds (dieOf c) (dieOf next) .push = false →
      Completes (.neighbourPushAccept c) s (fun t => SameMemory s t ∧ (t.core c).x.blocked = none ∧
        (t.qDown next up).slots = (s.qDown next up).slots ++ [k.v[(fld f.a 0 3).toNat]] ∧
        (if up then (t.core c).creditUp = k.creditUp - 1 else (t.core c).creditDown = k.creditDown - 1))) ∧
    (∀ f a v r, k.x.blocked = some (.qpop f, a) → s.canGo (.compute c) = true → (s.qDown c (f.x.getLsbD 0)).slots = v :: r →
      (s.qDown c (f.x.getLsbD 0)).bad = none → Completes (.neighbourPopComplete c) s (fun t => SameMemory s t ∧ (t.core c).x.blocked = none ∧
        (t.core c).v[(fld f.d 0 3).toNat] = v ∧ (t.core c).lat = v ∧ (t.qDown c (f.x.getLsbD 0)).slots = r)) ∧
    (∀ q t, .proc q ∈ s.feQueue → performWaiting s q = some t → Completes (.fullEmptyAccess q) s (fun u =>
      u = t ∧ (u.cpuOf q).blocked = none ∧ u.cur = s.cur ∧ u.unit = s.unit)) ∧
    (∀ n q i g rest old u, s.tickets = (n, q, i, g) :: rest →
      ticketAccess i ({ s with cur := q }.setCpuOf q { s.cpuOf q with g := g }) = .ok (old, u) →
      Completes .ticketedAtomic s (fun t => t.tickets = rest ∧ t.cur = s.cur ∧ SameMemory u t ∧ (t.cpuOf q).g = (s.cpuOf q).g ∧
        ((u.cpuOf q).ticket = some n → (t.cpuOf q).reply = some ⟨BitVec.ofNat 128 old, none⟩)))

/-- R30, R44 to R46, R67, R72, R75, R78 to R80, R116, R148 to R153, R231, R363: the steps of the memory side, the switch and the Quay: a
walk caches its leaf, a line arrives, a store to an FBC block is performed and an image encoded, a piece of a copy or a tide
program lands, a guarded page is copied to the rollback area, a bank page moves, and a tile source or sink moves a row. When a
translation or a line is cached, and that a piece lands in a turn of its own, are the model's choices (logs 9, 39). -/
def Obligations.MemorySteps : Prop :=
  ∀ (s : State) (c : CoreId), let k := s.core c
    -- a walk ends once its reads are admitted: its leaf is cached, a walk without one leaves no entry
    (∀ a va w sp x e t, agentWho s a = some w → w.space = some sp → va.toNat < 2 ^ 48 → walkGate w .load va 1 s = .ok ((), x) →
      x.lookup w.holder sp va.toNat = (e, t) → Completes (.pageWalk a va) s (fun u => SameMemory s u ∧
        u = { s with tlb := u.tlb, walkCache := u.walkCache, walks := u.walks, regulators := u.regulators, requests := u.requests } ∧
        u.walks = (match s.walkFor w.holder sp va.toNat with | some k => s.walks.erase k | none => s.walks) ∧
        match e with
        | .leaf l _ => ∃ y ∈ u.tlb, y.holder = w.holder ∧ y.space = sp ∧ y.base ≤ va.toNat ∧ va.toNat < y.base + 2 ^ y.log2 ∧ y.leaf = l
        | _ => u.tlb = s.tlb)) ∧
    (∀ a va st w p r t u, agentWho s a = some w → translateRows w (if st then .store else .load) false [(va, 1)] s = .ok (p :: r, t) →
      p.isWindow = false → allocates t w {} p = true → chargeRequests (memoryRequests t w p) t = .ok ((), u) →
      Completes (.l2MissFill a va st) s (fun v => SameMemory s v ∧
        v = { s with
          tlb := v.tlb, walkCache := v.walkCache, lines := v.lines, plru := v.plru, regulators := v.regulators, requests := v.requests } ∧
        ∀ l, p.lines = [l] → (∀ m, versionLine s m = false) → (tfind v.lines l.1).isSome)) ∧
    (∀ f, s.fbcStores.find? (fun g => g.enc = f.enc) = some f → Completes (.fbcBlockRmw f.enc) s (fun t =>
      t.fbcStores = s.fbcStores.erase f ∧ t.held = s.held ∧ t.tags = s.tags ∧
      (f.owner = none →
        let bits := budBits (leafBud f.leaf)
        let bytes := mergeNamed (s.versionBlockBytes none f.leaf f.enc) f.named
        SameMemoryOutside s t f.enc (2 * bits) ∧
        t.bytes f.enc (2 * bits) = leBytes (2 * bits) (fbcEncode bits (leafGeo f.leaf) (lanesOf bytes))) ∧
      (f.owner.isSome → SameMemory s t))) ∧
    (∀ h, s.held.find? (fun g => g.enc = h.enc && g.due) = some h → Completes (.fbcHeldImageEncode h.enc) s (fun t =>
      t.held = s.held.erase h ∧ t.fbcStores = s.fbcStores ∧
      (h.owner = none →
        let bits := budBits (leafBud h.leaf)
        SameMemoryOutside s t h.enc (2 * bits) ∧
        t.bytes h.enc (2 * bits) = leBytes (2 * bits) (fbcEncode bits (leafGeo h.leaf) (lanesOf h.bytes))) ∧
      (h.owner.isSome → SameMemory s t))) ∧
    (∀ pos fl total done ov signalled i p t, s.flight? c .copy pos = some fl → fl.prog = .copy total done ov signalled →
      fl.finished = false → i ∉ done → s.engineGoes c = true → s.sourceQueue c 14 = none → s.sinkQueue c 14 = none →
      (copyPieces fl.cmd)[i]? = some p → passesEarlier s c fl p = false →
      movePiece s c fl p (((copyPieces fl.cmd).zipIdx.filter fun q => q.2 ≠ i && !done.contains q.2).map fun q => (q.1.2.2.1, q.1.2.2.2)) =
        .performed t [] →
      Completes (.piecePerformed (.copy c pos) i) s (fun u => SameMemory t u ∧ ∃ told : Bool,
        u.flight? c .copy pos = ((t.flight? c .copy pos).map fun g => { g with
          prog := .copy total (done ++ [i]) ov told, finished := decide (done.length + 1 = total) }) ∧
        (done.length + 1 ≠ total → told = signalled))) ∧
    (∀ (e : TideId) (slot i : Nat) p x w t, s.prog? (.tide e slot) = some p → p.inflight[i]? = some x → x.failed = none → x.bound = none →
      -- no piece of an earlier word on the same bytes is in flight
      (piecesTouch s e p [x]).meets (piecesTouch s e p (p.inflight.take i)) = false → cursorWho s p (s.whoTide e p.issuer) .engWrite x.dst = .ok w →
      let rest := (p.inflight.eraseIdx i).filter fun y => y.item = x.item
      pieceStore w x.item p.item (rest.map fun y => (y.dst.addr.getD 0, y.bytes.length)) none (x.dst.addr.getD 0) x.bytes s = .ok ([], t) →
      Completes (.piecePerformed (.tide e slot) i) s (fun u => SameMemory t u ∧ u.cores = t.cores ∧ u.prog? (.tide e slot) = some { p with
        inflight := p.inflight.eraseIdx i, told := if rest = [] then p.told.filter (· ≠ x.item) else p.told } ∧
        -- and plain bytes are those of the unit, where they were to go
        ∀ pt y h, translateRows w .engWrite false [(x.dst.addr.getD 0, x.bytes.length)] s = .ok ([pt], y) → pt.home = .plain h → pt.fmt ≠ 5 →
          versionOf s w.agent { item := some p.item, fills := true } pt = none →
          u.bytes h x.bytes.length = x.bytes ∧ SameMemoryOutside s u h x.bytes.length)) ∧
    -- the bytes of the page go to its place in the core's rollback area
    (∀ page q p, k.part = some p → k.piece = some q → page ∈ k.guardWait → page ∈ q.guarded → page < 256 →
      Completes (.guardedPageCopy c page) s (fun t => t = s.guardCopy c page ∧
        (t.core c).piece = some { q with guarded := q.guarded.erase page, rolled := q.rolled ++ [page] } ∧
        (t.core c).guardWait = k.guardWait.filter (· ≠ page) ∧ (∀ d, d ≠ c → t.core d = s.core d) ∧
        let r := (s.part p).rect
        let va := (s.part p).rbase + BitVec.ofNat 64 (0x80000 * ((coreY c - rectY r) * rectW r + (coreX c - rectX r)) + 4096 * (page % 128))
        let old := 2 ^ 55 + c.val * 2 ^ 20 + page / 128 * 2 ^ 19 + 4096 * (page % 128)
        ∀ pt u h, s.flaws = [] → (s.draw p .store va 4096).tableParts p .store va 4096 = some ([pt], u) → pt.home = .plain h →
          t.bytes h 4096 = s.bytes old 4096 ∧ SameMemoryOutside s t h 4096)) ∧
    (∀ pos fl j u, s.flight? c .quay pos = some fl → fl.cmd.pos = pos → fl.prog = .quay j → fl.finished = false →
      s.engineGoes c = true →
      let es := earlierJobs k pos
      -- a save reads its next page into a staging buffer that is free
      (j.writesBank = false → bufferFree k es = true → j.read < jobPages j → bankDue k es j j.read = true →
        Completes (.quayPageRead c pos) s (fun t => t = s.modFlight c .quay pos fun g => { g with
          prog := .quay { j with read := j.read + 1, staged := j.staged ++ [((bankPage s c j j.read).1.getD [], (bankPage s c j j.read).2)] } })) ∧
      -- a load's next page arrives in the bank
      (j.writesBank = true → j.pagesDone < jobPages j → bankDue k es j j.pagesDone = true → frameDue es j j.pagesDone = true →
        (∀ f, fl.cmd.instr ≠ .slSave f) → (∀ q, k.piece = some q → q.guarded = []) →
        loadPage s c (quayWho s c) fl.item j j.pagesDone = (u, none, none) →
        Completes (.quayPageArrived c pos) s (fun t => SameMemory u t ∧
          t.flight? c .quay pos = (u.flight? c .quay pos).map fun g => { g with
            prog := .quay { j with pagesDone := j.pagesDone + 1 }, finished := g.finished || decide (jobPages j ≤ j.pagesDone + 1) }))) ∧
    (∀ sq : BitVec 5, s.engineGoes c = true →
      let v := s.switchQueue c sq.toNat
      let n := v.tile.toNat
      let r := v.srcRow.getD 0
      let w := v.snkRow.getD 0
      let after (q : Option Nat) (r : Nat) : Prop := q = if r = 15 then none else some (r + 1)
      (v.src = some 15 → (v.srcRow = none → s.tileFull c n = true ∧ s.tileBusy c n = false) → s.tilePower c n ≠ 2 → 64 ≤ pushRoom v →
        Completes (.tileSourceRead c sq) s (fun t => SameMemory s t ∧
          ∃ q, t.switchQueue c sq.toNat = { pushBytes v (tileRow64 s c n r) with srcRow := q } ∧ after q r ∧
          (t.core c).tiles = k.tiles ∧ t.tileFull c n = (decide (r ≠ 15) && s.tileFull c n))) ∧
      (v.snk = some 15 → (v.snkRow = none → s.tileFull c n = false ∧ s.tileBusy c n = false ∧ ldtHolds s c n = false) → (popUpTo v 64).1.length = 64 →
        s.tilePower c n ≠ 2 → w < 16 →
        Completes (.tileSinkFill c sq) s (fun t => SameMemory s t ∧ tileRow64 t c n w = (popUpTo v 64).1 ∧
          (∀ i, i < 16 → i ≠ w → tileRow64 t c n i = tileRow64 s c n i) ∧
          ∃ q, t.switchQueue c sq.toNat = { (popUpTo v 64).2 with snkRow := q } ∧ after q w ∧
          t.tileFull c n = (decide (w = 15) || s.tileFull c n))))

/-- R18, R115, R121 to R124, R215, R216, R356, R357, R374, R386, R388, R389, R422: the steps of the engines: a queue's head starts, a
command completes with its release and its signal, a NOTE is reached and the bell rings, a lease is granted and ends
at its limits, an array changes its mode, a table is taken, an iteration starts and a token goes out. -/
def Obligations.EngineSteps : Prop :=
  ∀ (s : State) (c : CoreId), let k := s.core c
    (∀ q d r u, let v := k.queue q
      v.waiting = d :: r → isNote d.instr = false → scaled d.f.waitCount = 0 → s.engineGoes c = true → s.acked (unitAgent c 0) →
      mayStart s c q d = true →
      let n := learnIssue { s with nextItem := s.nextItem + 1 } c q d
      let fl : Flight := ⟨d, s.nextItem, firstProgress n c d, false, [], [], n.known (State.queueAgent c q), false⟩
      beginCommand c fl (n.modCore c fun x =>
        x.setQueue q { x.queue q with waiting := r, flights := v.flights ++ [fl], granted := false }) = .ok u → Completes (.engineCommandStart c q) s (fun w => w = u)) ∧
    (∀ q pos fl, let a := completionAgent s c q fl.cmd
      s.flight? c q pos = some fl → fl.finished = true → s.acked a → s.engineGoes c = true →
      (s.held.all fun h => h.item ≠ fl.item && h.tagItem ≠ fl.item) = true →
      (q = .quay → earlierQuay (k.queue q) fl = false) → Completes (.engineCommandComplete c q pos) s (fun t =>
        SameMemory s t ∧ t.seq a = s.seq a + 1 ∧ (∀ g ∈ ((t.core c).queue q).flights, g.cmd.pos ≠ pos) ∧
        ((t.core c).queue q).waiting = (k.queue q).waiting ∧
        (t.core c).flag fl.cmd.f.sigFlag =
          if isCopyCommand fl.cmd.instr = true ∨ scaled fl.cmd.f.sigCount = 0 then k.flag fl.cmd.f.sigFlag
          else flagAdded (k.flag fl.cmd.f.sigFlag) ⟨a, scaled fl.cmd.f.sigCount, fl.know⟩)) ∧
    (∀ q d r, (k.queue q).waiting = d :: r → isNote d.instr = true → d.reached = false → (k.queue q).flights = [] →
      s.engineGoes c = true → scaled d.f.waitCount = 0 → Completes (.noteReached c q) s (fun t => SameMemory s t ∧
        ((t.core c).queue q).waiting.head? = some { d with reached := true } ∧ ∀ p, p ≠ q → (t.core c).queue p = k.queue p)) ∧
    (inWfb k = true → notingQueues k ≠ [] → (∀ q ∈ notingQueues k, (k.queue q).reachedNote = true) → s.engineGoes c = true →
      let u := (notingQueues k).foldl (fun (u : State) q => retireNote u c q) s
      Completes (.bellRing c) s (fun t => SameMemory s t ∧ (t.core c).x = { k.x with blocked := none } ∧ (t.core c).rings = k.rings + 1 ∧
        -- the failures since the last ring, those of the retired NOTEs' own signals among them
        (t.core c).bellErr = (notingQueues k).any (fun q => (u.core c).bellFail.getLsbD (queueIndex q).val) ∧ (t.core c).bellFail = 0 ∧
        ∀ q, ((t.core c).queue q).waiting = if q ∈ notingQueues k then (k.queue q).waiting.drop 1 else (k.queue q).waiting)) ∧
    (∀ x : ClusterId, let a := s.array x
      let ended (t : State) : Prop := SameMemory s t ∧ (t.array x).holder = none ∧ (∀ m, a.holder = some m → (t.array x).last = m) ∧
        ∀ y, y ≠ x → t.array y = s.array y
      (∀ m, a.holder = none → s.nextHolder x = some m → Completes (.leaseGrant x) s (fun t => SameMemory s t ∧
        t = { s with arrays := t.arrays } ∧ (t.array x).holder = some m ∧ (t.array x).expired = false ∧ (t.array x).narrow = a.narrow ∧
        ∀ y, y ≠ x → t.array y = s.array y)) ∧
      (∀ m, a.holder = some m →
        (s.mxRunning (memberCore x m) = none → Completes (.leaseCycleLimit x) s ended) ∧
        (16 ≤ a.cmds → ((s.core (memberCore x m)).queue .matrix).flights = [] → Completes (.leaseCommandLimit x) s ended)) ∧
      ((∀ m, a.holder = some m → ((s.core (memberCore x m)).queue .matrix).flights = []) → Completes (.narrowModeChange x) s (fun t =>
        t = { s with arrays := t.arrays } ∧ t.array x = { a with narrow := s.alarm } ∧ ∀ y, y ≠ x → t.array y = s.array y))) ∧
    (∀ fl f i g tables b table u, s.mxRunning c = some fl → fl.cmd.instr = .mxMma f → fl.prog = .matrix i g tables → s.engineGoes c = true →
      holdsLease s c = true →
      mmaStep (s.queueWho c .matrix) c fl (s.array (coreCluster c)).narrow i g tables true s = .ok ((some (.takes b table), []), u) →
      Completes (.cb3TableTake c) s (fun t =>
        t = (u.tableAsked c false).modFlight c .matrix fl.cmd.pos fun x => { x with
          prog := .matrix i g (tinsert b table (terase tables b)), told := fl.told })) ∧
    (∀ ver l, s.loop? c ver = some l → k.held = none →
      let h := imageHead k ver
      let n := l.clock / imageII h
      l.decided = false → l.cell = 0 → l.clock % imageII h = 0 →
      if l.off = true ∨ l.stopAsked = true ∨ k.preempt = true ∨ l.trip ≤ l.first + n then
        Completes (.gridIterationStart c ver) s (fun t => t = s.modLoop c ver fun x => { x with off := true, decided := true })
      else ∀ ts u, popTokens s c n ((List.range 4).filter fun p => (imageIn h).getLsbD p) = some (ts, u) →
        Completes (.gridIterationStart c ver) s (fun t => t = u.modLoop c ver fun x => { x with
          started := n + 1, decided := true, tokens := x.tokens.filter (fun y => n < y.1 + 9) ++ ts })) ∧
    (∀ ver l p u, k.loops.head? = some l → l.ver = ver → k.held = none →
      pickMin pushKey (l.pushes.filter fun p => p.1 ≤ l.clock) = some p →
      s.pushWhole c (if p.2.2.2.1 then 9 else 8) (tokenBytes p.2.2.2.2) = some u →
      Completes (.gridTokenPush c ver) s (fun t => t = u.modLoop c ver fun x => { x with pushes := x.pushes.erase p }))

/-- R191, R197, R202, R203, R206 to R213, R217, R234 to R239, R345, R348, R435: the steps of the Timetables: a barrier whose members
have all arrived lets them go, a queued launch is accepted or refused, a launch packet is taken or fails, a core that seeks work
begins a piece, or leaves WORK, a steal is answered with a node, a split or nothing, a session becomes ready, slices end, and
contexts are saved and resumed. The number of a packet's launch (log 51), what a packet's check compares (log 52) and when a saved
piece resumes elsewhere (log 30) are the model's readings, each DEDUCED; the replenishing of deficits is its choice (log 72). -/
def Obligations.TimetableSteps : Prop :=
  ∀ (s : State) (c : CoreId), let k := s.core c
    (∀ b, s.barriers.find? (fun b => b.arrived.any (fun m => m.core = c) && b.arrived.length = rectW b.group * rectH b.group) = some b →
      -- a member, or its saved image, goes on where its piece waits in the GBAR at which it arrived
      let waits (d : CoreId) (x : Core) : Prop := isGbar x.x.blocked = true ∧ ∃ m q, m ∈ b.arrived ∧ m.core = d ∧ x.piece = some q ∧
        q.launch = b.launch ∧ q.inst = m.inst ∧ q.node = m.node ∧ q.number = m.number
      Completes (.gbarComplete c) s (fun t => SameMemory s t ∧ t.barriers = s.barriers.erase b ∧ t.saved.length = s.saved.length ∧
        (∀ d, (waits d (s.core d) → t.core d = { s.core d with x := { (s.core d).x with blocked := none } }) ∧
          (¬waits d (s.core d) → t.core d = s.core d)) ∧
        ∀ n v, s.saved[n]? = some v → t.saved[n]? = some { v with image := (t.saved.getD n v).image } ∧
          (waits v.core v.image → (t.saved.getD n v).image = { v.image with x := { v.image.x with blocked := none } }) ∧
          (¬waits v.core v.image → (t.saved.getD n v).image = v.image))) ∧
    -- the oldest queued launch: its graph and its session list are read, and it is refused, or its root nodes are ready
    (∀ q rest, s.launchQueue = q :: rest → (s.launches.filter State.counting).length < 64 →
      let w := wordAt q.desc
      let u := ({ s with launchQueue := rest }.draw q.part .load ((fld (w 0) 0 48).setWidth 64) (128 * (fld (w 0) 48 16).toNat)).draw q.part .load
        ((fld (w 2) 0 48).setWidth 64) (4 * (fld (w 2) 48 15).toNat)
      Completes .launchAccept s (fun t => t.launchQueue = rest ∧ match parseLaunch u q with
        | .error x => t.launches = s.launches ∧ t = u.writeDone q.part ((fld (w 4) 0 48).setWidth 64) (some x)
        | .ok l => SameMemory s t ∧ (l.perSession = true → t.launches = s.launches ++ [l]) ∧
          (l.perSession = false → (∃ i, t.launches = s.launches ++ [{ l with insts := [i] }] ∧
              i.remaining = l.nodes.map (fun n => (n.npred : Int)) ∧ i.session = none ∧ i.made = l.nodes.map fun _ => 0) ∧
            ∀ (n : Nat) x, l.nodes[n]? = some x → x.npred = 0 → ∃ r ∈ t.pool, r.launch = s.launches.length ∧ r.inst = 0 ∧ r.node = n))) ∧
    -- the Timetable claims the oldest packet of the launch queue, as DEQ does, and acquires what its commit released
    (∀ (p : PartId) ps bs h, let va := (s.part p).lqaddr
      s.peekAtomic p va 64 = some (ps, bs) → parseHeader (leNat bs) = some h → h.ri.toNat < h.ci.toNat →
      ∃ u, s.queueStep p va true false 0 = some (h.slot h.ri, acquireFrom s 0xFFF 4 (syncMet s ps), u) ∧
        u = { s.poke p (va + 16) (leBytes 8 (h.ri + 1).toNat) with sync := u.sync }) ∧
    -- it frees the slot and queues the launch, or counts a packet that fails
    (∀ (p : PartId) slot know u pk, let va := (s.part p).lqaddr
      let ver := ((s.peek p va 64).map State.queueVersion).getD 0
      let v := (u.draw p .load slot 64).endSlot ⟨p, va, slot, true⟩
      let fault := State.packetFault ver (BitVec.ofNat 24 (leNat ((pk.drop 4).take 3))) (v.peerWrote p slot) pk
      let desc := BitVec.ofNat 64 (leNat ((pk.drop (if ver = 1 then 8 else 16)).take 8))
      va ≠ 0 → s.queueStep p va true false 0 = some (slot, know, u) → slot ≠ 0 → s.slotBytes p slot = .ok pk →
      (∀ ds, fault = none → pk.getD 1 0 = 1 → desc.toNat % 64 = 0 → v.peek p desc 64 = some ds →
        Completes (.launchPacketTake p) s (fun t => t = ((v.draw p .load desc 64).queueLaunch p ds know).2 ∧
          t.launchQueue = v.launchQueue ++ [⟨p, (v.part p).nextLaunch, ds, know⟩])) ∧
      (∀ x, fault = some x → Completes (.launchPacketTake p) s (fun t =>
        t = (if 368 ≤ x then v.linkEvent x else v).modPart p fun y => { y with pktfail := y.pktfail + 1 }))) ∧
    (k.run = .seek → k.piece = none → k.held = none → k.part = none →
      Completes (.dispatch c) s (fun t => t = s.setCore c { k with run := .run, workAt := none })) ∧
    (s.idle c = true →
      (s.candidate c = none → (∀ v, decide (coreDie v = 1) = decide (coreDie c = 1) → ¬Splittable s c v) → c ∈ s.steals →
        k.run = .seek → s.holdsCore c = false → Completes (.dispatch c) s (fun t =>
        t = s.setCore c { k with run := .run, workAt := none })) ∧
      (∀ v, s.candidate c = none → LargestRange s c (decide (coreDie c = 1)) v →
        Completes (.dispatch c) s (fun t => t = s.splitFor v c ∧ SplitsFor s t v c)) ∧
      (∀ r, s.candidate c = some (.node r) → Completes (.dispatch c) s (fun t => t = s.takeNode c r ∧ TakesNode s t c r))) ∧
    -- the other die gives a core that is still idle its oldest ready node of case 4 that the core may run, else the rest of its
    -- largest range, else nothing
    (c ∈ s.steals → s.dieLost = false →
      let far := decide (coreDie c = 0)
      let u := { s with steals := s.steals.filter (· ≠ c) }
      let gives (r : Ready) : Prop := r ∈ s.pool ∧ r.die = far ∧ ∃ l i, s.launches[r.launch]? = some l ∧ l.insts[r.inst]? = some i ∧
        s.mayRun c l = true ∧ s.dieOk c l r.node = true ∧ i.session = none ∧ (s.part l.part).place = false
      let key (r : Ready) : List Nat := [r.at_, s.launchNumber r.launch, r.node]
      (s.idle c = false → Completes (.stealAnswer c) s (fun t => t = u)) ∧
      (s.idle c = true →
        (∀ r, gives r → (∀ x, gives x → x = r ∨ keyLt (key r) (key x) = true) →
          Completes (.stealAnswer c) s (fun t => t = u.takeNode c r ∧ TakesNode u t c r)) ∧
        ((∀ r, ¬gives r) →
          (∀ v, LargestRange s c far v → Completes (.stealAnswer c) s (fun t => t = u.splitFor v c ∧ SplitsFor u t v c)) ∧
          ((∀ v, decide (coreDie v = 1) = far → ¬Splittable s c v) → Completes (.stealAnswer c) s (fun t => t = u))))) ∧
    (∀ p sid li x bs h, s.sessionLaunch p sid = some li → ((s.launches[li]?).map fun l => l.closed) = some false → (p, sid) ∉ s.steps →
      (∀ r ∈ s.readySessions, r.part = p → r.sid ≠ sid) → s.saved = [] → s.session p sid = some x → 0 < x.st → x.st < 5 → x.cls ≠ 0 →
      s.peek p x.inq 64 = some bs → parseHeader (leNat bs) = some h → h.ri.toNat < h.ci.toNat →
      Completes (.sessionReady p sid) s (fun t => t.readySessions = s.readySessions ++ [⟨p, sid, s.us, false⟩] ∧ t.cores = s.cores)) ∧
    (∀ q p, k.piece = some q → k.part = some p →
      (∀ z x, q.session = some z → s.session p z.1 = some x → State.restoreTime x.size ≤ x.slice → k.sliceAt + x.slice ≤ s.us →
        Completes (.timeSliceEnd c) s (fun t => t = s.setCore c
          (if s.hasCandidate c ∧ (s.saved.filter fun v => v.image.part = some p).length < q.ctxn then { k with preempt := true }
           else { k with sliceAt := s.us }))) ∧
      (q.rt = false → ((s.readyFor c).any fun r => r.2.2.cls = 0) = true →
        Completes (.preemptRequest c) s (fun t => t = s.setCore c { k with preempt := true })) ∧
      (k.preempt = true → k.held = none →
        (freeArea s p q = none → (k.loops.all fun l => drained k l) = true → Completes (.contextSave c) s (fun t =>
          t = s.setCore c (refillLoops k) ∧ SameMemory s t ∧ (t.core c).preempt = false ∧ (t.core c).piece = some q ∧ (t.core c).x = k.x)) ∧
        (∀ a, freeArea s p q = some a → unitsStopped s c = true → Completes (.contextSave c) s (fun t =>
          (t.core c).piece = none ∧ (t.core c).x.blocked = none ∧ (∀ r, ((t.core c).queue r).waiting = [] ∧ ((t.core c).queue r).flights = []) ∧
          ∃ v ∈ t.saved, v.core = c ∧ v.area = a ∧ v.image.piece.map (·.node) = some q.node ∧
            v.image.x = { k.x with fetched := [], pushing := false })))) ∧
    (∀ v q p, s.idle c = true → s.candidate c = some (.saved v) → k.part = some p → v.image.piece = some q → v.tides = [] → q.session = none →
      Completes (.contextRestore c) s (fun t => t = restoreOn s p c v q none)) ∧
    (∀ p sid, Completes (.batchPromotion p sid) s (fun t => t = { s with readySessions := t.readySessions } ∧
      t.readySessions = s.readySessions.map fun r =>
        if r.part = p ∧ r.sid = sid ∧ (∃ x, s.session p sid = some x ∧ x.cls = 2) ∧ r.at_ + 10000 ≤ s.us then { r with promoted := true } else r))

/-- R4, R22, R224, R228, R429 to R433, R436, R441, R443: what crosses the ports: BAR2 reads, writes and AtomicOps of an open function
below 2^40, those that are refused (HFAULT + 1, no data; reported as 372 or 373 where the data fails its check value), the BAR0
registers, mailbox requests, a function level reset, and the links of the ports. That a request at or above 2^40 or one that fails
otherwise counts in HFAULT is the model's reading (log 58: DEDUCED), as is that no request passes a posted write (log 84: DEDUCED);
the low bits of LQADDR that are dropped (log 85), the identifier that a peer keeps after a loss of the link (log 86) and the answer
of a mailbox whose format the manual does not give (log 15) are its choices. -/
def Obligations.PortEvents : Prop :=
  ∀ (r : PortRequest) (s : State), let w := portWho r
    (portOpen s r = true → writeAhead s r = false → r.va.toNat < 2 ^ 40 →
      (∀ bs t, loadBytes w .load {} r.va r.size s = .ok (bs, t) →
        Completes (.bar2Read r) s (fun u => u = { t with portReply := some bs })) ∧
      (∀ x a d, loadBytes w .load {} r.va r.size s = .error (.trap x a d) →
        Completes (.bar2Read r) s (fun u =>
          let refused : State := { s.modPart r.part (fun p => { p with hfault := p.hfault + 1 }) with portReply := none }
          u = if x = (match r.peer with | none => 372 | some _ => 373) then refused.linkEvent x else refused)) ∧
      (∀ t, storeBytes w .store {} r.va (leBytes r.size (leNat r.data)) s = .ok ((), t) →
        Completes (.bar2Write r) s (fun u => u = { t with portReply := s.portReply })) ∧
      (∀ p t v, (r.size = 4 ∨ r.size = 8) → r.va.toNat % r.size = 0 → s.acked w.agent →
        let acc : Access := ⟨true, true, 0, none, false⟩
        let n := 2 ^ (8 * r.size)
        let old := leNat (heldBytes s acc p)
        let does (i : Instr) (writes : Prop) (new : Nat) : Prop := Completes i s (fun u => u.portReply = some (heldBytes s acc p) ∧
          u.full = s.full ∧ (writes → Stored s u acc p (leBytes r.size new)) ∧ (¬writes → SameMemory s u))
        translateRows w .atomic false [(r.va, r.size)] (released s w.agent) = .ok (p, t) → checkParts w acc true true p t = .ok ((), v) →
        does (.bar2Fetchadd r) True ((old + leNat r.data) % n) ∧ does (.bar2Swap r) True (leNat r.data % n) ∧
        does (.bar2Cas r) (old = r.cmp.toNat % n) (leNat r.data % n))) ∧
    -- no request passes a posted write of its function that waits
    (portOpen s r = true → writeAhead s r = true →
      ∀ x ∈ [(PortOp.read, Instr.bar2Read r), (.write, .bar2Write r), (.fetchadd, .bar2Fetchadd r), (.swap, .bar2Swap r), (.cas, .bar2Cas r)],
        Completes x.2 s (fun u => u = { s with ports := s.ports ++ [(x.1, r)] })) ∧
    (portOpen s r = true → writeAhead s r = false → 2 ^ 40 ≤ r.va.toNat → ∀ i ∈ [.bar2Read r, .bar2Write r, .bar2Fetchadd r, .bar2Swap r, .bar2Cas r],
      Completes i s (fun u => u = { s.modPart r.part (fun p => { p with hfault := p.hfault + 1 }) with portReply := none })) ∧
    (∀ (c : CoreId) (h : Hold) (o : BitVec 16) (v : W64), (s.core c).held = some h → o.toNat / 8 * 8 ≠ 0xFF00 →
      Completes (.registerWrite (.window c o) v) s (fun t => SameMemory s t ∧
        t = s.setCore c { s.core c with held := (t.core c).held } ∧
        ∀ i < 8, t.windowRead c (o.toNat / 8 * 8 + i) 1 =
          if windowWritable (o.toNat / 8 * 8 + i) then
            [(fld v (8 * i) 8 &&& windowMask (o.toNat / 8 * 8 + i)) ||| (if o.toNat / 8 * 8 + i = 0x200 then 1 else 0)] else s.windowRead c (o.toNat / 8 * 8 + i) 1)) ∧
    (∀ v : W64, vfOpen s r.part = true →
      let sets (i : Instr) (x : Partition) : Prop := Completes i s (fun t => t = s.modPart r.part fun _ => x)
      let p := s.part r.part
      sets (.lqaddr r.part v) { p with lqaddr := v &&& ~~~(63 : W64) } ∧
      sets (.registerWrite (.bar0 r.part 0) v) { p with lqaddr := v &&& ~~~(63 : W64) } ∧
      sets (.registerWrite (.bar0 r.part 0x10) v) { p with hfault := v } ∧ sets (.registerWrite (.bar0 r.part 0x18) v) { p with pktfail := v } ∧
      (∀ offer header, agreedVersion offer ≠ 0 → Completes (.mailboxRequest r.part (.queueCreate header offer)) s (fun t =>
        t = { s.poke r.part (header + 38) [BitVec.ofNat 8 (agreedVersion offer)] with portReply := some (leBytes 8 (agreedVersion offer)) })) ∧
      -- a request whose format the manual does not give is answered, with a value of the model's own
      ∀ (o : BitVec 8) x, Completes (.mailboxRequest r.part (.other o x)) s (fun t => (∃ y : W64, t.portReply = some (leBytes 8 y.toNat)) ∧
        t = { s.modPart r.part (fun p => { p with mailbox := tput 0 p.mailbox (o.toNat / 8) x }) with
          portReply := t.portReply, moment := s.moment + 1 })) ∧
    -- the PF's own mailbox answers after a failed boot too, when no other request does
    (s.boot ≠ .cold → s.hostLink = true → ∀ (o : BitVec 8) x, Completes (.mailboxRequest r.part (.pf o x)) s (fun t =>
      (∃ y : W64, t.portReply = some (leBytes 8 y.toNat)) ∧
      t = { s with pfMailbox := tput 0 s.pfMailbox (o.toNat / 8) x, portReply := t.portReply, moment := s.moment + 1 })) ∧
    (s.boot = .stopped → ∀ m, (∀ o x, m ≠ .pf o x) → Completes (.mailboxRequest r.part m) s (fun t => t = s)) ∧
    (s.boot = .up → s.hostLink = true →
      (∀ q b, Completes (.mailboxRequest r.part (.bind q b)) s (fun t => t = s.modPart q fun p => { p with vf := b })) ∧
      Completes (.mailboxRequest r.part .identity) s (fun t => t = { s with portReply := some (publicKeyBytes ++ Config.certificate) }) ∧
      Completes (.functionLevelReset r.part) s (fun t => t = killPart s r.part)) ∧
    (s.boot = .up → s.peerLink = false → 0 < s.peers → Completes .peerLinkTraining s (fun t => t = { s with peerLink := true })) ∧
    (s.boot = .up → (s.peerLink = true ∨ s.peers = 0) → s.peers < 15 → Completes .peerLinkTraining s (fun t => t = { s with peers := s.peers + 1, peerLink := true })) ∧
    (let down (i : Instr) (u : State) (cause : Nat) : Prop := Completes i s (fun t =>
        t = { u with sys := t.sys, pfEvents := s.pfEvents ++ [.link cause] } ∧
        ((∃ k, (s.sysCore k).enabled = true) → ∃ k, (s.sysCore k).enabled = true ∧
          t.sysCore k = { s.sysCore k with reports := (s.sysCore k).reports ++ [cause] } ∧ ∀ j, j ≠ k → t.sysCore j = s.sysCore j))
     (s.hostLink = true → down .hostLinkDown { s with hostLink := false } 368) ∧
     (s.peerLink = true → down .peerLinkDown { s with peerLink := false } 369)) ∧
    Completes .hostLinkTraining s (fun t => t = { s with hostLink := true })

/-- R218, R436 to R440, R444: the die link, the regulators, the power alarm and the forecast. A flit in sequence is accepted, its
acknowledgement and credits reach the sender's side, and what it carries is delivered; a line that fails its check values goes no
further, and a coded line that does so is reported with 375. A coded line decodes to the line that was sent, and a flit takes a
credit. A flit that fails its CRC counts a replay; sixteen replays take the link down with 370, and its loss is reported with
371, which drops the steal requests (log 54: DEDUCED). The format, check value and share of a coded flit, and the
credits of a channel, are the model's free values (log 55). -/
def Obligations.LinkAndPowerEvents : Prop :=
  ∀ (s : State) (die : Bool) (flit : List Byte),
    let ch := (flit.getD 1 0).toNat
    let at_ := channelIndex die ch
    let old := s.channels[at_.val]
    let others (t : State) : Prop := ∀ j : Fin 22, j ≠ at_ → t.channels[j.val] = s.channels[j.val]
    let reported (t : State) (cause : Nat) : Prop := t.pfEvents = s.pfEvents ++ [.link cause] ∧ ∀ d : Bool,
      (∃ k, (decide (8 ≤ k.val) = d) ∧ (s.sysCore k).enabled = true) →
      ∃ k, (decide (8 ≤ k.val) = d) ∧ (t.sysCore k).reports = (s.sysCore k).reports ++ [cause]
    (s.dieLink = true → flit.length = 256 → ch ≤ 10 →
      (flit.drop 252 ≠ leBytes 4 (crc32c (flit.take 252)).toNat → Completes (.flitReceive die flit) s (fun t =>
        t = { s with channels := t.channels } ∧ others t ∧ t.channels[at_.val] = { old with replays := old.replays + 1 })) ∧
      (flit.drop 252 = leBytes 4 (crc32c (flit.take 252)).toNat → leNat ((flit.drop 2).take 2) ≠ old.seq.toNat →
        Completes (.flitReceive die flit) s (fun t => t = s)) ∧
      (flit.drop 252 = leBytes 4 (crc32c (flit.take 252)).toNat → leNat ((flit.drop 2).take 2) = old.seq.toNat →
        let ack := leNat ((flit.drop 4).take 2)
        let credit (j : Nat) : Nat := leNat ((flit.drop 6).take 6) / 16 ^ j % 16
        -- the channels of the other direction take the acknowledgement and the credits; no other channel of this one changes
        let told (t : State) : Prop := t = { s with channels := t.channels } ∧
          (∀ j : Fin 11, let x := s.channels[(channelIndex (!die) j.val).val]
            t.channels[(channelIndex (!die) j.val).val] = { x with
              returned := x.returned + credit j.val
              sent := if j.val = ch ∧ (∃ f ∈ x.sent, f.seq.toNat = ack) then (x.sent.dropWhile fun f => f.seq.toNat ≠ ack).drop 1 else x.sent }) ∧
          ∀ j : Fin 11, j.val ≠ ch → t.channels[(channelIndex die j.val).val] = s.channels[(channelIndex die j.val).val]
        let seen : Channel := { old with seq := old.seq + 1, replays := 0 }
        let fmt := Config.flitFormat flit 0
        let line : LinkLine := ⟨(flit.drop 16).take 16, (flit.drop 32).take 128, (flit.drop 160).take 8, (flit.drop 168).take 72, fmt⟩
        let coded := codedLines flit old.table
        (flit.getD 0 0 = 3 → Completes (.flitReceive die flit) s (fun t => told t ∧ t.channels[at_.val] = seen)) ∧
        (flit.getD 0 0 = 0 → Completes (.flitReceive die flit) s (fun t => told t ∧ t.channels[at_.val] = { seen with
          owed := old.owed + 1, delivered := old.delivered ++ [.requests ((List.range 4).map fun i => (flit.drop (16 + 56 * i)).take 56)] })) ∧
        (flit.getD 0 0 = 1 → Completes (.flitReceive die flit) s (fun t => told t ∧ t.channels[at_.val] = { seen with
          owed := old.owed + 1
          table := if ch ≤ 8 ∧ (fmt = 1 ∨ fmt = 2) then (encodeLine (fmt = 2) line.bytes old.table).2 else old.table
          delivered := if lineChecks line.bytes line.checks then old.delivered ++ [.lines [line]] else old.delivered
          failed := if lineChecks line.bytes line.checks then old.failed else old.failed ++ [line.header] })) ∧
        (flit.getD 0 0 = 2 → ch ≤ 8 →
          (coded.2.1 = [] → Completes (.flitReceive die flit) s (fun t => told t ∧ t.channels[at_.val] = { seen with
            owed := old.owed + 1, table := coded.2.2, delivered := old.delivered ++ [.lines coded.1] })) ∧
          (coded.2.1 ≠ [] → Completes (.flitReceive die flit) s (fun t => t.pfEvents = s.pfEvents ++ [.link 375] ∧
            (t.channels[at_.val]).table = firstExponents ∧ (t.channels[at_.val]).delivered = old.delivered ++ [.lines coded.1]))))) ∧
    -- what a sender codes, its receiver decodes, and both tables agree
    (∀ bf16 (bytes : List Byte) tb, bytes.length = 128 → tb.length = 8 → (encodeLine bf16 bytes tb).1.length ≤ 112 →
      decodeLine bf16 (padTo 112 (encodeLine bf16 bytes tb).1) tb = (bytes, (encodeLine bf16 bytes tb).2)) ∧
    -- requests go where the channel has a credit, in a flit of the next sequence number
    (∀ (n : Fin 11) (rs : List (List Byte)), let k := channelIndex (!die) n.val
      let c := s.channels[k.val]
      s.dieLink = true → if c.used < Config.linkCredits n.val + c.returned then
        ∃ f : List Byte, (linkSend die n (.requests rs) s).channels[k.val] = { c with
            sent := c.sent ++ [⟨c.sendSeq, f, []⟩], sendSeq := c.sendSeq + 1, used := c.used + 1 } ∧
          f.length = 256 ∧ f.take 4 = [0, BitVec.ofNat 8 n.val] ++ leBytes 2 c.sendSeq.toNat ∧
          (f.drop 16).take 224 = padTo 224 ((rs.take 4).flatMap (padTo 56)) ∧ f.drop 252 = leBytes 4 (crc32c (f.take 252)).toNat
      else linkSend die n (.requests rs) s = s) ∧
    (s.dieLink = true → (s.channels.toList.any fun c => 16 ≤ c.replays) = true → Completes .replayLimit s (fun t =>
      t = { s with dieLink := false, sys := t.sys, pfEvents := t.pfEvents } ∧ reported t 370)) ∧
    (s.dieLink = false → s.dieLost = false →
      Completes .dieLinkLost s (fun t => t.dieLost = true ∧ t.steals = [] ∧ reported t 371 ∧
        ((∀ l ∈ s.launches, l.ended = true ∨ (s.part l.part).place = false) → SameMemory s t)) ∧
      Completes .dieLinkTraining s (fun t => t = { s with dieLink := true, channels := t.channels } ∧
        ∀ j : Fin 22, t.channels[j.val] = { s.channels[j.val] with replays := 0 })) ∧
    -- an interval ends: held requests go on, in order, as far as the new budgets let them
    (twf Regulator.zero s.regulators = true → Completes .regulatorInterval s (fun t =>
      t = { s with regulators := t.regulators, requests := t.requests, parts := t.parts } ∧
      (∀ key, let r := tget Regulator.zero s.regulators key
        let v := tget Regulator.zero t.regulators key
        v = { r with budget := r.next, used := v.used, throttled := false } ∧ ((∀ x ∈ s.requests.held, x.reg ≠ key) → v.used = 0)) ∧
      t.requests.held.Sublist s.requests.held ∧
      (∀ x ∈ t.requests.held, (t.regulator x.reg).admits = false ∨ ∃ y ∈ t.requests.held, y ≠ x ∧ y.line = x.line) ∧
      ∀ p, t.part p = { s.part p with bwthr := (s.part p).bwthr + BitVec.ofNat 64 ((holdingKeys s).countP fun key => key % 32 = p.val) })) ∧
    -- the oldest request of a partition that is held in soft mode goes on while none of a partition below its budget is held
    (∀ ctrl (p : PartId) x, let key := ctrl * 32 + p.val
      let r := s.regulator key
      r.en = true → r.hard = false → s.requests.held.find? (fun y => y.reg = key) = some x →
      s.requests.held.find? (fun y => y.line = x.line) = some x →
      (∀ y ∈ s.requests.held, y.reg / 32 = ctrl → (s.regulator y.reg).admits = false) → twf Regulator.zero s.regulators = true →
      Completes (.regulatorSoftAdmit ctrl p) s (fun t => t = { s with regulators := t.regulators, requests := t.requests } ∧
        t.requests.held = s.requests.held.erase x ∧ tget Regulator.zero t.regulators key = { r with used := r.used + x.bytes } ∧
        (∀ j, j ≠ key → tget Regulator.zero t.regulators j = tget Regulator.zero s.regulators j) ∧
        ∀ a, x.agent = some a → (a, x.line) ∈ t.requests.granted)) ∧
    Completes .powerAlarmRaise s (fun t => t = { s with alarm := true }) ∧
    Completes .powerAlarmClear s (fun t => t = { s with alarm := false }) ∧
    Completes (.forecastUpdate die) s (fun t => t = { s with forecast := t.forecast } ∧
      let a := forecastCount s die
      (if die then t.forecast[1] else t.forecast[0]) = BitVec.ofNat 14 (256 * a + (255 * a + 16) / 32) ∧
      (if die then t.forecast[0] else t.forecast[1]) = (if die then s.forecast[0] else s.forecast[1]))

/-- R441, R442, R245 to R248: a boot whose firmware passes every check leaves every enabled system core running at the image's entry
offset and all else as after reset but the units found good; one that fails leaves the boot stopped. A restore or a failover takes
the newest manifest that is not refused and reports every one that is. That memory lists nothing after a failed boot is the model's
choice (log 1), as is where the ROM puts the body (log 56) and that a restore empties the ready sessions, steps, banks and forks
(log 57); the order of a manifest's checks is its reading (log 53: DEDUCED). -/
def Obligations.BootAndCheckpoints : Prop :=
  ∀ (b : BootReport) (cs : List CheckpointCopy) (s : State),
    Completes (.moduleBoot b) s (fun t => t.agenda = s.agenda ∧ t.moment = s.moment ∧ t.us = s.us ∧
      t.slices = b.slices ∧ t.ctrls = b.channels ∧ (∀ c : CoreId, t.core c = { Core.reset with feat := b.feat.getD c.val 0x3F }) ∧
      (∀ k : SysId, (t.sysCore k).enabled = b.sysCores.getLsbD k.val) ∧
      if firmwareOk b.image then t.boot = .up ∧ t.fwDigest = sha256 b.image ∧
        ∀ k : SysId, (t.sysCore k).running = b.sysCores.getLsbD k.val ∧ (t.sysCore k).ie = false ∧
          (b.sysCores.getLsbD k.val = true → (t.sysCore k).x.pc = firmwareEntry b.image ∧ (t.sysCore k).x.npc = firmwareEntry b.image)
      else t.boot = .stopped ∧ t.mem = [] ∧ ∀ k : SysId, (t.sysCore k).running = false) ∧
    ∀ i, i = .checkpointRestore cs ∨ i = .deviceFailover cs → Completes i s (fun t =>
      t.ckptReports = s.ckptReports ++ cs.filterMap (fun c => (manifestFault c).map fun cause => (cause, manifestStep c.manifest)) ∧
      (if ∃ c ∈ cs, manifestFault c = none then
        ∃ c ∈ cs, manifestFault c = none ∧ (∀ d ∈ cs, manifestFault d = none → manifestStep d.manifest ≤ manifestStep c.manifest) ∧
          t.checkpoint = some (manifestStep c.manifest) ∧ t.readySessions = [] ∧ t.steps = [] ∧
          -- no bank holds a slate, and no core runs a piece of a session
          ∀ d, (t.core d).banks = Vector.replicate 2 none ∧ (t.core d).moves = [] ∧ (t.core d).forks = []
       else t.cores = s.cores ∧ t.checkpoint = s.checkpoint ∧ t.mem = s.mem ∧ t.readySessions = s.readySessions))

/-- R31, R56, R97, R98, R109, R112, R123, R164, R165, R181, R193, R359, R364, R371, R406, R416, R417, R18, R158, R218,
R440: what device reset leaves, where the manual gives it. The bytes of memory outside the on-chip storage of R56
read 0 as well, which is the model's choice (log 1). -/
def Obligations.ResetState : Prop :=
  let s := State.reset
  (∀ a, s.isFull a = false ∧ s.bytes a 1 = [0] ∧ tfind s.tags a = none) ∧ (∀ a, s.seq a = 0) ∧ s.ticketNext = 0 ∧
  s.superRoot = none ∧ (∀ p, (s.part p).assigned = false) ∧ (∀ k : ClusterId, s.arrays[k.val].last = 3 ∧ s.arrays[k.val].holder = none) ∧
  (∀ n : Fin 64, s.regions[n.val] = Region.zero) ∧ (∀ key, tget Regulator.zero s.regulators key = Regulator.zero) ∧
  s.bwsel = 0 ∧ (∀ d : Fin 2, s.forecast[d.val] = 0) ∧
  (∀ c, let k := s.core c
    (∀ f, k.flag f = Flag.zero) ∧ k.waits = [] ∧ k.rings = 0 ∧ k.bellErr = false ∧ (∀ q, (k.queue q).stat = QStat.zero ∧ (k.queue q).waiting = []) ∧
    k.nheld = 0 ∧ (∀ i, tget 0 k.carry i = 0) ∧ k.x.rmode = 0 ∧ k.x.fpstat = 0 ∧ k.x.cycle = 0 ∧ k.fade = 0 ∧ k.taskId = 0 ∧
    k.rangeLo = 0 ∧ k.rangeHi = 0 ∧ k.session = 0 ∧ k.part = none ∧ k.lrect = 0 ∧ k.faultpc = 0 ∧ (∀ b : Fin 8, k.bankloss[b.val] = 0) ∧
    (∀ n : Fin 10, k.telemetry[n.val] = 0) ∧ k.codecsel = 0 ∧ (∀ q, tget SwitchQueue.empty k.switch q = SwitchQueue.empty)) ∧
  ∀ k, let y := s.sysCore k
    y.svec = 0 ∧ y.sepc = 0 ∧ y.scause = 0 ∧ y.ie = false ∧ y.pie = false ∧ y.sscratch = 0 ∧ y.sfaddr = 0 ∧ y.ctpend = 0

/-- Memory after device reset lists nothing, so it is in canonical form (log 1). -/
def Obligations.ResetMemoryCanonical : Prop := Memory.wf State.reset.mem = true ∧ State.reset.mem = []

/-- Every step keeps memory in its canonical form: addresses rise, and no listed byte is what an unlisted one reads
as (log 1). -/
def Obligations.StepKeepsMemoryCanonical : Prop :=
  ∀ s t : State, Memory.wf s.mem = true → step s = .next t → Memory.wf t.mem = true

/-- R255 to R272: decoding the words of a well-formed instruction gives it back, with every operand, from bytes
stored little-endian and whatever follows them; the same of cell words and pattern words. -/
def Obligations.DecodeOfEncode : Prop :=
  (∀ (e : DecodeEnv) (f : Fetched), f.wf e = true → ∃ ws, f.encode = some ws ∧
    ∀ rest, decodeBytes e (ws.flatMap (fun w => leBytes 8 w.toNat) ++ rest) = .ok (f, rest)) ∧
  (∀ (e : DecodeEnv) (i : Instr), i.wf e = true →
    (i.scalarCode.isSome || i.vectorCode.isSome || i.longCode.isSome || i.engineCode.isSome) = true →
    ∃ ws, i.encode = some ws ∧ ∃ f, decodeBytes e (ws.flatMap fun w => leBytes 8 w.toNat) = .ok (f, []) ∧
      (f = .l .always i ∨ f = .e .always i ∨ (∃ v, f = .p .always i v) ∨ ∃ u, f = .p .always u i)) ∧
  (∀ i : Instr, i.cellCode.isSome = true → ∃ w, i.encodeCell = some w ∧ decodeCell w = some i) ∧
  ∀ i : Instr, i.reasons .full = [] → i.patternCode.isSome = true → ∃ w, i.encodePattern = some w ∧ decodePattern w = some i

/-- R255 to R272: a word that decodes names a well-formed instruction, and is that instruction's own encoding, so no
bit of a word is dropped and no two words mean the same; the same of cell words and pattern words. -/
def Obligations.EncodeOfDecode : Prop :=
  (∀ (e : DecodeEnv) (w w1 : W64) (f : Fetched), decodeWord e w w1 = .ok f →
    f.wf e = true ∧ f.encode = some (if wordLength w = 16 then [w, w1] else [w])) ∧
  (∀ (w : W64) (i : Instr), decodeCell w = some i → i.encodeCell = some w) ∧
  ∀ (w : BitVec 48) (i : Instr), decodePattern w = some i → i.encodePattern = some w ∧ i.reasons .full = []

/-- R256 to R272: words of each family, written out from the field tables, decode to what they stand for; a set
reserved field or a reserved number is refused by its code (R226, R257). -/
def Obligations.DecodeWords : Prop :=
  -- (p3) add g5, g6, g7 || vadd.f32 v1, v2, v3
  decodeWord .full 0b0011_00_0000001_00101_00110_00111_0000_00000001_0001_0010_0011_0000_000_00000#64 0 =
    .ok (.p ⟨false, 3⟩ (.add ⟨5, 6, 7, 0⟩) (.vaddSlot ⟨1, 2, 3, 0, 0, 0⟩)) ∧
  -- addi g6, g0, 40
  decodeWord .full 0b0000_01_00000000_00110_00000_00000000000000000000000000101000_00000000#64 0 =
    .ok (.l .always (.addi ⟨6, 0, 40, 0⟩)) ∧
  -- (!p2) div g7, g5, g6
  decodeWord .full 0b1010_01_00001100_00111_00101_00110_00000_0000000000000000000000_00000000#64 0 =
    .ok (.l ⟨true, 2⟩ (.div ⟨7, 5, 6, 0, 0, 0⟩)) ∧
  -- ld.w.acq.dev g5, [g4+8]
  decodeWord .full 0b0000_01_00110000_00101_00100_000000000000000000001000_010_010_00_011_00000#64 0 =
    .ok (.l .always (.ld ⟨5, 4, 8, 2, 2, 0, 3, 0⟩)) ∧
  -- vfma.f32 v1, m5.c3, g6
  decodeWord .full 0b0000_01_01000011_0100000000001_1000101010011_1100000000110_000_00000000#64 0 =
    .ok (.l .always (.vfma ⟨0b0100000000001, 0b1000101010011, 0b1100000000110, 0, 0⟩)) ∧
  -- fsig f9, 64, core=37
  decodeWord .full 0b0000_01_01100001_00000_00000_00001001_0000010000000000_0000000100100101#64 0 =
    .ok (.l .always (.fsig ⟨0, 0, 9, 0x0400, 0x125⟩)) ∧
  -- xf.copy g5, g4, g6, sig=f9:1
  decodeWord .full 0b0000_10_00100000_00000000_0000000000000000_00001001_0000000000010000_00#64 0x1885 =
    .ok (.e .always (.xfCopy ⟨0, 0, 9, 0x0010, 0, 0x1885⟩)) ∧
  -- trapret, on a system core and on a compute core
  decodeWord .system 0b0000_01_01110000_00000000000000000000000000000000000000000000000000#64 0 =
    .ok (.l .always (.trapret ⟨0, 0, 0, 0, 0, 0⟩)) ∧
  decodeWord .full 0b0000_01_01110000_00000000000000000000000000000000000000000000000000#64 0 = .error 41 ∧
  -- a guard !p0, format 3, a reserved op, a reserved slot operation
  decodeWord .full 0b1000_01_00000000_00110_00000_00000000000000000000000000101000_00000000#64 0 = .error 35 ∧
  decodeWord .full 0b0000_11_00000000_00000000000000000000000000000000000000000000000000#64 0 = .error 1 ∧
  decodeWord .full 0b0000_01_00011010_00000000000000000000000000000000000000000000000000#64 0 = .error 32 ∧
  decodeWord .full 0b0000_00_0100000_00000_00000_00000_0000_00000000_0000_0000_0000_0000_000_00000#64 0 = .error 0 ∧
  -- c.fmul (0,0) in0, imm, zero, out=e, imm=0.5
  decodeCell 0b000100_1000_0110_0111_01000_0000000_000_00_000_0000000000_0011111100000000#64 =
    some (.cellFmul ⟨8, 6, 7, 8, 0, 0, 0, 0, 0, 0x3F00⟩) ∧
  -- pmove 64, 16, 0, and pend
  decodePattern 0b000011_000000000001000000_0000000000010000_00000000#48 = some (.pmove ⟨64, 16, 0⟩) ∧
  decodePattern 0#48 = some (.pend ⟨0⟩)

/-- R71, R255, R256, R258, R259: a step whose turn is a processor's, with nothing due before it, fetches the word at the
PC, decodes it, and executes it where its guard holds: the vector slot of a P word first, then the scalar slot unless
the first has stopped the stream. The next word is then due, after this one's bytes or where the instruction has sent
the stream. A word that does not decode traps with its code (R226). Where a regulator does not admit a request that the Timetable
makes for the word, as SPAWN's, the step does not take place and the request is held (R439). -/
def Obligations.StepRunsDecoded : Prop :=
  ∀ (s : State) (q : Proc) (rest : List Turn),
    let u : State := { s.beginTurn.2 with cur := q, unit := .cp }
    let steps (o : Out) : Prop := step s = heldBack s.beginTurn.2 o
    (∀ w w1 t, s.boot ≠ .stopped → urgent s = none → s.agenda = .cp q :: rest → u.canGo q = true → (u.cpuOf q).blocked = none →
      (∀ k, q = .system k → ((s.sysCore k).ie && (pendingCode (s.sysCore k)).isSome) = false) →
      nextFetch u = .ok ((w, w1), t) →
      let v := t.setNpc (t.cpu.pc + BitVec.ofNat 64 (wordLength w))
      let goes (g : Guard) : Prop := v.p g.pred ≠ g.neg
      (∀ code, decodeWord (t.env q) w w1 = .error code → steps (.next (retire q true (v.trap code 0 none)))) ∧
      (∀ g i, decodeWord (t.env q) w w1 = .ok (.e g i) →
        (goes g → steps (retireOut q true (exec i (v.modCpu fun x => { x with guard := g })))) ∧ (¬goes g → steps (.next (retire q true v)))) ∧
      (∀ g i, decodeWord (t.env q) w w1 = .ok (.l g i) →
        (goes g → steps (retireOut q true (exec i v))) ∧ (¬goes g → steps (.next (retire q true v)))) ∧
      (∀ g a b, decodeWord (t.env q) w w1 = .ok (.p g a b) →
        (goes g → ∀ x, exec b v = .next x →
          (slotStops v x = false → steps (retireOut q true (exec a x))) ∧
          (slotStops v x = true → steps (.next (retire q true x)))) ∧
        (¬goes g → steps (.next (retire q true v))))) ∧
    (heldFrom u.cpu.pc u.cpu.fetched = [] → u.cpu.ahead = 0 →
      (∀ w w1 x, fetchWord u.cpu.pc u = .ok ((w, w1), x) →
        nextFetch u = .ok ((w, w1), x.modCpu fun y => { y with fetched := [], ahead := Config.fetchAhead x.moment % 17 })) ∧
      ∀ e, fetchWord u.cpu.pc u = .error e → nextFetch u = .error e) ∧
    (∀ t x : State, (t.requests.unpaid = none → heldBack x (.next t) = .next t) ∧
      ∀ r, t.requests.unpaid = some r → heldBack x (.next t) = .next (x.noteHeld (.regulator r t.requests.paid))) ∧
    ∀ t : State, (∀ c, q = .compute c → ((retire q true t).core c).x = { (t.core c).x with pc := (t.core c).x.npc }) ∧
      ∀ k, q = .system k → retire q true t = t.setSys k { t.sysCore k with x := { (t.sysCore k).x with pc := (t.sysCore k).x.npc } }

/-- R441: "A failed check stops the boot at step 3, and only the PF's recovery mailbox answers." After it every turn
but that mailbox's, and another boot, is a fault by name; these two answer. -/
def Obligations.FailedBootStops : Prop :=
  ∀ (s : State) (x : Turn) (rest : List Turn), s.boot = .stopped → s.agenda = x :: rest →
    ((∀ b, x ≠ .event (.moduleBoot b)) → (∀ p o v, x ≠ .event (.mailboxRequest p (.pf o v))) → step s = .fault .bootStopped) ∧
    (((∃ b, x = .event (.moduleBoot b)) ∨ ∃ p o v, x = .event (.mailboxRequest p (.pf o v))) → ∃ t, step s = .next t)

/-- R219, R220, R441: exec is total: in every state and with every operand an instruction or a device step answers a next state,
be it of its effect, of a wait, of a trap, or the state as it was; a step never refuses, and it ends in a fault only where the
boot has stopped. -/
def Obligations.NothingRefused : Prop :=
  (∀ (i : Instr) (s : State), ∃ t, exec i s = .next t) ∧ (∀ (s : State) (r : Refusal), step s ≠ .refused r) ∧
  ∀ (s : State) (f : Fault), step s = .fault f → s.boot = .stopped

/-- R8, R416: the numbers of core (x, y): its index, die, cluster and member index, as the device's own CORE_ID register gives
them. Members of a cluster rise with the core index. -/
def Obligations.CoreNumbers : Prop :=
  ∀ c : CoreId, let x := coreX c
    let y := coreY c
    x < 16 ∧ y < 16 ∧ c.val = y * 16 + x ∧ coreDie c = y / 8 ∧ (coreCluster c).val = y / 2 * 8 + x / 2 ∧
    (coreMember c).val = y % 2 * 2 + x % 2 ∧ (∀ d, coreCluster d = coreCluster c → (coreMember c < coreMember d ↔ c < d)) ∧
    (∀ d, coreCluster d = coreCluster c → coreDie d = coreDie c) ∧
    ∀ (f : La) (s : State), s.cur = .compute c → fld f.imm 0 12 = 0 → Completes (.rdsr f) s (fun t =>
      WritesG s t f.d (BitVec.ofNat 64 (c.val + (coreCluster c).val * 2 ^ 8 + (coreMember c).val * 2 ^ 14)))

end
end

