-- ==== Sys2Proof/Laws/State.lean ====
section
/-! SUPPORT. One lemma for each field of the state under each of the operations that change it: what an operation
leaves as it was. -/

namespace Sys2Proof.Machine.State

variable (s : State)

/-! ## setCore -/

@[simp] theorem setCore_agenda (c : CoreId) (k : Core) : (s.setCore c k).agenda = s.agenda := rfl
@[simp] theorem setCore_moment (c : CoreId) (k : Core) : (s.setCore c k).moment = s.moment := rfl
@[simp] theorem setCore_cur (c : CoreId) (k : Core) : (s.setCore c k).cur = s.cur := rfl
@[simp] theorem setCore_unit (c : CoreId) (k : Core) : (s.setCore c k).unit = s.unit := rfl
@[simp] theorem setCore_sys (c : CoreId) (k : Core) : (s.setCore c k).sys = s.sys := rfl
@[simp] theorem setCore_mem (c : CoreId) (k : Core) : (s.setCore c k).mem = s.mem := rfl
@[simp] theorem setCore_flaws (c : CoreId) (k : Core) : (s.setCore c k).flaws = s.flaws := rfl
@[simp] theorem setCore_full (c : CoreId) (k : Core) : (s.setCore c k).full = s.full := rfl
@[simp] theorem setCore_tags (c : CoreId) (k : Core) : (s.setCore c k).tags = s.tags := rfl
@[simp] theorem setCore_seqs (c : CoreId) (k : Core) : (s.setCore c k).seqs = s.seqs := rfl
@[simp] theorem setCore_stamp (c : CoreId) (k : Core) : (s.setCore c k).stamp = s.stamp := rfl
@[simp] theorem setCore_know (c : CoreId) (k : Core) : (s.setCore c k).know = s.know := rfl
@[simp] theorem setCore_sync (c : CoreId) (k : Core) : (s.setCore c k).sync = s.sync := rfl
@[simp] theorem setCore_seen (c : CoreId) (k : Core) : (s.setCore c k).seen = s.seen := rfl
@[simp] theorem setCore_fences (c : CoreId) (k : Core) : (s.setCore c k).fences = s.fences := rfl
@[simp] theorem setCore_releases (c : CoreId) (k : Core) : (s.setCore c k).releases = s.releases := rfl
@[simp] theorem setCore_nextItem (c : CoreId) (k : Core) : (s.setCore c k).nextItem = s.nextItem := rfl
@[simp] theorem setCore_tlb (c : CoreId) (k : Core) : (s.setCore c k).tlb = s.tlb := rfl
@[simp] theorem setCore_walkCache (c : CoreId) (k : Core) : (s.setCore c k).walkCache = s.walkCache := rfl
@[simp] theorem setCore_walks (c : CoreId) (k : Core) : (s.setCore c k).walks = s.walks := rfl
@[simp] theorem setCore_lines (c : CoreId) (k : Core) : (s.setCore c k).lines = s.lines := rfl
@[simp] theorem setCore_plru (c : CoreId) (k : Core) : (s.setCore c k).plru = s.plru := rfl
@[simp] theorem setCore_events (c : CoreId) (k : Core) : (s.setCore c k).events = s.events := rfl
@[simp] theorem setCore_fbcStores (c : CoreId) (k : Core) : (s.setCore c k).fbcStores = s.fbcStores := rfl
@[simp] theorem setCore_held (c : CoreId) (k : Core) : (s.setCore c k).held = s.held := rfl
@[simp] theorem setCore_feQueue (c : CoreId) (k : Core) : (s.setCore c k).feQueue = s.feQueue := rfl
@[simp] theorem setCore_ticketNext (c : CoreId) (k : Core) : (s.setCore c k).ticketNext = s.ticketNext := rfl
@[simp] theorem setCore_tickets (c : CoreId) (k : Core) : (s.setCore c k).tickets = s.tickets := rfl
@[simp] theorem setCore_tides (c : CoreId) (k : Core) : (s.setCore c k).tides = s.tides := rfl
@[simp] theorem setCore_arrays (c : CoreId) (k : Core) : (s.setCore c k).arrays = s.arrays := rfl
@[simp] theorem setCore_regions (c : CoreId) (k : Core) : (s.setCore c k).regions = s.regions := rfl
@[simp] theorem setCore_parts (c : CoreId) (k : Core) : (s.setCore c k).parts = s.parts := rfl
@[simp] theorem setCore_superRoot (c : CoreId) (k : Core) : (s.setCore c k).superRoot = s.superRoot := rfl
@[simp] theorem setCore_windows (c : CoreId) (k : Core) : (s.setCore c k).windows = s.windows := rfl
@[simp] theorem setCore_actions (c : CoreId) (k : Core) : (s.setCore c k).actions = s.actions := rfl
@[simp] theorem setCore_launchQueue (c : CoreId) (k : Core) : (s.setCore c k).launchQueue = s.launchQueue := rfl
@[simp] theorem setCore_launches (c : CoreId) (k : Core) : (s.setCore c k).launches = s.launches := rfl
@[simp] theorem setCore_pool (c : CoreId) (k : Core) : (s.setCore c k).pool = s.pool := rfl
@[simp] theorem setCore_readySessions (c : CoreId) (k : Core) : (s.setCore c k).readySessions = s.readySessions := rfl
@[simp] theorem setCore_steps (c : CoreId) (k : Core) : (s.setCore c k).steps = s.steps := rfl
@[simp] theorem setCore_barriers (c : CoreId) (k : Core) : (s.setCore c k).barriers = s.barriers := rfl
@[simp] theorem setCore_steals (c : CoreId) (k : Core) : (s.setCore c k).steals = s.steals := rfl
@[simp] theorem setCore_saved (c : CoreId) (k : Core) : (s.setCore c k).saved = s.saved := rfl
@[simp] theorem setCore_quiesced (c : CoreId) (k : Core) : (s.setCore c k).quiesced = s.quiesced := rfl
@[simp] theorem setCore_saving (c : CoreId) (k : Core) : (s.setCore c k).saving = s.saving := rfl
@[simp] theorem setCore_openSlots (c : CoreId) (k : Core) : (s.setCore c k).openSlots = s.openSlots := rfl
@[simp] theorem setCore_arrivals (c : CoreId) (k : Core) : (s.setCore c k).arrivals = s.arrivals := rfl
@[simp] theorem setCore_pins (c : CoreId) (k : Core) : (s.setCore c k).pins = s.pins := rfl
@[simp] theorem setCore_us (c : CoreId) (k : Core) : (s.setCore c k).us = s.us := rfl
@[simp] theorem setCore_regulators (c : CoreId) (k : Core) : (s.setCore c k).regulators = s.regulators := rfl
@[simp] theorem setCore_requests (c : CoreId) (k : Core) : (s.setCore c k).requests = s.requests := rfl
@[simp] theorem setCore_bwsel (c : CoreId) (k : Core) : (s.setCore c k).bwsel = s.bwsel := rfl
@[simp] theorem setCore_forecast (c : CoreId) (k : Core) : (s.setCore c k).forecast = s.forecast := rfl
@[simp] theorem setCore_alarm (c : CoreId) (k : Core) : (s.setCore c k).alarm = s.alarm := rfl
@[simp] theorem setCore_pfMailbox (c : CoreId) (k : Core) : (s.setCore c k).pfMailbox = s.pfMailbox := rfl
@[simp] theorem setCore_hostLink (c : CoreId) (k : Core) : (s.setCore c k).hostLink = s.hostLink := rfl
@[simp] theorem setCore_peerLink (c : CoreId) (k : Core) : (s.setCore c k).peerLink = s.peerLink := rfl
@[simp] theorem setCore_dieLink (c : CoreId) (k : Core) : (s.setCore c k).dieLink = s.dieLink := rfl
@[simp] theorem setCore_dieLost (c : CoreId) (k : Core) : (s.setCore c k).dieLost = s.dieLost := rfl
@[simp] theorem setCore_channels (c : CoreId) (k : Core) : (s.setCore c k).channels = s.channels := rfl
@[simp] theorem setCore_peers (c : CoreId) (k : Core) : (s.setCore c k).peers = s.peers := rfl
@[simp] theorem setCore_pfEvents (c : CoreId) (k : Core) : (s.setCore c k).pfEvents = s.pfEvents := rfl
@[simp] theorem setCore_boot (c : CoreId) (k : Core) : (s.setCore c k).boot = s.boot := rfl
@[simp] theorem setCore_slices (c : CoreId) (k : Core) : (s.setCore c k).slices = s.slices := rfl
@[simp] theorem setCore_ctrls (c : CoreId) (k : Core) : (s.setCore c k).ctrls = s.ctrls := rfl
@[simp] theorem setCore_checkpoint (c : CoreId) (k : Core) : (s.setCore c k).checkpoint = s.checkpoint := rfl
@[simp] theorem setCore_ckptReports (c : CoreId) (k : Core) : (s.setCore c k).ckptReports = s.ckptReports := rfl
@[simp] theorem setCore_ports (c : CoreId) (k : Core) : (s.setCore c k).ports = s.ports := rfl
@[simp] theorem setCore_portReply (c : CoreId) (k : Core) : (s.setCore c k).portReply = s.portReply := rfl
@[simp] theorem setCore_fwDigest (c : CoreId) (k : Core) : (s.setCore c k).fwDigest = s.fwDigest := rfl

/-! ## modCore -/

@[simp] theorem modCore_agenda (c : CoreId) (f : Core → Core) : (s.modCore c f).agenda = s.agenda := rfl
@[simp] theorem modCore_moment (c : CoreId) (f : Core → Core) : (s.modCore c f).moment = s.moment := rfl
@[simp] theorem modCore_cur (c : CoreId) (f : Core → Core) : (s.modCore c f).cur = s.cur := rfl
@[simp] theorem modCore_unit (c : CoreId) (f : Core → Core) : (s.modCore c f).unit = s.unit := rfl
@[simp] theorem modCore_sys (c : CoreId) (f : Core → Core) : (s.modCore c f).sys = s.sys := rfl
@[simp] theorem modCore_mem (c : CoreId) (f : Core → Core) : (s.modCore c f).mem = s.mem := rfl
@[simp] theorem modCore_flaws (c : CoreId) (f : Core → Core) : (s.modCore c f).flaws = s.flaws := rfl
@[simp] theorem modCore_full (c : CoreId) (f : Core → Core) : (s.modCore c f).full = s.full := rfl
@[simp] theorem modCore_tags (c : CoreId) (f : Core → Core) : (s.modCore c f).tags = s.tags := rfl
@[simp] theorem modCore_seqs (c : CoreId) (f : Core → Core) : (s.modCore c f).seqs = s.seqs := rfl
@[simp] theorem modCore_stamp (c : CoreId) (f : Core → Core) : (s.modCore c f).stamp = s.stamp := rfl
@[simp] theorem modCore_know (c : CoreId) (f : Core → Core) : (s.modCore c f).know = s.know := rfl
@[simp] theorem modCore_sync (c : CoreId) (f : Core → Core) : (s.modCore c f).sync = s.sync := rfl
@[simp] theorem modCore_seen (c : CoreId) (f : Core → Core) : (s.modCore c f).seen = s.seen := rfl
@[simp] theorem modCore_fences (c : CoreId) (f : Core → Core) : (s.modCore c f).fences = s.fences := rfl
@[simp] theorem modCore_releases (c : CoreId) (f : Core → Core) : (s.modCore c f).releases = s.releases := rfl
@[simp] theorem modCore_nextItem (c : CoreId) (f : Core → Core) : (s.modCore c f).nextItem = s.nextItem := rfl
@[simp] theorem modCore_tlb (c : CoreId) (f : Core → Core) : (s.modCore c f).tlb = s.tlb := rfl
@[simp] theorem modCore_walkCache (c : CoreId) (f : Core → Core) : (s.modCore c f).walkCache = s.walkCache := rfl
@[simp] theorem modCore_walks (c : CoreId) (f : Core → Core) : (s.modCore c f).walks = s.walks := rfl
@[simp] theorem modCore_lines (c : CoreId) (f : Core → Core) : (s.modCore c f).lines = s.lines := rfl
@[simp] theorem modCore_plru (c : CoreId) (f : Core → Core) : (s.modCore c f).plru = s.plru := rfl
@[simp] theorem modCore_events (c : CoreId) (f : Core → Core) : (s.modCore c f).events = s.events := rfl
@[simp] theorem modCore_fbcStores (c : CoreId) (f : Core → Core) : (s.modCore c f).fbcStores = s.fbcStores := rfl
@[simp] theorem modCore_held (c : CoreId) (f : Core → Core) : (s.modCore c f).held = s.held := rfl
@[simp] theorem modCore_feQueue (c : CoreId) (f : Core → Core) : (s.modCore c f).feQueue = s.feQueue := rfl
@[simp] theorem modCore_ticketNext (c : CoreId) (f : Core → Core) : (s.modCore c f).ticketNext = s.ticketNext := rfl
@[simp] theorem modCore_tickets (c : CoreId) (f : Core → Core) : (s.modCore c f).tickets = s.tickets := rfl
@[simp] theorem modCore_tides (c : CoreId) (f : Core → Core) : (s.modCore c f).tides = s.tides := rfl
@[simp] theorem modCore_arrays (c : CoreId) (f : Core → Core) : (s.modCore c f).arrays = s.arrays := rfl
@[simp] theorem modCore_regions (c : CoreId) (f : Core → Core) : (s.modCore c f).regions = s.regions := rfl
@[simp] theorem modCore_parts (c : CoreId) (f : Core → Core) : (s.modCore c f).parts = s.parts := rfl
@[simp] theorem modCore_superRoot (c : CoreId) (f : Core → Core) : (s.modCore c f).superRoot = s.superRoot := rfl
@[simp] theorem modCore_windows (c : CoreId) (f : Core → Core) : (s.modCore c f).windows = s.windows := rfl
@[simp] theorem modCore_actions (c : CoreId) (f : Core → Core) : (s.modCore c f).actions = s.actions := rfl
@[simp] theorem modCore_launchQueue (c : CoreId) (f : Core → Core) : (s.modCore c f).launchQueue = s.launchQueue := rfl
@[simp] theorem modCore_launches (c : CoreId) (f : Core → Core) : (s.modCore c f).launches = s.launches := rfl
@[simp] theorem modCore_pool (c : CoreId) (f : Core → Core) : (s.modCore c f).pool = s.pool := rfl
@[simp] theorem modCore_readySessions (c : CoreId) (f : Core → Core) : (s.modCore c f).readySessions = s.readySessions := rfl
@[simp] theorem modCore_steps (c : CoreId) (f : Core → Core) : (s.modCore c f).steps = s.steps := rfl
@[simp] theorem modCore_barriers (c : CoreId) (f : Core → Core) : (s.modCore c f).barriers = s.barriers := rfl
@[simp] theorem modCore_steals (c : CoreId) (f : Core → Core) : (s.modCore c f).steals = s.steals := rfl
@[simp] theorem modCore_saved (c : CoreId) (f : Core → Core) : (s.modCore c f).saved = s.saved := rfl
@[simp] theorem modCore_quiesced (c : CoreId) (f : Core → Core) : (s.modCore c f).quiesced = s.quiesced := rfl
@[simp] theorem modCore_saving (c : CoreId) (f : Core → Core) : (s.modCore c f).saving = s.saving := rfl
@[simp] theorem modCore_openSlots (c : CoreId) (f : Core → Core) : (s.modCore c f).openSlots = s.openSlots := rfl
@[simp] theorem modCore_arrivals (c : CoreId) (f : Core → Core) : (s.modCore c f).arrivals = s.arrivals := rfl
@[simp] theorem modCore_pins (c : CoreId) (f : Core → Core) : (s.modCore c f).pins = s.pins := rfl
@[simp] theorem modCore_us (c : CoreId) (f : Core → Core) : (s.modCore c f).us = s.us := rfl
@[simp] theorem modCore_regulators (c : CoreId) (f : Core → Core) : (s.modCore c f).regulators = s.regulators := rfl
@[simp] theorem modCore_requests (c : CoreId) (f : Core → Core) : (s.modCore c f).requests = s.requests := rfl
@[simp] theorem modCore_bwsel (c : CoreId) (f : Core → Core) : (s.modCore c f).bwsel = s.bwsel := rfl
@[simp] theorem modCore_forecast (c : CoreId) (f : Core → Core) : (s.modCore c f).forecast = s.forecast := rfl
@[simp] theorem modCore_alarm (c : CoreId) (f : Core → Core) : (s.modCore c f).alarm = s.alarm := rfl
@[simp] theorem modCore_pfMailbox (c : CoreId) (f : Core → Core) : (s.modCore c f).pfMailbox = s.pfMailbox := rfl
@[simp] theorem modCore_hostLink (c : CoreId) (f : Core → Core) : (s.modCore c f).hostLink = s.hostLink := rfl
@[simp] theorem modCore_peerLink (c : CoreId) (f : Core → Core) : (s.modCore c f).peerLink = s.peerLink := rfl
@[simp] theorem modCore_dieLink (c : CoreId) (f : Core → Core) : (s.modCore c f).dieLink = s.dieLink := rfl
@[simp] theorem modCore_dieLost (c : CoreId) (f : Core → Core) : (s.modCore c f).dieLost = s.dieLost := rfl
@[simp] theorem modCore_channels (c : CoreId) (f : Core → Core) : (s.modCore c f).channels = s.channels := rfl
@[simp] theorem modCore_peers (c : CoreId) (f : Core → Core) : (s.modCore c f).peers = s.peers := rfl
@[simp] theorem modCore_pfEvents (c : CoreId) (f : Core → Core) : (s.modCore c f).pfEvents = s.pfEvents := rfl
@[simp] theorem modCore_boot (c : CoreId) (f : Core → Core) : (s.modCore c f).boot = s.boot := rfl
@[simp] theorem modCore_slices (c : CoreId) (f : Core → Core) : (s.modCore c f).slices = s.slices := rfl
@[simp] theorem modCore_ctrls (c : CoreId) (f : Core → Core) : (s.modCore c f).ctrls = s.ctrls := rfl
@[simp] theorem modCore_checkpoint (c : CoreId) (f : Core → Core) : (s.modCore c f).checkpoint = s.checkpoint := rfl
@[simp] theorem modCore_ckptReports (c : CoreId) (f : Core → Core) : (s.modCore c f).ckptReports = s.ckptReports := rfl
@[simp] theorem modCore_ports (c : CoreId) (f : Core → Core) : (s.modCore c f).ports = s.ports := rfl
@[simp] theorem modCore_portReply (c : CoreId) (f : Core → Core) : (s.modCore c f).portReply = s.portReply := rfl
@[simp] theorem modCore_fwDigest (c : CoreId) (f : Core → Core) : (s.modCore c f).fwDigest = s.fwDigest := rfl

/-! ## setSys -/

@[simp] theorem setSys_agenda (k : SysId) (y : Sys) : (s.setSys k y).agenda = s.agenda := rfl
@[simp] theorem setSys_moment (k : SysId) (y : Sys) : (s.setSys k y).moment = s.moment := rfl
@[simp] theorem setSys_cur (k : SysId) (y : Sys) : (s.setSys k y).cur = s.cur := rfl
@[simp] theorem setSys_unit (k : SysId) (y : Sys) : (s.setSys k y).unit = s.unit := rfl
@[simp] theorem setSys_cores (k : SysId) (y : Sys) : (s.setSys k y).cores = s.cores := rfl
@[simp] theorem setSys_mem (k : SysId) (y : Sys) : (s.setSys k y).mem = s.mem := rfl
@[simp] theorem setSys_flaws (k : SysId) (y : Sys) : (s.setSys k y).flaws = s.flaws := rfl
@[simp] theorem setSys_full (k : SysId) (y : Sys) : (s.setSys k y).full = s.full := rfl
@[simp] theorem setSys_tags (k : SysId) (y : Sys) : (s.setSys k y).tags = s.tags := rfl
@[simp] theorem setSys_seqs (k : SysId) (y : Sys) : (s.setSys k y).seqs = s.seqs := rfl
@[simp] theorem setSys_stamp (k : SysId) (y : Sys) : (s.setSys k y).stamp = s.stamp := rfl
@[simp] theorem setSys_know (k : SysId) (y : Sys) : (s.setSys k y).know = s.know := rfl
@[simp] theorem setSys_sync (k : SysId) (y : Sys) : (s.setSys k y).sync = s.sync := rfl
@[simp] theorem setSys_seen (k : SysId) (y : Sys) : (s.setSys k y).seen = s.seen := rfl
@[simp] theorem setSys_fences (k : SysId) (y : Sys) : (s.setSys k y).fences = s.fences := rfl
@[simp] theorem setSys_releases (k : SysId) (y : Sys) : (s.setSys k y).releases = s.releases := rfl
@[simp] theorem setSys_nextItem (k : SysId) (y : Sys) : (s.setSys k y).nextItem = s.nextItem := rfl
@[simp] theorem setSys_tlb (k : SysId) (y : Sys) : (s.setSys k y).tlb = s.tlb := rfl
@[simp] theorem setSys_walkCache (k : SysId) (y : Sys) : (s.setSys k y).walkCache = s.walkCache := rfl
@[simp] theorem setSys_walks (k : SysId) (y : Sys) : (s.setSys k y).walks = s.walks := rfl
@[simp] theorem setSys_lines (k : SysId) (y : Sys) : (s.setSys k y).lines = s.lines := rfl
@[simp] theorem setSys_plru (k : SysId) (y : Sys) : (s.setSys k y).plru = s.plru := rfl
@[simp] theorem setSys_events (k : SysId) (y : Sys) : (s.setSys k y).events = s.events := rfl
@[simp] theorem setSys_fbcStores (k : SysId) (y : Sys) : (s.setSys k y).fbcStores = s.fbcStores := rfl
@[simp] theorem setSys_held (k : SysId) (y : Sys) : (s.setSys k y).held = s.held := rfl
@[simp] theorem setSys_feQueue (k : SysId) (y : Sys) : (s.setSys k y).feQueue = s.feQueue := rfl
@[simp] theorem setSys_ticketNext (k : SysId) (y : Sys) : (s.setSys k y).ticketNext = s.ticketNext := rfl
@[simp] theorem setSys_tickets (k : SysId) (y : Sys) : (s.setSys k y).tickets = s.tickets := rfl
@[simp] theorem setSys_tides (k : SysId) (y : Sys) : (s.setSys k y).tides = s.tides := rfl
@[simp] theorem setSys_arrays (k : SysId) (y : Sys) : (s.setSys k y).arrays = s.arrays := rfl
@[simp] theorem setSys_regions (k : SysId) (y : Sys) : (s.setSys k y).regions = s.regions := rfl
@[simp] theorem setSys_parts (k : SysId) (y : Sys) : (s.setSys k y).parts = s.parts := rfl
@[simp] theorem setSys_superRoot (k : SysId) (y : Sys) : (s.setSys k y).superRoot = s.superRoot := rfl
@[simp] theorem setSys_windows (k : SysId) (y : Sys) : (s.setSys k y).windows = s.windows := rfl
@[simp] theorem setSys_actions (k : SysId) (y : Sys) : (s.setSys k y).actions = s.actions := rfl
@[simp] theorem setSys_launchQueue (k : SysId) (y : Sys) : (s.setSys k y).launchQueue = s.launchQueue := rfl
@[simp] theorem setSys_launches (k : SysId) (y : Sys) : (s.setSys k y).launches = s.launches := rfl
@[simp] theorem setSys_pool (k : SysId) (y : Sys) : (s.setSys k y).pool = s.pool := rfl
@[simp] theorem setSys_readySessions (k : SysId) (y : Sys) : (s.setSys k y).readySessions = s.readySessions := rfl
@[simp] theorem setSys_steps (k : SysId) (y : Sys) : (s.setSys k y).steps = s.steps := rfl
@[simp] theorem setSys_barriers (k : SysId) (y : Sys) : (s.setSys k y).barriers = s.barriers := rfl
@[simp] theorem setSys_steals (k : SysId) (y : Sys) : (s.setSys k y).steals = s.steals := rfl
@[simp] theorem setSys_saved (k : SysId) (y : Sys) : (s.setSys k y).saved = s.saved := rfl
@[simp] theorem setSys_quiesced (k : SysId) (y : Sys) : (s.setSys k y).quiesced = s.quiesced := rfl
@[simp] theorem setSys_saving (k : SysId) (y : Sys) : (s.setSys k y).saving = s.saving := rfl
@[simp] theorem setSys_openSlots (k : SysId) (y : Sys) : (s.setSys k y).openSlots = s.openSlots := rfl
@[simp] theorem setSys_arrivals (k : SysId) (y : Sys) : (s.setSys k y).arrivals = s.arrivals := rfl
@[simp] theorem setSys_pins (k : SysId) (y : Sys) : (s.setSys k y).pins = s.pins := rfl
@[simp] theorem setSys_us (k : SysId) (y : Sys) : (s.setSys k y).us = s.us := rfl
@[simp] theorem setSys_regulators (k : SysId) (y : Sys) : (s.setSys k y).regulators = s.regulators := rfl
@[simp] theorem setSys_requests (k : SysId) (y : Sys) : (s.setSys k y).requests = s.requests := rfl
@[simp] theorem setSys_bwsel (k : SysId) (y : Sys) : (s.setSys k y).bwsel = s.bwsel := rfl
@[simp] theorem setSys_forecast (k : SysId) (y : Sys) : (s.setSys k y).forecast = s.forecast := rfl
@[simp] theorem setSys_alarm (k : SysId) (y : Sys) : (s.setSys k y).alarm = s.alarm := rfl
@[simp] theorem setSys_pfMailbox (k : SysId) (y : Sys) : (s.setSys k y).pfMailbox = s.pfMailbox := rfl
@[simp] theorem setSys_hostLink (k : SysId) (y : Sys) : (s.setSys k y).hostLink = s.hostLink := rfl
@[simp] theorem setSys_peerLink (k : SysId) (y : Sys) : (s.setSys k y).peerLink = s.peerLink := rfl
@[simp] theorem setSys_dieLink (k : SysId) (y : Sys) : (s.setSys k y).dieLink = s.dieLink := rfl
@[simp] theorem setSys_dieLost (k : SysId) (y : Sys) : (s.setSys k y).dieLost = s.dieLost := rfl
@[simp] theorem setSys_channels (k : SysId) (y : Sys) : (s.setSys k y).channels = s.channels := rfl
@[simp] theorem setSys_peers (k : SysId) (y : Sys) : (s.setSys k y).peers = s.peers := rfl
@[simp] theorem setSys_pfEvents (k : SysId) (y : Sys) : (s.setSys k y).pfEvents = s.pfEvents := rfl
@[simp] theorem setSys_boot (k : SysId) (y : Sys) : (s.setSys k y).boot = s.boot := rfl
@[simp] theorem setSys_slices (k : SysId) (y : Sys) : (s.setSys k y).slices = s.slices := rfl
@[simp] theorem setSys_ctrls (k : SysId) (y : Sys) : (s.setSys k y).ctrls = s.ctrls := rfl
@[simp] theorem setSys_checkpoint (k : SysId) (y : Sys) : (s.setSys k y).checkpoint = s.checkpoint := rfl
@[simp] theorem setSys_ckptReports (k : SysId) (y : Sys) : (s.setSys k y).ckptReports = s.ckptReports := rfl
@[simp] theorem setSys_ports (k : SysId) (y : Sys) : (s.setSys k y).ports = s.ports := rfl
@[simp] theorem setSys_portReply (k : SysId) (y : Sys) : (s.setSys k y).portReply = s.portReply := rfl
@[simp] theorem setSys_fwDigest (k : SysId) (y : Sys) : (s.setSys k y).fwDigest = s.fwDigest := rfl

/-! ## modSys -/

@[simp] theorem modSys_agenda (k : SysId) (f : Sys → Sys) : (s.modSys k f).agenda = s.agenda := rfl
@[simp] theorem modSys_moment (k : SysId) (f : Sys → Sys) : (s.modSys k f).moment = s.moment := rfl
@[simp] theorem modSys_cur (k : SysId) (f : Sys → Sys) : (s.modSys k f).cur = s.cur := rfl
@[simp] theorem modSys_unit (k : SysId) (f : Sys → Sys) : (s.modSys k f).unit = s.unit := rfl
@[simp] theorem modSys_cores (k : SysId) (f : Sys → Sys) : (s.modSys k f).cores = s.cores := rfl
@[simp] theorem modSys_mem (k : SysId) (f : Sys → Sys) : (s.modSys k f).mem = s.mem := rfl
@[simp] theorem modSys_flaws (k : SysId) (f : Sys → Sys) : (s.modSys k f).flaws = s.flaws := rfl
@[simp] theorem modSys_full (k : SysId) (f : Sys → Sys) : (s.modSys k f).full = s.full := rfl
@[simp] theorem modSys_tags (k : SysId) (f : Sys → Sys) : (s.modSys k f).tags = s.tags := rfl
@[simp] theorem modSys_seqs (k : SysId) (f : Sys → Sys) : (s.modSys k f).seqs = s.seqs := rfl
@[simp] theorem modSys_stamp (k : SysId) (f : Sys → Sys) : (s.modSys k f).stamp = s.stamp := rfl
@[simp] theorem modSys_know (k : SysId) (f : Sys → Sys) : (s.modSys k f).know = s.know := rfl
@[simp] theorem modSys_sync (k : SysId) (f : Sys → Sys) : (s.modSys k f).sync = s.sync := rfl
@[simp] theorem modSys_seen (k : SysId) (f : Sys → Sys) : (s.modSys k f).seen = s.seen := rfl
@[simp] theorem modSys_fences (k : SysId) (f : Sys → Sys) : (s.modSys k f).fences = s.fences := rfl
@[simp] theorem modSys_releases (k : SysId) (f : Sys → Sys) : (s.modSys k f).releases = s.releases := rfl
@[simp] theorem modSys_nextItem (k : SysId) (f : Sys → Sys) : (s.modSys k f).nextItem = s.nextItem := rfl
@[simp] theorem modSys_tlb (k : SysId) (f : Sys → Sys) : (s.modSys k f).tlb = s.tlb := rfl
@[simp] theorem modSys_walkCache (k : SysId) (f : Sys → Sys) : (s.modSys k f).walkCache = s.walkCache := rfl
@[simp] theorem modSys_walks (k : SysId) (f : Sys → Sys) : (s.modSys k f).walks = s.walks := rfl
@[simp] theorem modSys_lines (k : SysId) (f : Sys → Sys) : (s.modSys k f).lines = s.lines := rfl
@[simp] theorem modSys_plru (k : SysId) (f : Sys → Sys) : (s.modSys k f).plru = s.plru := rfl
@[simp] theorem modSys_events (k : SysId) (f : Sys → Sys) : (s.modSys k f).events = s.events := rfl
@[simp] theorem modSys_fbcStores (k : SysId) (f : Sys → Sys) : (s.modSys k f).fbcStores = s.fbcStores := rfl
@[simp] theorem modSys_held (k : SysId) (f : Sys → Sys) : (s.modSys k f).held = s.held := rfl
@[simp] theorem modSys_feQueue (k : SysId) (f : Sys → Sys) : (s.modSys k f).feQueue = s.feQueue := rfl
@[simp] theorem modSys_ticketNext (k : SysId) (f : Sys → Sys) : (s.modSys k f).ticketNext = s.ticketNext := rfl
@[simp] theorem modSys_tickets (k : SysId) (f : Sys → Sys) : (s.modSys k f).tickets = s.tickets := rfl
@[simp] theorem modSys_tides (k : SysId) (f : Sys → Sys) : (s.modSys k f).tides = s.tides := rfl
@[simp] theorem modSys_arrays (k : SysId) (f : Sys → Sys) : (s.modSys k f).arrays = s.arrays := rfl
@[simp] theorem modSys_regions (k : SysId) (f : Sys → Sys) : (s.modSys k f).regions = s.regions := rfl
@[simp] theorem modSys_parts (k : SysId) (f : Sys → Sys) : (s.modSys k f).parts = s.parts := rfl
@[simp] theorem modSys_superRoot (k : SysId) (f : Sys → Sys) : (s.modSys k f).superRoot = s.superRoot := rfl
@[simp] theorem modSys_windows (k : SysId) (f : Sys → Sys) : (s.modSys k f).windows = s.windows := rfl
@[simp] theorem modSys_actions (k : SysId) (f : Sys → Sys) : (s.modSys k f).actions = s.actions := rfl
@[simp] theorem modSys_launchQueue (k : SysId) (f : Sys → Sys) : (s.modSys k f).launchQueue = s.launchQueue := rfl
@[simp] theorem modSys_launches (k : SysId) (f : Sys → Sys) : (s.modSys k f).launches = s.launches := rfl
@[simp] theorem modSys_pool (k : SysId) (f : Sys → Sys) : (s.modSys k f).pool = s.pool := rfl
@[simp] theorem modSys_readySessions (k : SysId) (f : Sys → Sys) : (s.modSys k f).readySessions = s.readySessions := rfl
@[simp] theorem modSys_steps (k : SysId) (f : Sys → Sys) : (s.modSys k f).steps = s.steps := rfl
@[simp] theorem modSys_barriers (k : SysId) (f : Sys → Sys) : (s.modSys k f).barriers = s.barriers := rfl
@[simp] theorem modSys_steals (k : SysId) (f : Sys → Sys) : (s.modSys k f).steals = s.steals := rfl
@[simp] theorem modSys_saved (k : SysId) (f : Sys → Sys) : (s.modSys k f).saved = s.saved := rfl
@[simp] theorem modSys_quiesced (k : SysId) (f : Sys → Sys) : (s.modSys k f).quiesced = s.quiesced := rfl
@[simp] theorem modSys_saving (k : SysId) (f : Sys → Sys) : (s.modSys k f).saving = s.saving := rfl
@[simp] theorem modSys_openSlots (k : SysId) (f : Sys → Sys) : (s.modSys k f).openSlots = s.openSlots := rfl
@[simp] theorem modSys_arrivals (k : SysId) (f : Sys → Sys) : (s.modSys k f).arrivals = s.arrivals := rfl
@[simp] theorem modSys_pins (k : SysId) (f : Sys → Sys) : (s.modSys k f).pins = s.pins := rfl
@[simp] theorem modSys_us (k : SysId) (f : Sys → Sys) : (s.modSys k f).us = s.us := rfl
@[simp] theorem modSys_regulators (k : SysId) (f : Sys → Sys) : (s.modSys k f).regulators = s.regulators := rfl
@[simp] theorem modSys_requests (k : SysId) (f : Sys → Sys) : (s.modSys k f).requests = s.requests := rfl
@[simp] theorem modSys_bwsel (k : SysId) (f : Sys → Sys) : (s.modSys k f).bwsel = s.bwsel := rfl
@[simp] theorem modSys_forecast (k : SysId) (f : Sys → Sys) : (s.modSys k f).forecast = s.forecast := rfl
@[simp] theorem modSys_alarm (k : SysId) (f : Sys → Sys) : (s.modSys k f).alarm = s.alarm := rfl
@[simp] theorem modSys_pfMailbox (k : SysId) (f : Sys → Sys) : (s.modSys k f).pfMailbox = s.pfMailbox := rfl
@[simp] theorem modSys_hostLink (k : SysId) (f : Sys → Sys) : (s.modSys k f).hostLink = s.hostLink := rfl
@[simp] theorem modSys_peerLink (k : SysId) (f : Sys → Sys) : (s.modSys k f).peerLink = s.peerLink := rfl
@[simp] theorem modSys_dieLink (k : SysId) (f : Sys → Sys) : (s.modSys k f).dieLink = s.dieLink := rfl
@[simp] theorem modSys_dieLost (k : SysId) (f : Sys → Sys) : (s.modSys k f).dieLost = s.dieLost := rfl
@[simp] theorem modSys_channels (k : SysId) (f : Sys → Sys) : (s.modSys k f).channels = s.channels := rfl
@[simp] theorem modSys_peers (k : SysId) (f : Sys → Sys) : (s.modSys k f).peers = s.peers := rfl
@[simp] theorem modSys_pfEvents (k : SysId) (f : Sys → Sys) : (s.modSys k f).pfEvents = s.pfEvents := rfl
@[simp] theorem modSys_boot (k : SysId) (f : Sys → Sys) : (s.modSys k f).boot = s.boot := rfl
@[simp] theorem modSys_slices (k : SysId) (f : Sys → Sys) : (s.modSys k f).slices = s.slices := rfl
@[simp] theorem modSys_ctrls (k : SysId) (f : Sys → Sys) : (s.modSys k f).ctrls = s.ctrls := rfl
@[simp] theorem modSys_checkpoint (k : SysId) (f : Sys → Sys) : (s.modSys k f).checkpoint = s.checkpoint := rfl
@[simp] theorem modSys_ckptReports (k : SysId) (f : Sys → Sys) : (s.modSys k f).ckptReports = s.ckptReports := rfl
@[simp] theorem modSys_ports (k : SysId) (f : Sys → Sys) : (s.modSys k f).ports = s.ports := rfl
@[simp] theorem modSys_portReply (k : SysId) (f : Sys → Sys) : (s.modSys k f).portReply = s.portReply := rfl
@[simp] theorem modSys_fwDigest (k : SysId) (f : Sys → Sys) : (s.modSys k f).fwDigest = s.fwDigest := rfl

/-! ## setCpuOf -/

@[simp] theorem setCpuOf_agenda (q : Proc) (x : Cpu) : (s.setCpuOf q x).agenda = s.agenda := by cases q <;> rfl
@[simp] theorem setCpuOf_moment (q : Proc) (x : Cpu) : (s.setCpuOf q x).moment = s.moment := by cases q <;> rfl
@[simp] theorem setCpuOf_cur (q : Proc) (x : Cpu) : (s.setCpuOf q x).cur = s.cur := by cases q <;> rfl
@[simp] theorem setCpuOf_unit (q : Proc) (x : Cpu) : (s.setCpuOf q x).unit = s.unit := by cases q <;> rfl
@[simp] theorem setCpuOf_mem (q : Proc) (x : Cpu) : (s.setCpuOf q x).mem = s.mem := by cases q <;> rfl
@[simp] theorem setCpuOf_flaws (q : Proc) (x : Cpu) : (s.setCpuOf q x).flaws = s.flaws := by cases q <;> rfl
@[simp] theorem setCpuOf_full (q : Proc) (x : Cpu) : (s.setCpuOf q x).full = s.full := by cases q <;> rfl
@[simp] theorem setCpuOf_tags (q : Proc) (x : Cpu) : (s.setCpuOf q x).tags = s.tags := by cases q <;> rfl
@[simp] theorem setCpuOf_seqs (q : Proc) (x : Cpu) : (s.setCpuOf q x).seqs = s.seqs := by cases q <;> rfl
@[simp] theorem setCpuOf_stamp (q : Proc) (x : Cpu) : (s.setCpuOf q x).stamp = s.stamp := by cases q <;> rfl
@[simp] theorem setCpuOf_know (q : Proc) (x : Cpu) : (s.setCpuOf q x).know = s.know := by cases q <;> rfl
@[simp] theorem setCpuOf_sync (q : Proc) (x : Cpu) : (s.setCpuOf q x).sync = s.sync := by cases q <;> rfl
@[simp] theorem setCpuOf_seen (q : Proc) (x : Cpu) : (s.setCpuOf q x).seen = s.seen := by cases q <;> rfl
@[simp] theorem setCpuOf_fences (q : Proc) (x : Cpu) : (s.setCpuOf q x).fences = s.fences := by cases q <;> rfl
@[simp] theorem setCpuOf_releases (q : Proc) (x : Cpu) : (s.setCpuOf q x).releases = s.releases := by cases q <;> rfl
@[simp] theorem setCpuOf_nextItem (q : Proc) (x : Cpu) : (s.setCpuOf q x).nextItem = s.nextItem := by cases q <;> rfl
@[simp] theorem setCpuOf_tlb (q : Proc) (x : Cpu) : (s.setCpuOf q x).tlb = s.tlb := by cases q <;> rfl
@[simp] theorem setCpuOf_walkCache (q : Proc) (x : Cpu) : (s.setCpuOf q x).walkCache = s.walkCache := by cases q <;> rfl
@[simp] theorem setCpuOf_walks (q : Proc) (x : Cpu) : (s.setCpuOf q x).walks = s.walks := by cases q <;> rfl
@[simp] theorem setCpuOf_lines (q : Proc) (x : Cpu) : (s.setCpuOf q x).lines = s.lines := by cases q <;> rfl
@[simp] theorem setCpuOf_plru (q : Proc) (x : Cpu) : (s.setCpuOf q x).plru = s.plru := by cases q <;> rfl
@[simp] theorem setCpuOf_events (q : Proc) (x : Cpu) : (s.setCpuOf q x).events = s.events := by cases q <;> rfl
@[simp] theorem setCpuOf_fbcStores (q : Proc) (x : Cpu) : (s.setCpuOf q x).fbcStores = s.fbcStores := by cases q <;> rfl
@[simp] theorem setCpuOf_held (q : Proc) (x : Cpu) : (s.setCpuOf q x).held = s.held := by cases q <;> rfl
@[simp] theorem setCpuOf_feQueue (q : Proc) (x : Cpu) : (s.setCpuOf q x).feQueue = s.feQueue := by cases q <;> rfl
@[simp] theorem setCpuOf_ticketNext (q : Proc) (x : Cpu) : (s.setCpuOf q x).ticketNext = s.ticketNext := by cases q <;> rfl
@[simp] theorem setCpuOf_tickets (q : Proc) (x : Cpu) : (s.setCpuOf q x).tickets = s.tickets := by cases q <;> rfl
@[simp] theorem setCpuOf_tides (q : Proc) (x : Cpu) : (s.setCpuOf q x).tides = s.tides := by cases q <;> rfl
@[simp] theorem setCpuOf_arrays (q : Proc) (x : Cpu) : (s.setCpuOf q x).arrays = s.arrays := by cases q <;> rfl
@[simp] theorem setCpuOf_regions (q : Proc) (x : Cpu) : (s.setCpuOf q x).regions = s.regions := by cases q <;> rfl
@[simp] theorem setCpuOf_parts (q : Proc) (x : Cpu) : (s.setCpuOf q x).parts = s.parts := by cases q <;> rfl
@[simp] theorem setCpuOf_superRoot (q : Proc) (x : Cpu) : (s.setCpuOf q x).superRoot = s.superRoot := by cases q <;> rfl
@[simp] theorem setCpuOf_windows (q : Proc) (x : Cpu) : (s.setCpuOf q x).windows = s.windows := by cases q <;> rfl
@[simp] theorem setCpuOf_actions (q : Proc) (x : Cpu) : (s.setCpuOf q x).actions = s.actions := by cases q <;> rfl
@[simp] theorem setCpuOf_launchQueue (q : Proc) (x : Cpu) : (s.setCpuOf q x).launchQueue = s.launchQueue := by cases q <;> rfl
@[simp] theorem setCpuOf_launches (q : Proc) (x : Cpu) : (s.setCpuOf q x).launches = s.launches := by cases q <;> rfl
@[simp] theorem setCpuOf_pool (q : Proc) (x : Cpu) : (s.setCpuOf q x).pool = s.pool := by cases q <;> rfl
@[simp] theorem setCpuOf_readySessions (q : Proc) (x : Cpu) : (s.setCpuOf q x).readySessions = s.readySessions := by cases q <;> rfl
@[simp] theorem setCpuOf_steps (q : Proc) (x : Cpu) : (s.setCpuOf q x).steps = s.steps := by cases q <;> rfl
@[simp] theorem setCpuOf_barriers (q : Proc) (x : Cpu) : (s.setCpuOf q x).barriers = s.barriers := by cases q <;> rfl
@[simp] theorem setCpuOf_steals (q : Proc) (x : Cpu) : (s.setCpuOf q x).steals = s.steals := by cases q <;> rfl
@[simp] theorem setCpuOf_saved (q : Proc) (x : Cpu) : (s.setCpuOf q x).saved = s.saved := by cases q <;> rfl
@[simp] theorem setCpuOf_quiesced (q : Proc) (x : Cpu) : (s.setCpuOf q x).quiesced = s.quiesced := by cases q <;> rfl
@[simp] theorem setCpuOf_saving (q : Proc) (x : Cpu) : (s.setCpuOf q x).saving = s.saving := by cases q <;> rfl
@[simp] theorem setCpuOf_openSlots (q : Proc) (x : Cpu) : (s.setCpuOf q x).openSlots = s.openSlots := by cases q <;> rfl
@[simp] theorem setCpuOf_arrivals (q : Proc) (x : Cpu) : (s.setCpuOf q x).arrivals = s.arrivals := by cases q <;> rfl
@[simp] theorem setCpuOf_pins (q : Proc) (x : Cpu) : (s.setCpuOf q x).pins = s.pins := by cases q <;> rfl
@[simp] theorem setCpuOf_us (q : Proc) (x : Cpu) : (s.setCpuOf q x).us = s.us := by cases q <;> rfl
@[simp] theorem setCpuOf_regulators (q : Proc) (x : Cpu) : (s.setCpuOf q x).regulators = s.regulators := by cases q <;> rfl
@[simp] theorem setCpuOf_requests (q : Proc) (x : Cpu) : (s.setCpuOf q x).requests = s.requests := by cases q <;> rfl
@[simp] theorem setCpuOf_bwsel (q : Proc) (x : Cpu) : (s.setCpuOf q x).bwsel = s.bwsel := by cases q <;> rfl
@[simp] theorem setCpuOf_forecast (q : Proc) (x : Cpu) : (s.setCpuOf q x).forecast = s.forecast := by cases q <;> rfl
@[simp] theorem setCpuOf_alarm (q : Proc) (x : Cpu) : (s.setCpuOf q x).alarm = s.alarm := by cases q <;> rfl
@[simp] theorem setCpuOf_pfMailbox (q : Proc) (x : Cpu) : (s.setCpuOf q x).pfMailbox = s.pfMailbox := by cases q <;> rfl
@[simp] theorem setCpuOf_hostLink (q : Proc) (x : Cpu) : (s.setCpuOf q x).hostLink = s.hostLink := by cases q <;> rfl
@[simp] theorem setCpuOf_peerLink (q : Proc) (x : Cpu) : (s.setCpuOf q x).peerLink = s.peerLink := by cases q <;> rfl
@[simp] theorem setCpuOf_dieLink (q : Proc) (x : Cpu) : (s.setCpuOf q x).dieLink = s.dieLink := by cases q <;> rfl
@[simp] theorem setCpuOf_dieLost (q : Proc) (x : Cpu) : (s.setCpuOf q x).dieLost = s.dieLost := by cases q <;> rfl
@[simp] theorem setCpuOf_channels (q : Proc) (x : Cpu) : (s.setCpuOf q x).channels = s.channels := by cases q <;> rfl
@[simp] theorem setCpuOf_peers (q : Proc) (x : Cpu) : (s.setCpuOf q x).peers = s.peers := by cases q <;> rfl
@[simp] theorem setCpuOf_pfEvents (q : Proc) (x : Cpu) : (s.setCpuOf q x).pfEvents = s.pfEvents := by cases q <;> rfl
@[simp] theorem setCpuOf_boot (q : Proc) (x : Cpu) : (s.setCpuOf q x).boot = s.boot := by cases q <;> rfl
@[simp] theorem setCpuOf_slices (q : Proc) (x : Cpu) : (s.setCpuOf q x).slices = s.slices := by cases q <;> rfl
@[simp] theorem setCpuOf_ctrls (q : Proc) (x : Cpu) : (s.setCpuOf q x).ctrls = s.ctrls := by cases q <;> rfl
@[simp] theorem setCpuOf_checkpoint (q : Proc) (x : Cpu) : (s.setCpuOf q x).checkpoint = s.checkpoint := by cases q <;> rfl
@[simp] theorem setCpuOf_ckptReports (q : Proc) (x : Cpu) : (s.setCpuOf q x).ckptReports = s.ckptReports := by cases q <;> rfl
@[simp] theorem setCpuOf_ports (q : Proc) (x : Cpu) : (s.setCpuOf q x).ports = s.ports := by cases q <;> rfl
@[simp] theorem setCpuOf_portReply (q : Proc) (x : Cpu) : (s.setCpuOf q x).portReply = s.portReply := by cases q <;> rfl
@[simp] theorem setCpuOf_fwDigest (q : Proc) (x : Cpu) : (s.setCpuOf q x).fwDigest = s.fwDigest := by cases q <;> rfl

/-! ## setCpu -/

@[simp] theorem setCpu_agenda (x : Cpu) : (s.setCpu x).agenda = s.agenda := setCpuOf_agenda s _ x
@[simp] theorem setCpu_moment (x : Cpu) : (s.setCpu x).moment = s.moment := setCpuOf_moment s _ x
@[simp] theorem setCpu_cur (x : Cpu) : (s.setCpu x).cur = s.cur := setCpuOf_cur s _ x
@[simp] theorem setCpu_unit (x : Cpu) : (s.setCpu x).unit = s.unit := setCpuOf_unit s _ x
@[simp] theorem setCpu_mem (x : Cpu) : (s.setCpu x).mem = s.mem := setCpuOf_mem s _ x
@[simp] theorem setCpu_flaws (x : Cpu) : (s.setCpu x).flaws = s.flaws := setCpuOf_flaws s _ x
@[simp] theorem setCpu_full (x : Cpu) : (s.setCpu x).full = s.full := setCpuOf_full s _ x
@[simp] theorem setCpu_tags (x : Cpu) : (s.setCpu x).tags = s.tags := setCpuOf_tags s _ x
@[simp] theorem setCpu_seqs (x : Cpu) : (s.setCpu x).seqs = s.seqs := setCpuOf_seqs s _ x
@[simp] theorem setCpu_stamp (x : Cpu) : (s.setCpu x).stamp = s.stamp := setCpuOf_stamp s _ x
@[simp] theorem setCpu_know (x : Cpu) : (s.setCpu x).know = s.know := setCpuOf_know s _ x
@[simp] theorem setCpu_sync (x : Cpu) : (s.setCpu x).sync = s.sync := setCpuOf_sync s _ x
@[simp] theorem setCpu_seen (x : Cpu) : (s.setCpu x).seen = s.seen := setCpuOf_seen s _ x
@[simp] theorem setCpu_fences (x : Cpu) : (s.setCpu x).fences = s.fences := setCpuOf_fences s _ x
@[simp] theorem setCpu_releases (x : Cpu) : (s.setCpu x).releases = s.releases := setCpuOf_releases s _ x
@[simp] theorem setCpu_nextItem (x : Cpu) : (s.setCpu x).nextItem = s.nextItem := setCpuOf_nextItem s _ x
@[simp] theorem setCpu_tlb (x : Cpu) : (s.setCpu x).tlb = s.tlb := setCpuOf_tlb s _ x
@[simp] theorem setCpu_walkCache (x : Cpu) : (s.setCpu x).walkCache = s.walkCache := setCpuOf_walkCache s _ x
@[simp] theorem setCpu_walks (x : Cpu) : (s.setCpu x).walks = s.walks := setCpuOf_walks s _ x
@[simp] theorem setCpu_lines (x : Cpu) : (s.setCpu x).lines = s.lines := setCpuOf_lines s _ x
@[simp] theorem setCpu_plru (x : Cpu) : (s.setCpu x).plru = s.plru := setCpuOf_plru s _ x
@[simp] theorem setCpu_events (x : Cpu) : (s.setCpu x).events = s.events := setCpuOf_events s _ x
@[simp] theorem setCpu_fbcStores (x : Cpu) : (s.setCpu x).fbcStores = s.fbcStores := setCpuOf_fbcStores s _ x
@[simp] theorem setCpu_held (x : Cpu) : (s.setCpu x).held = s.held := setCpuOf_held s _ x
@[simp] theorem setCpu_feQueue (x : Cpu) : (s.setCpu x).feQueue = s.feQueue := setCpuOf_feQueue s _ x
@[simp] theorem setCpu_ticketNext (x : Cpu) : (s.setCpu x).ticketNext = s.ticketNext := setCpuOf_ticketNext s _ x
@[simp] theorem setCpu_tickets (x : Cpu) : (s.setCpu x).tickets = s.tickets := setCpuOf_tickets s _ x
@[simp] theorem setCpu_tides (x : Cpu) : (s.setCpu x).tides = s.tides := setCpuOf_tides s _ x
@[simp] theorem setCpu_arrays (x : Cpu) : (s.setCpu x).arrays = s.arrays := setCpuOf_arrays s _ x
@[simp] theorem setCpu_regions (x : Cpu) : (s.setCpu x).regions = s.regions := setCpuOf_regions s _ x
@[simp] theorem setCpu_parts (x : Cpu) : (s.setCpu x).parts = s.parts := setCpuOf_parts s _ x
@[simp] theorem setCpu_superRoot (x : Cpu) : (s.setCpu x).superRoot = s.superRoot := setCpuOf_superRoot s _ x
@[simp] theorem setCpu_windows (x : Cpu) : (s.setCpu x).windows = s.windows := setCpuOf_windows s _ x
@[simp] theorem setCpu_actions (x : Cpu) : (s.setCpu x).actions = s.actions := setCpuOf_actions s _ x
@[simp] theorem setCpu_launchQueue (x : Cpu) : (s.setCpu x).launchQueue = s.launchQueue := setCpuOf_launchQueue s _ x
@[simp] theorem setCpu_launches (x : Cpu) : (s.setCpu x).launches = s.launches := setCpuOf_launches s _ x
@[simp] theorem setCpu_pool (x : Cpu) : (s.setCpu x).pool = s.pool := setCpuOf_pool s _ x
@[simp] theorem setCpu_readySessions (x : Cpu) : (s.setCpu x).readySessions = s.readySessions := setCpuOf_readySessions s _ x
@[simp] theorem setCpu_steps (x : Cpu) : (s.setCpu x).steps = s.steps := setCpuOf_steps s _ x
@[simp] theorem setCpu_barriers (x : Cpu) : (s.setCpu x).barriers = s.barriers := setCpuOf_barriers s _ x
@[simp] theorem setCpu_steals (x : Cpu) : (s.setCpu x).steals = s.steals := setCpuOf_steals s _ x
@[simp] theorem setCpu_saved (x : Cpu) : (s.setCpu x).saved = s.saved := setCpuOf_saved s _ x
@[simp] theorem setCpu_quiesced (x : Cpu) : (s.setCpu x).quiesced = s.quiesced := setCpuOf_quiesced s _ x
@[simp] theorem setCpu_saving (x : Cpu) : (s.setCpu x).saving = s.saving := setCpuOf_saving s _ x
@[simp] theorem setCpu_openSlots (x : Cpu) : (s.setCpu x).openSlots = s.openSlots := setCpuOf_openSlots s _ x
@[simp] theorem setCpu_arrivals (x : Cpu) : (s.setCpu x).arrivals = s.arrivals := setCpuOf_arrivals s _ x
@[simp] theorem setCpu_pins (x : Cpu) : (s.setCpu x).pins = s.pins := setCpuOf_pins s _ x
@[simp] theorem setCpu_us (x : Cpu) : (s.setCpu x).us = s.us := setCpuOf_us s _ x
@[simp] theorem setCpu_regulators (x : Cpu) : (s.setCpu x).regulators = s.regulators := setCpuOf_regulators s _ x
@[simp] theorem setCpu_requests (x : Cpu) : (s.setCpu x).requests = s.requests := setCpuOf_requests s _ x
@[simp] theorem setCpu_bwsel (x : Cpu) : (s.setCpu x).bwsel = s.bwsel := setCpuOf_bwsel s _ x
@[simp] theorem setCpu_forecast (x : Cpu) : (s.setCpu x).forecast = s.forecast := setCpuOf_forecast s _ x
@[simp] theorem setCpu_alarm (x : Cpu) : (s.setCpu x).alarm = s.alarm := setCpuOf_alarm s _ x
@[simp] theorem setCpu_pfMailbox (x : Cpu) : (s.setCpu x).pfMailbox = s.pfMailbox := setCpuOf_pfMailbox s _ x
@[simp] theorem setCpu_hostLink (x : Cpu) : (s.setCpu x).hostLink = s.hostLink := setCpuOf_hostLink s _ x
@[simp] theorem setCpu_peerLink (x : Cpu) : (s.setCpu x).peerLink = s.peerLink := setCpuOf_peerLink s _ x
@[simp] theorem setCpu_dieLink (x : Cpu) : (s.setCpu x).dieLink = s.dieLink := setCpuOf_dieLink s _ x
@[simp] theorem setCpu_dieLost (x : Cpu) : (s.setCpu x).dieLost = s.dieLost := setCpuOf_dieLost s _ x
@[simp] theorem setCpu_channels (x : Cpu) : (s.setCpu x).channels = s.channels := setCpuOf_channels s _ x
@[simp] theorem setCpu_peers (x : Cpu) : (s.setCpu x).peers = s.peers := setCpuOf_peers s _ x
@[simp] theorem setCpu_pfEvents (x : Cpu) : (s.setCpu x).pfEvents = s.pfEvents := setCpuOf_pfEvents s _ x
@[simp] theorem setCpu_boot (x : Cpu) : (s.setCpu x).boot = s.boot := setCpuOf_boot s _ x
@[simp] theorem setCpu_slices (x : Cpu) : (s.setCpu x).slices = s.slices := setCpuOf_slices s _ x
@[simp] theorem setCpu_ctrls (x : Cpu) : (s.setCpu x).ctrls = s.ctrls := setCpuOf_ctrls s _ x
@[simp] theorem setCpu_checkpoint (x : Cpu) : (s.setCpu x).checkpoint = s.checkpoint := setCpuOf_checkpoint s _ x
@[simp] theorem setCpu_ckptReports (x : Cpu) : (s.setCpu x).ckptReports = s.ckptReports := setCpuOf_ckptReports s _ x
@[simp] theorem setCpu_ports (x : Cpu) : (s.setCpu x).ports = s.ports := setCpuOf_ports s _ x
@[simp] theorem setCpu_portReply (x : Cpu) : (s.setCpu x).portReply = s.portReply := setCpuOf_portReply s _ x
@[simp] theorem setCpu_fwDigest (x : Cpu) : (s.setCpu x).fwDigest = s.fwDigest := setCpuOf_fwDigest s _ x

/-! ## modCpu -/

@[simp] theorem modCpu_agenda (f : Cpu → Cpu) : (s.modCpu f).agenda = s.agenda := setCpuOf_agenda s _ _
@[simp] theorem modCpu_moment (f : Cpu → Cpu) : (s.modCpu f).moment = s.moment := setCpuOf_moment s _ _
@[simp] theorem modCpu_cur (f : Cpu → Cpu) : (s.modCpu f).cur = s.cur := setCpuOf_cur s _ _
@[simp] theorem modCpu_unit (f : Cpu → Cpu) : (s.modCpu f).unit = s.unit := setCpuOf_unit s _ _
@[simp] theorem modCpu_mem (f : Cpu → Cpu) : (s.modCpu f).mem = s.mem := setCpuOf_mem s _ _
@[simp] theorem modCpu_flaws (f : Cpu → Cpu) : (s.modCpu f).flaws = s.flaws := setCpuOf_flaws s _ _
@[simp] theorem modCpu_full (f : Cpu → Cpu) : (s.modCpu f).full = s.full := setCpuOf_full s _ _
@[simp] theorem modCpu_tags (f : Cpu → Cpu) : (s.modCpu f).tags = s.tags := setCpuOf_tags s _ _
@[simp] theorem modCpu_seqs (f : Cpu → Cpu) : (s.modCpu f).seqs = s.seqs := setCpuOf_seqs s _ _
@[simp] theorem modCpu_stamp (f : Cpu → Cpu) : (s.modCpu f).stamp = s.stamp := setCpuOf_stamp s _ _
@[simp] theorem modCpu_know (f : Cpu → Cpu) : (s.modCpu f).know = s.know := setCpuOf_know s _ _
@[simp] theorem modCpu_sync (f : Cpu → Cpu) : (s.modCpu f).sync = s.sync := setCpuOf_sync s _ _
@[simp] theorem modCpu_seen (f : Cpu → Cpu) : (s.modCpu f).seen = s.seen := setCpuOf_seen s _ _
@[simp] theorem modCpu_fences (f : Cpu → Cpu) : (s.modCpu f).fences = s.fences := setCpuOf_fences s _ _
@[simp] theorem modCpu_releases (f : Cpu → Cpu) : (s.modCpu f).releases = s.releases := setCpuOf_releases s _ _
@[simp] theorem modCpu_nextItem (f : Cpu → Cpu) : (s.modCpu f).nextItem = s.nextItem := setCpuOf_nextItem s _ _
@[simp] theorem modCpu_tlb (f : Cpu → Cpu) : (s.modCpu f).tlb = s.tlb := setCpuOf_tlb s _ _
@[simp] theorem modCpu_walkCache (f : Cpu → Cpu) : (s.modCpu f).walkCache = s.walkCache := setCpuOf_walkCache s _ _
@[simp] theorem modCpu_walks (f : Cpu → Cpu) : (s.modCpu f).walks = s.walks := setCpuOf_walks s _ _
@[simp] theorem modCpu_lines (f : Cpu → Cpu) : (s.modCpu f).lines = s.lines := setCpuOf_lines s _ _
@[simp] theorem modCpu_plru (f : Cpu → Cpu) : (s.modCpu f).plru = s.plru := setCpuOf_plru s _ _
@[simp] theorem modCpu_events (f : Cpu → Cpu) : (s.modCpu f).events = s.events := setCpuOf_events s _ _
@[simp] theorem modCpu_fbcStores (f : Cpu → Cpu) : (s.modCpu f).fbcStores = s.fbcStores := setCpuOf_fbcStores s _ _
@[simp] theorem modCpu_held (f : Cpu → Cpu) : (s.modCpu f).held = s.held := setCpuOf_held s _ _
@[simp] theorem modCpu_feQueue (f : Cpu → Cpu) : (s.modCpu f).feQueue = s.feQueue := setCpuOf_feQueue s _ _
@[simp] theorem modCpu_ticketNext (f : Cpu → Cpu) : (s.modCpu f).ticketNext = s.ticketNext := setCpuOf_ticketNext s _ _
@[simp] theorem modCpu_tickets (f : Cpu → Cpu) : (s.modCpu f).tickets = s.tickets := setCpuOf_tickets s _ _
@[simp] theorem modCpu_tides (f : Cpu → Cpu) : (s.modCpu f).tides = s.tides := setCpuOf_tides s _ _
@[simp] theorem modCpu_arrays (f : Cpu → Cpu) : (s.modCpu f).arrays = s.arrays := setCpuOf_arrays s _ _
@[simp] theorem modCpu_regions (f : Cpu → Cpu) : (s.modCpu f).regions = s.regions := setCpuOf_regions s _ _
@[simp] theorem modCpu_parts (f : Cpu → Cpu) : (s.modCpu f).parts = s.parts := setCpuOf_parts s _ _
@[simp] theorem modCpu_superRoot (f : Cpu → Cpu) : (s.modCpu f).superRoot = s.superRoot := setCpuOf_superRoot s _ _
@[simp] theorem modCpu_windows (f : Cpu → Cpu) : (s.modCpu f).windows = s.windows := setCpuOf_windows s _ _
@[simp] theorem modCpu_actions (f : Cpu → Cpu) : (s.modCpu f).actions = s.actions := setCpuOf_actions s _ _
@[simp] theorem modCpu_launchQueue (f : Cpu → Cpu) : (s.modCpu f).launchQueue = s.launchQueue := setCpuOf_launchQueue s _ _
@[simp] theorem modCpu_launches (f : Cpu → Cpu) : (s.modCpu f).launches = s.launches := setCpuOf_launches s _ _
@[simp] theorem modCpu_pool (f : Cpu → Cpu) : (s.modCpu f).pool = s.pool := setCpuOf_pool s _ _
@[simp] theorem modCpu_readySessions (f : Cpu → Cpu) : (s.modCpu f).readySessions = s.readySessions := setCpuOf_readySessions s _ _
@[simp] theorem modCpu_steps (f : Cpu → Cpu) : (s.modCpu f).steps = s.steps := setCpuOf_steps s _ _
@[simp] theorem modCpu_barriers (f : Cpu → Cpu) : (s.modCpu f).barriers = s.barriers := setCpuOf_barriers s _ _
@[simp] theorem modCpu_steals (f : Cpu → Cpu) : (s.modCpu f).steals = s.steals := setCpuOf_steals s _ _
@[simp] theorem modCpu_saved (f : Cpu → Cpu) : (s.modCpu f).saved = s.saved := setCpuOf_saved s _ _
@[simp] theorem modCpu_quiesced (f : Cpu → Cpu) : (s.modCpu f).quiesced = s.quiesced := setCpuOf_quiesced s _ _
@[simp] theorem modCpu_saving (f : Cpu → Cpu) : (s.modCpu f).saving = s.saving := setCpuOf_saving s _ _
@[simp] theorem modCpu_openSlots (f : Cpu → Cpu) : (s.modCpu f).openSlots = s.openSlots := setCpuOf_openSlots s _ _
@[simp] theorem modCpu_arrivals (f : Cpu → Cpu) : (s.modCpu f).arrivals = s.arrivals := setCpuOf_arrivals s _ _
@[simp] theorem modCpu_pins (f : Cpu → Cpu) : (s.modCpu f).pins = s.pins := setCpuOf_pins s _ _
@[simp] theorem modCpu_us (f : Cpu → Cpu) : (s.modCpu f).us = s.us := setCpuOf_us s _ _
@[simp] theorem modCpu_regulators (f : Cpu → Cpu) : (s.modCpu f).regulators = s.regulators := setCpuOf_regulators s _ _
@[simp] theorem modCpu_requests (f : Cpu → Cpu) : (s.modCpu f).requests = s.requests := setCpuOf_requests s _ _
@[simp] theorem modCpu_bwsel (f : Cpu → Cpu) : (s.modCpu f).bwsel = s.bwsel := setCpuOf_bwsel s _ _
@[simp] theorem modCpu_forecast (f : Cpu → Cpu) : (s.modCpu f).forecast = s.forecast := setCpuOf_forecast s _ _
@[simp] theorem modCpu_alarm (f : Cpu → Cpu) : (s.modCpu f).alarm = s.alarm := setCpuOf_alarm s _ _
@[simp] theorem modCpu_pfMailbox (f : Cpu → Cpu) : (s.modCpu f).pfMailbox = s.pfMailbox := setCpuOf_pfMailbox s _ _
@[simp] theorem modCpu_hostLink (f : Cpu → Cpu) : (s.modCpu f).hostLink = s.hostLink := setCpuOf_hostLink s _ _
@[simp] theorem modCpu_peerLink (f : Cpu → Cpu) : (s.modCpu f).peerLink = s.peerLink := setCpuOf_peerLink s _ _
@[simp] theorem modCpu_dieLink (f : Cpu → Cpu) : (s.modCpu f).dieLink = s.dieLink := setCpuOf_dieLink s _ _
@[simp] theorem modCpu_dieLost (f : Cpu → Cpu) : (s.modCpu f).dieLost = s.dieLost := setCpuOf_dieLost s _ _
@[simp] theorem modCpu_channels (f : Cpu → Cpu) : (s.modCpu f).channels = s.channels := setCpuOf_channels s _ _
@[simp] theorem modCpu_peers (f : Cpu → Cpu) : (s.modCpu f).peers = s.peers := setCpuOf_peers s _ _
@[simp] theorem modCpu_pfEvents (f : Cpu → Cpu) : (s.modCpu f).pfEvents = s.pfEvents := setCpuOf_pfEvents s _ _
@[simp] theorem modCpu_boot (f : Cpu → Cpu) : (s.modCpu f).boot = s.boot := setCpuOf_boot s _ _
@[simp] theorem modCpu_slices (f : Cpu → Cpu) : (s.modCpu f).slices = s.slices := setCpuOf_slices s _ _
@[simp] theorem modCpu_ctrls (f : Cpu → Cpu) : (s.modCpu f).ctrls = s.ctrls := setCpuOf_ctrls s _ _
@[simp] theorem modCpu_checkpoint (f : Cpu → Cpu) : (s.modCpu f).checkpoint = s.checkpoint := setCpuOf_checkpoint s _ _
@[simp] theorem modCpu_ckptReports (f : Cpu → Cpu) : (s.modCpu f).ckptReports = s.ckptReports := setCpuOf_ckptReports s _ _
@[simp] theorem modCpu_ports (f : Cpu → Cpu) : (s.modCpu f).ports = s.ports := setCpuOf_ports s _ _
@[simp] theorem modCpu_portReply (f : Cpu → Cpu) : (s.modCpu f).portReply = s.portReply := setCpuOf_portReply s _ _
@[simp] theorem modCpu_fwDigest (f : Cpu → Cpu) : (s.modCpu f).fwDigest = s.fwDigest := setCpuOf_fwDigest s _ _

/-! ## setNpc -/

@[simp] theorem setNpc_agenda (v : W64) : (s.setNpc v).agenda = s.agenda := setCpuOf_agenda s _ _
@[simp] theorem setNpc_moment (v : W64) : (s.setNpc v).moment = s.moment := setCpuOf_moment s _ _
@[simp] theorem setNpc_cur (v : W64) : (s.setNpc v).cur = s.cur := setCpuOf_cur s _ _
@[simp] theorem setNpc_unit (v : W64) : (s.setNpc v).unit = s.unit := setCpuOf_unit s _ _
@[simp] theorem setNpc_mem (v : W64) : (s.setNpc v).mem = s.mem := setCpuOf_mem s _ _
@[simp] theorem setNpc_flaws (v : W64) : (s.setNpc v).flaws = s.flaws := setCpuOf_flaws s _ _
@[simp] theorem setNpc_full (v : W64) : (s.setNpc v).full = s.full := setCpuOf_full s _ _
@[simp] theorem setNpc_tags (v : W64) : (s.setNpc v).tags = s.tags := setCpuOf_tags s _ _
@[simp] theorem setNpc_seqs (v : W64) : (s.setNpc v).seqs = s.seqs := setCpuOf_seqs s _ _
@[simp] theorem setNpc_stamp (v : W64) : (s.setNpc v).stamp = s.stamp := setCpuOf_stamp s _ _
@[simp] theorem setNpc_know (v : W64) : (s.setNpc v).know = s.know := setCpuOf_know s _ _
@[simp] theorem setNpc_sync (v : W64) : (s.setNpc v).sync = s.sync := setCpuOf_sync s _ _
@[simp] theorem setNpc_seen (v : W64) : (s.setNpc v).seen = s.seen := setCpuOf_seen s _ _
@[simp] theorem setNpc_fences (v : W64) : (s.setNpc v).fences = s.fences := setCpuOf_fences s _ _
@[simp] theorem setNpc_releases (v : W64) : (s.setNpc v).releases = s.releases := setCpuOf_releases s _ _
@[simp] theorem setNpc_nextItem (v : W64) : (s.setNpc v).nextItem = s.nextItem := setCpuOf_nextItem s _ _
@[simp] theorem setNpc_tlb (v : W64) : (s.setNpc v).tlb = s.tlb := setCpuOf_tlb s _ _
@[simp] theorem setNpc_walkCache (v : W64) : (s.setNpc v).walkCache = s.walkCache := setCpuOf_walkCache s _ _
@[simp] theorem setNpc_walks (v : W64) : (s.setNpc v).walks = s.walks := setCpuOf_walks s _ _
@[simp] theorem setNpc_lines (v : W64) : (s.setNpc v).lines = s.lines := setCpuOf_lines s _ _
@[simp] theorem setNpc_plru (v : W64) : (s.setNpc v).plru = s.plru := setCpuOf_plru s _ _
@[simp] theorem setNpc_events (v : W64) : (s.setNpc v).events = s.events := setCpuOf_events s _ _
@[simp] theorem setNpc_fbcStores (v : W64) : (s.setNpc v).fbcStores = s.fbcStores := setCpuOf_fbcStores s _ _
@[simp] theorem setNpc_held (v : W64) : (s.setNpc v).held = s.held := setCpuOf_held s _ _
@[simp] theorem setNpc_feQueue (v : W64) : (s.setNpc v).feQueue = s.feQueue := setCpuOf_feQueue s _ _
@[simp] theorem setNpc_ticketNext (v : W64) : (s.setNpc v).ticketNext = s.ticketNext := setCpuOf_ticketNext s _ _
@[simp] theorem setNpc_tickets (v : W64) : (s.setNpc v).tickets = s.tickets := setCpuOf_tickets s _ _
@[simp] theorem setNpc_tides (v : W64) : (s.setNpc v).tides = s.tides := setCpuOf_tides s _ _
@[simp] theorem setNpc_arrays (v : W64) : (s.setNpc v).arrays = s.arrays := setCpuOf_arrays s _ _
@[simp] theorem setNpc_regions (v : W64) : (s.setNpc v).regions = s.regions := setCpuOf_regions s _ _
@[simp] theorem setNpc_parts (v : W64) : (s.setNpc v).parts = s.parts := setCpuOf_parts s _ _
@[simp] theorem setNpc_superRoot (v : W64) : (s.setNpc v).superRoot = s.superRoot := setCpuOf_superRoot s _ _
@[simp] theorem setNpc_windows (v : W64) : (s.setNpc v).windows = s.windows := setCpuOf_windows s _ _
@[simp] theorem setNpc_actions (v : W64) : (s.setNpc v).actions = s.actions := setCpuOf_actions s _ _
@[simp] theorem setNpc_launchQueue (v : W64) : (s.setNpc v).launchQueue = s.launchQueue := setCpuOf_launchQueue s _ _
@[simp] theorem setNpc_launches (v : W64) : (s.setNpc v).launches = s.launches := setCpuOf_launches s _ _
@[simp] theorem setNpc_pool (v : W64) : (s.setNpc v).pool = s.pool := setCpuOf_pool s _ _
@[simp] theorem setNpc_readySessions (v : W64) : (s.setNpc v).readySessions = s.readySessions := setCpuOf_readySessions s _ _
@[simp] theorem setNpc_steps (v : W64) : (s.setNpc v).steps = s.steps := setCpuOf_steps s _ _
@[simp] theorem setNpc_barriers (v : W64) : (s.setNpc v).barriers = s.barriers := setCpuOf_barriers s _ _
@[simp] theorem setNpc_steals (v : W64) : (s.setNpc v).steals = s.steals := setCpuOf_steals s _ _
@[simp] theorem setNpc_saved (v : W64) : (s.setNpc v).saved = s.saved := setCpuOf_saved s _ _
@[simp] theorem setNpc_quiesced (v : W64) : (s.setNpc v).quiesced = s.quiesced := setCpuOf_quiesced s _ _
@[simp] theorem setNpc_saving (v : W64) : (s.setNpc v).saving = s.saving := setCpuOf_saving s _ _
@[simp] theorem setNpc_openSlots (v : W64) : (s.setNpc v).openSlots = s.openSlots := setCpuOf_openSlots s _ _
@[simp] theorem setNpc_arrivals (v : W64) : (s.setNpc v).arrivals = s.arrivals := setCpuOf_arrivals s _ _
@[simp] theorem setNpc_pins (v : W64) : (s.setNpc v).pins = s.pins := setCpuOf_pins s _ _
@[simp] theorem setNpc_us (v : W64) : (s.setNpc v).us = s.us := setCpuOf_us s _ _
@[simp] theorem setNpc_regulators (v : W64) : (s.setNpc v).regulators = s.regulators := setCpuOf_regulators s _ _
@[simp] theorem setNpc_requests (v : W64) : (s.setNpc v).requests = s.requests := setCpuOf_requests s _ _
@[simp] theorem setNpc_bwsel (v : W64) : (s.setNpc v).bwsel = s.bwsel := setCpuOf_bwsel s _ _
@[simp] theorem setNpc_forecast (v : W64) : (s.setNpc v).forecast = s.forecast := setCpuOf_forecast s _ _
@[simp] theorem setNpc_alarm (v : W64) : (s.setNpc v).alarm = s.alarm := setCpuOf_alarm s _ _
@[simp] theorem setNpc_pfMailbox (v : W64) : (s.setNpc v).pfMailbox = s.pfMailbox := setCpuOf_pfMailbox s _ _
@[simp] theorem setNpc_hostLink (v : W64) : (s.setNpc v).hostLink = s.hostLink := setCpuOf_hostLink s _ _
@[simp] theorem setNpc_peerLink (v : W64) : (s.setNpc v).peerLink = s.peerLink := setCpuOf_peerLink s _ _
@[simp] theorem setNpc_dieLink (v : W64) : (s.setNpc v).dieLink = s.dieLink := setCpuOf_dieLink s _ _
@[simp] theorem setNpc_dieLost (v : W64) : (s.setNpc v).dieLost = s.dieLost := setCpuOf_dieLost s _ _
@[simp] theorem setNpc_channels (v : W64) : (s.setNpc v).channels = s.channels := setCpuOf_channels s _ _
@[simp] theorem setNpc_peers (v : W64) : (s.setNpc v).peers = s.peers := setCpuOf_peers s _ _
@[simp] theorem setNpc_pfEvents (v : W64) : (s.setNpc v).pfEvents = s.pfEvents := setCpuOf_pfEvents s _ _
@[simp] theorem setNpc_boot (v : W64) : (s.setNpc v).boot = s.boot := setCpuOf_boot s _ _
@[simp] theorem setNpc_slices (v : W64) : (s.setNpc v).slices = s.slices := setCpuOf_slices s _ _
@[simp] theorem setNpc_ctrls (v : W64) : (s.setNpc v).ctrls = s.ctrls := setCpuOf_ctrls s _ _
@[simp] theorem setNpc_checkpoint (v : W64) : (s.setNpc v).checkpoint = s.checkpoint := setCpuOf_checkpoint s _ _
@[simp] theorem setNpc_ckptReports (v : W64) : (s.setNpc v).ckptReports = s.ckptReports := setCpuOf_ckptReports s _ _
@[simp] theorem setNpc_ports (v : W64) : (s.setNpc v).ports = s.ports := setCpuOf_ports s _ _
@[simp] theorem setNpc_portReply (v : W64) : (s.setNpc v).portReply = s.portReply := setCpuOf_portReply s _ _
@[simp] theorem setNpc_fwDigest (v : W64) : (s.setNpc v).fwDigest = s.fwDigest := setCpuOf_fwDigest s _ _

/-! ## addFlags -/

@[simp] theorem addFlags_agenda (f : BitVec 6) : (s.addFlags f).agenda = s.agenda := setCpuOf_agenda s _ _
@[simp] theorem addFlags_moment (f : BitVec 6) : (s.addFlags f).moment = s.moment := setCpuOf_moment s _ _
@[simp] theorem addFlags_cur (f : BitVec 6) : (s.addFlags f).cur = s.cur := setCpuOf_cur s _ _
@[simp] theorem addFlags_unit (f : BitVec 6) : (s.addFlags f).unit = s.unit := setCpuOf_unit s _ _
@[simp] theorem addFlags_mem (f : BitVec 6) : (s.addFlags f).mem = s.mem := setCpuOf_mem s _ _
@[simp] theorem addFlags_flaws (f : BitVec 6) : (s.addFlags f).flaws = s.flaws := setCpuOf_flaws s _ _
@[simp] theorem addFlags_full (f : BitVec 6) : (s.addFlags f).full = s.full := setCpuOf_full s _ _
@[simp] theorem addFlags_tags (f : BitVec 6) : (s.addFlags f).tags = s.tags := setCpuOf_tags s _ _
@[simp] theorem addFlags_seqs (f : BitVec 6) : (s.addFlags f).seqs = s.seqs := setCpuOf_seqs s _ _
@[simp] theorem addFlags_stamp (f : BitVec 6) : (s.addFlags f).stamp = s.stamp := setCpuOf_stamp s _ _
@[simp] theorem addFlags_know (f : BitVec 6) : (s.addFlags f).know = s.know := setCpuOf_know s _ _
@[simp] theorem addFlags_sync (f : BitVec 6) : (s.addFlags f).sync = s.sync := setCpuOf_sync s _ _
@[simp] theorem addFlags_seen (f : BitVec 6) : (s.addFlags f).seen = s.seen := setCpuOf_seen s _ _
@[simp] theorem addFlags_fences (f : BitVec 6) : (s.addFlags f).fences = s.fences := setCpuOf_fences s _ _
@[simp] theorem addFlags_releases (f : BitVec 6) : (s.addFlags f).releases = s.releases := setCpuOf_releases s _ _
@[simp] theorem addFlags_nextItem (f : BitVec 6) : (s.addFlags f).nextItem = s.nextItem := setCpuOf_nextItem s _ _
@[simp] theorem addFlags_tlb (f : BitVec 6) : (s.addFlags f).tlb = s.tlb := setCpuOf_tlb s _ _
@[simp] theorem addFlags_walkCache (f : BitVec 6) : (s.addFlags f).walkCache = s.walkCache := setCpuOf_walkCache s _ _
@[simp] theorem addFlags_walks (f : BitVec 6) : (s.addFlags f).walks = s.walks := setCpuOf_walks s _ _
@[simp] theorem addFlags_lines (f : BitVec 6) : (s.addFlags f).lines = s.lines := setCpuOf_lines s _ _
@[simp] theorem addFlags_plru (f : BitVec 6) : (s.addFlags f).plru = s.plru := setCpuOf_plru s _ _
@[simp] theorem addFlags_events (f : BitVec 6) : (s.addFlags f).events = s.events := setCpuOf_events s _ _
@[simp] theorem addFlags_fbcStores (f : BitVec 6) : (s.addFlags f).fbcStores = s.fbcStores := setCpuOf_fbcStores s _ _
@[simp] theorem addFlags_held (f : BitVec 6) : (s.addFlags f).held = s.held := setCpuOf_held s _ _
@[simp] theorem addFlags_feQueue (f : BitVec 6) : (s.addFlags f).feQueue = s.feQueue := setCpuOf_feQueue s _ _
@[simp] theorem addFlags_ticketNext (f : BitVec 6) : (s.addFlags f).ticketNext = s.ticketNext := setCpuOf_ticketNext s _ _
@[simp] theorem addFlags_tickets (f : BitVec 6) : (s.addFlags f).tickets = s.tickets := setCpuOf_tickets s _ _
@[simp] theorem addFlags_tides (f : BitVec 6) : (s.addFlags f).tides = s.tides := setCpuOf_tides s _ _
@[simp] theorem addFlags_arrays (f : BitVec 6) : (s.addFlags f).arrays = s.arrays := setCpuOf_arrays s _ _
@[simp] theorem addFlags_regions (f : BitVec 6) : (s.addFlags f).regions = s.regions := setCpuOf_regions s _ _
@[simp] theorem addFlags_parts (f : BitVec 6) : (s.addFlags f).parts = s.parts := setCpuOf_parts s _ _
@[simp] theorem addFlags_superRoot (f : BitVec 6) : (s.addFlags f).superRoot = s.superRoot := setCpuOf_superRoot s _ _
@[simp] theorem addFlags_windows (f : BitVec 6) : (s.addFlags f).windows = s.windows := setCpuOf_windows s _ _
@[simp] theorem addFlags_actions (f : BitVec 6) : (s.addFlags f).actions = s.actions := setCpuOf_actions s _ _
@[simp] theorem addFlags_launchQueue (f : BitVec 6) : (s.addFlags f).launchQueue = s.launchQueue := setCpuOf_launchQueue s _ _
@[simp] theorem addFlags_launches (f : BitVec 6) : (s.addFlags f).launches = s.launches := setCpuOf_launches s _ _
@[simp] theorem addFlags_pool (f : BitVec 6) : (s.addFlags f).pool = s.pool := setCpuOf_pool s _ _
@[simp] theorem addFlags_readySessions (f : BitVec 6) : (s.addFlags f).readySessions = s.readySessions := setCpuOf_readySessions s _ _
@[simp] theorem addFlags_steps (f : BitVec 6) : (s.addFlags f).steps = s.steps := setCpuOf_steps s _ _
@[simp] theorem addFlags_barriers (f : BitVec 6) : (s.addFlags f).barriers = s.barriers := setCpuOf_barriers s _ _
@[simp] theorem addFlags_steals (f : BitVec 6) : (s.addFlags f).steals = s.steals := setCpuOf_steals s _ _
@[simp] theorem addFlags_saved (f : BitVec 6) : (s.addFlags f).saved = s.saved := setCpuOf_saved s _ _
@[simp] theorem addFlags_quiesced (f : BitVec 6) : (s.addFlags f).quiesced = s.quiesced := setCpuOf_quiesced s _ _
@[simp] theorem addFlags_saving (f : BitVec 6) : (s.addFlags f).saving = s.saving := setCpuOf_saving s _ _
@[simp] theorem addFlags_openSlots (f : BitVec 6) : (s.addFlags f).openSlots = s.openSlots := setCpuOf_openSlots s _ _
@[simp] theorem addFlags_arrivals (f : BitVec 6) : (s.addFlags f).arrivals = s.arrivals := setCpuOf_arrivals s _ _
@[simp] theorem addFlags_pins (f : BitVec 6) : (s.addFlags f).pins = s.pins := setCpuOf_pins s _ _
@[simp] theorem addFlags_us (f : BitVec 6) : (s.addFlags f).us = s.us := setCpuOf_us s _ _
@[simp] theorem addFlags_regulators (f : BitVec 6) : (s.addFlags f).regulators = s.regulators := setCpuOf_regulators s _ _
@[simp] theorem addFlags_requests (f : BitVec 6) : (s.addFlags f).requests = s.requests := setCpuOf_requests s _ _
@[simp] theorem addFlags_bwsel (f : BitVec 6) : (s.addFlags f).bwsel = s.bwsel := setCpuOf_bwsel s _ _
@[simp] theorem addFlags_forecast (f : BitVec 6) : (s.addFlags f).forecast = s.forecast := setCpuOf_forecast s _ _
@[simp] theorem addFlags_alarm (f : BitVec 6) : (s.addFlags f).alarm = s.alarm := setCpuOf_alarm s _ _
@[simp] theorem addFlags_pfMailbox (f : BitVec 6) : (s.addFlags f).pfMailbox = s.pfMailbox := setCpuOf_pfMailbox s _ _
@[simp] theorem addFlags_hostLink (f : BitVec 6) : (s.addFlags f).hostLink = s.hostLink := setCpuOf_hostLink s _ _
@[simp] theorem addFlags_peerLink (f : BitVec 6) : (s.addFlags f).peerLink = s.peerLink := setCpuOf_peerLink s _ _
@[simp] theorem addFlags_dieLink (f : BitVec 6) : (s.addFlags f).dieLink = s.dieLink := setCpuOf_dieLink s _ _
@[simp] theorem addFlags_dieLost (f : BitVec 6) : (s.addFlags f).dieLost = s.dieLost := setCpuOf_dieLost s _ _
@[simp] theorem addFlags_channels (f : BitVec 6) : (s.addFlags f).channels = s.channels := setCpuOf_channels s _ _
@[simp] theorem addFlags_peers (f : BitVec 6) : (s.addFlags f).peers = s.peers := setCpuOf_peers s _ _
@[simp] theorem addFlags_pfEvents (f : BitVec 6) : (s.addFlags f).pfEvents = s.pfEvents := setCpuOf_pfEvents s _ _
@[simp] theorem addFlags_boot (f : BitVec 6) : (s.addFlags f).boot = s.boot := setCpuOf_boot s _ _
@[simp] theorem addFlags_slices (f : BitVec 6) : (s.addFlags f).slices = s.slices := setCpuOf_slices s _ _
@[simp] theorem addFlags_ctrls (f : BitVec 6) : (s.addFlags f).ctrls = s.ctrls := setCpuOf_ctrls s _ _
@[simp] theorem addFlags_checkpoint (f : BitVec 6) : (s.addFlags f).checkpoint = s.checkpoint := setCpuOf_checkpoint s _ _
@[simp] theorem addFlags_ckptReports (f : BitVec 6) : (s.addFlags f).ckptReports = s.ckptReports := setCpuOf_ckptReports s _ _
@[simp] theorem addFlags_ports (f : BitVec 6) : (s.addFlags f).ports = s.ports := setCpuOf_ports s _ _
@[simp] theorem addFlags_portReply (f : BitVec 6) : (s.addFlags f).portReply = s.portReply := setCpuOf_portReply s _ _
@[simp] theorem addFlags_fwDigest (f : BitVec 6) : (s.addFlags f).fwDigest = s.fwDigest := setCpuOf_fwDigest s _ _

/-! ## advance -/

@[simp] theorem advance_agenda (q : Proc) : (s.advance q).agenda = s.agenda := setCpuOf_agenda s _ _
@[simp] theorem advance_moment (q : Proc) : (s.advance q).moment = s.moment := setCpuOf_moment s _ _
@[simp] theorem advance_cur (q : Proc) : (s.advance q).cur = s.cur := setCpuOf_cur s _ _
@[simp] theorem advance_unit (q : Proc) : (s.advance q).unit = s.unit := setCpuOf_unit s _ _
@[simp] theorem advance_mem (q : Proc) : (s.advance q).mem = s.mem := setCpuOf_mem s _ _
@[simp] theorem advance_flaws (q : Proc) : (s.advance q).flaws = s.flaws := setCpuOf_flaws s _ _
@[simp] theorem advance_full (q : Proc) : (s.advance q).full = s.full := setCpuOf_full s _ _
@[simp] theorem advance_tags (q : Proc) : (s.advance q).tags = s.tags := setCpuOf_tags s _ _
@[simp] theorem advance_seqs (q : Proc) : (s.advance q).seqs = s.seqs := setCpuOf_seqs s _ _
@[simp] theorem advance_stamp (q : Proc) : (s.advance q).stamp = s.stamp := setCpuOf_stamp s _ _
@[simp] theorem advance_know (q : Proc) : (s.advance q).know = s.know := setCpuOf_know s _ _
@[simp] theorem advance_sync (q : Proc) : (s.advance q).sync = s.sync := setCpuOf_sync s _ _
@[simp] theorem advance_seen (q : Proc) : (s.advance q).seen = s.seen := setCpuOf_seen s _ _
@[simp] theorem advance_fences (q : Proc) : (s.advance q).fences = s.fences := setCpuOf_fences s _ _
@[simp] theorem advance_releases (q : Proc) : (s.advance q).releases = s.releases := setCpuOf_releases s _ _
@[simp] theorem advance_nextItem (q : Proc) : (s.advance q).nextItem = s.nextItem := setCpuOf_nextItem s _ _
@[simp] theorem advance_tlb (q : Proc) : (s.advance q).tlb = s.tlb := setCpuOf_tlb s _ _
@[simp] theorem advance_walkCache (q : Proc) : (s.advance q).walkCache = s.walkCache := setCpuOf_walkCache s _ _
@[simp] theorem advance_walks (q : Proc) : (s.advance q).walks = s.walks := setCpuOf_walks s _ _
@[simp] theorem advance_lines (q : Proc) : (s.advance q).lines = s.lines := setCpuOf_lines s _ _
@[simp] theorem advance_plru (q : Proc) : (s.advance q).plru = s.plru := setCpuOf_plru s _ _
@[simp] theorem advance_events (q : Proc) : (s.advance q).events = s.events := setCpuOf_events s _ _
@[simp] theorem advance_fbcStores (q : Proc) : (s.advance q).fbcStores = s.fbcStores := setCpuOf_fbcStores s _ _
@[simp] theorem advance_held (q : Proc) : (s.advance q).held = s.held := setCpuOf_held s _ _
@[simp] theorem advance_feQueue (q : Proc) : (s.advance q).feQueue = s.feQueue := setCpuOf_feQueue s _ _
@[simp] theorem advance_ticketNext (q : Proc) : (s.advance q).ticketNext = s.ticketNext := setCpuOf_ticketNext s _ _
@[simp] theorem advance_tickets (q : Proc) : (s.advance q).tickets = s.tickets := setCpuOf_tickets s _ _
@[simp] theorem advance_tides (q : Proc) : (s.advance q).tides = s.tides := setCpuOf_tides s _ _
@[simp] theorem advance_arrays (q : Proc) : (s.advance q).arrays = s.arrays := setCpuOf_arrays s _ _
@[simp] theorem advance_regions (q : Proc) : (s.advance q).regions = s.regions := setCpuOf_regions s _ _
@[simp] theorem advance_parts (q : Proc) : (s.advance q).parts = s.parts := setCpuOf_parts s _ _
@[simp] theorem advance_superRoot (q : Proc) : (s.advance q).superRoot = s.superRoot := setCpuOf_superRoot s _ _
@[simp] theorem advance_windows (q : Proc) : (s.advance q).windows = s.windows := setCpuOf_windows s _ _
@[simp] theorem advance_actions (q : Proc) : (s.advance q).actions = s.actions := setCpuOf_actions s _ _
@[simp] theorem advance_launchQueue (q : Proc) : (s.advance q).launchQueue = s.launchQueue := setCpuOf_launchQueue s _ _
@[simp] theorem advance_launches (q : Proc) : (s.advance q).launches = s.launches := setCpuOf_launches s _ _
@[simp] theorem advance_pool (q : Proc) : (s.advance q).pool = s.pool := setCpuOf_pool s _ _
@[simp] theorem advance_readySessions (q : Proc) : (s.advance q).readySessions = s.readySessions := setCpuOf_readySessions s _ _
@[simp] theorem advance_steps (q : Proc) : (s.advance q).steps = s.steps := setCpuOf_steps s _ _
@[simp] theorem advance_barriers (q : Proc) : (s.advance q).barriers = s.barriers := setCpuOf_barriers s _ _
@[simp] theorem advance_steals (q : Proc) : (s.advance q).steals = s.steals := setCpuOf_steals s _ _
@[simp] theorem advance_saved (q : Proc) : (s.advance q).saved = s.saved := setCpuOf_saved s _ _
@[simp] theorem advance_quiesced (q : Proc) : (s.advance q).quiesced = s.quiesced := setCpuOf_quiesced s _ _
@[simp] theorem advance_saving (q : Proc) : (s.advance q).saving = s.saving := setCpuOf_saving s _ _
@[simp] theorem advance_openSlots (q : Proc) : (s.advance q).openSlots = s.openSlots := setCpuOf_openSlots s _ _
@[simp] theorem advance_arrivals (q : Proc) : (s.advance q).arrivals = s.arrivals := setCpuOf_arrivals s _ _
@[simp] theorem advance_pins (q : Proc) : (s.advance q).pins = s.pins := setCpuOf_pins s _ _
@[simp] theorem advance_us (q : Proc) : (s.advance q).us = s.us := setCpuOf_us s _ _
@[simp] theorem advance_regulators (q : Proc) : (s.advance q).regulators = s.regulators := setCpuOf_regulators s _ _
@[simp] theorem advance_requests (q : Proc) : (s.advance q).requests = s.requests := setCpuOf_requests s _ _
@[simp] theorem advance_bwsel (q : Proc) : (s.advance q).bwsel = s.bwsel := setCpuOf_bwsel s _ _
@[simp] theorem advance_forecast (q : Proc) : (s.advance q).forecast = s.forecast := setCpuOf_forecast s _ _
@[simp] theorem advance_alarm (q : Proc) : (s.advance q).alarm = s.alarm := setCpuOf_alarm s _ _
@[simp] theorem advance_pfMailbox (q : Proc) : (s.advance q).pfMailbox = s.pfMailbox := setCpuOf_pfMailbox s _ _
@[simp] theorem advance_hostLink (q : Proc) : (s.advance q).hostLink = s.hostLink := setCpuOf_hostLink s _ _
@[simp] theorem advance_peerLink (q : Proc) : (s.advance q).peerLink = s.peerLink := setCpuOf_peerLink s _ _
@[simp] theorem advance_dieLink (q : Proc) : (s.advance q).dieLink = s.dieLink := setCpuOf_dieLink s _ _
@[simp] theorem advance_dieLost (q : Proc) : (s.advance q).dieLost = s.dieLost := setCpuOf_dieLost s _ _
@[simp] theorem advance_channels (q : Proc) : (s.advance q).channels = s.channels := setCpuOf_channels s _ _
@[simp] theorem advance_peers (q : Proc) : (s.advance q).peers = s.peers := setCpuOf_peers s _ _
@[simp] theorem advance_pfEvents (q : Proc) : (s.advance q).pfEvents = s.pfEvents := setCpuOf_pfEvents s _ _
@[simp] theorem advance_boot (q : Proc) : (s.advance q).boot = s.boot := setCpuOf_boot s _ _
@[simp] theorem advance_slices (q : Proc) : (s.advance q).slices = s.slices := setCpuOf_slices s _ _
@[simp] theorem advance_ctrls (q : Proc) : (s.advance q).ctrls = s.ctrls := setCpuOf_ctrls s _ _
@[simp] theorem advance_checkpoint (q : Proc) : (s.advance q).checkpoint = s.checkpoint := setCpuOf_checkpoint s _ _
@[simp] theorem advance_ckptReports (q : Proc) : (s.advance q).ckptReports = s.ckptReports := setCpuOf_ckptReports s _ _
@[simp] theorem advance_ports (q : Proc) : (s.advance q).ports = s.ports := setCpuOf_ports s _ _
@[simp] theorem advance_portReply (q : Proc) : (s.advance q).portReply = s.portReply := setCpuOf_portReply s _ _
@[simp] theorem advance_fwDigest (q : Proc) : (s.advance q).fwDigest = s.fwDigest := setCpuOf_fwDigest s _ _

/-! ## setG -/

@[simp] theorem setG_agenda (r : BitVec 5) (v : W64) : (s.setG r v).agenda = s.agenda := by unfold setG; split; rfl; exact setCpuOf_agenda s _ _
@[simp] theorem setG_moment (r : BitVec 5) (v : W64) : (s.setG r v).moment = s.moment := by unfold setG; split; rfl; exact setCpuOf_moment s _ _
@[simp] theorem setG_cur (r : BitVec 5) (v : W64) : (s.setG r v).cur = s.cur := by unfold setG; split; rfl; exact setCpuOf_cur s _ _
@[simp] theorem setG_unit (r : BitVec 5) (v : W64) : (s.setG r v).unit = s.unit := by unfold setG; split; rfl; exact setCpuOf_unit s _ _
@[simp] theorem setG_mem (r : BitVec 5) (v : W64) : (s.setG r v).mem = s.mem := by unfold setG; split; rfl; exact setCpuOf_mem s _ _
@[simp] theorem setG_flaws (r : BitVec 5) (v : W64) : (s.setG r v).flaws = s.flaws := by unfold setG; split; rfl; exact setCpuOf_flaws s _ _
@[simp] theorem setG_full (r : BitVec 5) (v : W64) : (s.setG r v).full = s.full := by unfold setG; split; rfl; exact setCpuOf_full s _ _
@[simp] theorem setG_tags (r : BitVec 5) (v : W64) : (s.setG r v).tags = s.tags := by unfold setG; split; rfl; exact setCpuOf_tags s _ _
@[simp] theorem setG_seqs (r : BitVec 5) (v : W64) : (s.setG r v).seqs = s.seqs := by unfold setG; split; rfl; exact setCpuOf_seqs s _ _
@[simp] theorem setG_stamp (r : BitVec 5) (v : W64) : (s.setG r v).stamp = s.stamp := by unfold setG; split; rfl; exact setCpuOf_stamp s _ _
@[simp] theorem setG_know (r : BitVec 5) (v : W64) : (s.setG r v).know = s.know := by unfold setG; split; rfl; exact setCpuOf_know s _ _
@[simp] theorem setG_sync (r : BitVec 5) (v : W64) : (s.setG r v).sync = s.sync := by unfold setG; split; rfl; exact setCpuOf_sync s _ _
@[simp] theorem setG_seen (r : BitVec 5) (v : W64) : (s.setG r v).seen = s.seen := by unfold setG; split; rfl; exact setCpuOf_seen s _ _
@[simp] theorem setG_fences (r : BitVec 5) (v : W64) : (s.setG r v).fences = s.fences := by unfold setG; split; rfl; exact setCpuOf_fences s _ _
@[simp] theorem setG_releases (r : BitVec 5) (v : W64) : (s.setG r v).releases = s.releases := by unfold setG; split; rfl; exact setCpuOf_releases s _ _
@[simp] theorem setG_nextItem (r : BitVec 5) (v : W64) : (s.setG r v).nextItem = s.nextItem := by unfold setG; split; rfl; exact setCpuOf_nextItem s _ _
@[simp] theorem setG_tlb (r : BitVec 5) (v : W64) : (s.setG r v).tlb = s.tlb := by unfold setG; split; rfl; exact setCpuOf_tlb s _ _
@[simp] theorem setG_walkCache (r : BitVec 5) (v : W64) : (s.setG r v).walkCache = s.walkCache := by unfold setG; split; rfl; exact setCpuOf_walkCache s _ _
@[simp] theorem setG_walks (r : BitVec 5) (v : W64) : (s.setG r v).walks = s.walks := by unfold setG; split; rfl; exact setCpuOf_walks s _ _
@[simp] theorem setG_lines (r : BitVec 5) (v : W64) : (s.setG r v).lines = s.lines := by unfold setG; split; rfl; exact setCpuOf_lines s _ _
@[simp] theorem setG_plru (r : BitVec 5) (v : W64) : (s.setG r v).plru = s.plru := by unfold setG; split; rfl; exact setCpuOf_plru s _ _
@[simp] theorem setG_events (r : BitVec 5) (v : W64) : (s.setG r v).events = s.events := by unfold setG; split; rfl; exact setCpuOf_events s _ _
@[simp] theorem setG_fbcStores (r : BitVec 5) (v : W64) : (s.setG r v).fbcStores = s.fbcStores := by unfold setG; split; rfl; exact setCpuOf_fbcStores s _ _
@[simp] theorem setG_held (r : BitVec 5) (v : W64) : (s.setG r v).held = s.held := by unfold setG; split; rfl; exact setCpuOf_held s _ _
@[simp] theorem setG_feQueue (r : BitVec 5) (v : W64) : (s.setG r v).feQueue = s.feQueue := by unfold setG; split; rfl; exact setCpuOf_feQueue s _ _
@[simp] theorem setG_ticketNext (r : BitVec 5) (v : W64) : (s.setG r v).ticketNext = s.ticketNext := by unfold setG; split; rfl; exact setCpuOf_ticketNext s _ _
@[simp] theorem setG_tickets (r : BitVec 5) (v : W64) : (s.setG r v).tickets = s.tickets := by unfold setG; split; rfl; exact setCpuOf_tickets s _ _
@[simp] theorem setG_tides (r : BitVec 5) (v : W64) : (s.setG r v).tides = s.tides := by unfold setG; split; rfl; exact setCpuOf_tides s _ _
@[simp] theorem setG_arrays (r : BitVec 5) (v : W64) : (s.setG r v).arrays = s.arrays := by unfold setG; split; rfl; exact setCpuOf_arrays s _ _
@[simp] theorem setG_regions (r : BitVec 5) (v : W64) : (s.setG r v).regions = s.regions := by unfold setG; split; rfl; exact setCpuOf_regions s _ _
@[simp] theorem setG_parts (r : BitVec 5) (v : W64) : (s.setG r v).parts = s.parts := by unfold setG; split; rfl; exact setCpuOf_parts s _ _
@[simp] theorem setG_superRoot (r : BitVec 5) (v : W64) : (s.setG r v).superRoot = s.superRoot := by unfold setG; split; rfl; exact setCpuOf_superRoot s _ _
@[simp] theorem setG_windows (r : BitVec 5) (v : W64) : (s.setG r v).windows = s.windows := by unfold setG; split; rfl; exact setCpuOf_windows s _ _
@[simp] theorem setG_actions (r : BitVec 5) (v : W64) : (s.setG r v).actions = s.actions := by unfold setG; split; rfl; exact setCpuOf_actions s _ _
@[simp] theorem setG_launchQueue (r : BitVec 5) (v : W64) : (s.setG r v).launchQueue = s.launchQueue := by unfold setG; split; rfl; exact setCpuOf_launchQueue s _ _
@[simp] theorem setG_launches (r : BitVec 5) (v : W64) : (s.setG r v).launches = s.launches := by unfold setG; split; rfl; exact setCpuOf_launches s _ _
@[simp] theorem setG_pool (r : BitVec 5) (v : W64) : (s.setG r v).pool = s.pool := by unfold setG; split; rfl; exact setCpuOf_pool s _ _
@[simp] theorem setG_readySessions (r : BitVec 5) (v : W64) : (s.setG r v).readySessions = s.readySessions := by unfold setG; split; rfl; exact setCpuOf_readySessions s _ _
@[simp] theorem setG_steps (r : BitVec 5) (v : W64) : (s.setG r v).steps = s.steps := by unfold setG; split; rfl; exact setCpuOf_steps s _ _
@[simp] theorem setG_barriers (r : BitVec 5) (v : W64) : (s.setG r v).barriers = s.barriers := by unfold setG; split; rfl; exact setCpuOf_barriers s _ _
@[simp] theorem setG_steals (r : BitVec 5) (v : W64) : (s.setG r v).steals = s.steals := by unfold setG; split; rfl; exact setCpuOf_steals s _ _
@[simp] theorem setG_saved (r : BitVec 5) (v : W64) : (s.setG r v).saved = s.saved := by unfold setG; split; rfl; exact setCpuOf_saved s _ _
@[simp] theorem setG_quiesced (r : BitVec 5) (v : W64) : (s.setG r v).quiesced = s.quiesced := by unfold setG; split; rfl; exact setCpuOf_quiesced s _ _
@[simp] theorem setG_saving (r : BitVec 5) (v : W64) : (s.setG r v).saving = s.saving := by unfold setG; split; rfl; exact setCpuOf_saving s _ _
@[simp] theorem setG_openSlots (r : BitVec 5) (v : W64) : (s.setG r v).openSlots = s.openSlots := by unfold setG; split; rfl; exact setCpuOf_openSlots s _ _
@[simp] theorem setG_arrivals (r : BitVec 5) (v : W64) : (s.setG r v).arrivals = s.arrivals := by unfold setG; split; rfl; exact setCpuOf_arrivals s _ _
@[simp] theorem setG_pins (r : BitVec 5) (v : W64) : (s.setG r v).pins = s.pins := by unfold setG; split; rfl; exact setCpuOf_pins s _ _
@[simp] theorem setG_us (r : BitVec 5) (v : W64) : (s.setG r v).us = s.us := by unfold setG; split; rfl; exact setCpuOf_us s _ _
@[simp] theorem setG_regulators (r : BitVec 5) (v : W64) : (s.setG r v).regulators = s.regulators := by unfold setG; split; rfl; exact setCpuOf_regulators s _ _
@[simp] theorem setG_requests (r : BitVec 5) (v : W64) : (s.setG r v).requests = s.requests := by unfold setG; split; rfl; exact setCpuOf_requests s _ _
@[simp] theorem setG_bwsel (r : BitVec 5) (v : W64) : (s.setG r v).bwsel = s.bwsel := by unfold setG; split; rfl; exact setCpuOf_bwsel s _ _
@[simp] theorem setG_forecast (r : BitVec 5) (v : W64) : (s.setG r v).forecast = s.forecast := by unfold setG; split; rfl; exact setCpuOf_forecast s _ _
@[simp] theorem setG_alarm (r : BitVec 5) (v : W64) : (s.setG r v).alarm = s.alarm := by unfold setG; split; rfl; exact setCpuOf_alarm s _ _
@[simp] theorem setG_pfMailbox (r : BitVec 5) (v : W64) : (s.setG r v).pfMailbox = s.pfMailbox := by unfold setG; split; rfl; exact setCpuOf_pfMailbox s _ _
@[simp] theorem setG_hostLink (r : BitVec 5) (v : W64) : (s.setG r v).hostLink = s.hostLink := by unfold setG; split; rfl; exact setCpuOf_hostLink s _ _
@[simp] theorem setG_peerLink (r : BitVec 5) (v : W64) : (s.setG r v).peerLink = s.peerLink := by unfold setG; split; rfl; exact setCpuOf_peerLink s _ _
@[simp] theorem setG_dieLink (r : BitVec 5) (v : W64) : (s.setG r v).dieLink = s.dieLink := by unfold setG; split; rfl; exact setCpuOf_dieLink s _ _
@[simp] theorem setG_dieLost (r : BitVec 5) (v : W64) : (s.setG r v).dieLost = s.dieLost := by unfold setG; split; rfl; exact setCpuOf_dieLost s _ _
@[simp] theorem setG_channels (r : BitVec 5) (v : W64) : (s.setG r v).channels = s.channels := by unfold setG; split; rfl; exact setCpuOf_channels s _ _
@[simp] theorem setG_peers (r : BitVec 5) (v : W64) : (s.setG r v).peers = s.peers := by unfold setG; split; rfl; exact setCpuOf_peers s _ _
@[simp] theorem setG_pfEvents (r : BitVec 5) (v : W64) : (s.setG r v).pfEvents = s.pfEvents := by unfold setG; split; rfl; exact setCpuOf_pfEvents s _ _
@[simp] theorem setG_boot (r : BitVec 5) (v : W64) : (s.setG r v).boot = s.boot := by unfold setG; split; rfl; exact setCpuOf_boot s _ _
@[simp] theorem setG_slices (r : BitVec 5) (v : W64) : (s.setG r v).slices = s.slices := by unfold setG; split; rfl; exact setCpuOf_slices s _ _
@[simp] theorem setG_ctrls (r : BitVec 5) (v : W64) : (s.setG r v).ctrls = s.ctrls := by unfold setG; split; rfl; exact setCpuOf_ctrls s _ _
@[simp] theorem setG_checkpoint (r : BitVec 5) (v : W64) : (s.setG r v).checkpoint = s.checkpoint := by unfold setG; split; rfl; exact setCpuOf_checkpoint s _ _
@[simp] theorem setG_ckptReports (r : BitVec 5) (v : W64) : (s.setG r v).ckptReports = s.ckptReports := by unfold setG; split; rfl; exact setCpuOf_ckptReports s _ _
@[simp] theorem setG_ports (r : BitVec 5) (v : W64) : (s.setG r v).ports = s.ports := by unfold setG; split; rfl; exact setCpuOf_ports s _ _
@[simp] theorem setG_portReply (r : BitVec 5) (v : W64) : (s.setG r v).portReply = s.portReply := by unfold setG; split; rfl; exact setCpuOf_portReply s _ _
@[simp] theorem setG_fwDigest (r : BitVec 5) (v : W64) : (s.setG r v).fwDigest = s.fwDigest := by unfold setG; split; rfl; exact setCpuOf_fwDigest s _ _

/-! ## setP -/

@[simp] theorem setP_agenda (r : BitVec 3) (v : Bool) : (s.setP r v).agenda = s.agenda := by unfold setP; split; rfl; exact setCpuOf_agenda s _ _
@[simp] theorem setP_moment (r : BitVec 3) (v : Bool) : (s.setP r v).moment = s.moment := by unfold setP; split; rfl; exact setCpuOf_moment s _ _
@[simp] theorem setP_cur (r : BitVec 3) (v : Bool) : (s.setP r v).cur = s.cur := by unfold setP; split; rfl; exact setCpuOf_cur s _ _
@[simp] theorem setP_unit (r : BitVec 3) (v : Bool) : (s.setP r v).unit = s.unit := by unfold setP; split; rfl; exact setCpuOf_unit s _ _
@[simp] theorem setP_mem (r : BitVec 3) (v : Bool) : (s.setP r v).mem = s.mem := by unfold setP; split; rfl; exact setCpuOf_mem s _ _
@[simp] theorem setP_flaws (r : BitVec 3) (v : Bool) : (s.setP r v).flaws = s.flaws := by unfold setP; split; rfl; exact setCpuOf_flaws s _ _
@[simp] theorem setP_full (r : BitVec 3) (v : Bool) : (s.setP r v).full = s.full := by unfold setP; split; rfl; exact setCpuOf_full s _ _
@[simp] theorem setP_tags (r : BitVec 3) (v : Bool) : (s.setP r v).tags = s.tags := by unfold setP; split; rfl; exact setCpuOf_tags s _ _
@[simp] theorem setP_seqs (r : BitVec 3) (v : Bool) : (s.setP r v).seqs = s.seqs := by unfold setP; split; rfl; exact setCpuOf_seqs s _ _
@[simp] theorem setP_stamp (r : BitVec 3) (v : Bool) : (s.setP r v).stamp = s.stamp := by unfold setP; split; rfl; exact setCpuOf_stamp s _ _
@[simp] theorem setP_know (r : BitVec 3) (v : Bool) : (s.setP r v).know = s.know := by unfold setP; split; rfl; exact setCpuOf_know s _ _
@[simp] theorem setP_sync (r : BitVec 3) (v : Bool) : (s.setP r v).sync = s.sync := by unfold setP; split; rfl; exact setCpuOf_sync s _ _
@[simp] theorem setP_seen (r : BitVec 3) (v : Bool) : (s.setP r v).seen = s.seen := by unfold setP; split; rfl; exact setCpuOf_seen s _ _
@[simp] theorem setP_fences (r : BitVec 3) (v : Bool) : (s.setP r v).fences = s.fences := by unfold setP; split; rfl; exact setCpuOf_fences s _ _
@[simp] theorem setP_releases (r : BitVec 3) (v : Bool) : (s.setP r v).releases = s.releases := by unfold setP; split; rfl; exact setCpuOf_releases s _ _
@[simp] theorem setP_nextItem (r : BitVec 3) (v : Bool) : (s.setP r v).nextItem = s.nextItem := by unfold setP; split; rfl; exact setCpuOf_nextItem s _ _
@[simp] theorem setP_tlb (r : BitVec 3) (v : Bool) : (s.setP r v).tlb = s.tlb := by unfold setP; split; rfl; exact setCpuOf_tlb s _ _
@[simp] theorem setP_walkCache (r : BitVec 3) (v : Bool) : (s.setP r v).walkCache = s.walkCache := by unfold setP; split; rfl; exact setCpuOf_walkCache s _ _
@[simp] theorem setP_walks (r : BitVec 3) (v : Bool) : (s.setP r v).walks = s.walks := by unfold setP; split; rfl; exact setCpuOf_walks s _ _
@[simp] theorem setP_lines (r : BitVec 3) (v : Bool) : (s.setP r v).lines = s.lines := by unfold setP; split; rfl; exact setCpuOf_lines s _ _
@[simp] theorem setP_plru (r : BitVec 3) (v : Bool) : (s.setP r v).plru = s.plru := by unfold setP; split; rfl; exact setCpuOf_plru s _ _
@[simp] theorem setP_events (r : BitVec 3) (v : Bool) : (s.setP r v).events = s.events := by unfold setP; split; rfl; exact setCpuOf_events s _ _
@[simp] theorem setP_fbcStores (r : BitVec 3) (v : Bool) : (s.setP r v).fbcStores = s.fbcStores := by unfold setP; split; rfl; exact setCpuOf_fbcStores s _ _
@[simp] theorem setP_held (r : BitVec 3) (v : Bool) : (s.setP r v).held = s.held := by unfold setP; split; rfl; exact setCpuOf_held s _ _
@[simp] theorem setP_feQueue (r : BitVec 3) (v : Bool) : (s.setP r v).feQueue = s.feQueue := by unfold setP; split; rfl; exact setCpuOf_feQueue s _ _
@[simp] theorem setP_ticketNext (r : BitVec 3) (v : Bool) : (s.setP r v).ticketNext = s.ticketNext := by unfold setP; split; rfl; exact setCpuOf_ticketNext s _ _
@[simp] theorem setP_tickets (r : BitVec 3) (v : Bool) : (s.setP r v).tickets = s.tickets := by unfold setP; split; rfl; exact setCpuOf_tickets s _ _
@[simp] theorem setP_tides (r : BitVec 3) (v : Bool) : (s.setP r v).tides = s.tides := by unfold setP; split; rfl; exact setCpuOf_tides s _ _
@[simp] theorem setP_arrays (r : BitVec 3) (v : Bool) : (s.setP r v).arrays = s.arrays := by unfold setP; split; rfl; exact setCpuOf_arrays s _ _
@[simp] theorem setP_regions (r : BitVec 3) (v : Bool) : (s.setP r v).regions = s.regions := by unfold setP; split; rfl; exact setCpuOf_regions s _ _
@[simp] theorem setP_parts (r : BitVec 3) (v : Bool) : (s.setP r v).parts = s.parts := by unfold setP; split; rfl; exact setCpuOf_parts s _ _
@[simp] theorem setP_superRoot (r : BitVec 3) (v : Bool) : (s.setP r v).superRoot = s.superRoot := by unfold setP; split; rfl; exact setCpuOf_superRoot s _ _
@[simp] theorem setP_windows (r : BitVec 3) (v : Bool) : (s.setP r v).windows = s.windows := by unfold setP; split; rfl; exact setCpuOf_windows s _ _
@[simp] theorem setP_actions (r : BitVec 3) (v : Bool) : (s.setP r v).actions = s.actions := by unfold setP; split; rfl; exact setCpuOf_actions s _ _
@[simp] theorem setP_launchQueue (r : BitVec 3) (v : Bool) : (s.setP r v).launchQueue = s.launchQueue := by unfold setP; split; rfl; exact setCpuOf_launchQueue s _ _
@[simp] theorem setP_launches (r : BitVec 3) (v : Bool) : (s.setP r v).launches = s.launches := by unfold setP; split; rfl; exact setCpuOf_launches s _ _
@[simp] theorem setP_pool (r : BitVec 3) (v : Bool) : (s.setP r v).pool = s.pool := by unfold setP; split; rfl; exact setCpuOf_pool s _ _
@[simp] theorem setP_readySessions (r : BitVec 3) (v : Bool) : (s.setP r v).readySessions = s.readySessions := by unfold setP; split; rfl; exact setCpuOf_readySessions s _ _
@[simp] theorem setP_steps (r : BitVec 3) (v : Bool) : (s.setP r v).steps = s.steps := by unfold setP; split; rfl; exact setCpuOf_steps s _ _
@[simp] theorem setP_barriers (r : BitVec 3) (v : Bool) : (s.setP r v).barriers = s.barriers := by unfold setP; split; rfl; exact setCpuOf_barriers s _ _
@[simp] theorem setP_steals (r : BitVec 3) (v : Bool) : (s.setP r v).steals = s.steals := by unfold setP; split; rfl; exact setCpuOf_steals s _ _
@[simp] theorem setP_saved (r : BitVec 3) (v : Bool) : (s.setP r v).saved = s.saved := by unfold setP; split; rfl; exact setCpuOf_saved s _ _
@[simp] theorem setP_quiesced (r : BitVec 3) (v : Bool) : (s.setP r v).quiesced = s.quiesced := by unfold setP; split; rfl; exact setCpuOf_quiesced s _ _
@[simp] theorem setP_saving (r : BitVec 3) (v : Bool) : (s.setP r v).saving = s.saving := by unfold setP; split; rfl; exact setCpuOf_saving s _ _
@[simp] theorem setP_openSlots (r : BitVec 3) (v : Bool) : (s.setP r v).openSlots = s.openSlots := by unfold setP; split; rfl; exact setCpuOf_openSlots s _ _
@[simp] theorem setP_arrivals (r : BitVec 3) (v : Bool) : (s.setP r v).arrivals = s.arrivals := by unfold setP; split; rfl; exact setCpuOf_arrivals s _ _
@[simp] theorem setP_pins (r : BitVec 3) (v : Bool) : (s.setP r v).pins = s.pins := by unfold setP; split; rfl; exact setCpuOf_pins s _ _
@[simp] theorem setP_us (r : BitVec 3) (v : Bool) : (s.setP r v).us = s.us := by unfold setP; split; rfl; exact setCpuOf_us s _ _
@[simp] theorem setP_regulators (r : BitVec 3) (v : Bool) : (s.setP r v).regulators = s.regulators := by unfold setP; split; rfl; exact setCpuOf_regulators s _ _
@[simp] theorem setP_requests (r : BitVec 3) (v : Bool) : (s.setP r v).requests = s.requests := by unfold setP; split; rfl; exact setCpuOf_requests s _ _
@[simp] theorem setP_bwsel (r : BitVec 3) (v : Bool) : (s.setP r v).bwsel = s.bwsel := by unfold setP; split; rfl; exact setCpuOf_bwsel s _ _
@[simp] theorem setP_forecast (r : BitVec 3) (v : Bool) : (s.setP r v).forecast = s.forecast := by unfold setP; split; rfl; exact setCpuOf_forecast s _ _
@[simp] theorem setP_alarm (r : BitVec 3) (v : Bool) : (s.setP r v).alarm = s.alarm := by unfold setP; split; rfl; exact setCpuOf_alarm s _ _
@[simp] theorem setP_pfMailbox (r : BitVec 3) (v : Bool) : (s.setP r v).pfMailbox = s.pfMailbox := by unfold setP; split; rfl; exact setCpuOf_pfMailbox s _ _
@[simp] theorem setP_hostLink (r : BitVec 3) (v : Bool) : (s.setP r v).hostLink = s.hostLink := by unfold setP; split; rfl; exact setCpuOf_hostLink s _ _
@[simp] theorem setP_peerLink (r : BitVec 3) (v : Bool) : (s.setP r v).peerLink = s.peerLink := by unfold setP; split; rfl; exact setCpuOf_peerLink s _ _
@[simp] theorem setP_dieLink (r : BitVec 3) (v : Bool) : (s.setP r v).dieLink = s.dieLink := by unfold setP; split; rfl; exact setCpuOf_dieLink s _ _
@[simp] theorem setP_dieLost (r : BitVec 3) (v : Bool) : (s.setP r v).dieLost = s.dieLost := by unfold setP; split; rfl; exact setCpuOf_dieLost s _ _
@[simp] theorem setP_channels (r : BitVec 3) (v : Bool) : (s.setP r v).channels = s.channels := by unfold setP; split; rfl; exact setCpuOf_channels s _ _
@[simp] theorem setP_peers (r : BitVec 3) (v : Bool) : (s.setP r v).peers = s.peers := by unfold setP; split; rfl; exact setCpuOf_peers s _ _
@[simp] theorem setP_pfEvents (r : BitVec 3) (v : Bool) : (s.setP r v).pfEvents = s.pfEvents := by unfold setP; split; rfl; exact setCpuOf_pfEvents s _ _
@[simp] theorem setP_boot (r : BitVec 3) (v : Bool) : (s.setP r v).boot = s.boot := by unfold setP; split; rfl; exact setCpuOf_boot s _ _
@[simp] theorem setP_slices (r : BitVec 3) (v : Bool) : (s.setP r v).slices = s.slices := by unfold setP; split; rfl; exact setCpuOf_slices s _ _
@[simp] theorem setP_ctrls (r : BitVec 3) (v : Bool) : (s.setP r v).ctrls = s.ctrls := by unfold setP; split; rfl; exact setCpuOf_ctrls s _ _
@[simp] theorem setP_checkpoint (r : BitVec 3) (v : Bool) : (s.setP r v).checkpoint = s.checkpoint := by unfold setP; split; rfl; exact setCpuOf_checkpoint s _ _
@[simp] theorem setP_ckptReports (r : BitVec 3) (v : Bool) : (s.setP r v).ckptReports = s.ckptReports := by unfold setP; split; rfl; exact setCpuOf_ckptReports s _ _
@[simp] theorem setP_ports (r : BitVec 3) (v : Bool) : (s.setP r v).ports = s.ports := by unfold setP; split; rfl; exact setCpuOf_ports s _ _
@[simp] theorem setP_portReply (r : BitVec 3) (v : Bool) : (s.setP r v).portReply = s.portReply := by unfold setP; split; rfl; exact setCpuOf_portReply s _ _
@[simp] theorem setP_fwDigest (r : BitVec 3) (v : Bool) : (s.setP r v).fwDigest = s.fwDigest := by unfold setP; split; rfl; exact setCpuOf_fwDigest s _ _

/-! ## setGPair -/

@[simp] theorem setGPair_agenda (r : BitVec 5) (v : BitVec 128) : (s.setGPair r v).agenda = s.agenda := by simp [setGPair]
@[simp] theorem setGPair_moment (r : BitVec 5) (v : BitVec 128) : (s.setGPair r v).moment = s.moment := by simp [setGPair]
@[simp] theorem setGPair_cur (r : BitVec 5) (v : BitVec 128) : (s.setGPair r v).cur = s.cur := by simp [setGPair]
@[simp] theorem setGPair_unit (r : BitVec 5) (v : BitVec 128) : (s.setGPair r v).unit = s.unit := by simp [setGPair]
@[simp] theorem setGPair_mem (r : BitVec 5) (v : BitVec 128) : (s.setGPair r v).mem = s.mem := by simp [setGPair]
@[simp] theorem setGPair_flaws (r : BitVec 5) (v : BitVec 128) : (s.setGPair r v).flaws = s.flaws := by simp [setGPair]
@[simp] theorem setGPair_full (r : BitVec 5) (v : BitVec 128) : (s.setGPair r v).full = s.full := by simp [setGPair]
@[simp] theorem setGPair_tags (r : BitVec 5) (v : BitVec 128) : (s.setGPair r v).tags = s.tags := by simp [setGPair]
@[simp] theorem setGPair_seqs (r : BitVec 5) (v : BitVec 128) : (s.setGPair r v).seqs = s.seqs := by simp [setGPair]
@[simp] theorem setGPair_stamp (r : BitVec 5) (v : BitVec 128) : (s.setGPair r v).stamp = s.stamp := by simp [setGPair]
@[simp] theorem setGPair_know (r : BitVec 5) (v : BitVec 128) : (s.setGPair r v).know = s.know := by simp [setGPair]
@[simp] theorem setGPair_sync (r : BitVec 5) (v : BitVec 128) : (s.setGPair r v).sync = s.sync := by simp [setGPair]
@[simp] theorem setGPair_seen (r : BitVec 5) (v : BitVec 128) : (s.setGPair r v).seen = s.seen := by simp [setGPair]
@[simp] theorem setGPair_fences (r : BitVec 5) (v : BitVec 128) : (s.setGPair r v).fences = s.fences := by simp [setGPair]
@[simp] theorem setGPair_releases (r : BitVec 5) (v : BitVec 128) : (s.setGPair r v).releases = s.releases := by simp [setGPair]
@[simp] theorem setGPair_nextItem (r : BitVec 5) (v : BitVec 128) : (s.setGPair r v).nextItem = s.nextItem := by simp [setGPair]
@[simp] theorem setGPair_tlb (r : BitVec 5) (v : BitVec 128) : (s.setGPair r v).tlb = s.tlb := by simp [setGPair]
@[simp] theorem setGPair_walkCache (r : BitVec 5) (v : BitVec 128) : (s.setGPair r v).walkCache = s.walkCache := by simp [setGPair]
@[simp] theorem setGPair_walks (r : BitVec 5) (v : BitVec 128) : (s.setGPair r v).walks = s.walks := by simp [setGPair]
@[simp] theorem setGPair_lines (r : BitVec 5) (v : BitVec 128) : (s.setGPair r v).lines = s.lines := by simp [setGPair]
@[simp] theorem setGPair_plru (r : BitVec 5) (v : BitVec 128) : (s.setGPair r v).plru = s.plru := by simp [setGPair]
@[simp] theorem setGPair_events (r : BitVec 5) (v : BitVec 128) : (s.setGPair r v).events = s.events := by simp [setGPair]
@[simp] theorem setGPair_fbcStores (r : BitVec 5) (v : BitVec 128) : (s.setGPair r v).fbcStores = s.fbcStores := by simp [setGPair]
@[simp] theorem setGPair_held (r : BitVec 5) (v : BitVec 128) : (s.setGPair r v).held = s.held := by simp [setGPair]
@[simp] theorem setGPair_feQueue (r : BitVec 5) (v : BitVec 128) : (s.setGPair r v).feQueue = s.feQueue := by simp [setGPair]
@[simp] theorem setGPair_ticketNext (r : BitVec 5) (v : BitVec 128) : (s.setGPair r v).ticketNext = s.ticketNext := by simp [setGPair]
@[simp] theorem setGPair_tickets (r : BitVec 5) (v : BitVec 128) : (s.setGPair r v).tickets = s.tickets := by simp [setGPair]
@[simp] theorem setGPair_tides (r : BitVec 5) (v : BitVec 128) : (s.setGPair r v).tides = s.tides := by simp [setGPair]
@[simp] theorem setGPair_arrays (r : BitVec 5) (v : BitVec 128) : (s.setGPair r v).arrays = s.arrays := by simp [setGPair]
@[simp] theorem setGPair_regions (r : BitVec 5) (v : BitVec 128) : (s.setGPair r v).regions = s.regions := by simp [setGPair]
@[simp] theorem setGPair_parts (r : BitVec 5) (v : BitVec 128) : (s.setGPair r v).parts = s.parts := by simp [setGPair]
@[simp] theorem setGPair_superRoot (r : BitVec 5) (v : BitVec 128) : (s.setGPair r v).superRoot = s.superRoot := by simp [setGPair]
@[simp] theorem setGPair_windows (r : BitVec 5) (v : BitVec 128) : (s.setGPair r v).windows = s.windows := by simp [setGPair]
@[simp] theorem setGPair_actions (r : BitVec 5) (v : BitVec 128) : (s.setGPair r v).actions = s.actions := by simp [setGPair]
@[simp] theorem setGPair_launchQueue (r : BitVec 5) (v : BitVec 128) : (s.setGPair r v).launchQueue = s.launchQueue := by simp [setGPair]
@[simp] theorem setGPair_launches (r : BitVec 5) (v : BitVec 128) : (s.setGPair r v).launches = s.launches := by simp [setGPair]
@[simp] theorem setGPair_pool (r : BitVec 5) (v : BitVec 128) : (s.setGPair r v).pool = s.pool := by simp [setGPair]
@[simp] theorem setGPair_readySessions (r : BitVec 5) (v : BitVec 128) : (s.setGPair r v).readySessions = s.readySessions := by simp [setGPair]
@[simp] theorem setGPair_steps (r : BitVec 5) (v : BitVec 128) : (s.setGPair r v).steps = s.steps := by simp [setGPair]
@[simp] theorem setGPair_barriers (r : BitVec 5) (v : BitVec 128) : (s.setGPair r v).barriers = s.barriers := by simp [setGPair]
@[simp] theorem setGPair_steals (r : BitVec 5) (v : BitVec 128) : (s.setGPair r v).steals = s.steals := by simp [setGPair]
@[simp] theorem setGPair_saved (r : BitVec 5) (v : BitVec 128) : (s.setGPair r v).saved = s.saved := by simp [setGPair]
@[simp] theorem setGPair_quiesced (r : BitVec 5) (v : BitVec 128) : (s.setGPair r v).quiesced = s.quiesced := by simp [setGPair]
@[simp] theorem setGPair_saving (r : BitVec 5) (v : BitVec 128) : (s.setGPair r v).saving = s.saving := by simp [setGPair]
@[simp] theorem setGPair_openSlots (r : BitVec 5) (v : BitVec 128) : (s.setGPair r v).openSlots = s.openSlots := by simp [setGPair]
@[simp] theorem setGPair_arrivals (r : BitVec 5) (v : BitVec 128) : (s.setGPair r v).arrivals = s.arrivals := by simp [setGPair]
@[simp] theorem setGPair_pins (r : BitVec 5) (v : BitVec 128) : (s.setGPair r v).pins = s.pins := by simp [setGPair]
@[simp] theorem setGPair_us (r : BitVec 5) (v : BitVec 128) : (s.setGPair r v).us = s.us := by simp [setGPair]
@[simp] theorem setGPair_regulators (r : BitVec 5) (v : BitVec 128) : (s.setGPair r v).regulators = s.regulators := by simp [setGPair]
@[simp] theorem setGPair_requests (r : BitVec 5) (v : BitVec 128) : (s.setGPair r v).requests = s.requests := by simp [setGPair]
@[simp] theorem setGPair_bwsel (r : BitVec 5) (v : BitVec 128) : (s.setGPair r v).bwsel = s.bwsel := by simp [setGPair]
@[simp] theorem setGPair_forecast (r : BitVec 5) (v : BitVec 128) : (s.setGPair r v).forecast = s.forecast := by simp [setGPair]
@[simp] theorem setGPair_alarm (r : BitVec 5) (v : BitVec 128) : (s.setGPair r v).alarm = s.alarm := by simp [setGPair]
@[simp] theorem setGPair_pfMailbox (r : BitVec 5) (v : BitVec 128) : (s.setGPair r v).pfMailbox = s.pfMailbox := by simp [setGPair]
@[simp] theorem setGPair_hostLink (r : BitVec 5) (v : BitVec 128) : (s.setGPair r v).hostLink = s.hostLink := by simp [setGPair]
@[simp] theorem setGPair_peerLink (r : BitVec 5) (v : BitVec 128) : (s.setGPair r v).peerLink = s.peerLink := by simp [setGPair]
@[simp] theorem setGPair_dieLink (r : BitVec 5) (v : BitVec 128) : (s.setGPair r v).dieLink = s.dieLink := by simp [setGPair]
@[simp] theorem setGPair_dieLost (r : BitVec 5) (v : BitVec 128) : (s.setGPair r v).dieLost = s.dieLost := by simp [setGPair]
@[simp] theorem setGPair_channels (r : BitVec 5) (v : BitVec 128) : (s.setGPair r v).channels = s.channels := by simp [setGPair]
@[simp] theorem setGPair_peers (r : BitVec 5) (v : BitVec 128) : (s.setGPair r v).peers = s.peers := by simp [setGPair]
@[simp] theorem setGPair_pfEvents (r : BitVec 5) (v : BitVec 128) : (s.setGPair r v).pfEvents = s.pfEvents := by simp [setGPair]
@[simp] theorem setGPair_boot (r : BitVec 5) (v : BitVec 128) : (s.setGPair r v).boot = s.boot := by simp [setGPair]
@[simp] theorem setGPair_slices (r : BitVec 5) (v : BitVec 128) : (s.setGPair r v).slices = s.slices := by simp [setGPair]
@[simp] theorem setGPair_ctrls (r : BitVec 5) (v : BitVec 128) : (s.setGPair r v).ctrls = s.ctrls := by simp [setGPair]
@[simp] theorem setGPair_checkpoint (r : BitVec 5) (v : BitVec 128) : (s.setGPair r v).checkpoint = s.checkpoint := by simp [setGPair]
@[simp] theorem setGPair_ckptReports (r : BitVec 5) (v : BitVec 128) : (s.setGPair r v).ckptReports = s.ckptReports := by simp [setGPair]
@[simp] theorem setGPair_ports (r : BitVec 5) (v : BitVec 128) : (s.setGPair r v).ports = s.ports := by simp [setGPair]
@[simp] theorem setGPair_portReply (r : BitVec 5) (v : BitVec 128) : (s.setGPair r v).portReply = s.portReply := by simp [setGPair]
@[simp] theorem setGPair_fwDigest (r : BitVec 5) (v : BitVec 128) : (s.setGPair r v).fwDigest = s.fwDigest := by simp [setGPair]

/-! ## setBytes -/

@[simp] theorem setBytes_agenda (a : Nat) (bs : List Byte) : (s.setBytes a bs).agenda = s.agenda := rfl
@[simp] theorem setBytes_moment (a : Nat) (bs : List Byte) : (s.setBytes a bs).moment = s.moment := rfl
@[simp] theorem setBytes_cur (a : Nat) (bs : List Byte) : (s.setBytes a bs).cur = s.cur := rfl
@[simp] theorem setBytes_unit (a : Nat) (bs : List Byte) : (s.setBytes a bs).unit = s.unit := rfl
@[simp] theorem setBytes_cores (a : Nat) (bs : List Byte) : (s.setBytes a bs).cores = s.cores := rfl
@[simp] theorem setBytes_sys (a : Nat) (bs : List Byte) : (s.setBytes a bs).sys = s.sys := rfl
@[simp] theorem setBytes_full (a : Nat) (bs : List Byte) : (s.setBytes a bs).full = s.full := rfl
@[simp] theorem setBytes_tags (a : Nat) (bs : List Byte) : (s.setBytes a bs).tags = s.tags := rfl
@[simp] theorem setBytes_seqs (a : Nat) (bs : List Byte) : (s.setBytes a bs).seqs = s.seqs := rfl
@[simp] theorem setBytes_stamp (a : Nat) (bs : List Byte) : (s.setBytes a bs).stamp = s.stamp := rfl
@[simp] theorem setBytes_know (a : Nat) (bs : List Byte) : (s.setBytes a bs).know = s.know := rfl
@[simp] theorem setBytes_sync (a : Nat) (bs : List Byte) : (s.setBytes a bs).sync = s.sync := rfl
@[simp] theorem setBytes_seen (a : Nat) (bs : List Byte) : (s.setBytes a bs).seen = s.seen := rfl
@[simp] theorem setBytes_fences (a : Nat) (bs : List Byte) : (s.setBytes a bs).fences = s.fences := rfl
@[simp] theorem setBytes_releases (a : Nat) (bs : List Byte) : (s.setBytes a bs).releases = s.releases := rfl
@[simp] theorem setBytes_nextItem (a : Nat) (bs : List Byte) : (s.setBytes a bs).nextItem = s.nextItem := rfl
@[simp] theorem setBytes_tlb (a : Nat) (bs : List Byte) : (s.setBytes a bs).tlb = s.tlb := rfl
@[simp] theorem setBytes_walkCache (a : Nat) (bs : List Byte) : (s.setBytes a bs).walkCache = s.walkCache := rfl
@[simp] theorem setBytes_walks (a : Nat) (bs : List Byte) : (s.setBytes a bs).walks = s.walks := rfl
@[simp] theorem setBytes_lines (a : Nat) (bs : List Byte) : (s.setBytes a bs).lines = s.lines := rfl
@[simp] theorem setBytes_plru (a : Nat) (bs : List Byte) : (s.setBytes a bs).plru = s.plru := rfl
@[simp] theorem setBytes_events (a : Nat) (bs : List Byte) : (s.setBytes a bs).events = s.events := rfl
@[simp] theorem setBytes_fbcStores (a : Nat) (bs : List Byte) : (s.setBytes a bs).fbcStores = s.fbcStores := rfl
@[simp] theorem setBytes_held (a : Nat) (bs : List Byte) : (s.setBytes a bs).held = s.held := rfl
@[simp] theorem setBytes_feQueue (a : Nat) (bs : List Byte) : (s.setBytes a bs).feQueue = s.feQueue := rfl
@[simp] theorem setBytes_ticketNext (a : Nat) (bs : List Byte) : (s.setBytes a bs).ticketNext = s.ticketNext := rfl
@[simp] theorem setBytes_tickets (a : Nat) (bs : List Byte) : (s.setBytes a bs).tickets = s.tickets := rfl
@[simp] theorem setBytes_tides (a : Nat) (bs : List Byte) : (s.setBytes a bs).tides = s.tides := rfl
@[simp] theorem setBytes_arrays (a : Nat) (bs : List Byte) : (s.setBytes a bs).arrays = s.arrays := rfl
@[simp] theorem setBytes_regions (a : Nat) (bs : List Byte) : (s.setBytes a bs).regions = s.regions := rfl
@[simp] theorem setBytes_parts (a : Nat) (bs : List Byte) : (s.setBytes a bs).parts = s.parts := rfl
@[simp] theorem setBytes_superRoot (a : Nat) (bs : List Byte) : (s.setBytes a bs).superRoot = s.superRoot := rfl
@[simp] theorem setBytes_windows (a : Nat) (bs : List Byte) : (s.setBytes a bs).windows = s.windows := rfl
@[simp] theorem setBytes_actions (a : Nat) (bs : List Byte) : (s.setBytes a bs).actions = s.actions := rfl
@[simp] theorem setBytes_launchQueue (a : Nat) (bs : List Byte) : (s.setBytes a bs).launchQueue = s.launchQueue := rfl
@[simp] theorem setBytes_launches (a : Nat) (bs : List Byte) : (s.setBytes a bs).launches = s.launches := rfl
@[simp] theorem setBytes_pool (a : Nat) (bs : List Byte) : (s.setBytes a bs).pool = s.pool := rfl
@[simp] theorem setBytes_readySessions (a : Nat) (bs : List Byte) : (s.setBytes a bs).readySessions = s.readySessions := rfl
@[simp] theorem setBytes_steps (a : Nat) (bs : List Byte) : (s.setBytes a bs).steps = s.steps := rfl
@[simp] theorem setBytes_barriers (a : Nat) (bs : List Byte) : (s.setBytes a bs).barriers = s.barriers := rfl
@[simp] theorem setBytes_steals (a : Nat) (bs : List Byte) : (s.setBytes a bs).steals = s.steals := rfl
@[simp] theorem setBytes_saved (a : Nat) (bs : List Byte) : (s.setBytes a bs).saved = s.saved := rfl
@[simp] theorem setBytes_quiesced (a : Nat) (bs : List Byte) : (s.setBytes a bs).quiesced = s.quiesced := rfl
@[simp] theorem setBytes_saving (a : Nat) (bs : List Byte) : (s.setBytes a bs).saving = s.saving := rfl
@[simp] theorem setBytes_openSlots (a : Nat) (bs : List Byte) : (s.setBytes a bs).openSlots = s.openSlots := rfl
@[simp] theorem setBytes_arrivals (a : Nat) (bs : List Byte) : (s.setBytes a bs).arrivals = s.arrivals := rfl
@[simp] theorem setBytes_pins (a : Nat) (bs : List Byte) : (s.setBytes a bs).pins = s.pins := rfl
@[simp] theorem setBytes_us (a : Nat) (bs : List Byte) : (s.setBytes a bs).us = s.us := rfl
@[simp] theorem setBytes_regulators (a : Nat) (bs : List Byte) : (s.setBytes a bs).regulators = s.regulators := rfl
@[simp] theorem setBytes_requests (a : Nat) (bs : List Byte) : (s.setBytes a bs).requests = s.requests := rfl
@[simp] theorem setBytes_bwsel (a : Nat) (bs : List Byte) : (s.setBytes a bs).bwsel = s.bwsel := rfl
@[simp] theorem setBytes_forecast (a : Nat) (bs : List Byte) : (s.setBytes a bs).forecast = s.forecast := rfl
@[simp] theorem setBytes_alarm (a : Nat) (bs : List Byte) : (s.setBytes a bs).alarm = s.alarm := rfl
@[simp] theorem setBytes_pfMailbox (a : Nat) (bs : List Byte) : (s.setBytes a bs).pfMailbox = s.pfMailbox := rfl
@[simp] theorem setBytes_hostLink (a : Nat) (bs : List Byte) : (s.setBytes a bs).hostLink = s.hostLink := rfl
@[simp] theorem setBytes_peerLink (a : Nat) (bs : List Byte) : (s.setBytes a bs).peerLink = s.peerLink := rfl
@[simp] theorem setBytes_dieLink (a : Nat) (bs : List Byte) : (s.setBytes a bs).dieLink = s.dieLink := rfl
@[simp] theorem setBytes_dieLost (a : Nat) (bs : List Byte) : (s.setBytes a bs).dieLost = s.dieLost := rfl
@[simp] theorem setBytes_channels (a : Nat) (bs : List Byte) : (s.setBytes a bs).channels = s.channels := rfl
@[simp] theorem setBytes_peers (a : Nat) (bs : List Byte) : (s.setBytes a bs).peers = s.peers := rfl
@[simp] theorem setBytes_pfEvents (a : Nat) (bs : List Byte) : (s.setBytes a bs).pfEvents = s.pfEvents := rfl
@[simp] theorem setBytes_boot (a : Nat) (bs : List Byte) : (s.setBytes a bs).boot = s.boot := rfl
@[simp] theorem setBytes_slices (a : Nat) (bs : List Byte) : (s.setBytes a bs).slices = s.slices := rfl
@[simp] theorem setBytes_ctrls (a : Nat) (bs : List Byte) : (s.setBytes a bs).ctrls = s.ctrls := rfl
@[simp] theorem setBytes_checkpoint (a : Nat) (bs : List Byte) : (s.setBytes a bs).checkpoint = s.checkpoint := rfl
@[simp] theorem setBytes_ckptReports (a : Nat) (bs : List Byte) : (s.setBytes a bs).ckptReports = s.ckptReports := rfl
@[simp] theorem setBytes_ports (a : Nat) (bs : List Byte) : (s.setBytes a bs).ports = s.ports := rfl
@[simp] theorem setBytes_portReply (a : Nat) (bs : List Byte) : (s.setBytes a bs).portReply = s.portReply := rfl
@[simp] theorem setBytes_fwDigest (a : Nat) (bs : List Byte) : (s.setBytes a bs).fwDigest = s.fwDigest := rfl

/-! ## setFull -/

@[simp] theorem setFull_agenda (a : Nat) (v : Bool) : (s.setFull a v).agenda = s.agenda := rfl
@[simp] theorem setFull_moment (a : Nat) (v : Bool) : (s.setFull a v).moment = s.moment := rfl
@[simp] theorem setFull_cur (a : Nat) (v : Bool) : (s.setFull a v).cur = s.cur := rfl
@[simp] theorem setFull_unit (a : Nat) (v : Bool) : (s.setFull a v).unit = s.unit := rfl
@[simp] theorem setFull_cores (a : Nat) (v : Bool) : (s.setFull a v).cores = s.cores := rfl
@[simp] theorem setFull_sys (a : Nat) (v : Bool) : (s.setFull a v).sys = s.sys := rfl
@[simp] theorem setFull_mem (a : Nat) (v : Bool) : (s.setFull a v).mem = s.mem := rfl
@[simp] theorem setFull_flaws (a : Nat) (v : Bool) : (s.setFull a v).flaws = s.flaws := rfl
@[simp] theorem setFull_tags (a : Nat) (v : Bool) : (s.setFull a v).tags = s.tags := rfl
@[simp] theorem setFull_seqs (a : Nat) (v : Bool) : (s.setFull a v).seqs = s.seqs := rfl
@[simp] theorem setFull_stamp (a : Nat) (v : Bool) : (s.setFull a v).stamp = s.stamp := rfl
@[simp] theorem setFull_know (a : Nat) (v : Bool) : (s.setFull a v).know = s.know := rfl
@[simp] theorem setFull_sync (a : Nat) (v : Bool) : (s.setFull a v).sync = s.sync := rfl
@[simp] theorem setFull_seen (a : Nat) (v : Bool) : (s.setFull a v).seen = s.seen := rfl
@[simp] theorem setFull_fences (a : Nat) (v : Bool) : (s.setFull a v).fences = s.fences := rfl
@[simp] theorem setFull_releases (a : Nat) (v : Bool) : (s.setFull a v).releases = s.releases := rfl
@[simp] theorem setFull_nextItem (a : Nat) (v : Bool) : (s.setFull a v).nextItem = s.nextItem := rfl
@[simp] theorem setFull_tlb (a : Nat) (v : Bool) : (s.setFull a v).tlb = s.tlb := rfl
@[simp] theorem setFull_walkCache (a : Nat) (v : Bool) : (s.setFull a v).walkCache = s.walkCache := rfl
@[simp] theorem setFull_walks (a : Nat) (v : Bool) : (s.setFull a v).walks = s.walks := rfl
@[simp] theorem setFull_lines (a : Nat) (v : Bool) : (s.setFull a v).lines = s.lines := rfl
@[simp] theorem setFull_plru (a : Nat) (v : Bool) : (s.setFull a v).plru = s.plru := rfl
@[simp] theorem setFull_events (a : Nat) (v : Bool) : (s.setFull a v).events = s.events := rfl
@[simp] theorem setFull_fbcStores (a : Nat) (v : Bool) : (s.setFull a v).fbcStores = s.fbcStores := rfl
@[simp] theorem setFull_held (a : Nat) (v : Bool) : (s.setFull a v).held = s.held := rfl
@[simp] theorem setFull_feQueue (a : Nat) (v : Bool) : (s.setFull a v).feQueue = s.feQueue := rfl
@[simp] theorem setFull_ticketNext (a : Nat) (v : Bool) : (s.setFull a v).ticketNext = s.ticketNext := rfl
@[simp] theorem setFull_tickets (a : Nat) (v : Bool) : (s.setFull a v).tickets = s.tickets := rfl
@[simp] theorem setFull_tides (a : Nat) (v : Bool) : (s.setFull a v).tides = s.tides := rfl
@[simp] theorem setFull_arrays (a : Nat) (v : Bool) : (s.setFull a v).arrays = s.arrays := rfl
@[simp] theorem setFull_regions (a : Nat) (v : Bool) : (s.setFull a v).regions = s.regions := rfl
@[simp] theorem setFull_parts (a : Nat) (v : Bool) : (s.setFull a v).parts = s.parts := rfl
@[simp] theorem setFull_superRoot (a : Nat) (v : Bool) : (s.setFull a v).superRoot = s.superRoot := rfl
@[simp] theorem setFull_windows (a : Nat) (v : Bool) : (s.setFull a v).windows = s.windows := rfl
@[simp] theorem setFull_actions (a : Nat) (v : Bool) : (s.setFull a v).actions = s.actions := rfl
@[simp] theorem setFull_launchQueue (a : Nat) (v : Bool) : (s.setFull a v).launchQueue = s.launchQueue := rfl
@[simp] theorem setFull_launches (a : Nat) (v : Bool) : (s.setFull a v).launches = s.launches := rfl
@[simp] theorem setFull_pool (a : Nat) (v : Bool) : (s.setFull a v).pool = s.pool := rfl
@[simp] theorem setFull_readySessions (a : Nat) (v : Bool) : (s.setFull a v).readySessions = s.readySessions := rfl
@[simp] theorem setFull_steps (a : Nat) (v : Bool) : (s.setFull a v).steps = s.steps := rfl
@[simp] theorem setFull_barriers (a : Nat) (v : Bool) : (s.setFull a v).barriers = s.barriers := rfl
@[simp] theorem setFull_steals (a : Nat) (v : Bool) : (s.setFull a v).steals = s.steals := rfl
@[simp] theorem setFull_saved (a : Nat) (v : Bool) : (s.setFull a v).saved = s.saved := rfl
@[simp] theorem setFull_quiesced (a : Nat) (v : Bool) : (s.setFull a v).quiesced = s.quiesced := rfl
@[simp] theorem setFull_saving (a : Nat) (v : Bool) : (s.setFull a v).saving = s.saving := rfl
@[simp] theorem setFull_openSlots (a : Nat) (v : Bool) : (s.setFull a v).openSlots = s.openSlots := rfl
@[simp] theorem setFull_arrivals (a : Nat) (v : Bool) : (s.setFull a v).arrivals = s.arrivals := rfl
@[simp] theorem setFull_pins (a : Nat) (v : Bool) : (s.setFull a v).pins = s.pins := rfl
@[simp] theorem setFull_us (a : Nat) (v : Bool) : (s.setFull a v).us = s.us := rfl
@[simp] theorem setFull_regulators (a : Nat) (v : Bool) : (s.setFull a v).regulators = s.regulators := rfl
@[simp] theorem setFull_requests (a : Nat) (v : Bool) : (s.setFull a v).requests = s.requests := rfl
@[simp] theorem setFull_bwsel (a : Nat) (v : Bool) : (s.setFull a v).bwsel = s.bwsel := rfl
@[simp] theorem setFull_forecast (a : Nat) (v : Bool) : (s.setFull a v).forecast = s.forecast := rfl
@[simp] theorem setFull_alarm (a : Nat) (v : Bool) : (s.setFull a v).alarm = s.alarm := rfl
@[simp] theorem setFull_pfMailbox (a : Nat) (v : Bool) : (s.setFull a v).pfMailbox = s.pfMailbox := rfl
@[simp] theorem setFull_hostLink (a : Nat) (v : Bool) : (s.setFull a v).hostLink = s.hostLink := rfl
@[simp] theorem setFull_peerLink (a : Nat) (v : Bool) : (s.setFull a v).peerLink = s.peerLink := rfl
@[simp] theorem setFull_dieLink (a : Nat) (v : Bool) : (s.setFull a v).dieLink = s.dieLink := rfl
@[simp] theorem setFull_dieLost (a : Nat) (v : Bool) : (s.setFull a v).dieLost = s.dieLost := rfl
@[simp] theorem setFull_channels (a : Nat) (v : Bool) : (s.setFull a v).channels = s.channels := rfl
@[simp] theorem setFull_peers (a : Nat) (v : Bool) : (s.setFull a v).peers = s.peers := rfl
@[simp] theorem setFull_pfEvents (a : Nat) (v : Bool) : (s.setFull a v).pfEvents = s.pfEvents := rfl
@[simp] theorem setFull_boot (a : Nat) (v : Bool) : (s.setFull a v).boot = s.boot := rfl
@[simp] theorem setFull_slices (a : Nat) (v : Bool) : (s.setFull a v).slices = s.slices := rfl
@[simp] theorem setFull_ctrls (a : Nat) (v : Bool) : (s.setFull a v).ctrls = s.ctrls := rfl
@[simp] theorem setFull_checkpoint (a : Nat) (v : Bool) : (s.setFull a v).checkpoint = s.checkpoint := rfl
@[simp] theorem setFull_ckptReports (a : Nat) (v : Bool) : (s.setFull a v).ckptReports = s.ckptReports := rfl
@[simp] theorem setFull_ports (a : Nat) (v : Bool) : (s.setFull a v).ports = s.ports := rfl
@[simp] theorem setFull_portReply (a : Nat) (v : Bool) : (s.setFull a v).portReply = s.portReply := rfl
@[simp] theorem setFull_fwDigest (a : Nat) (v : Bool) : (s.setFull a v).fwDigest = s.fwDigest := rfl

/-! ## learn -/

@[simp] theorem learn_agenda (a : AgentId) (k : Known) : (s.learn a k).agenda = s.agenda := rfl
@[simp] theorem learn_moment (a : AgentId) (k : Known) : (s.learn a k).moment = s.moment := rfl
@[simp] theorem learn_cur (a : AgentId) (k : Known) : (s.learn a k).cur = s.cur := rfl
@[simp] theorem learn_unit (a : AgentId) (k : Known) : (s.learn a k).unit = s.unit := rfl
@[simp] theorem learn_cores (a : AgentId) (k : Known) : (s.learn a k).cores = s.cores := rfl
@[simp] theorem learn_sys (a : AgentId) (k : Known) : (s.learn a k).sys = s.sys := rfl
@[simp] theorem learn_mem (a : AgentId) (k : Known) : (s.learn a k).mem = s.mem := rfl
@[simp] theorem learn_flaws (a : AgentId) (k : Known) : (s.learn a k).flaws = s.flaws := rfl
@[simp] theorem learn_full (a : AgentId) (k : Known) : (s.learn a k).full = s.full := rfl
@[simp] theorem learn_tags (a : AgentId) (k : Known) : (s.learn a k).tags = s.tags := rfl
@[simp] theorem learn_seqs (a : AgentId) (k : Known) : (s.learn a k).seqs = s.seqs := rfl
@[simp] theorem learn_stamp (a : AgentId) (k : Known) : (s.learn a k).stamp = s.stamp := rfl
@[simp] theorem learn_sync (a : AgentId) (k : Known) : (s.learn a k).sync = s.sync := rfl
@[simp] theorem learn_seen (a : AgentId) (k : Known) : (s.learn a k).seen = s.seen := rfl
@[simp] theorem learn_fences (a : AgentId) (k : Known) : (s.learn a k).fences = s.fences := rfl
@[simp] theorem learn_releases (a : AgentId) (k : Known) : (s.learn a k).releases = s.releases := rfl
@[simp] theorem learn_nextItem (a : AgentId) (k : Known) : (s.learn a k).nextItem = s.nextItem := rfl
@[simp] theorem learn_tlb (a : AgentId) (k : Known) : (s.learn a k).tlb = s.tlb := rfl
@[simp] theorem learn_walkCache (a : AgentId) (k : Known) : (s.learn a k).walkCache = s.walkCache := rfl
@[simp] theorem learn_walks (a : AgentId) (k : Known) : (s.learn a k).walks = s.walks := rfl
@[simp] theorem learn_lines (a : AgentId) (k : Known) : (s.learn a k).lines = s.lines := rfl
@[simp] theorem learn_plru (a : AgentId) (k : Known) : (s.learn a k).plru = s.plru := rfl
@[simp] theorem learn_events (a : AgentId) (k : Known) : (s.learn a k).events = s.events := rfl
@[simp] theorem learn_fbcStores (a : AgentId) (k : Known) : (s.learn a k).fbcStores = s.fbcStores := rfl
@[simp] theorem learn_held (a : AgentId) (k : Known) : (s.learn a k).held = s.held := rfl
@[simp] theorem learn_feQueue (a : AgentId) (k : Known) : (s.learn a k).feQueue = s.feQueue := rfl
@[simp] theorem learn_ticketNext (a : AgentId) (k : Known) : (s.learn a k).ticketNext = s.ticketNext := rfl
@[simp] theorem learn_tickets (a : AgentId) (k : Known) : (s.learn a k).tickets = s.tickets := rfl
@[simp] theorem learn_tides (a : AgentId) (k : Known) : (s.learn a k).tides = s.tides := rfl
@[simp] theorem learn_arrays (a : AgentId) (k : Known) : (s.learn a k).arrays = s.arrays := rfl
@[simp] theorem learn_regions (a : AgentId) (k : Known) : (s.learn a k).regions = s.regions := rfl
@[simp] theorem learn_parts (a : AgentId) (k : Known) : (s.learn a k).parts = s.parts := rfl
@[simp] theorem learn_superRoot (a : AgentId) (k : Known) : (s.learn a k).superRoot = s.superRoot := rfl
@[simp] theorem learn_windows (a : AgentId) (k : Known) : (s.learn a k).windows = s.windows := rfl
@[simp] theorem learn_actions (a : AgentId) (k : Known) : (s.learn a k).actions = s.actions := rfl
@[simp] theorem learn_launchQueue (a : AgentId) (k : Known) : (s.learn a k).launchQueue = s.launchQueue := rfl
@[simp] theorem learn_launches (a : AgentId) (k : Known) : (s.learn a k).launches = s.launches := rfl
@[simp] theorem learn_pool (a : AgentId) (k : Known) : (s.learn a k).pool = s.pool := rfl
@[simp] theorem learn_readySessions (a : AgentId) (k : Known) : (s.learn a k).readySessions = s.readySessions := rfl
@[simp] theorem learn_steps (a : AgentId) (k : Known) : (s.learn a k).steps = s.steps := rfl
@[simp] theorem learn_barriers (a : AgentId) (k : Known) : (s.learn a k).barriers = s.barriers := rfl
@[simp] theorem learn_steals (a : AgentId) (k : Known) : (s.learn a k).steals = s.steals := rfl
@[simp] theorem learn_saved (a : AgentId) (k : Known) : (s.learn a k).saved = s.saved := rfl
@[simp] theorem learn_quiesced (a : AgentId) (k : Known) : (s.learn a k).quiesced = s.quiesced := rfl
@[simp] theorem learn_saving (a : AgentId) (k : Known) : (s.learn a k).saving = s.saving := rfl
@[simp] theorem learn_openSlots (a : AgentId) (k : Known) : (s.learn a k).openSlots = s.openSlots := rfl
@[simp] theorem learn_arrivals (a : AgentId) (k : Known) : (s.learn a k).arrivals = s.arrivals := rfl
@[simp] theorem learn_pins (a : AgentId) (k : Known) : (s.learn a k).pins = s.pins := rfl
@[simp] theorem learn_us (a : AgentId) (k : Known) : (s.learn a k).us = s.us := rfl
@[simp] theorem learn_regulators (a : AgentId) (k : Known) : (s.learn a k).regulators = s.regulators := rfl
@[simp] theorem learn_requests (a : AgentId) (k : Known) : (s.learn a k).requests = s.requests := rfl
@[simp] theorem learn_bwsel (a : AgentId) (k : Known) : (s.learn a k).bwsel = s.bwsel := rfl
@[simp] theorem learn_forecast (a : AgentId) (k : Known) : (s.learn a k).forecast = s.forecast := rfl
@[simp] theorem learn_alarm (a : AgentId) (k : Known) : (s.learn a k).alarm = s.alarm := rfl
@[simp] theorem learn_pfMailbox (a : AgentId) (k : Known) : (s.learn a k).pfMailbox = s.pfMailbox := rfl
@[simp] theorem learn_hostLink (a : AgentId) (k : Known) : (s.learn a k).hostLink = s.hostLink := rfl
@[simp] theorem learn_peerLink (a : AgentId) (k : Known) : (s.learn a k).peerLink = s.peerLink := rfl
@[simp] theorem learn_dieLink (a : AgentId) (k : Known) : (s.learn a k).dieLink = s.dieLink := rfl
@[simp] theorem learn_dieLost (a : AgentId) (k : Known) : (s.learn a k).dieLost = s.dieLost := rfl
@[simp] theorem learn_channels (a : AgentId) (k : Known) : (s.learn a k).channels = s.channels := rfl
@[simp] theorem learn_peers (a : AgentId) (k : Known) : (s.learn a k).peers = s.peers := rfl
@[simp] theorem learn_pfEvents (a : AgentId) (k : Known) : (s.learn a k).pfEvents = s.pfEvents := rfl
@[simp] theorem learn_boot (a : AgentId) (k : Known) : (s.learn a k).boot = s.boot := rfl
@[simp] theorem learn_slices (a : AgentId) (k : Known) : (s.learn a k).slices = s.slices := rfl
@[simp] theorem learn_ctrls (a : AgentId) (k : Known) : (s.learn a k).ctrls = s.ctrls := rfl
@[simp] theorem learn_checkpoint (a : AgentId) (k : Known) : (s.learn a k).checkpoint = s.checkpoint := rfl
@[simp] theorem learn_ckptReports (a : AgentId) (k : Known) : (s.learn a k).ckptReports = s.ckptReports := rfl
@[simp] theorem learn_ports (a : AgentId) (k : Known) : (s.learn a k).ports = s.ports := rfl
@[simp] theorem learn_portReply (a : AgentId) (k : Known) : (s.learn a k).portReply = s.portReply := rfl
@[simp] theorem learn_fwDigest (a : AgentId) (k : Known) : (s.learn a k).fwDigest = s.fwDigest := rfl

/-! ## release -/

@[simp] theorem release_agenda (a : AgentId) : (s.release a).agenda = s.agenda := rfl
@[simp] theorem release_moment (a : AgentId) : (s.release a).moment = s.moment := rfl
@[simp] theorem release_cur (a : AgentId) : (s.release a).cur = s.cur := rfl
@[simp] theorem release_unit (a : AgentId) : (s.release a).unit = s.unit := rfl
@[simp] theorem release_cores (a : AgentId) : (s.release a).cores = s.cores := rfl
@[simp] theorem release_sys (a : AgentId) : (s.release a).sys = s.sys := rfl
@[simp] theorem release_mem (a : AgentId) : (s.release a).mem = s.mem := rfl
@[simp] theorem release_flaws (a : AgentId) : (s.release a).flaws = s.flaws := rfl
@[simp] theorem release_full (a : AgentId) : (s.release a).full = s.full := rfl
@[simp] theorem release_tags (a : AgentId) : (s.release a).tags = s.tags := rfl
@[simp] theorem release_know (a : AgentId) : (s.release a).know = s.know := rfl
@[simp] theorem release_sync (a : AgentId) : (s.release a).sync = s.sync := rfl
@[simp] theorem release_seen (a : AgentId) : (s.release a).seen = s.seen := rfl
@[simp] theorem release_fences (a : AgentId) : (s.release a).fences = s.fences := rfl
@[simp] theorem release_releases (a : AgentId) : (s.release a).releases = s.releases := rfl
@[simp] theorem release_nextItem (a : AgentId) : (s.release a).nextItem = s.nextItem := rfl
@[simp] theorem release_tlb (a : AgentId) : (s.release a).tlb = s.tlb := rfl
@[simp] theorem release_walkCache (a : AgentId) : (s.release a).walkCache = s.walkCache := rfl
@[simp] theorem release_walks (a : AgentId) : (s.release a).walks = s.walks := rfl
@[simp] theorem release_lines (a : AgentId) : (s.release a).lines = s.lines := rfl
@[simp] theorem release_plru (a : AgentId) : (s.release a).plru = s.plru := rfl
@[simp] theorem release_events (a : AgentId) : (s.release a).events = s.events := rfl
@[simp] theorem release_fbcStores (a : AgentId) : (s.release a).fbcStores = s.fbcStores := rfl
@[simp] theorem release_held (a : AgentId) : (s.release a).held = s.held := rfl
@[simp] theorem release_feQueue (a : AgentId) : (s.release a).feQueue = s.feQueue := rfl
@[simp] theorem release_ticketNext (a : AgentId) : (s.release a).ticketNext = s.ticketNext := rfl
@[simp] theorem release_tickets (a : AgentId) : (s.release a).tickets = s.tickets := rfl
@[simp] theorem release_tides (a : AgentId) : (s.release a).tides = s.tides := rfl
@[simp] theorem release_arrays (a : AgentId) : (s.release a).arrays = s.arrays := rfl
@[simp] theorem release_regions (a : AgentId) : (s.release a).regions = s.regions := rfl
@[simp] theorem release_parts (a : AgentId) : (s.release a).parts = s.parts := rfl
@[simp] theorem release_superRoot (a : AgentId) : (s.release a).superRoot = s.superRoot := rfl
@[simp] theorem release_windows (a : AgentId) : (s.release a).windows = s.windows := rfl
@[simp] theorem release_actions (a : AgentId) : (s.release a).actions = s.actions := rfl
@[simp] theorem release_launchQueue (a : AgentId) : (s.release a).launchQueue = s.launchQueue := rfl
@[simp] theorem release_launches (a : AgentId) : (s.release a).launches = s.launches := rfl
@[simp] theorem release_pool (a : AgentId) : (s.release a).pool = s.pool := rfl
@[simp] theorem release_readySessions (a : AgentId) : (s.release a).readySessions = s.readySessions := rfl
@[simp] theorem release_steps (a : AgentId) : (s.release a).steps = s.steps := rfl
@[simp] theorem release_barriers (a : AgentId) : (s.release a).barriers = s.barriers := rfl
@[simp] theorem release_steals (a : AgentId) : (s.release a).steals = s.steals := rfl
@[simp] theorem release_saved (a : AgentId) : (s.release a).saved = s.saved := rfl
@[simp] theorem release_quiesced (a : AgentId) : (s.release a).quiesced = s.quiesced := rfl
@[simp] theorem release_saving (a : AgentId) : (s.release a).saving = s.saving := rfl
@[simp] theorem release_openSlots (a : AgentId) : (s.release a).openSlots = s.openSlots := rfl
@[simp] theorem release_arrivals (a : AgentId) : (s.release a).arrivals = s.arrivals := rfl
@[simp] theorem release_pins (a : AgentId) : (s.release a).pins = s.pins := rfl
@[simp] theorem release_us (a : AgentId) : (s.release a).us = s.us := rfl
@[simp] theorem release_regulators (a : AgentId) : (s.release a).regulators = s.regulators := rfl
@[simp] theorem release_requests (a : AgentId) : (s.release a).requests = s.requests := rfl
@[simp] theorem release_bwsel (a : AgentId) : (s.release a).bwsel = s.bwsel := rfl
@[simp] theorem release_forecast (a : AgentId) : (s.release a).forecast = s.forecast := rfl
@[simp] theorem release_alarm (a : AgentId) : (s.release a).alarm = s.alarm := rfl
@[simp] theorem release_pfMailbox (a : AgentId) : (s.release a).pfMailbox = s.pfMailbox := rfl
@[simp] theorem release_hostLink (a : AgentId) : (s.release a).hostLink = s.hostLink := rfl
@[simp] theorem release_peerLink (a : AgentId) : (s.release a).peerLink = s.peerLink := rfl
@[simp] theorem release_dieLink (a : AgentId) : (s.release a).dieLink = s.dieLink := rfl
@[simp] theorem release_dieLost (a : AgentId) : (s.release a).dieLost = s.dieLost := rfl
@[simp] theorem release_channels (a : AgentId) : (s.release a).channels = s.channels := rfl
@[simp] theorem release_peers (a : AgentId) : (s.release a).peers = s.peers := rfl
@[simp] theorem release_pfEvents (a : AgentId) : (s.release a).pfEvents = s.pfEvents := rfl
@[simp] theorem release_boot (a : AgentId) : (s.release a).boot = s.boot := rfl
@[simp] theorem release_slices (a : AgentId) : (s.release a).slices = s.slices := rfl
@[simp] theorem release_ctrls (a : AgentId) : (s.release a).ctrls = s.ctrls := rfl
@[simp] theorem release_checkpoint (a : AgentId) : (s.release a).checkpoint = s.checkpoint := rfl
@[simp] theorem release_ckptReports (a : AgentId) : (s.release a).ckptReports = s.ckptReports := rfl
@[simp] theorem release_ports (a : AgentId) : (s.release a).ports = s.ports := rfl
@[simp] theorem release_portReply (a : AgentId) : (s.release a).portReply = s.portReply := rfl
@[simp] theorem release_fwDigest (a : AgentId) : (s.release a).fwDigest = s.fwDigest := rfl

/-! ## tick -/

@[simp] theorem tick_agenda : (s.tick).agenda = s.agenda := rfl
@[simp] theorem tick_cur : (s.tick).cur = s.cur := rfl
@[simp] theorem tick_unit : (s.tick).unit = s.unit := rfl
@[simp] theorem tick_cores : (s.tick).cores = s.cores := rfl
@[simp] theorem tick_sys : (s.tick).sys = s.sys := rfl
@[simp] theorem tick_mem : (s.tick).mem = s.mem := rfl
@[simp] theorem tick_flaws : (s.tick).flaws = s.flaws := rfl
@[simp] theorem tick_full : (s.tick).full = s.full := rfl
@[simp] theorem tick_tags : (s.tick).tags = s.tags := rfl
@[simp] theorem tick_seqs : (s.tick).seqs = s.seqs := rfl
@[simp] theorem tick_stamp : (s.tick).stamp = s.stamp := rfl
@[simp] theorem tick_know : (s.tick).know = s.know := rfl
@[simp] theorem tick_sync : (s.tick).sync = s.sync := rfl
@[simp] theorem tick_seen : (s.tick).seen = s.seen := rfl
@[simp] theorem tick_fences : (s.tick).fences = s.fences := rfl
@[simp] theorem tick_releases : (s.tick).releases = s.releases := rfl
@[simp] theorem tick_nextItem : (s.tick).nextItem = s.nextItem := rfl
@[simp] theorem tick_tlb : (s.tick).tlb = s.tlb := rfl
@[simp] theorem tick_walkCache : (s.tick).walkCache = s.walkCache := rfl
@[simp] theorem tick_walks : (s.tick).walks = s.walks := rfl
@[simp] theorem tick_lines : (s.tick).lines = s.lines := rfl
@[simp] theorem tick_plru : (s.tick).plru = s.plru := rfl
@[simp] theorem tick_events : (s.tick).events = s.events := rfl
@[simp] theorem tick_fbcStores : (s.tick).fbcStores = s.fbcStores := rfl
@[simp] theorem tick_held : (s.tick).held = s.held := rfl
@[simp] theorem tick_feQueue : (s.tick).feQueue = s.feQueue := rfl
@[simp] theorem tick_ticketNext : (s.tick).ticketNext = s.ticketNext := rfl
@[simp] theorem tick_tickets : (s.tick).tickets = s.tickets := rfl
@[simp] theorem tick_tides : (s.tick).tides = s.tides := rfl
@[simp] theorem tick_arrays : (s.tick).arrays = s.arrays := rfl
@[simp] theorem tick_regions : (s.tick).regions = s.regions := rfl
@[simp] theorem tick_parts : (s.tick).parts = s.parts := rfl
@[simp] theorem tick_superRoot : (s.tick).superRoot = s.superRoot := rfl
@[simp] theorem tick_windows : (s.tick).windows = s.windows := rfl
@[simp] theorem tick_actions : (s.tick).actions = s.actions := rfl
@[simp] theorem tick_launchQueue : (s.tick).launchQueue = s.launchQueue := rfl
@[simp] theorem tick_launches : (s.tick).launches = s.launches := rfl
@[simp] theorem tick_pool : (s.tick).pool = s.pool := rfl
@[simp] theorem tick_readySessions : (s.tick).readySessions = s.readySessions := rfl
@[simp] theorem tick_steps : (s.tick).steps = s.steps := rfl
@[simp] theorem tick_barriers : (s.tick).barriers = s.barriers := rfl
@[simp] theorem tick_steals : (s.tick).steals = s.steals := rfl
@[simp] theorem tick_saved : (s.tick).saved = s.saved := rfl
@[simp] theorem tick_quiesced : (s.tick).quiesced = s.quiesced := rfl
@[simp] theorem tick_saving : (s.tick).saving = s.saving := rfl
@[simp] theorem tick_openSlots : (s.tick).openSlots = s.openSlots := rfl
@[simp] theorem tick_arrivals : (s.tick).arrivals = s.arrivals := rfl
@[simp] theorem tick_pins : (s.tick).pins = s.pins := rfl
@[simp] theorem tick_us : (s.tick).us = s.us := rfl
@[simp] theorem tick_regulators : (s.tick).regulators = s.regulators := rfl
@[simp] theorem tick_requests : (s.tick).requests = s.requests := rfl
@[simp] theorem tick_bwsel : (s.tick).bwsel = s.bwsel := rfl
@[simp] theorem tick_forecast : (s.tick).forecast = s.forecast := rfl
@[simp] theorem tick_alarm : (s.tick).alarm = s.alarm := rfl
@[simp] theorem tick_pfMailbox : (s.tick).pfMailbox = s.pfMailbox := rfl
@[simp] theorem tick_hostLink : (s.tick).hostLink = s.hostLink := rfl
@[simp] theorem tick_peerLink : (s.tick).peerLink = s.peerLink := rfl
@[simp] theorem tick_dieLink : (s.tick).dieLink = s.dieLink := rfl
@[simp] theorem tick_dieLost : (s.tick).dieLost = s.dieLost := rfl
@[simp] theorem tick_channels : (s.tick).channels = s.channels := rfl
@[simp] theorem tick_peers : (s.tick).peers = s.peers := rfl
@[simp] theorem tick_pfEvents : (s.tick).pfEvents = s.pfEvents := rfl
@[simp] theorem tick_boot : (s.tick).boot = s.boot := rfl
@[simp] theorem tick_slices : (s.tick).slices = s.slices := rfl
@[simp] theorem tick_ctrls : (s.tick).ctrls = s.ctrls := rfl
@[simp] theorem tick_checkpoint : (s.tick).checkpoint = s.checkpoint := rfl
@[simp] theorem tick_ckptReports : (s.tick).ckptReports = s.ckptReports := rfl
@[simp] theorem tick_ports : (s.tick).ports = s.ports := rfl
@[simp] theorem tick_portReply : (s.tick).portReply = s.portReply := rfl
@[simp] theorem tick_fwDigest : (s.tick).fwDigest = s.fwDigest := rfl

end Sys2Proof.Machine.State
end

