-- ==== Sys2Proof/Laws/Registers.lean ====
section
/-! SUPPORT. What reading a core, a processor or a register gives after a write of one. -/

namespace Sys2Proof.Machine.State

variable (s : State)

/-! ## Cores and system cores -/

@[simp] theorem core_setCore (c : CoreId) (k : Core) : (s.setCore c k).core c = k := by
  simp [core, setCore]

theorem core_setCore_ne {c c' : CoreId} (k : Core) (h : c' ≠ c) : (s.setCore c k).core c' = s.core c' := by
  have : c.val ≠ c'.val := fun e => h (Fin.ext e.symm)
  simp [core, setCore, Vector.getElem_set, this]

@[simp] theorem sysCore_setCore (c : CoreId) (k : Core) (j : SysId) : (s.setCore c k).sysCore j = s.sysCore j := rfl

@[simp] theorem sysCore_setSys (j : SysId) (y : Sys) : (s.setSys j y).sysCore j = y := by
  simp [sysCore, setSys]

theorem sysCore_setSys_ne {j j' : SysId} (y : Sys) (h : j' ≠ j) : (s.setSys j y).sysCore j' = s.sysCore j' := by
  have : j.val ≠ j'.val := fun e => h (Fin.ext e.symm)
  simp [sysCore, setSys, Vector.getElem_set, this]

@[simp] theorem core_setSys (j : SysId) (y : Sys) (c : CoreId) : (s.setSys j y).core c = s.core c := rfl

@[simp] theorem setCore_self (c : CoreId) : s.setCore c (s.core c) = s := by
  simp [setCore, core]

@[simp] theorem setSys_self (j : SysId) : s.setSys j (s.sysCore j) = s := by
  simp [setSys, sysCore]

@[simp] theorem setCore_setCore (c : CoreId) (k k' : Core) : (s.setCore c k).setCore c k' = s.setCore c k' := by
  simp [setCore]

@[simp] theorem setSys_setSys (j : SysId) (y y' : Sys) : (s.setSys j y).setSys j y' = s.setSys j y' := by
  simp [setSys]

@[simp] theorem core_modCore (c : CoreId) (f : Core → Core) : (s.modCore c f).core c = f (s.core c) := by
  simp [modCore]

theorem core_modCore_ne {c c' : CoreId} (f : Core → Core) (h : c' ≠ c) : (s.modCore c f).core c' = s.core c' := by
  simp [modCore, core_setCore_ne _ _ h]

/-! ## The processor part -/

@[simp] theorem cpuOf_setCpuOf (q : Proc) (x : Cpu) : (s.setCpuOf q x).cpuOf q = x := by
  cases q <;> simp [cpuOf, setCpuOf]

theorem cpuOf_setCpuOf_ne {q q' : Proc} (x : Cpu) (h : q' ≠ q) : (s.setCpuOf q x).cpuOf q' = s.cpuOf q' := by
  cases q with
  | compute c =>
    cases q' with
    | compute c' =>
      have : c' ≠ c := fun e => h (by rw [e])
      simp [cpuOf, setCpuOf, core_setCore_ne _ _ this]
    | system j => rfl
  | system j =>
    cases q' with
    | compute c => rfl
    | system j' =>
      have : j' ≠ j := fun e => h (by rw [e])
      simp [cpuOf, setCpuOf, sysCore_setSys_ne _ _ this]

@[simp] theorem setCpuOf_self (q : Proc) : s.setCpuOf q (s.cpuOf q) = s := by
  cases q with
  | compute c => exact setCore_self s c
  | system j => exact setSys_self s j

@[simp] theorem setCpuOf_setCpuOf (q : Proc) (x y : Cpu) : (s.setCpuOf q x).setCpuOf q y = s.setCpuOf q y := by
  cases q <;> simp [setCpuOf]

@[simp] theorem cpu_setCpu (x : Cpu) : (s.setCpu x).cpu = x := by simp [cpu, setCpu]

@[simp] theorem setCpu_self : s.setCpu s.cpu = s := by simp [cpu, setCpu]

@[simp] theorem setCpu_setCpu (x y : Cpu) : (s.setCpu x).setCpu y = s.setCpu y := by simp [setCpu]

@[simp] theorem cpu_modCpu (f : Cpu → Cpu) : (s.modCpu f).cpu = f s.cpu := by simp [modCpu]

theorem modCpu_eq_setCpu (f : Cpu → Cpu) : s.modCpu f = s.setCpu (f s.cpu) := rfl

/-! ## General registers and predicates -/

/-- A write of g[r] as a write of the processor part. -/
theorem setG_eq_setCpu (r : BitVec 5) (v : W64) :
    s.setG r v = s.setCpu { s.cpu with g := if r = 0 then s.cpu.g else s.cpu.g.set r.toNat v r.isLt } := by
  by_cases h : r = 0
  · simp only [setG, h, if_true]; exact (setCpu_self s).symm
  · simp only [setG, h, if_false]; rfl

theorem setP_eq_setCpu (r : BitVec 3) (v : Bool) :
    s.setP r v = s.setCpu { s.cpu with p := if r = 0 then s.cpu.p else s.cpu.p.set r.toNat v r.isLt } := by
  by_cases h : r = 0
  · simp only [setP, h, if_true]; exact (setCpu_self s).symm
  · simp only [setP, h, if_false]; rfl

@[simp] theorem g_zero : s.g 0 = 0 := rfl

@[simp] theorem p_zero : s.p 0 = true := rfl

/-- g[x] after a write of g[r]; g0 reads 0 and a write to it is discarded (R249). -/
theorem g_setG (r x : BitVec 5) (v : W64) :
    (s.setG r v).g x = if x = r ∧ r ≠ 0 then v else s.g x := by
  by_cases hr : r = 0
  · subst hr; simp [setG]
  · by_cases hx : x = 0
    · subst hx; rw [if_neg (fun h => hr h.1.symm)]; rfl
    · simp only [setG, hr, if_false, g, hx, cpu_modCpu, ne_eq, not_false_eq_true, and_true]
      by_cases h : x = r
      · subst h; simp
      · have : r.toNat ≠ x.toNat := fun e => h (BitVec.eq_of_toNat_eq e.symm)
        simp [Vector.getElem_set, this, h]

theorem p_setP (r x : BitVec 3) (v : Bool) :
    (s.setP r v).p x = if x = r ∧ r ≠ 0 then v else s.p x := by
  by_cases hr : r = 0
  · subst hr; simp [setP]
  · by_cases hx : x = 0
    · subst hx; rw [if_neg (fun h => hr h.1.symm)]; rfl
    · simp only [setP, hr, if_false, p, hx, cpu_modCpu, ne_eq, not_false_eq_true, and_true]
      by_cases h : x = r
      · subst h; simp
      · have : r.toNat ≠ x.toNat := fun e => h (BitVec.eq_of_toNat_eq e.symm)
        simp [Vector.getElem_set, this, h]

@[simp] theorem p_setG (r : BitVec 5) (v : W64) (x : BitVec 3) : (s.setG r v).p x = s.p x := by
  rw [setG_eq_setCpu]; simp [p]

@[simp] theorem g_setP (r : BitVec 3) (v : Bool) (x : BitVec 5) : (s.setP r v).g x = s.g x := by
  rw [setP_eq_setCpu]; simp [g]

@[simp] theorem g_addFlags (f : BitVec 6) (x : BitVec 5) : (s.addFlags f).g x = s.g x := by
  simp [addFlags, g]

@[simp] theorem p_addFlags (f : BitVec 6) (x : BitVec 3) : (s.addFlags f).p x = s.p x := by
  simp [addFlags, p]

/-! ## Memory -/

theorem bytes_congr {s t : State} (h : s.mem = t.mem) (a n : Nat) : s.bytes a n = t.bytes a n := by
  simp [bytes, h]

@[simp] theorem bytes_setCore (c : CoreId) (k : Core) (a n : Nat) : (s.setCore c k).bytes a n = s.bytes a n := rfl

@[simp] theorem bytes_setG (r : BitVec 5) (v : W64) (a n : Nat) : (s.setG r v).bytes a n = s.bytes a n :=
  bytes_congr (by simp) a n

end Sys2Proof.Machine.State
end

