-- ==== Sys2Proof/Laws/Table.lean ====
section
/-! SUPPORT. The laws of tables and of memory: what a lookup finds after an update, and that every update keeps the
canonical form. -/

namespace Sys2Proof.Machine

variable {α : Type}

/-! ## Keys -/

/-- The keys rise exactly where each is below every later one. -/
theorem keysRise_iff_pairwise (t : List (Nat × α)) : keysRise t = true ↔ t.Pairwise fun p q => p.1 < q.1 := by
  induction t with
  | nil => simp [keysRise]
  | cons p r ih =>
    cases r with
    | nil => simp [keysRise]
    | cons q r =>
      simp only [keysRise, Bool.and_eq_true, decide_eq_true_eq, ih, List.pairwise_cons]
      constructor
      · rintro ⟨h, hq, hr⟩
        refine ⟨?_, hq, hr⟩
        intro x hx
        rcases List.mem_cons.1 hx with rfl | hx
        · exact h
        · exact h.trans (hq x hx)
      · rintro ⟨h, hq, hr⟩
        exact ⟨h q (by simp), hq, hr⟩

theorem mem_tinsert (k : Nat) (v : α) (t : List (Nat × α)) (x : Nat × α) :
    x ∈ tinsert k v t ↔ x = (k, v) ∨ x ∈ t := by
  induction t with
  | nil => simp [tinsert]
  | cons p r ih =>
    obtain ⟨j, w⟩ := p
    unfold tinsert
    split
    · simp
    · simp only [List.mem_cons, ih]
      tauto

theorem pairwise_tinsert {k : Nat} (v : α) {t : List (Nat × α)} (h : t.Pairwise fun p q => p.1 < q.1)
    (hk : ∀ p ∈ t, p.1 ≠ k) : (tinsert k v t).Pairwise fun p q => p.1 < q.1 := by
  induction t with
  | nil => simp [tinsert]
  | cons p r ih =>
    obtain ⟨j, w⟩ := p
    rw [List.pairwise_cons] at h
    have hj : j ≠ k := hk (j, w) (by simp)
    unfold tinsert
    split
    · rename_i lt
      refine List.pairwise_cons.2 ⟨?_, List.pairwise_cons.2 h⟩
      intro x hx
      rcases List.mem_cons.1 hx with rfl | hx
      · exact lt
      · exact lt.trans (h.1 x hx)
    · rename_i lt
      refine List.pairwise_cons.2 ⟨?_, ih h.2 fun p hp => hk p (List.mem_cons_of_mem _ hp)⟩
      intro x hx
      rcases (mem_tinsert k v r x).1 hx with rfl | hx
      · show j < k
        omega
      · exact h.1 x hx

/-! ## Lookups -/

theorem tfind_terase (t : List (Nat × α)) (k j : Nat) :
    tfind (terase t k) j = if j = k then none else tfind t j := by
  induction t with
  | nil => simp [terase, tfind]
  | cons p r ih =>
    obtain ⟨i, w⟩ := p
    simp only [terase] at ih
    by_cases hi : i = k
    · subst hi
      simp only [terase, List.filter_cons, ne_eq, not_true, decide_false, tfind]
      rw [if_neg (by simp), ih]
      by_cases hj : j = i
      · simp [hj]
      · simp [hj, Ne.symm hj]
    · simp only [terase, List.filter_cons, ne_eq, hi, not_false_eq_true, decide_true, if_true, tfind, ih]
      by_cases hj : i = j
      · subst hj; simp [hi]
      · simp [hj]

theorem tfind_tinsert_ne (k : Nat) (v : α) (t : List (Nat × α)) {j : Nat} (h : j ≠ k) :
    tfind (tinsert k v t) j = tfind t j := by
  induction t with
  | nil => simp [tinsert, tfind, Ne.symm h]
  | cons p r ih =>
    obtain ⟨i, w⟩ := p
    unfold tinsert
    split
    · simp [tfind, Ne.symm h]
    · simp [tfind, ih]

theorem tfind_tinsert_same (k : Nat) (v : α) (t : List (Nat × α)) (h : ∀ p ∈ t, p.1 ≠ k) :
    tfind (tinsert k v t) k = some v := by
  induction t with
  | nil => simp [tinsert, tfind]
  | cons p r ih =>
    obtain ⟨i, w⟩ := p
    have hi : i ≠ k := h (i, w) (by simp)
    unfold tinsert
    split
    · simp [tfind]
    · simp [tfind, hi, ih fun p hp => h p (List.mem_cons_of_mem _ hp)]

theorem ne_of_mem_terase {t : List (Nat × α)} {k : Nat} : ∀ p ∈ terase t k, p.1 ≠ k := by
  intro p hp
  simpa using (List.mem_filter.1 hp).2

variable [DecidableEq α]

/-- A table reads back what was put, and every other key reads as before. -/
theorem tget_tput (d : α) (t : List (Nat × α)) (k j : Nat) (v : α) :
    tget d (tput d t k v) j = if j = k then v else tget d t j := by
  unfold tget tput
  by_cases hv : v = d
  · subst hv
    rw [if_pos rfl, tfind_terase]
    by_cases hj : j = k <;> simp [hj]
  · rw [if_neg hv]
    by_cases hj : j = k
    · subst hj
      rw [tfind_tinsert_same _ _ _ ne_of_mem_terase]; simp
    · rw [tfind_tinsert_ne _ _ _ hj, tfind_terase]; simp [hj]

@[simp] theorem tget_tput_same (d : α) (t : List (Nat × α)) (k : Nat) (v : α) : tget d (tput d t k v) k = v := by
  simp [tget_tput]

theorem tget_tput_ne (d : α) (t : List (Nat × α)) {k j : Nat} (v : α) (h : j ≠ k) :
    tget d (tput d t k v) j = tget d t j := by
  simp [tget_tput, h]

/-! ## The canonical form -/

theorem twf_iff (d : α) (t : List (Nat × α)) :
    twf d t = true ↔ (t.Pairwise fun p q => p.1 < q.1) ∧ ∀ p ∈ t, p.2 ≠ d := by
  simp [twf, keysRise_iff_pairwise]

@[simp] theorem twf_nil (d : α) : twf d [] = true := by simp [twf, keysRise]

theorem twf_terase {d : α} {t : List (Nat × α)} (h : twf d t = true) (k : Nat) : twf d (terase t k) = true := by
  rw [twf_iff] at h ⊢
  exact ⟨h.1.filter _, fun p hp => h.2 p (List.mem_filter.1 hp).1⟩

/-- An update keeps the canonical form. -/
theorem twf_tput {d : α} {t : List (Nat × α)} (h : twf d t = true) (k : Nat) (v : α) :
    twf d (tput d t k v) = true := by
  unfold tput
  split
  · exact twf_terase h k
  · rename_i hv
    have he := twf_terase h k
    rw [twf_iff] at he ⊢
    refine ⟨pairwise_tinsert v he.1 ne_of_mem_terase, ?_⟩
    intro p hp
    rcases (mem_tinsert k v _ p).1 hp with rfl | hp
    · exact hv
    · exact he.2 p hp

omit [DecidableEq α] in
theorem tfind_eq_some {t : List (Nat × α)} (h : t.Pairwise fun p q => p.1 < q.1) (k : Nat) (v : α) :
    tfind t k = some v ↔ (k, v) ∈ t := by
  induction t with
  | nil => simp [tfind]
  | cons p r ih =>
    obtain ⟨j, w⟩ := p
    rw [List.pairwise_cons] at h
    simp only [tfind, List.mem_cons, Prod.mk.injEq]
    by_cases hj : j = k
    · subst hj
      simp only [if_true, Option.some.injEq, true_and]
      constructor
      · rintro rfl; exact .inl rfl
      · rintro (h' | h')
        · exact h'.symm
        · exact absurd (h.1 _ h') (by simp)
    · simp [hj, ih h.2, Ne.symm hj]

/-- Two canonical tables that read alike are one: equal contents are equal data. -/
theorem eq_of_tget_eq {d : α} {t u : List (Nat × α)} (ht : twf d t = true) (hu : twf d u = true)
    (h : ∀ k, tget d t k = tget d u k) : t = u := by
  rw [twf_iff] at ht hu
  have mem_iff : ∀ k v, (k, v) ∈ t ↔ (k, v) ∈ u := by
    have side : ∀ {t u : List (Nat × α)}, (t.Pairwise fun p q => p.1 < q.1) → (∀ p ∈ t, p.2 ≠ d) →
        (u.Pairwise fun p q => p.1 < q.1) → (∀ k, tget d t k = tget d u k) → ∀ k v, (k, v) ∈ t → (k, v) ∈ u := by
      intro t u ht hd hu h k v hm
      have h1 := (tfind_eq_some ht k v).2 hm
      have h2 := h k
      simp only [tget, h1, Option.getD_some] at h2
      cases hf : tfind u k with
      | none => rw [hf] at h2; exact absurd h2 (hd _ hm)
      | some w =>
        rw [hf] at h2
        simp only [Option.getD_some] at h2
        rw [h2]; exact (tfind_eq_some hu k w).1 hf
    exact fun k v => ⟨side ht.1 ht.2 hu.1 h k v, side hu.1 hu.2 ht.1 (fun k => (h k).symm) k v⟩
  refine List.Perm.eq_of_pairwise (le := fun p q => p.1 < q.1) ?_ ht.1 hu.1 ?_
  · intro a b _ _ h1 h2
    exact absurd (h1.trans h2) (lt_irrefl _)
  · refine (List.perm_ext_iff_of_nodup ?_ ?_).2 fun x => mem_iff x.1 x.2
    · exact ht.1.imp fun h e => by rw [e] at h; exact lt_irrefl _ h
    · exact hu.1.imp fun h e => by rw [e] at h; exact lt_irrefl _ h

/-! ## Memory -/

/-- What byte i reads as after a write of bytes from a on. -/
theorem tget_memPut (m : List Host.Cell) (a : Nat) (bs : List Byte) (i : Nat) :
    tget 0 (memPut m a bs) i = if a ≤ i ∧ i < a + bs.length then bs.getD (i - a) 0 else tget 0 m i := by
  induction bs generalizing m a with
  | nil =>
    have : ¬(a ≤ i ∧ i < a) := by omega
    simp [memPut, this]
  | cons b bs ih =>
    simp only [memPut, ih, List.length_cons, tget_tput]
    by_cases h1 : a + 1 ≤ i ∧ i < a + 1 + bs.length
    · have h2 : a ≤ i ∧ i < a + (bs.length + 1) := by omega
      rw [if_pos h1, if_pos h2]
      obtain ⟨n, rfl⟩ : ∃ n, i = a + 1 + n := ⟨i - (a + 1), by omega⟩
      have e1 : a + 1 + n - (a + 1) = n := by omega
      have e2 : a + 1 + n - a = n + 1 := by omega
      rw [e1, e2]; simp
    · rw [if_neg h1]
      by_cases h3 : i = a
      · subst h3
        have h2 : i ≤ i ∧ i < i + (bs.length + 1) := by omega
        simp [h2]
      · have h2 : ¬(a ≤ i ∧ i < a + (bs.length + 1)) := by omega
        simp [h2, h3]

/-- A byte outside the bytes written reads as before. -/
theorem tget_memPut_out (m : List Host.Cell) {a i : Nat} (bs : List Byte) (h : i < a ∨ a + bs.length ≤ i) :
    tget 0 (memPut m a bs) i = tget 0 m i := by
  rw [tget_memPut, if_neg (by omega)]

theorem memBytes_length (m : List Host.Cell) (a n : Nat) : (memBytes m a n).length = n := by
  induction n generalizing a with
  | zero => rfl
  | succ n ih => simp [memBytes, ih]

theorem memBytes_congr {m m' : List Host.Cell} {a n : Nat} (h : ∀ i, a ≤ i → i < a + n → tget 0 m i = tget 0 m' i) :
    memBytes m a n = memBytes m' a n := by
  induction n generalizing a with
  | zero => rfl
  | succ n ih =>
    simp only [memBytes]
    rw [h a (by omega) (by omega), ih fun i h1 h2 => h i (by omega) (by omega)]

/-- The bytes just written are read back. -/
theorem memBytes_memPut (m : List Host.Cell) (a : Nat) (bs : List Byte) :
    memBytes (memPut m a bs) a bs.length = bs := by
  induction bs generalizing m a with
  | nil => rfl
  | cons b bs ih =>
    simp only [List.length_cons, memBytes, memPut]
    rw [tget_memPut_out _ _ (by omega), tget_tput_same, ih]

/-- A read outside the bytes written reads as before. -/
theorem memBytes_memPut_out (m : List Host.Cell) {a i n : Nat} (bs : List Byte)
    (h : i + n ≤ a ∨ a + bs.length ≤ i) : memBytes (memPut m a bs) i n = memBytes m i n :=
  memBytes_congr fun _ _ _ => tget_memPut_out _ _ (by omega)

/-- Every write of bytes keeps the canonical form of memory. -/
theorem memPut_wf {m : List Host.Cell} (h : Memory.wf m = true) (a : Nat) (bs : List Byte) :
    Memory.wf (memPut m a bs) = true := by
  induction bs generalizing m a with
  | nil => exact h
  | cons b bs ih => exact ih (twf_tput h a b) (a + 1)

end Sys2Proof.Machine
end

