-- ==== Sys2Proof/Laws/Frames.lean ====
section
/-! SUPPORT. What the register writes leave as it was, in the terms of Safety. -/

namespace Sys2Proof.Machine

open State

theorem sameMemory_refl (s : State) : SameMemory s s := fun _ => rfl

theorem sameMemory_of_mem {s t : State} (h : t.mem = s.mem) : SameMemory s t := fun a => bytes_congr h a 1

theorem setCpu_mem (s : State) (x : Cpu) : (s.setCpu x).mem = s.mem := by simp

theorem sameMemory_setCpu (s : State) (x : Cpu) : SameMemory s (s.setCpu x) := sameMemory_of_mem (by simp)

/-- A state that differs from s in its processor part alone is a write of that part. -/
theorem eq_setCpu_g {s : State} (v : Vector W64 32) :
    s.setCpu { s.cpu with g := v } = s.setCpu { s.cpu with g := (s.setCpu { s.cpu with g := v }).cpu.g } := by
  rw [cpu_setCpu]

theorem writesG_setG (s : State) (r : BitVec 5) (v : W64) : WritesG s (s.setG r v) r v := by
  refine ⟨?_, ?_, ?_, ?_⟩
  · rw [g_setG]
    by_cases h : r = 0
    · rw [if_neg (fun k => k.2 h), if_pos h, h]; rfl
    · rw [if_pos ⟨rfl, h⟩, if_neg h]
  · intro x hx
    rw [g_setG]; simp [hx]
  · rw [setG_eq_setCpu]; exact eq_setCpu_g _
  · exact sameMemory_of_mem (by simp)

theorem writesG_self (s : State) (v : W64) : WritesG s s 0 v :=
  ⟨rfl, fun _ _ => rfl, (setCpu_self s).symm, sameMemory_refl s⟩

theorem writesP_setP (s : State) (r : BitVec 3) (b : Bool) : WritesP s (s.setP r b) r b := by
  refine ⟨?_, ?_, ?_, ?_⟩
  · rw [p_setP]
    by_cases h : r = 0
    · rw [if_neg (fun k => k.2 h), if_pos h, h]; rfl
    · rw [if_pos ⟨rfl, h⟩, if_neg h]
  · intro x hx
    rw [p_setP]; simp [hx]
  · rw [setP_eq_setCpu, cpu_setCpu]
  · exact sameMemory_of_mem (by simp)

theorem succ_ne (r : BitVec 5) : r + 1 ≠ r := by
  intro h
  have : (1 : BitVec 5) = 0 := by
    have := congrArg (fun x => x - r) h
    simpa using this
  exact absurd this (by decide)

theorem writesPair_setGPair (s : State) (r : BitVec 5) (v : BitVec 128) :
    WritesPair s (s.setGPair r v) r (fld v 0 64) (fld v 64 64) := by
  have hne := succ_ne r
  refine ⟨?_, ?_, ?_, ?_, ?_⟩
  · simp only [setGPair, pairHi, g_setG]
    rw [if_neg (fun h => hne h.1.symm)]
    by_cases h : r = 0
    · rw [if_neg (fun k => k.2 h), if_pos h, h]; rfl
    · rw [if_pos ⟨trivial, h⟩, if_neg h]
  · simp only [setGPair, pairHi, g_setG]
    by_cases h : r + 1 = 0
    · rw [if_neg (fun k => k.2 h), if_neg (fun k => hne k.1), if_pos h, h]; rfl
    · rw [if_pos ⟨trivial, h⟩, if_neg h]
  · intro x h1 h2
    simp only [setGPair, pairHi, g_setG]
    rw [if_neg (fun k => h2 k.1), if_neg (fun k => h1 k.1)]
  · simp only [setGPair, setG_eq_setCpu, setCpu_setCpu, cpu_setCpu]
  · exact sameMemory_of_mem (by simp)

theorem addFlags_eq_setCpu (s : State) (f : BitVec 6) :
    s.addFlags f = s.setCpu { s.cpu with fpstat := s.cpu.fpstat ||| f } := rfl

theorem writesGF_setG (s : State) (r : BitVec 5) (v : W64) (f : FpFlags) :
    WritesGF s ((s.setG r v).addFlags f) r v f := by
  have h := writesG_setG s r v
  refine ⟨?_, ?_, ?_, ?_, ?_⟩
  · rw [g_addFlags]; exact h.1
  · intro x hx; rw [g_addFlags]; exact h.2.1 x hx
  · rw [addFlags_eq_setCpu, cpu_setCpu, setG_eq_setCpu, cpu_setCpu]
  · rw [addFlags_eq_setCpu, setG_eq_setCpu, setCpu_setCpu, cpu_setCpu, cpu_setCpu]
  · exact sameMemory_of_mem (by simp)

theorem writesPF_setP (s : State) (r : BitVec 3) (b : Bool) (f : FpFlags) :
    WritesPF s ((s.setP r b).addFlags f) r b f := by
  have h := writesP_setP s r b
  refine ⟨?_, ?_, ?_, ?_, ?_⟩
  · rw [p_addFlags]; exact h.1
  · intro x hx; rw [p_addFlags]; exact h.2.1 x hx
  · rw [addFlags_eq_setCpu, cpu_setCpu, setP_eq_setCpu, cpu_setCpu]
  · rw [addFlags_eq_setCpu, setP_eq_setCpu, setCpu_setCpu, cpu_setCpu, cpu_setCpu]
  · exact sameMemory_of_mem (by simp)

end Sys2Proof.Machine
end

