-- ==== Sys2Proof/Laws/Layouts.lean ====
section
/-! SUPPORT. Each field layout is read back from the bits that it writes (R258 to R271). -/

namespace Sys2Proof

/-- A field of a concatenation that lies in its low part, in its high part. -/
theorem fld_append_low {m n : Nat} (x : BitVec m) (y : BitVec n) (lo len : Nat) (h : lo + len ≤ n) :
    fld (x ++ y) lo len = fld y lo len := by
  apply BitVec.eq_of_getLsbD_eq
  intro i hi
  simp only [fld, BitVec.getLsbD_extractLsb', BitVec.getLsbD_append]
  rw [if_pos (by omega)]

theorem fld_append_high {m n : Nat} (x : BitVec m) (y : BitVec n) (lo len : Nat) (h : n ≤ lo) :
    fld (x ++ y) lo len = fld x (lo - n) len := by
  apply BitVec.eq_of_getLsbD_eq
  intro i hi
  simp only [fld, BitVec.getLsbD_extractLsb', BitVec.getLsbD_append]
  rw [if_neg (by omega), show lo + i - n = lo - n + i by omega]

theorem fld_self {n : Nat} (x : BitVec n) : fld x 0 n = x := by
  apply BitVec.eq_of_getLsbD_eq
  intro i hi
  simp [fld, BitVec.getLsbD_extractLsb', hi]

/-- A field of a field. -/
theorem fld_fld {n : Nat} (w : BitVec n) (a la b lb : Nat) (h : b + lb ≤ la) :
    fld (fld w a la) b lb = fld w (a + b) lb := by
  apply BitVec.eq_of_getLsbD_eq
  intro i hi
  simp only [fld, BitVec.getLsbD_extractLsb']
  simp only [show b + i < la by omega, decide_true, Bool.true_and, Nat.add_assoc]

/-- A bit of a field. -/
theorem getLsbD_fld {n : Nat} (w : BitVec n) (a la i : Nat) : (fld w a la).getLsbD i = (decide (i < la) && w.getLsbD (a + i)) := by
  simp [fld, BitVec.getLsbD_extractLsb']

/-- A field of a word whose low 50 bits are known is a field of them. -/
theorem fld_of_low {w : W64} {b : BitVec 50} (h : fld w 0 50 = b) (lo len : Nat) (hl : lo + len ≤ 50) :
    fld w lo len = fld b lo len := by rw [← h, fld_fld _ _ _ _ _ hl, Nat.zero_add]

theorem La.of_bits {w : W64} {f : La} (h : fld w 0 50 = f.bits) : La.of w = f := by
  unfold La.of
  rw [fld_of_low h 45 5 (by decide), fld_of_low h 40 5 (by decide), fld_of_low h 8 32 (by decide), fld_of_low h 0 8 (by decide)]
  have e (lo len : Nat) : fld f.bits lo len = fld (f.d ++ f.a ++ f.imm ++ f.x) lo len := rfl
  simp only [e]
  simp only [fld_append_low, fld_append_high, fld_self, Nat.reduceSub, Nat.reduceLeDiff, le_refl]

theorem Lb.of_bits {w : W64} {f : Lb} (h : fld w 0 50 = f.bits) : Lb.of w = f := by
  unfold Lb.of
  rw [fld_of_low h 45 5 (by decide), fld_of_low h 40 5 (by decide), fld_of_low h 35 5 (by decide),
    fld_of_low h 30 5 (by decide), fld_of_low h 8 22 (by decide), fld_of_low h 0 8 (by decide)]
  have e (lo len : Nat) : fld f.bits lo len = fld (f.d ++ f.a ++ f.b ++ f.c ++ f.z ++ f.x) lo len := rfl
  simp only [e]
  simp only [fld_append_low, fld_append_high, fld_self, Nat.reduceSub, Nat.reduceLeDiff, le_refl]

theorem Lm.of_bits {w : W64} {f : Lm} (h : fld w 0 50 = f.bits) : Lm.of w = f := by
  unfold Lm.of
  rw [fld_of_low h 45 5 (by decide), fld_of_low h 40 5 (by decide), fld_of_low h 16 24 (by decide), fld_of_low h 13 3 (by decide),
    fld_of_low h 10 3 (by decide), fld_of_low h 8 2 (by decide), fld_of_low h 5 3 (by decide), fld_of_low h 0 5 (by decide)]
  have e (lo len : Nat) : fld f.bits lo len = fld (f.d ++ f.a ++ f.imm ++ f.size ++ f.order ++ f.fe ++ f.scope ++ f.x) lo len := rfl
  simp only [e]
  simp only [fld_append_low, fld_append_high, fld_self, Nat.reduceSub, Nat.reduceLeDiff, le_refl]

theorem Lv.of_bits {w : W64} {f : Lv} (h : fld w 0 50 = f.bits) : Lv.of w = f := by
  unfold Lv.of
  rw [fld_of_low h 37 13 (by decide), fld_of_low h 24 13 (by decide), fld_of_low h 11 13 (by decide),
    fld_of_low h 8 3 (by decide), fld_of_low h 0 8 (by decide)]
  have e (lo len : Nat) : fld f.bits lo len = fld (f.d ++ f.a ++ f.b ++ f.ty ++ f.md) lo len := rfl
  simp only [e]
  simp only [fld_append_low, fld_append_high, fld_self, Nat.reduceSub, Nat.reduceLeDiff, le_refl]

theorem Ls.of_bits {w : W64} {f : Ls} (h : fld w 0 50 = f.bits) : Ls.of w = f := by
  unfold Ls.of
  rw [fld_of_low h 45 5 (by decide), fld_of_low h 40 5 (by decide), fld_of_low h 32 8 (by decide),
    fld_of_low h 16 16 (by decide), fld_of_low h 0 16 (by decide)]
  have e (lo len : Nat) : fld f.bits lo len = fld (f.d ++ f.a ++ f.flag ++ f.count ++ f.imm) lo len := rfl
  simp only [e]
  simp only [fld_append_low, fld_append_high, fld_self, Nat.reduceSub, Nat.reduceLeDiff, le_refl]

theorem fld_of_low42 {w : BitVec 48} {b : BitVec 42} (h : fld w 0 42 = b) (lo len : Nat) (hl : lo + len ≤ 42) :
    fld w lo len = fld b lo len := by rw [← h, fld_fld _ _ _ _ _ hl, Nat.zero_add]

theorem PatStep.of_bits {w : BitVec 48} {f : PatStep} (h : fld w 0 42 = (f.step ++ f.rep ++ f.arg : BitVec 42)) :
    PatStep.of w = f := by
  unfold PatStep.of
  rw [fld_of_low42 h 24 18 (by decide), fld_of_low42 h 8 16 (by decide), fld_of_low42 h 0 8 (by decide)]
  have e (lo len : Nat) : fld (f.step ++ f.rep ++ f.arg : BitVec 42) lo len = fld (f.step ++ f.rep ++ f.arg) lo len := rfl
  simp only [e]
  simp only [fld_append_low, fld_append_high, fld_self, Nat.reduceSub, Nat.reduceLeDiff, le_refl]

theorem PatLoad.of_bits {w : BitVec 48} {f : PatLoad} (h : fld w 0 42 = f.imm) : PatLoad.of w = f := by
  unfold PatLoad.of
  rw [h]

theorem PatSync.of_bits {w : BitVec 48} {f : PatSync} (h : fld w 0 42 = (f.flag ++ f.count ++ f.core ++ f.z : BitVec 42)) :
    PatSync.of w = f := by
  unfold PatSync.of
  rw [fld_of_low42 h 34 8 (by decide), fld_of_low42 h 18 16 (by decide), fld_of_low42 h 10 8 (by decide), fld_of_low42 h 0 10 (by decide)]
  have e (lo len : Nat) : fld (f.flag ++ f.count ++ f.core ++ f.z : BitVec 42) lo len = fld (f.flag ++ f.count ++ f.core ++ f.z) lo len := rfl
  simp only [e]
  simp only [fld_append_low, fld_append_high, fld_self, Nat.reduceSub, Nat.reduceLeDiff, le_refl]

/-- Where the x field of a layout is the low byte, its fields are fields of the word. -/
theorem La.x_of_bits {w : W64} {f : La} (h : fld w 0 50 = f.bits) (lo len : Nat) (hl : lo + len ≤ 8) :
    fld w lo len = fld f.x lo len := by
  rw [← La.of_bits h, La.of, fld_fld _ _ _ _ _ hl, Nat.zero_add]

theorem Lm.x_bit_of_bits {w : W64} {f : Lm} (h : fld w 0 50 = f.bits) (n : Nat) (hn : n < 5) :
    w.getLsbD n = f.x.getLsbD n := by
  rw [← Lm.of_bits h, Lm.of, getLsbD_fld, Nat.zero_add]
  simp [hn]

theorem Lm.x_of_bits {w : W64} {f : Lm} (h : fld w 0 50 = f.bits) (lo len : Nat) (hl : lo + len ≤ 5) :
    fld w lo len = fld f.x lo len := by
  rw [← Lm.of_bits h, Lm.of, fld_fld _ _ _ _ _ hl, Nat.zero_add]

theorem La.x_bit_of_bits {w : W64} {f : La} (h : fld w 0 50 = f.bits) (n : Nat) (hn : n < 8) :
    w.getLsbD n = f.x.getLsbD n := by
  rw [← La.of_bits h, La.of, getLsbD_fld, Nat.zero_add]
  simp [hn]

end Sys2Proof
end

