-- ==== Sys2Proof/Laws/Run.lean ====
section
/-! SUPPORT. What the shared access operations can do, once each: computations peel apart by `run_bind`, translation
changes cached translations alone, what an access does before it is performed changes `SideOnly`'s fields alone. -/

namespace Sys2Proof.Machine

open State

variable {α β : Type}

/-- A sequence answers exactly where both parts do. -/
theorem run_bind {m : M α} {f : α → M β} {s t : State} {b : β} :
    (m >>= f) s = .ok (b, t) ↔ ∃ a u, m s = .ok (a, u) ∧ f a u = .ok (b, t) := by
  show (Except.bind (m s) fun p => f p.1 p.2) = _ ↔ _
  cases h : m s with
  | error e => simp [Except.bind]
  | ok p => obtain ⟨a, u⟩ := p; simp [Except.bind]

theorem run_pure {a b : α} {s t : State} : (pure a : M α) s = .ok (b, t) ↔ a = b ∧ s = t := by
  show Except.ok (a, s) = _ ↔ _
  simp

theorem run_get {s t u : State} : (get : M State) s = .ok (u, t) ↔ s = u ∧ s = t := by
  show Except.ok (s, s) = _ ↔ _
  simp

theorem run_set {s t v : State} {x : PUnit} : (set v : M PUnit) s = .ok (x, t) ↔ v = t := by
  show Except.ok (PUnit.unit, v) = _ ↔ _
  simp

theorem run_throw {e : Stop} {s t : State} {b : α} : (throw e : M α) s = .ok (b, t) ↔ False := by
  show Except.error e = _ ↔ _
  simp

theorem run_orStop {o : Option Stop} {s t : State} {x : Unit} : orStop o s = .ok (x, t) ↔ o = none ∧ s = t := by
  cases o with
  | none => show Except.ok ((), s) = _ ↔ _; simp
  | some e => show Except.error e = _ ↔ _; simp

/-! ## Translation -/

/-- A translation that enters its holder's structure changes that structure alone (R44). -/
theorem fillTlb_frame (s : State) (e : TlbEntry) : ∃ tl, s.fillTlb e = { s with tlb := tl } := by
  unfold fillTlb
  dsimp only
  split
  · exact ⟨_, rfl⟩
  · split
    · exact ⟨_, rfl⟩
    · split <;> exact ⟨_, rfl⟩

/-- The pointers that a walk read enter the walk cache alone (R44). -/
theorem fillWalk_frame (ws : List WalkEntry) (s : State) : ∃ wc, ws.foldl fillWalk s = { s with walkCache := wc } := by
  induction ws generalizing s with
  | nil => exact ⟨s.walkCache, rfl⟩
  | cons w ws ih =>
    have one : ∃ wc, s.fillWalk w = { s with walkCache := wc } := by
      unfold fillWalk
      dsimp only
      split
      · exact ⟨_, rfl⟩
      · split <;> exact ⟨_, rfl⟩
    obtain ⟨wc, hw⟩ := one
    obtain ⟨wc', hf⟩ := ih (s.fillWalk w)
    exact ⟨wc', by rw [List.foldl_cons, hf, hw]⟩

/-- The end of a walk that reaches a holder changes its structure and the one behind it alone (R44). -/
theorem enterEnd_frame (s : State) (h : Holder) (space va : Nat) (e : WalkEnd) :
    ∃ tl, s.enterEnd h space va e = { s with tlb := tl } := by
  unfold enterEnd
  split
  · dsimp only
    split
    · rename_i h2 _
      obtain ⟨tl, h1⟩ := fillTlb_frame s ⟨h2, space, _, _, _⟩
      obtain ⟨tl', h3⟩ := fillTlb_frame { s with tlb := tl } ⟨h, space, _, _, _⟩
      exact ⟨tl', by rw [h1, h3]⟩
    · exact fillTlb_frame s _
  · exact ⟨s.tlb, rfl⟩

theorem walk_frame (s : State) (h : Holder) (space va : Nat) :
    ∃ tl wc, (s.walk h space va).2 = { s with tlb := tl, walkCache := wc } := by
  unfold walk
  split
  · obtain ⟨tl, ht⟩ := enterEnd_frame s h space va _
    exact ⟨tl, s.walkCache, ht⟩
  · exact ⟨s.tlb, s.walkCache, rfl⟩
  · rename_i root _ _
    dsimp only
    obtain ⟨wc, hw⟩ := fillWalk_frame (walkFrom s (s.walkerSlice h) space va 4 0 root).2 s
    obtain ⟨tl, ht⟩ := enterEnd_frame { s with walkCache := wc } h space va (walkFrom s (s.walkerSlice h) space va 4 0 root).1
    exact ⟨tl, wc, by rw [hw, ht]⟩

/-- A lookup changes cached translations alone (R44). -/
theorem lookup_frame (s : State) (h : Holder) (space va : Nat) :
    ∃ tl wc, (s.lookup h space va).2 = { s with tlb := tl, walkCache := wc } := by
  unfold lookup
  dsimp only
  split
  · exact ⟨s.tlb, s.walkCache, rfl⟩
  · obtain ⟨tl, ht⟩ := fillTlb_frame s _
    exact ⟨tl, s.walkCache, ht⟩
  · exact walk_frame s h space va

theorem globalPart_frame {s t : State} {w : Who} {k : Kind} {fe : Bool} {va : W64} {n : Nat} {p : Part}
    (h : globalPart s w k fe va n = .ok (p, t)) : ∃ tl wc, t = { s with tlb := tl, walkCache := wc } := by
  unfold globalPart at h
  split at h
  · split at h
    · cases h
    · cases h; exact ⟨s.tlb, s.walkCache, rfl⟩
  · split at h
    · cases h
    · rename_i space _
      obtain ⟨tl, wc, hl⟩ := lookup_frame s (w.holderFor k) space va.toNat
      split at h
      · cases h
      · cases h
      · rename_i hu
        rw [hu] at hl
        split at h
        · cases h
        · cases h; exact ⟨tl, wc, hl⟩

theorem translatePart_frame {s t : State} {w : Who} {k : Kind} {fe : Bool} {va : W64} {n : Nat} {p : Part}
    (h : translatePart s w k fe va n = .ok (p, t)) : ∃ tl wc, t = { s with tlb := tl, walkCache := wc } := by
  unfold translatePart at h
  split at h
  · exact globalPart_frame h
  · cases h

/-- Translating an access changes cached translations alone (R24, R44). -/
theorem translateAccess_frame {s t : State} {w : Who} {k : Kind} {fe : Bool} {va : W64} {n : Nat} {ps : List Part}
    (h : translateAccess s w k fe va n = .ok (ps, t)) : ∃ tl wc, t = { s with tlb := tl, walkCache := wc } := by
  unfold translateAccess at h
  split at h
  · cases hw : windowPart s w k fe va n with
    | error e => rw [hw] at h; cases h
    | ok p => rw [hw] at h; cases h; exact ⟨s.tlb, s.walkCache, rfl⟩
  · dsimp only at h
    split at h
    · cases hp : translatePart s w k fe va n with
      | error e => rw [hp] at h; cases h
      | ok r => rw [hp] at h; cases h; exact translatePart_frame hp
    · cases hp : translatePart s w k fe va (min n (65536 - va.toNat % 65536)) with
      | error e => rw [hp] at h; cases h
      | ok r =>
        obtain ⟨p, u⟩ := r
        rw [hp] at h
        cases hq : translatePart u w k fe (va + BitVec.ofNat 64 (min n (65536 - va.toNat % 65536)))
            (n - min n (65536 - va.toNat % 65536)) with
        | error e => simp [bind, Except.bind, hq] at h
        | ok r =>
          obtain ⟨q, v⟩ := r
          simp only [bind, Except.bind, hq, pure, Except.pure] at h
          cases h
          obtain ⟨tl, wc, hu⟩ := translatePart_frame hp
          obtain ⟨tl', wc', hv⟩ := translatePart_frame hq
          exact ⟨tl', wc', by rw [hv, hu]⟩

/-! ## What an access changes before it is performed -/

/-- t is s but for cached translations, resident lines and their replacement order, the counts of telemetry, and the
regulators with their requests. -/
def SideOnly (s t : State) : Prop :=
  t = { s with
    tlb := t.tlb, walkCache := t.walkCache, lines := t.lines, plru := t.plru, events := t.events
    regulators := t.regulators, requests := t.requests }

theorem SideOnly.refl (s : State) : SideOnly s s := rfl

theorem SideOnly.trans {s t u : State} (h : SideOnly s t) (k : SideOnly t u) : SideOnly s u := by
  unfold SideOnly at *
  rw [k, h]

/-- A fold of such steps is one. -/
theorem SideOnly.foldl {f : State → α → State} (h : ∀ s x, SideOnly s (f s x)) (l : List α) (s : State) :
    SideOnly s (l.foldl f s) := by
  induction l generalizing s with
  | nil => exact .refl s
  | cons x l ih => exact (h s x).trans (ih _)

theorem SideOnly.mem {s t : State} (h : SideOnly s t) : t.mem = s.mem := by rw [h]

theorem charge_side (s : State) (r : MemRequest) : SideOnly s (s.charge r) := by
  unfold charge; dsimp only; split <;> rfl

theorem holdRequest_side (s : State) (r : MemRequest) : SideOnly s (s.holdRequest r) := by
  unfold holdRequest; dsimp only; split <;> rfl

theorem chargeOne_side {s t : State} {r : MemRequest} (h : chargeOne s r = .ok t) : SideOnly s t := by
  unfold chargeOne at h
  dsimp only at h
  split at h
  · split at h
    · cases h; rfl
    · split at h
      · cases h
      · cases h; exact (charge_side s r).trans rfl
  · split at h
    · cases h; exact holdRequest_side s r
    · cases h; exact charge_side s r

/-- Requests that are made change regulators and requests alone (R439). -/
theorem chargeAll_side {l : List MemRequest} {s t : State} (h : chargeAll s l = .ok t) : SideOnly s t := by
  induction l generalizing s with
  | nil => cases h; exact .refl _
  | cons r l ih =>
    rw [chargeAll] at h
    cases ho : chargeOne s r with
    | error e => rw [ho] at h; cases h
    | ok u => rw [ho] at h; exact (chargeOne_side ho).trans (ih h)

theorem chargeRequests_side {rs : List MemRequest} {s t : State} {x : Unit} (h : chargeRequests rs s = .ok (x, t)) :
    SideOnly s t := by
  unfold chargeRequests at h
  obtain ⟨u, u', hg, h⟩ := run_bind.1 h
  obtain ⟨rfl, rfl⟩ := run_get.1 hg
  cases hc : chargeAll s rs with
  | error e => simp only [hc] at h; exact (run_throw.1 h).elim
  | ok c => simp only [hc] at h; exact run_set.1 h ▸ chargeAll_side hc

/-- The walk that a miss needs asks memory controllers alone (R45, R439). -/
theorem walkGate_side {w : Who} {k : Kind} {va : W64} {n : Nat} {s t : State} {x : Unit}
    (h : walkGate w k va n s = .ok (x, t)) : SideOnly s t := by
  unfold walkGate at h
  obtain ⟨u, u', hg, h⟩ := run_bind.1 h
  obtain ⟨rfl, rfl⟩ := run_get.1 hg
  split at h
  · obtain ⟨_, v, hv, h⟩ := run_bind.1 h
    unfold waitUnless at hv
    split at hv
    · obtain ⟨-, rfl⟩ := run_pure.1 hv
      exact chargeRequests_side h
    · exact (run_throw.1 hv).elim
  · obtain ⟨-, rfl⟩ := run_pure.1 h
    exact .refl _

theorem translateAccess_side {s t : State} {w : Who} {k : Kind} {fe : Bool} {va : W64} {n : Nat} {ps : List Part}
    (h : translateAccess s w k fe va n = .ok (ps, t)) : SideOnly s t := by
  obtain ⟨_, _, rfl⟩ := translateAccess_frame h; rfl

/-- Translating the rows of an access changes cached translations, and asks memory controllers, alone (R29, R44, R439). -/
theorem translateRows_side {w : Who} {k : Kind} {fe : Bool} {rows : List (W64 × Nat)} {s t : State} {ps : List Part}
    (h : translateRows w k fe rows s = .ok (ps, t)) : SideOnly s t := by
  induction rows generalizing s ps with
  | nil =>
    obtain ⟨_, rfl⟩ := run_pure.1 h
    exact .refl _
  | cons r rows ih =>
    obtain ⟨va, n⟩ := r
    rw [translateRows] at h
    obtain ⟨_, g, hw, h⟩ := run_bind.1 h
    obtain ⟨u, u', hg, h⟩ := run_bind.1 h
    obtain ⟨rfl, rfl⟩ := run_get.1 hg
    refine (walkGate_side hw).trans ?_
    cases ha : translateAccess g w k fe va n with
    | error e => simp only [ha] at h; exact (run_throw.1 h).elim
    | ok x =>
      obtain ⟨p, v⟩ := x
      simp only [ha] at h
      obtain ⟨_, v', hs, h⟩ := run_bind.1 h
      obtain rfl : v = v' := run_set.1 hs
      cases hf : p.find? (aliasConflict v) with
      | some x => simp only [hf] at h; exact (run_throw.1 h).elim
      | none =>
        simp only [hf] at h
        split at h
        · exact (run_throw.1 (run_bind.1 h).choose_spec.choose_spec.1).elim
        · obtain ⟨rest, z, hr, h⟩ := run_bind.1 h
          obtain ⟨_, rfl⟩ := run_pure.1 h
          exact (translateAccess_side ha).trans (ih hr)

/-! ## Checks of an access -/

theorem evictLine_side (s : State) (x : Nat × LineAttrs) : SideOnly s (evictLine s x) := by
  unfold evictLine
  refine SideOnly.trans (t := { s with lines := s.lines.filter fun l => l.1 ≠ x.1 }) rfl (.foldl (fun u r => ?_) _ _)
  split
  · exact chargeOne_side ‹_›
  · exact .refl _

/-- A line that becomes resident or is used changes resident lines and their replacement order, and asks memory controllers
for the line that gives way, alone (R73, R439). -/
theorem fillLine_side (s : State) (u : LineUse) (key : Nat) (d : Bool) (a : BitVec 18) : SideOnly s (fillLine s u key d a) := by
  unfold fillLine
  split
  · rfl
  · dsimp only
    split
    · rfl
    · split
      · exact (SideOnly.foldl evictLine_side _ s).trans rfl
      · exact .refl _

theorem fillLines_side (s : State) (w : Who) (acc : Access) (write : Bool) (p : Part) :
    SideOnly s (fillLines s w acc write p) := by
  unfold fillLines
  exact .foldl (fun u x => fillLine_side u _ _ _ _) _ s

/-- What an access leaves in the L2 (R40, R73). -/
theorem fillAll_side (w : Who) (acc : Access) (write : Bool) (ps : List Part) (s : State) :
    SideOnly s (fillAll s w acc write ps) := by
  induction ps generalizing s with
  | nil => exact .refl _
  | cons p ps ih => rw [fillAll]; exact (fillLines_side s w acc write p).trans (ih _)

theorem countEvents_side (s : State) (w : Who) (ps : List Part) : SideOnly s (countEvents s w ps) := by
  have one (s : State) (k n : Nat) : SideOnly s (countEvent s k n) := by unfold countEvent; split <;> rfl
  unfold countEvents
  split
  · exact .refl _
  · exact (one _ _ _).trans (one _ _ _)

/-- The parts of an access that reach their lines (R40, R73, R417, R439). -/
theorem useLines_side {w : Who} {acc : Access} {write : Bool} {ps : List Part} {s t : State} {x : Unit}
    (h : useLines w acc write ps s = .ok (x, t)) : SideOnly s t := by
  unfold useLines at h
  obtain ⟨u, u', hg, h⟩ := run_bind.1 h
  obtain ⟨rfl, rfl⟩ := run_get.1 hg
  obtain ⟨_, v, hc, h⟩ := run_bind.1 h
  obtain rfl : fillAll (countEvents v w ps) w acc write ps = t := by
    have h' : Except.ok (PUnit.unit, fillAll (countEvents v w ps) w acc write ps) = (Except.ok (x, t) : Except Stop _) := h
    cases h'; rfl
  exact ((chargeRequests_side hc).trans (countEvents_side v w ps)).trans (fillAll_side w acc write ps _)

/-- Where the checks of an access pass, they change what `useLines` does alone (R41, R417, R439). -/
theorem checkParts_side {w : Who} {acc : Access} {read write : Bool} {ps : List Part} {s t : State} {x : Unit}
    (h : checkParts w acc read write ps s = .ok (x, t)) : SideOnly s t := by
  unfold checkParts at h
  obtain ⟨u, u', hg, h⟩ := run_bind.1 h
  obtain ⟨rfl, rfl⟩ := run_get.1 hg
  obtain ⟨_, u1, h1, h⟩ := run_bind.1 h
  obtain ⟨-, rfl⟩ := run_orStop.1 h1
  obtain ⟨_, u2, h2, h⟩ := run_bind.1 h
  obtain ⟨-, rfl⟩ := run_orStop.1 h2
  have last : ∀ {v : State}, (orStop (flawStop s w.agent acc (!read) ps) >>= fun _ => useLines w acc write ps) v = .ok (x, t) →
      SideOnly v t := by
    intro v hv
    obtain ⟨_, u3, h3, hv⟩ := run_bind.1 hv
    obtain ⟨-, rfl⟩ := run_orStop.1 h3
    exact useLines_side hv
  by_cases hw : (write && !read) = true
  · simp only [hw, if_true] at h
    obtain ⟨_, u3, h3, h⟩ := run_bind.1 h
    obtain ⟨-, rfl⟩ := run_orStop.1 h3
    exact last h
  · simp only [hw] at h
    exact last h

end Sys2Proof.Machine
end

