-- ==== Sys2Proof/Laws/MemoryForm.lean ====
section
/-! SUPPORT. Every operation that changes memory keeps its canonical form: addresses rise, and no listed byte is what an
unlisted one reads as. -/

namespace Sys2Proof.Machine

open State

/-- The form of a state's memory. -/
theorem wf_of_mem {s t : State} (h : t.mem = s.mem) (hs : Memory.wf s.mem = true) : Memory.wf t.mem = true := h ▸ hs

theorem twf_filter {α : Type} [DecidableEq α] {d : α} {t : List (Nat × α)} (h : twf d t = true) (q : Nat × α → Bool) :
    twf d (t.filter q) = true := by
  rw [twf_iff] at h ⊢
  exact ⟨h.1.filter q, fun p hp => h.2 p (List.mem_of_mem_filter hp)⟩

/-- A fold of steps that each keep the form keeps it. -/
theorem wf_foldl {α : Type} (f : State → α → State) (hf : ∀ s x, Memory.wf s.mem = true → Memory.wf (f s x).mem = true)
    (l : List α) {s : State} (hs : Memory.wf s.mem = true) : Memory.wf (l.foldl f s).mem = true := by
  induction l generalizing s with
  | nil => exact hs
  | cons x l ih => exact ih (hf s x hs)

/-- A fold of steps that each keep memory keeps it. -/
theorem mem_foldl {α : Type} (f : State → α → State) (hf : ∀ s x, (f s x).mem = s.mem) (l : List α) (s : State) :
    (l.foldl f s).mem = s.mem := by
  induction l generalizing s with
  | nil => rfl
  | cons x l ih => rw [List.foldl_cons, ih, hf]

/-! ## Plain writes -/

theorem setBytes_wf {s : State} (h : Memory.wf s.mem = true) (a : Nat) (bs : List Byte) :
    Memory.wf (s.setBytes a bs).mem = true := memPut_wf h a bs

theorem write64_wf {s : State} (h : Memory.wf s.mem = true) (a : Nat) (v : W64) : Memory.wf (s.write64 a v).mem = true :=
  setBytes_wf h a _

theorem write32_wf {s : State} (h : Memory.wf s.mem = true) (a : Nat) (v : Lane) : Memory.wf (s.write32 a v).mem = true :=
  setBytes_wf h a _

theorem putCells_wf {m : List Host.Cell} (h : Memory.wf m = true) (top : Nat) (l : List (Nat × Byte)) :
    Memory.wf (putCells m top l) = true := by
  induction l generalizing m with
  | nil => exact h
  | cons x l ih =>
    obtain ⟨a, b⟩ := x
    rw [putCells]
    apply ih
    split
    · exact memPut_wf h a [b]
    · exact h

theorem clearStorage_wf {s : State} (h : Memory.wf s.mem = true) (cs : List CoreId) (unit : Nat → Bool) :
    Memory.wf (s.clearStorage cs unit).mem = true := twf_filter h _

theorem encodeBlock_wf {s : State} (h : Memory.wf s.mem = true) (leaf : W64) (enc : Nat) (bs : List Byte) :
    Memory.wf (s.encodeBlock leaf enc bs).mem = true := setBytes_wf h enc _

theorem encodeVersion_mem (s : State) (c : CoreId) (leaf : W64) (enc : Nat) (bs : List Byte) :
    (s.encodeVersion c leaf enc bs).mem = s.mem := rfl

theorem encodeFor_wf {s : State} (h : Memory.wf s.mem = true) (o : Option CoreId) (leaf : W64) (enc : Nat) (bs : List Byte) :
    Memory.wf (s.encodeFor o leaf enc bs).mem = true := by
  unfold encodeFor
  split
  · exact wf_of_mem (encodeVersion_mem s _ leaf enc bs) h
  · exact encodeBlock_wf h leaf enc bs

/-- Stores that are performed at their slices keep the form (R148). -/
theorem performFbc_wf {s : State} (h : Memory.wf s.mem = true) (f : FbcStore) : Memory.wf (performFbc s f).mem = true :=
  encodeFor_wf h _ _ _ _

theorem drainFbc_wf {s : State} (h : Memory.wf s.mem = true) (a : AgentId) : Memory.wf (drainFbc s a).mem = true :=
  wf_foldl _ (fun _ _ hs => performFbc_wf hs _) _ h

theorem fetchMemory_wf {m : List Host.Cell} (h : Memory.wf m = true) (bs : List Byte) :
    Memory.wf (fetchMemory m bs) = true := memPut_wf (memPut_wf (memPut_wf h _ _) _ _) _ _

theorem reset_wf : Memory.wf State.reset.mem = true := rfl

/-! ## Accesses -/

theorem tagPart_mem (s : State) (a : AgentId) (acc : Access) (p : Part) : (tagPart s a acc p).mem = s.mem := by
  unfold tagPart
  split
  · rfl
  · apply mem_foldl
    intro s g
    dsimp only
    split <;> rfl

theorem learnItem_mem (s : State) (c : CoreId) (u item : Nat) (k : Known) : (s.learnItem c u item k).mem = s.mem := rfl

theorem takeGranules_mem (s : State) (a : AgentId) (item : Option Nat) (p : Part) :
    (takeGranules s a item p).mem = s.mem := by
  unfold takeGranules
  dsimp only
  refine (mem_foldl _ ?_ _ _).trans ?_
  · intro s g
    split <;> rfl
  · split
    · exact learnItem_mem _ _ _ _ _
    · rfl

theorem windowWrite_mem (s : State) (c : CoreId) (o : Nat) (bs : List Byte) : (s.windowWrite c o bs).mem = s.mem := by
  unfold windowWrite
  split
  · rfl
  · dsimp only
    split <;> rfl

theorem unstall_mem (s : State) (w : Who) (acc : Access) (p : Part) : (s.unstall w acc p).mem = s.mem := by
  unfold unstall
  split <;> rfl

/-- A read of a part changes no byte of memory. -/
theorem performRead_mem (s : State) (w : Who) (acc : Access) (p : Part) : (performRead s w acc p).2.mem = s.mem := by
  unfold performRead
  dsimp only
  have h : (if acc.fe = 1 || acc.fe = 2 then takeGranules s w.agent acc.item p else s).mem = s.mem := by
    split
    · exact takeGranules_mem s w.agent acc.item p
    · rfl
  split
  · refine (mem_foldl _ ?_ _ _).trans h
    intro _ _
    rfl
  · exact h

/-- A write of a part keeps the form, wherever the part lies. -/
theorem performWrite_wf {s : State} (h : Memory.wf s.mem = true) (w : Who) (acc : Access) (p : Part) (bs : List Byte) :
    Memory.wf (performWrite s w acc p bs).mem = true := by
  unfold performWrite
  dsimp only
  have ht : Memory.wf ((tagPart s w.agent acc p).unstall w acc p).mem = true :=
    wf_of_mem ((unstall_mem _ w acc p).trans (tagPart_mem s w.agent acc p)) h
  have inner : ∀ t : State, Memory.wf t.mem = true →
      Memory.wf (if acc.fe = 1 || acc.fe = 3 then p.feHomes.foldl (fun s h => s.setFull h true) t else t).mem = true := by
    intro t h
    split
    · refine wf_of_mem (mem_foldl _ ?_ _ _) h
      intro _ _
      rfl
    · exact h
  apply inner
  split
  · split
    · exact ht
    · exact setBytes_wf ht _ _
  · split
    · refine drainFbc_wf ?_ _
      exact ht
    · exact ht
  · exact wf_of_mem (windowWrite_mem _ _ _ _) ht

/-- A load changes no byte of memory. -/
theorem readParts_mem {w : Who} {acc : Access} {ps : List Part} {s t : State} {bs : List Byte}
    (h : readParts w acc ps s = .ok (bs, t)) : t.mem = s.mem := by
  induction ps generalizing s bs with
  | nil => obtain ⟨_, rfl⟩ := run_pure.1 h; rfl
  | cons p ps ih =>
    rw [readParts] at h
    obtain ⟨u, u', hg, h⟩ := run_bind.1 h
    obtain ⟨rfl, rfl⟩ := run_get.1 hg
    obtain ⟨_, v, hs, h⟩ := run_bind.1 h
    have hv := run_set.1 hs
    obtain ⟨rest, z, hr, h⟩ := run_bind.1 h
    obtain ⟨_, rfl⟩ := run_pure.1 h
    rw [ih hr, ← hv]
    exact performRead_mem s w acc p

/-- The writes of an access keep the form. -/
theorem writeParts_wf {w : Who} {acc : Access} {ps : List Part} {bs : List Byte} {s t : State} {x : Unit}
    (h : writeParts w acc ps bs s = .ok (x, t)) (hs : Memory.wf s.mem = true) : Memory.wf t.mem = true := by
  induction ps generalizing s bs with
  | nil => obtain ⟨_, rfl⟩ := run_pure.1 h; exact hs
  | cons p ps ih =>
    rw [writeParts] at h
    obtain ⟨u, u', hg, h⟩ := run_bind.1 h
    obtain ⟨rfl, rfl⟩ := run_get.1 hg
    obtain ⟨_, v, hv, h⟩ := run_bind.1 h
    exact ih h (run_set.1 hv ▸ performWrite_wf hs w acc p _)

theorem translateRows_mem {w : Who} {k : Kind} {fe : Bool} {rows : List (W64 × Nat)} {s t : State} {ps : List Part}
    (h : translateRows w k fe rows s = .ok (ps, t)) : t.mem = s.mem := by
  exact (translateRows_side h).mem

theorem checkParts_mem {w : Who} {acc : Access} {read write : Bool} {ps : List Part} {s t : State} {x : Unit}
    (h : checkParts w acc read write ps s = .ok (x, t)) : t.mem = s.mem := by
  exact (checkParts_side h).mem

theorem loadBytes_mem {w : Who} {k : Kind} {acc : Access} {va : W64} {n : Nat} {s t : State} {bs : List Byte}
    (h : loadBytes w k acc va n s = .ok (bs, t)) : t.mem = s.mem := by
  unfold loadBytes at h
  obtain ⟨ps, u, h1, h⟩ := run_bind.1 h
  obtain ⟨_, v, h2, h⟩ := run_bind.1 h
  rw [readParts_mem h, checkParts_mem h2, translateRows_mem h1]

theorem storeBytes_wf {w : Who} {k : Kind} {acc : Access} {va : W64} {bs : List Byte} {s t : State} {x : Unit}
    (h : storeBytes w k acc va bs s = .ok (x, t)) (hs : Memory.wf s.mem = true) : Memory.wf t.mem = true := by
  unfold storeBytes at h
  obtain ⟨ps, u, h1, h⟩ := run_bind.1 h
  obtain ⟨_, v, h2, h⟩ := run_bind.1 h
  exact writeParts_wf h (wf_of_mem (checkParts_mem h2) (wf_of_mem (translateRows_mem h1) hs))

/-! ## Writes of the device's own -/

theorem pokePart_wf {s : State} (h : Memory.wf s.mem = true) (p : Part) (bs : List Byte) :
    Memory.wf (s.pokePart p bs).mem = true := by
  unfold pokePart
  dsimp only
  split
  · exact h
  · split
    · exact setBytes_wf (s := { s with tags := _ }) h _ _
    · refine wf_foldl _ (fun s x hs => ?_) _ h
      split
      · exact hs
      · exact performFbc_wf hs _
    · exact h

/-- A translation for the Timetable keeps memory. -/
theorem tableParts_mem {s u : State} {t : PartId} {k : Kind} {va : W64} {n : Nat} {ps : List Part}
    (h : s.tableParts t k va n = some (ps, u)) : u.mem = s.mem := by
  unfold tableParts at h
  split at h
  · rename_i r hr
    cases h
    exact translateRows_mem hr
  · cases h

/-- What an access of the Timetable asks of memory controllers (R439). -/
theorem chargeTable_side (s : State) (r : MemRequest) : SideOnly s (s.chargeTable r) := by
  unfold chargeTable
  dsimp only
  split
  · exact .refl s
  · split
    · rename_i t ht
      split
      · exact (chargeOne_side ht).trans rfl
      · exact chargeOne_side ht
    · rfl

theorem draw_side (s : State) (t : PartId) (k : Kind) (va : W64) (n : Nat) : SideOnly s (s.draw t k va n) := by
  unfold draw
  dsimp only
  split
  · exact .foldl (fun u r => chargeTable_side u r) _ s
  · exact .refl s

theorem spoil_mem (s : State) (f : Flaw) (k : Nat) : (s.spoil f k).mem = s.mem := rfl

theorem poke_wf {s : State} (h : Memory.wf s.mem = true) (t : PartId) (va : W64) (bs : List Byte) :
    Memory.wf (s.poke t va bs).mem = true := by
  have fold : ∀ (ps : List Part) (b : List Byte) {u : State}, Memory.wf u.mem = true → Memory.wf
      (ps.foldl (fun (r : State × List Byte) p => (r.1.pokePart p (r.2.take p.len), r.2.drop p.len)) (u, b)).1.mem = true := by
    intro ps
    induction ps with
    | nil => exact fun _ _ h => h
    | cons p ps ih => exact fun b _ h => ih (b.drop p.len) (pokePart_wf h p (b.take p.len))
  unfold poke
  split
  · rename_i ps u hu
    have hm := wf_of_mem ((tableParts_mem hu).trans (draw_side s t .store va bs.length).mem) h
    exact fold ps bs hm
  · exact h

theorem putBank_wf {s : State} (h : Memory.wf s.mem = true) (c : CoreId) (bank : Bool) (o item : Nat) (bs : List Byte) :
    Memory.wf (s.putBank c bank o item bs).1.mem = true := by
  have fold : ∀ (keys : List Nat) (r : State × Option Nat), Memory.wf r.1.mem = true →
      Memory.wf (keys.foldl (fun (r : State × Option Nat) key =>
        match bankRace r.1 c true key with
        | some e => (r.1, r.2.orElse fun _ => some e)
        | none =>
          ({ r.1.setBytes key ((bs.drop (key - bankHome c bank o)).take 16) with
              tags := tinsert key ⟨unitAgent c 6, false, r.1.seq (unitAgent c 6), some item, true, false, none, r.1.stamp, []⟩
                (terase r.1.tags key) }, r.2)) r).1.mem = true := by
    intro keys
    induction keys with
    | nil => exact fun _ h => h
    | cons key keys ih =>
      intro r h
      rw [List.foldl_cons]
      apply ih
      cases bankRace r.1 c true key with
      | some e => exact h
      | none => exact setBytes_wf h _ _
  exact fold _ _ h

theorem report_mem (s : State) (c : CoreId) (q : QueueId) (pos cause item : Nat) : (s.report c q pos cause item).mem = s.mem := rfl

theorem reportLane_mem (s : State) (c : CoreId) (pos n : Nat) (f : Option Flaw) : (reportLane s c pos n f).mem = s.mem := by
  cases f <;> rfl

theorem writeLane_wf {s : State} (h : Memory.wf s.mem = true) (c : CoreId) (l : GridLoop) (a : Nat) (v : Lane) :
    Memory.wf (writeLane s c l a v).mem = true := by
  unfold writeLane
  split
  · exact wf_of_mem (reportLane_mem s c _ _ _) h
  · exact write32_wf h _ _

theorem applySlices_wf {s : State} (h : Memory.wf s.mem = true) (c : CoreId) (l : GridLoop) :
    Memory.wf (applySlices s c l).mem = true :=
  wf_foldl _ (fun _ _ hs => wf_foldl _ (fun _ _ hs => writeLane_wf hs _ _ _ _) _ hs) _ h

theorem memTput_wf (l : List Host.Cell) {m : List Host.Cell} (h : Memory.wf m = true) :
    Memory.wf (l.foldl (fun m (b : Host.Cell) => tput 0 m b.1 b.2) m) = true := by
  induction l generalizing m with
  | nil => exact h
  | cons b l ih => exact ih (twf_tput h b.1 b.2)

/-- A commit of a version keeps the form (R153, R230). -/
theorem commitVersion_wf {s : State} (h : Memory.wf s.mem = true) (c : CoreId) : Memory.wf (s.commitVersion c).mem = true := by
  unfold commitVersion
  split
  · exact h
  · rename_i q _
    dsimp only
    refine wf_foldl _ ?_ q.vblocks
      (s := { s with
        mem := q.vbytes.foldl (fun m (b : Host.Cell) => tput 0 m b.1 b.2) s.mem
        flaws := s.flaws.filter fun f => !versionHasWord s (some c) f.1 }) (memTput_wf q.vbytes h)
    intro s b hs
    exact setBytes_wf hs _ _

theorem discardVersion_mem (s : State) (c : CoreId) : (s.discardVersion c).mem = s.mem := by
  unfold discardVersion
  split <;> rfl

theorem rollbackSlate_wf {s : State} (h : Memory.wf s.mem = true) (c : CoreId) : Memory.wf (s.rollbackSlate c).mem = true := by
  unfold rollbackSlate
  split
  · rename_i t q _ _
    dsimp only
    refine wf_foldl _ (fun s x hs => ?_) _ h
    have hd := wf_of_mem (draw_side s t .load (s.rollbackArea t c + BitVec.ofNat 64 (4096 * (x % 128))) 4096).mem hs
    split
    · exact setBytes_wf hd _ _
    · exact wf_of_mem (report_mem _ _ _ _ _ _) (setBytes_wf hd _ _)
  · exact h

theorem guardCopy_wf {s : State} (h : Memory.wf s.mem = true) (c : CoreId) (page : Nat) :
    Memory.wf (s.guardCopy c page).mem = true := by
  unfold guardCopy
  split
  · exact h
  · rename_i t _
    dsimp only
    have hp := poke_wf h t (s.rollbackArea t c + BitVec.ofNat 64 (4096 * (page % 128)))
      (s.goodBytes (bankHome c (page / 128 = 1) (4096 * (page % 128))) 4096)
    generalize s.poke t _ _ = u at hp ⊢
    split <;> exact wf_of_mem rfl hp

end Sys2Proof.Machine
end

