-- ==== Sys2Proof/Laws/PerInstr.lean ====
section
/-! SUPPORT. The family Coding, instruction by instruction: the number and the bits that the encoder gives an
instruction are those from which the decoder builds it (R258 to R272). -/

namespace Sys2Proof.Laws.Coding

/-- What the encoder gives the instruction, the decoder's tables read back. -/
def Statement (i : Instr) : Prop :=
  (∀ n f, i.scalarCode = some (n, f) → n < 128 ∧ scalarOfOp n f = some i) ∧
  (∀ n f, i.vectorCode = some (n, f) → n < 256 ∧ vectorOfOp n f = some i) ∧
  (∀ n b, i.longCode = some (n, b) → n < 256 ∧ ∀ e w, i.wf e = true → fld w 0 50 = b → longOfOp n w = some i) ∧
  (∀ n f, i.engineCode = some (n, f) → n < 256 ∧ engineOfOp n f = some i) ∧
  (∀ n f, i.cellCode = some (n, f) → n < 64 ∧ cellOfOp n f = some i) ∧
  ∀ n b, i.patternCode = some (n, b) → n < 64 ∧ ∀ w, fld w 0 42 = b → patternOfOp n w = some i

theorem unlessOk_nil {b : Bool} {r : Nat} : unlessOk b r = [] ↔ b = true := by cases b <;> simp [unlessOk]

theorem wf_nil {e : DecodeEnv} {i : Instr} (h : i.wf e = true) : i.reasons e = [] := of_decide_eq_true h

/-- An instruction with no code of a kind. -/
theorem no_code {α : Type} {c : Option (Nat × α)} {p : Nat → α → Prop} (h : c = none) : ∀ n f, c = some (n, f) → p n f :=
  fun _ _ k => nomatch h.symm.trans k

/-- An instruction with the one code (m, g). -/
theorem one_code {α : Type} {c : Option (Nat × α)} {p : Nat → α → Prop} {m : Nat} {g : α} (h : c = some (m, g)) (hp : p m g) :
    ∀ n f, c = some (n, f) → p n f := by
  rintro n f k
  cases h.symm.trans k
  exact hp

variable {i : Instr} {n : Nat}

theorem none_coded (h1 : i.scalarCode = none) (h2 : i.vectorCode = none) (h3 : i.longCode = none)
    (h4 : i.engineCode = none) (h5 : i.cellCode = none) (h6 : i.patternCode = none) : Statement i :=
  ⟨no_code h1, no_code h2, no_code h3, no_code h4, no_code h5, no_code h6⟩

theorem scalar_coded {f : SlotS} (h : i.scalarCode = some (n, f)) (hn : decide (n < 128) = true) (hi : scalarOfOp n f = some i)
    (h2 : i.vectorCode = none) (h3 : i.longCode = none) (h4 : i.engineCode = none)
    (h5 : i.cellCode = none) (h6 : i.patternCode = none) : Statement i :=
  ⟨one_code h ⟨of_decide_eq_true hn, hi⟩, no_code h2, no_code h3, no_code h4, no_code h5, no_code h6⟩

theorem vector_coded {f : SlotV} (h : i.vectorCode = some (n, f)) (hn : decide (n < 256) = true) (hi : vectorOfOp n f = some i)
    (h1 : i.scalarCode = none) (h3 : i.longCode = none) (h4 : i.engineCode = none)
    (h5 : i.cellCode = none) (h6 : i.patternCode = none) : Statement i :=
  ⟨no_code h1, one_code h ⟨of_decide_eq_true hn, hi⟩, no_code h3, no_code h4, no_code h5, no_code h6⟩

theorem long_coded {b : BitVec 50} (h : i.longCode = some (n, b)) (hn : decide (n < 256) = true)
    (hi : ∀ e w, i.wf e = true → fld w 0 50 = b → longOfOp n w = some i)
    (h1 : i.scalarCode = none) (h2 : i.vectorCode = none) (h4 : i.engineCode = none)
    (h5 : i.cellCode = none) (h6 : i.patternCode = none) : Statement i :=
  ⟨no_code h1, no_code h2, one_code h ⟨of_decide_eq_true hn, hi⟩, no_code h4, no_code h5, no_code h6⟩

theorem engine_coded {f : Ecmd} (h : i.engineCode = some (n, f)) (hn : decide (n < 256) = true) (hi : engineOfOp n f = some i)
    (h1 : i.scalarCode = none) (h2 : i.vectorCode = none) (h3 : i.longCode = none)
    (h5 : i.cellCode = none) (h6 : i.patternCode = none) : Statement i :=
  ⟨no_code h1, no_code h2, no_code h3, one_code h ⟨of_decide_eq_true hn, hi⟩, no_code h5, no_code h6⟩

theorem cell_coded {f : CellWord} (h : i.cellCode = some (n, f)) (hn : decide (n < 64) = true) (hi : cellOfOp n f = some i)
    (h1 : i.scalarCode = none) (h2 : i.vectorCode = none) (h3 : i.longCode = none)
    (h4 : i.engineCode = none) (h6 : i.patternCode = none) : Statement i :=
  ⟨no_code h1, no_code h2, no_code h3, no_code h4, one_code h ⟨of_decide_eq_true hn, hi⟩, no_code h6⟩

theorem pattern_coded {b : BitVec 42} (h : i.patternCode = some (n, b)) (hn : decide (n < 64) = true)
    (hi : ∀ w, fld w 0 42 = b → patternOfOp n w = some i)
    (h1 : i.scalarCode = none) (h2 : i.vectorCode = none) (h3 : i.longCode = none)
    (h4 : i.engineCode = none) (h5 : i.cellCode = none) : Statement i :=
  ⟨no_code h1, no_code h2, no_code h3, no_code h4, no_code h5, one_code h ⟨of_decide_eq_true hn, hi⟩⟩

/-! ## The constructors -/

theorem snop (f : SlotS) : Statement (.snop f) := scalar_coded rfl rfl rfl rfl rfl rfl rfl rfl
theorem add (f : SlotS) : Statement (.add f) := scalar_coded rfl rfl rfl rfl rfl rfl rfl rfl
theorem sub (f : SlotS) : Statement (.sub f) := scalar_coded rfl rfl rfl rfl rfl rfl rfl rfl
theorem and (f : SlotS) : Statement (.and f) := scalar_coded rfl rfl rfl rfl rfl rfl rfl rfl
theorem or (f : SlotS) : Statement (.or f) := scalar_coded rfl rfl rfl rfl rfl rfl rfl rfl
theorem xor (f : SlotS) : Statement (.xor f) := scalar_coded rfl rfl rfl rfl rfl rfl rfl rfl
theorem andn (f : SlotS) : Statement (.andn f) := scalar_coded rfl rfl rfl rfl rfl rfl rfl rfl
theorem shl (f : SlotS) : Statement (.shl f) := scalar_coded rfl rfl rfl rfl rfl rfl rfl rfl
theorem shr (f : SlotS) : Statement (.shr f) := scalar_coded rfl rfl rfl rfl rfl rfl rfl rfl
theorem sra (f : SlotS) : Statement (.sra f) := scalar_coded rfl rfl rfl rfl rfl rfl rfl rfl
theorem mul (f : SlotS) : Statement (.mul f) := scalar_coded rfl rfl rfl rfl rfl rfl rfl rfl
theorem mulh (f : SlotS) : Statement (.mulh f) := scalar_coded rfl rfl rfl rfl rfl rfl rfl rfl
theorem mulhu (f : SlotS) : Statement (.mulhu f) := scalar_coded rfl rfl rfl rfl rfl rfl rfl rfl
theorem min (f : SlotS) : Statement (.min f) := scalar_coded rfl rfl rfl rfl rfl rfl rfl rfl
theorem max (f : SlotS) : Statement (.max f) := scalar_coded rfl rfl rfl rfl rfl rfl rfl rfl
theorem minu (f : SlotS) : Statement (.minu f) := scalar_coded rfl rfl rfl rfl rfl rfl rfl rfl
theorem maxu (f : SlotS) : Statement (.maxu f) := scalar_coded rfl rfl rfl rfl rfl rfl rfl rfl
theorem mov (f : SlotS) : Statement (.mov f) := scalar_coded rfl rfl rfl rfl rfl rfl rfl rfl
theorem addq (f : SlotS) : Statement (.addq f) := scalar_coded rfl rfl rfl rfl rfl rfl rfl rfl
theorem shlq (f : SlotS) : Statement (.shlq f) := scalar_coded rfl rfl rfl rfl rfl rfl rfl rfl
theorem shrq (f : SlotS) : Statement (.shrq f) := scalar_coded rfl rfl rfl rfl rfl rfl rfl rfl
theorem sraq (f : SlotS) : Statement (.sraq f) := scalar_coded rfl rfl rfl rfl rfl rfl rfl rfl
theorem clz (f : SlotS) : Statement (.clz f) := scalar_coded rfl rfl rfl rfl rfl rfl rfl rfl
theorem ctz (f : SlotS) : Statement (.ctz f) := scalar_coded rfl rfl rfl rfl rfl rfl rfl rfl
theorem popc (f : SlotS) : Statement (.popc f) := scalar_coded rfl rfl rfl rfl rfl rfl rfl rfl
theorem sel (f : SlotS) : Statement (.sel f) := scalar_coded rfl rfl rfl rfl rfl rfl rfl rfl
theorem setp (f : SlotS) : Statement (.setp f) := scalar_coded rfl rfl rfl rfl rfl rfl rfl rfl
theorem setpq (f : SlotS) : Statement (.setpq f) := scalar_coded rfl rfl rfl rfl rfl rfl rfl rfl
theorem pand (f : SlotS) : Statement (.pand f) := scalar_coded rfl rfl rfl rfl rfl rfl rfl rfl
theorem por (f : SlotS) : Statement (.por f) := scalar_coded rfl rfl rfl rfl rfl rfl rfl rfl
theorem pxor (f : SlotS) : Statement (.pxor f) := scalar_coded rfl rfl rfl rfl rfl rfl rfl rfl
theorem pnot (f : SlotS) : Statement (.pnot f) := scalar_coded rfl rfl rfl rfl rfl rfl rfl rfl
theorem vnop (f : SlotV) : Statement (.vnop f) := vector_coded rfl rfl rfl rfl rfl rfl rfl rfl
theorem vaddSlot (f : SlotV) : Statement (.vaddSlot f) := vector_coded rfl rfl rfl rfl rfl rfl rfl rfl
theorem vsubSlot (f : SlotV) : Statement (.vsubSlot f) := vector_coded rfl rfl rfl rfl rfl rfl rfl rfl
theorem vmulSlot (f : SlotV) : Statement (.vmulSlot f) := vector_coded rfl rfl rfl rfl rfl rfl rfl rfl
theorem vfmaSlot (f : SlotV) : Statement (.vfmaSlot f) := vector_coded rfl rfl rfl rfl rfl rfl rfl rfl
theorem vmaxSlot (f : SlotV) : Statement (.vmaxSlot f) := vector_coded rfl rfl rfl rfl rfl rfl rfl rfl
theorem vminSlot (f : SlotV) : Statement (.vminSlot f) := vector_coded rfl rfl rfl rfl rfl rfl rfl rfl
theorem vabsSlot (f : SlotV) : Statement (.vabsSlot f) := vector_coded rfl rfl rfl rfl rfl rfl rfl rfl
theorem vnegSlot (f : SlotV) : Statement (.vnegSlot f) := vector_coded rfl rfl rfl rfl rfl rfl rfl rfl
theorem vandSlot (f : SlotV) : Statement (.vandSlot f) := vector_coded rfl rfl rfl rfl rfl rfl rfl rfl
theorem vorSlot (f : SlotV) : Statement (.vorSlot f) := vector_coded rfl rfl rfl rfl rfl rfl rfl rfl
theorem vxorSlot (f : SlotV) : Statement (.vxorSlot f) := vector_coded rfl rfl rfl rfl rfl rfl rfl rfl
theorem vshlSlot (f : SlotV) : Statement (.vshlSlot f) := vector_coded rfl rfl rfl rfl rfl rfl rfl rfl
theorem vshrSlot (f : SlotV) : Statement (.vshrSlot f) := vector_coded rfl rfl rfl rfl rfl rfl rfl rfl
theorem vcmpSlot (f : SlotV) : Statement (.vcmpSlot f) := vector_coded rfl rfl rfl rfl rfl rfl rfl rfl
theorem vselSlot (f : SlotV) : Statement (.vselSlot f) := vector_coded rfl rfl rfl rfl rfl rfl rfl rfl
theorem vcvtSlot (f : SlotV) : Statement (.vcvtSlot f) := vector_coded rfl rfl rfl rfl rfl rfl rfl rfl
theorem vmovSlot (f : SlotV) : Statement (.vmovSlot f) := vector_coded rfl rfl rfl rfl rfl rfl rfl rfl
theorem vcaccSlot (f : SlotV) : Statement (.vcaccSlot f) := vector_coded rfl rfl rfl rfl rfl rfl rfl rfl
theorem vtwosumSlot (f : SlotV) : Statement (.vtwosumSlot f) := vector_coded rfl rfl rfl rfl rfl rfl rfl rfl
theorem vredSlot (f : SlotV) : Statement (.vredSlot f) := vector_coded rfl rfl rfl rfl rfl rfl rfl rfl
theorem addi (f : La) : Statement (.addi f) := long_coded rfl rfl (fun _ _ _ h => congrArg (fun x => some (Instr.addi x)) (La.of_bits h)) rfl rfl rfl rfl rfl
theorem andi (f : La) : Statement (.andi f) := long_coded rfl rfl (fun _ _ _ h => congrArg (fun x => some (Instr.andi x)) (La.of_bits h)) rfl rfl rfl rfl rfl
theorem ori (f : La) : Statement (.ori f) := long_coded rfl rfl (fun _ _ _ h => congrArg (fun x => some (Instr.ori x)) (La.of_bits h)) rfl rfl rfl rfl rfl
theorem xori (f : La) : Statement (.xori f) := long_coded rfl rfl (fun _ _ _ h => congrArg (fun x => some (Instr.xori x)) (La.of_bits h)) rfl rfl rfl rfl rfl
theorem shli (f : La) : Statement (.shli f) := long_coded rfl rfl (fun _ _ _ h => congrArg (fun x => some (Instr.shli x)) (La.of_bits h)) rfl rfl rfl rfl rfl
theorem shri (f : La) : Statement (.shri f) := long_coded rfl rfl (fun _ _ _ h => congrArg (fun x => some (Instr.shri x)) (La.of_bits h)) rfl rfl rfl rfl rfl
theorem srai (f : La) : Statement (.srai f) := long_coded rfl rfl (fun _ _ _ h => congrArg (fun x => some (Instr.srai x)) (La.of_bits h)) rfl rfl rfl rfl rfl
theorem muli (f : La) : Statement (.muli f) := long_coded rfl rfl (fun _ _ _ h => congrArg (fun x => some (Instr.muli x)) (La.of_bits h)) rfl rfl rfl rfl rfl
theorem li (f : La) : Statement (.li f) := long_coded rfl rfl (fun _ _ _ h => congrArg (fun x => some (Instr.li x)) (La.of_bits h)) rfl rfl rfl rfl rfl
theorem lui (f : La) : Statement (.lui f) := long_coded rfl rfl (fun _ _ _ h => congrArg (fun x => some (Instr.lui x)) (La.of_bits h)) rfl rfl rfl rfl rfl
theorem slti (f : La) : Statement (.slti f) := long_coded rfl rfl (fun _ _ _ h => congrArg (fun x => some (Instr.slti x)) (La.of_bits h)) rfl rfl rfl rfl rfl
theorem setpi (f : La) : Statement (.setpi f) := long_coded rfl rfl (fun _ _ _ h => congrArg (fun x => some (Instr.setpi x)) (La.of_bits h)) rfl rfl rfl rfl rfl
theorem div (f : Lb) : Statement (.div f) := long_coded rfl rfl (fun _ _ _ h => congrArg (fun x => some (Instr.div x)) (Lb.of_bits h)) rfl rfl rfl rfl rfl
theorem divu (f : Lb) : Statement (.divu f) := long_coded rfl rfl (fun _ _ _ h => congrArg (fun x => some (Instr.divu x)) (Lb.of_bits h)) rfl rfl rfl rfl rfl
theorem rem (f : Lb) : Statement (.rem f) := long_coded rfl rfl (fun _ _ _ h => congrArg (fun x => some (Instr.rem x)) (Lb.of_bits h)) rfl rfl rfl rfl rfl
theorem remu (f : Lb) : Statement (.remu f) := long_coded rfl rfl (fun _ _ _ h => congrArg (fun x => some (Instr.remu x)) (Lb.of_bits h)) rfl rfl rfl rfl rfl
theorem fadd (f : Lb) : Statement (.fadd f) := long_coded rfl rfl (fun _ _ _ h => congrArg (fun x => some (Instr.fadd x)) (Lb.of_bits h)) rfl rfl rfl rfl rfl
theorem fsub (f : Lb) : Statement (.fsub f) := long_coded rfl rfl (fun _ _ _ h => congrArg (fun x => some (Instr.fsub x)) (Lb.of_bits h)) rfl rfl rfl rfl rfl
theorem fmul (f : Lb) : Statement (.fmul f) := long_coded rfl rfl (fun _ _ _ h => congrArg (fun x => some (Instr.fmul x)) (Lb.of_bits h)) rfl rfl rfl rfl rfl
theorem ffma (f : Lb) : Statement (.ffma f) := long_coded rfl rfl (fun _ _ _ h => congrArg (fun x => some (Instr.ffma x)) (Lb.of_bits h)) rfl rfl rfl rfl rfl
theorem fdiv (f : Lb) : Statement (.fdiv f) := long_coded rfl rfl (fun _ _ _ h => congrArg (fun x => some (Instr.fdiv x)) (Lb.of_bits h)) rfl rfl rfl rfl rfl
theorem fsqrt (f : Lb) : Statement (.fsqrt f) := long_coded rfl rfl (fun _ _ _ h => congrArg (fun x => some (Instr.fsqrt x)) (Lb.of_bits h)) rfl rfl rfl rfl rfl
theorem fmin (f : Lb) : Statement (.fmin f) := long_coded rfl rfl (fun _ _ _ h => congrArg (fun x => some (Instr.fmin x)) (Lb.of_bits h)) rfl rfl rfl rfl rfl
theorem fmax (f : Lb) : Statement (.fmax f) := long_coded rfl rfl (fun _ _ _ h => congrArg (fun x => some (Instr.fmax x)) (Lb.of_bits h)) rfl rfl rfl rfl rfl
theorem fcmp (f : Lb) : Statement (.fcmp f) := long_coded rfl rfl (fun _ _ _ h => congrArg (fun x => some (Instr.fcmp x)) (Lb.of_bits h)) rfl rfl rfl rfl rfl
theorem fcvt (f : Lb) : Statement (.fcvt f) := long_coded rfl rfl (fun _ _ _ h => congrArg (fun x => some (Instr.fcvt x)) (Lb.of_bits h)) rfl rfl rfl rfl rfl
theorem br (f : La) : Statement (.br f) := long_coded rfl rfl (fun _ _ _ h => congrArg (fun x => some (Instr.br x)) (La.of_bits h)) rfl rfl rfl rfl rfl
theorem call (f : La) : Statement (.call f) := long_coded rfl rfl (fun _ _ _ h => congrArg (fun x => some (Instr.call x)) (La.of_bits h)) rfl rfl rfl rfl rfl
theorem loop (f : La) : Statement (.loop f) := long_coded rfl rfl (fun _ _ _ h => congrArg (fun x => some (Instr.loop x)) (La.of_bits h)) rfl rfl rfl rfl rfl
theorem ret (f : Lb) : Statement (.ret f) := long_coded rfl rfl (fun _ _ _ h => congrArg (fun x => some (Instr.ret x)) (Lb.of_bits h)) rfl rfl rfl rfl rfl
theorem jmpr (f : Lb) : Statement (.jmpr f) := long_coded rfl rfl (fun _ _ _ h => congrArg (fun x => some (Instr.jmpr x)) (Lb.of_bits h)) rfl rfl rfl rfl rfl
theorem callr (f : Lb) : Statement (.callr f) := long_coded rfl rfl (fun _ _ _ h => congrArg (fun x => some (Instr.callr x)) (Lb.of_bits h)) rfl rfl rfl rfl rfl
theorem halt (f : Lb) : Statement (.halt f) := long_coded rfl rfl (fun _ _ _ h => congrArg (fun x => some (Instr.halt x)) (Lb.of_bits h)) rfl rfl rfl rfl rfl
theorem yield (f : Lb) : Statement (.yield f) := long_coded rfl rfl (fun _ _ _ h => congrArg (fun x => some (Instr.yield x)) (Lb.of_bits h)) rfl rfl rfl rfl rfl
theorem syscall (f : La) : Statement (.syscall f) := long_coded rfl rfl (fun _ _ _ h => congrArg (fun x => some (Instr.syscall x)) (La.of_bits h)) rfl rfl rfl rfl rfl
theorem brk (f : La) : Statement (.brk f) := long_coded rfl rfl (fun _ _ _ h => congrArg (fun x => some (Instr.brk x)) (La.of_bits h)) rfl rfl rfl rfl rfl
theorem wfb (f : Lb) : Statement (.wfb f) := long_coded rfl rfl (fun _ _ _ h => congrArg (fun x => some (Instr.wfb x)) (Lb.of_bits h)) rfl rfl rfl rfl rfl
theorem ld (f : Lm) : Statement (.ld f) := long_coded rfl rfl (fun _ _ _ h => congrArg (fun x => some (Instr.ld x)) (Lm.of_bits h)) rfl rfl rfl rfl rfl
theorem st (f : Lm) : Statement (.st f) := long_coded rfl rfl (fun _ _ _ h => congrArg (fun x => some (Instr.st x)) (Lm.of_bits h)) rfl rfl rfl rfl rfl
theorem ldp (f : Lm) : Statement (.ldp f) := long_coded rfl rfl (fun _ _ _ h => congrArg (fun x => some (Instr.ldp x)) (Lm.of_bits h)) rfl rfl rfl rfl rfl
theorem stp (f : Lm) : Statement (.stp f) := long_coded rfl rfl (fun _ _ _ h => congrArg (fun x => some (Instr.stp x)) (Lm.of_bits h)) rfl rfl rfl rfl rfl
theorem ldv (f : Lm) : Statement (.ldv f) := long_coded rfl rfl (fun _ _ _ h => congrArg (fun x => some (Instr.ldv x)) (Lm.of_bits h)) rfl rfl rfl rfl rfl
theorem stv (f : Lm) : Statement (.stv f) := long_coded rfl rfl (fun _ _ _ h => congrArg (fun x => some (Instr.stv x)) (Lm.of_bits h)) rfl rfl rfl rfl rfl
theorem ldt (f : Lm) : Statement (.ldt f) := long_coded rfl rfl (fun _ _ _ h => congrArg (fun x => some (Instr.ldt x)) (Lm.of_bits h)) rfl rfl rfl rfl rfl
theorem stt (f : Lm) : Statement (.stt f) := long_coded rfl rfl (fun _ _ _ h => congrArg (fun x => some (Instr.stt x)) (Lm.of_bits h)) rfl rfl rfl rfl rfl
theorem pref (f : Lm) : Statement (.pref f) := long_coded rfl rfl (fun _ _ _ h => congrArg (fun x => some (Instr.pref x)) (Lm.of_bits h)) rfl rfl rfl rfl rfl
theorem fence (f : Lm) : Statement (.fence f) := long_coded rfl rfl (fun _ _ _ h => congrArg (fun x => some (Instr.fence x)) (Lm.of_bits h)) rfl rfl rfl rfl rfl
theorem amo (f : Lm) : Statement (.amo f) := long_coded rfl rfl (fun _ _ _ h => congrArg (fun x => some (Instr.amo x)) (Lm.of_bits h)) rfl rfl rfl rfl rfl
theorem cas (f : Lm) : Statement (.cas f) := long_coded rfl rfl (fun _ _ _ h => congrArg (fun x => some (Instr.cas x)) (Lm.of_bits h)) rfl rfl rfl rfl rfl
theorem enq (f : Lm) : Statement (.enq f) := by
  refine long_coded rfl rfl (fun _ w hw h => ?_) rfl rfl rfl rfl rfl
  have hx := unlessOk_nil.1 (List.append_eq_nil_iff.1 (wf_nil hw)).2
  simp only [decide_eq_true_eq] at hx
  show (some (if w.getLsbD 0 then .enqCommit (.of w) else .enq (.of w)) : Option Instr) = _
  simp only [Lm.x_bit_of_bits h 0 (by decide), hx, Lm.of_bits h]
  rfl
theorem enqCommit (f : Lm) : Statement (.enqCommit f) := by
  refine long_coded rfl rfl (fun _ w hw h => ?_) rfl rfl rfl rfl rfl
  have hx := unlessOk_nil.1 (List.append_eq_nil_iff.1 (wf_nil hw)).2
  simp only [decide_eq_true_eq] at hx
  show (some (if w.getLsbD 0 then .enqCommit (.of w) else .enq (.of w)) : Option Instr) = _
  simp only [Lm.x_bit_of_bits h 0 (by decide), hx, Lm.of_bits h]
  rfl
theorem deq (f : Lm) : Statement (.deq f) := by
  refine long_coded rfl rfl (fun _ w hw h => ?_) rfl rfl rfl rfl rfl
  have hx := unlessOk_nil.1 (List.append_eq_nil_iff.1 (wf_nil hw)).2
  simp only [decide_eq_true_eq] at hx
  show (some (if w.getLsbD 0 then .deqFree (.of w) else .deq (.of w)) : Option Instr) = _
  simp only [Lm.x_bit_of_bits h 0 (by decide), hx, Lm.of_bits h]
  rfl
theorem deqFree (f : Lm) : Statement (.deqFree f) := by
  refine long_coded rfl rfl (fun _ w hw h => ?_) rfl rfl rfl rfl rfl
  have hx := unlessOk_nil.1 (List.append_eq_nil_iff.1 (wf_nil hw)).2
  simp only [decide_eq_true_eq] at hx
  show (some (if w.getLsbD 0 then .deqFree (.of w) else .deq (.of w)) : Option Instr) = _
  simp only [Lm.x_bit_of_bits h 0 (by decide), hx, Lm.of_bits h]
  rfl
theorem qpush (f : Lb) : Statement (.qpush f) := long_coded rfl rfl (fun _ _ _ h => congrArg (fun x => some (Instr.qpush x)) (Lb.of_bits h)) rfl rfl rfl rfl rfl
theorem qpop (f : Lb) : Statement (.qpop f) := long_coded rfl rfl (fun _ _ _ h => congrArg (fun x => some (Instr.qpop x)) (Lb.of_bits h)) rfl rfl rfl rfl rfl
theorem vadd (f : Lv) : Statement (.vadd f) := long_coded rfl rfl (fun _ _ _ h => congrArg (fun x => some (Instr.vadd x)) (Lv.of_bits h)) rfl rfl rfl rfl rfl
theorem vsub (f : Lv) : Statement (.vsub f) := long_coded rfl rfl (fun _ _ _ h => congrArg (fun x => some (Instr.vsub x)) (Lv.of_bits h)) rfl rfl rfl rfl rfl
theorem vmul (f : Lv) : Statement (.vmul f) := long_coded rfl rfl (fun _ _ _ h => congrArg (fun x => some (Instr.vmul x)) (Lv.of_bits h)) rfl rfl rfl rfl rfl
theorem vfma (f : Lv) : Statement (.vfma f) := long_coded rfl rfl (fun _ _ _ h => congrArg (fun x => some (Instr.vfma x)) (Lv.of_bits h)) rfl rfl rfl rfl rfl
theorem vmax (f : Lv) : Statement (.vmax f) := long_coded rfl rfl (fun _ _ _ h => congrArg (fun x => some (Instr.vmax x)) (Lv.of_bits h)) rfl rfl rfl rfl rfl
theorem vmin (f : Lv) : Statement (.vmin f) := long_coded rfl rfl (fun _ _ _ h => congrArg (fun x => some (Instr.vmin x)) (Lv.of_bits h)) rfl rfl rfl rfl rfl
theorem vabs (f : Lv) : Statement (.vabs f) := long_coded rfl rfl (fun _ _ _ h => congrArg (fun x => some (Instr.vabs x)) (Lv.of_bits h)) rfl rfl rfl rfl rfl
theorem vneg (f : Lv) : Statement (.vneg f) := long_coded rfl rfl (fun _ _ _ h => congrArg (fun x => some (Instr.vneg x)) (Lv.of_bits h)) rfl rfl rfl rfl rfl
theorem vand (f : Lv) : Statement (.vand f) := long_coded rfl rfl (fun _ _ _ h => congrArg (fun x => some (Instr.vand x)) (Lv.of_bits h)) rfl rfl rfl rfl rfl
theorem vor (f : Lv) : Statement (.vor f) := long_coded rfl rfl (fun _ _ _ h => congrArg (fun x => some (Instr.vor x)) (Lv.of_bits h)) rfl rfl rfl rfl rfl
theorem vxor (f : Lv) : Statement (.vxor f) := long_coded rfl rfl (fun _ _ _ h => congrArg (fun x => some (Instr.vxor x)) (Lv.of_bits h)) rfl rfl rfl rfl rfl
theorem vshl (f : Lv) : Statement (.vshl f) := long_coded rfl rfl (fun _ _ _ h => congrArg (fun x => some (Instr.vshl x)) (Lv.of_bits h)) rfl rfl rfl rfl rfl
theorem vshr (f : Lv) : Statement (.vshr f) := long_coded rfl rfl (fun _ _ _ h => congrArg (fun x => some (Instr.vshr x)) (Lv.of_bits h)) rfl rfl rfl rfl rfl
theorem vcmp (f : Lv) : Statement (.vcmp f) := long_coded rfl rfl (fun _ _ _ h => congrArg (fun x => some (Instr.vcmp x)) (Lv.of_bits h)) rfl rfl rfl rfl rfl
theorem vsel (f : Lv) : Statement (.vsel f) := long_coded rfl rfl (fun _ _ _ h => congrArg (fun x => some (Instr.vsel x)) (Lv.of_bits h)) rfl rfl rfl rfl rfl
theorem vcvt (f : Lv) : Statement (.vcvt f) := long_coded rfl rfl (fun _ _ _ h => congrArg (fun x => some (Instr.vcvt x)) (Lv.of_bits h)) rfl rfl rfl rfl rfl
theorem vmov (f : Lv) : Statement (.vmov f) := long_coded rfl rfl (fun _ _ _ h => congrArg (fun x => some (Instr.vmov x)) (Lv.of_bits h)) rfl rfl rfl rfl rfl
theorem vcacc (f : Lv) : Statement (.vcacc f) := long_coded rfl rfl (fun _ _ _ h => congrArg (fun x => some (Instr.vcacc x)) (Lv.of_bits h)) rfl rfl rfl rfl rfl
theorem vtwosum (f : Lv) : Statement (.vtwosum f) := long_coded rfl rfl (fun _ _ _ h => congrArg (fun x => some (Instr.vtwosum x)) (Lv.of_bits h)) rfl rfl rfl rfl rfl
theorem vred (f : Lv) : Statement (.vred f) := long_coded rfl rfl (fun _ _ _ h => congrArg (fun x => some (Instr.vred x)) (Lv.of_bits h)) rfl rfl rfl rfl rfl
theorem vexp2 (f : Lv) : Statement (.vexp2 f) := long_coded rfl rfl (fun _ _ _ h => congrArg (fun x => some (Instr.vexp2 x)) (Lv.of_bits h)) rfl rfl rfl rfl rfl
theorem vrcp (f : Lv) : Statement (.vrcp f) := long_coded rfl rfl (fun _ _ _ h => congrArg (fun x => some (Instr.vrcp x)) (Lv.of_bits h)) rfl rfl rfl rfl rfl
theorem vrsq (f : Lv) : Statement (.vrsq f) := long_coded rfl rfl (fun _ _ _ h => congrArg (fun x => some (Instr.vrsq x)) (Lv.of_bits h)) rfl rfl rfl rfl rfl
theorem vsplat (f : Lv) : Statement (.vsplat f) := long_coded rfl rfl (fun _ _ _ h => congrArg (fun x => some (Instr.vsplat x)) (Lv.of_bits h)) rfl rfl rfl rfl rfl
theorem vextr (f : Lv) : Statement (.vextr f) := long_coded rfl rfl (fun _ _ _ h => congrArg (fun x => some (Instr.vextr x)) (Lv.of_bits h)) rfl rfl rfl rfl rfl
theorem vperm (f : Lv) : Statement (.vperm f) := long_coded rfl rfl (fun _ _ _ h => congrArg (fun x => some (Instr.vperm x)) (Lv.of_bits h)) rfl rfl rfl rfl rfl
theorem vquant (f : Lv) : Statement (.vquant f) := long_coded rfl rfl (fun _ _ _ h => congrArg (fun x => some (Instr.vquant x)) (Lv.of_bits h)) rfl rfl rfl rfl rfl
theorem tclr (f : Lb) : Statement (.tclr f) := long_coded rfl rfl (fun _ _ _ h => congrArg (fun x => some (Instr.tclr x)) (Lb.of_bits h)) rfl rfl rfl rfl rfl
theorem tmark (f : Lb) : Statement (.tmark f) := long_coded rfl rfl (fun _ _ _ h => congrArg (fun x => some (Instr.tmark x)) (Lb.of_bits h)) rfl rfl rfl rfl rfl
theorem twait (f : Lb) : Statement (.twait f) := long_coded rfl rfl (fun _ _ _ h => congrArg (fun x => some (Instr.twait x)) (Lb.of_bits h)) rfl rfl rfl rfl rfl
theorem fwait (f : Ls) : Statement (.fwait f) := long_coded rfl rfl (fun _ _ _ h => congrArg (fun x => some (Instr.fwait x)) (Ls.of_bits h)) rfl rfl rfl rfl rfl
theorem fsig (f : Ls) : Statement (.fsig f) := long_coded rfl rfl (fun _ _ _ h => congrArg (fun x => some (Instr.fsig x)) (Ls.of_bits h)) rfl rfl rfl rfl rfl
theorem frd (f : Ls) : Statement (.frd f) := long_coded rfl rfl (fun _ _ _ h => congrArg (fun x => some (Instr.frd x)) (Ls.of_bits h)) rfl rfl rfl rfl rfl
theorem fset (f : Ls) : Statement (.fset f) := long_coded rfl rfl (fun _ _ _ h => congrArg (fun x => some (Instr.fset x)) (Ls.of_bits h)) rfl rfl rfl rfl rfl
theorem fwin (f : Ls) : Statement (.fwin f) := long_coded rfl rfl (fun _ _ _ h => congrArg (fun x => some (Instr.fwin x)) (Ls.of_bits h)) rfl rfl rfl rfl rfl
theorem spawn (f : La) : Statement (.spawn f) := long_coded rfl rfl (fun _ _ _ h => congrArg (fun x => some (Instr.spawn x)) (La.of_bits h)) rfl rfl rfl rfl rfl
theorem work (f : Lb) : Statement (.work f) := long_coded rfl rfl (fun _ _ _ h => congrArg (fun x => some (Instr.work x)) (Lb.of_bits h)) rfl rfl rfl rfl rfl
theorem done (f : Lb) : Statement (.done f) := long_coded rfl rfl (fun _ _ _ h => congrArg (fun x => some (Instr.done x)) (Lb.of_bits h)) rfl rfl rfl rfl rfl
theorem gbar (f : La) : Statement (.gbar f) := long_coded rfl rfl (fun _ _ _ h => congrArg (fun x => some (Instr.gbar x)) (La.of_bits h)) rfl rfl rfl rfl rfl
theorem rdsr (f : La) : Statement (.rdsr f) := long_coded rfl rfl (fun _ _ _ h => congrArg (fun x => some (Instr.rdsr x)) (La.of_bits h)) rfl rfl rfl rfl rfl
theorem wrsr (f : La) : Statement (.wrsr f) := long_coded rfl rfl (fun _ _ _ h => congrArg (fun x => some (Instr.wrsr x)) (La.of_bits h)) rfl rfl rfl rfl rfl
theorem featq (f : Lb) : Statement (.featq f) := long_coded rfl rfl (fun _ _ _ h => congrArg (fun x => some (Instr.featq x)) (Lb.of_bits h)) rfl rfl rfl rfl rfl
theorem locq (f : La) : Statement (.locq f) := long_coded rfl rfl (fun _ _ _ h => congrArg (fun x => some (Instr.locq x)) (La.of_bits h)) rfl rfl rfl rfl rfl
theorem cycle (f : Lb) : Statement (.cycle f) := long_coded rfl rfl (fun _ _ _ h => congrArg (fun x => some (Instr.cycle x)) (Lb.of_bits h)) rfl rfl rfl rfl rfl
theorem regpwr (f : La) : Statement (.regpwr f) := long_coded rfl rfl (fun _ _ _ h => congrArg (fun x => some (Instr.regpwr x)) (La.of_bits h)) rfl rfl rfl rfl rfl
theorem trapret (f : Lb) : Statement (.trapret f) := long_coded rfl rfl (fun _ _ _ h => congrArg (fun x => some (Instr.trapret x)) (Lb.of_bits h)) rfl rfl rfl rfl rfl
theorem tlbinvAll (f : La) : Statement (.tlbinvAll f) := by
  refine long_coded rfl rfl (fun _ w hw h => ?_) rfl rfl rfl rfl rfl
  have hx := unlessOk_nil.1 (List.append_eq_nil_iff.1 (wf_nil hw)).2
  simp only [Bool.and_eq_true, decide_eq_true_eq] at hx
  show (some (if fld w 0 3 = 0 then .tlbinvAll (.of w) else if fld w 0 3 = 1 then .tlbinvSpace (.of w) else .tlbinvPage (.of w)) : Option Instr) = _
  simp only [La.x_of_bits h 0 3 (by decide), hx.2, La.of_bits h]
  rfl
theorem tlbinvSpace (f : La) : Statement (.tlbinvSpace f) := by
  refine long_coded rfl rfl (fun _ w hw h => ?_) rfl rfl rfl rfl rfl
  have hx := unlessOk_nil.1 (List.append_eq_nil_iff.1 (wf_nil hw)).2
  simp only [Bool.and_eq_true, decide_eq_true_eq] at hx
  show (some (if fld w 0 3 = 0 then .tlbinvAll (.of w) else if fld w 0 3 = 1 then .tlbinvSpace (.of w) else .tlbinvPage (.of w)) : Option Instr) = _
  simp only [La.x_of_bits h 0 3 (by decide), hx.2, La.of_bits h]
  rfl
theorem tlbinvPage (f : La) : Statement (.tlbinvPage f) := by
  refine long_coded rfl rfl (fun _ w hw h => ?_) rfl rfl rfl rfl rfl
  have hx := unlessOk_nil.1 (List.append_eq_nil_iff.1 (wf_nil hw)).2
  simp only [Bool.and_eq_true, decide_eq_true_eq] at hx
  show (some (if fld w 0 3 = 0 then .tlbinvAll (.of w) else if fld w 0 3 = 1 then .tlbinvSpace (.of w) else .tlbinvPage (.of w)) : Option Instr) = _
  simp only [La.x_of_bits h 0 3 (by decide), hx.2, La.of_bits h]
  rfl
theorem winmap (f : La) : Statement (.winmap f) := by
  refine long_coded rfl rfl (fun _ w hw h => ?_) rfl rfl rfl rfl rfl
  have hx := unlessOk_nil.1 (List.append_eq_nil_iff.1 (wf_nil hw)).2
  simp only [Bool.and_eq_true, decide_eq_true_eq] at hx
  show (some (if w.getLsbD 0 then .winmapRoot (.of w) else .winmap (.of w)) : Option Instr) = _
  simp only [La.x_bit_of_bits h 0 (by decide), hx.2, La.of_bits h]
  rfl
theorem winmapRoot (f : La) : Statement (.winmapRoot f) := by
  refine long_coded rfl rfl (fun _ w hw h => ?_) rfl rfl rfl rfl rfl
  have hx := unlessOk_nil.1 (List.append_eq_nil_iff.1 (wf_nil hw)).2
  simp only [Bool.and_eq_true, decide_eq_true_eq] at hx
  show (some (if w.getLsbD 0 then .winmapRoot (.of w) else .winmap (.of w)) : Option Instr) = _
  simp only [La.x_bit_of_bits h 0 (by decide), hx.2, La.of_bits h]
  rfl
theorem partcfgAssign (f : La) : Statement (.partcfgAssign f) := by
  refine long_coded rfl rfl (fun _ w hw h => ?_) rfl rfl rfl rfl rfl
  have hx := unlessOk_nil.1 (List.append_eq_nil_iff.1 (wf_nil hw)).2
  simp only [decide_eq_true_eq] at hx
  show (some (if fld w 5 3 = 0 then .partcfgAssign (.of w) else .partcfgRelease (.of w)) : Option Instr) = _
  simp only [La.x_of_bits h 5 3 (by decide), hx, La.of_bits h]
  rfl
theorem partcfgRelease (f : La) : Statement (.partcfgRelease f) := by
  refine long_coded rfl rfl (fun _ w hw h => ?_) rfl rfl rfl rfl rfl
  have hx := unlessOk_nil.1 (List.append_eq_nil_iff.1 (wf_nil hw)).2
  simp only [decide_eq_true_eq] at hx
  show (some (if fld w 5 3 = 0 then .partcfgAssign (.of w) else .partcfgRelease (.of w)) : Option Instr) = _
  simp only [La.x_of_bits h 5 3 (by decide), hx, La.of_bits h]
  rfl
theorem ttcmdWeight (f : La) : Statement (.ttcmdWeight f) := by
  refine long_coded rfl rfl (fun _ w hw h => ?_) rfl rfl rfl rfl rfl
  have hx := unlessOk_nil.1 (List.append_eq_nil_iff.1 (wf_nil hw)).2
  simp only [Bool.and_eq_true, decide_eq_true_eq] at hx
  show (some (if fld w 0 8 = 0 then .ttcmdWeight (.of w) else if fld w 0 8 = 1 then .ttcmdClose (.of w) else if fld w 0 8 = 2 then .ttcmdQuiesce (.of w) else .ttcmdResume (.of w)) : Option Instr) = _
  simp only [La.x_of_bits h 0 8 (by decide), hx.1, La.of_bits h]
  rfl
theorem ttcmdClose (f : La) : Statement (.ttcmdClose f) := by
  refine long_coded rfl rfl (fun _ w hw h => ?_) rfl rfl rfl rfl rfl
  have hx := unlessOk_nil.1 (List.append_eq_nil_iff.1 (wf_nil hw)).2
  simp only [Bool.and_eq_true, decide_eq_true_eq] at hx
  show (some (if fld w 0 8 = 0 then .ttcmdWeight (.of w) else if fld w 0 8 = 1 then .ttcmdClose (.of w) else if fld w 0 8 = 2 then .ttcmdQuiesce (.of w) else .ttcmdResume (.of w)) : Option Instr) = _
  simp only [La.x_of_bits h 0 8 (by decide), hx.1, La.of_bits h]
  rfl
theorem ttcmdQuiesce (f : La) : Statement (.ttcmdQuiesce f) := by
  refine long_coded rfl rfl (fun _ w hw h => ?_) rfl rfl rfl rfl rfl
  have hx := unlessOk_nil.1 (List.append_eq_nil_iff.1 (wf_nil hw)).2
  simp only [Bool.and_eq_true, decide_eq_true_eq] at hx
  show (some (if fld w 0 8 = 0 then .ttcmdWeight (.of w) else if fld w 0 8 = 1 then .ttcmdClose (.of w) else if fld w 0 8 = 2 then .ttcmdQuiesce (.of w) else .ttcmdResume (.of w)) : Option Instr) = _
  simp only [La.x_of_bits h 0 8 (by decide), hx.1, La.of_bits h]
  rfl
theorem ttcmdResume (f : La) : Statement (.ttcmdResume f) := by
  refine long_coded rfl rfl (fun _ w hw h => ?_) rfl rfl rfl rfl rfl
  have hx := unlessOk_nil.1 (List.append_eq_nil_iff.1 (wf_nil hw)).2
  simp only [Bool.and_eq_true, decide_eq_true_eq] at hx
  show (some (if fld w 0 8 = 0 then .ttcmdWeight (.of w) else if fld w 0 8 = 1 then .ttcmdClose (.of w) else if fld w 0 8 = 2 then .ttcmdQuiesce (.of w) else .ttcmdResume (.of w)) : Option Instr) = _
  simp only [La.x_of_bits h 0 8 (by decide), hx.1, La.of_bits h]
  rfl
theorem corectlClrfeat (f : La) : Statement (.corectlClrfeat f) := by
  refine long_coded rfl rfl (fun _ w hw h => ?_) rfl rfl rfl rfl rfl
  have hx := unlessOk_nil.1 (List.append_eq_nil_iff.1 (wf_nil hw)).2
  simp only [Bool.and_eq_true, decide_eq_true_eq] at hx
  show (some (if fld w 0 3 = 0 then .corectlClrfeat (.of w) else if fld w 0 3 = 1 then .corectlHalt (.of w) else .corectlState (.of w)) : Option Instr) = _
  simp only [La.x_of_bits h 0 3 (by decide), hx.2, La.of_bits h]
  rfl
theorem corectlHalt (f : La) : Statement (.corectlHalt f) := by
  refine long_coded rfl rfl (fun _ w hw h => ?_) rfl rfl rfl rfl rfl
  have hx := unlessOk_nil.1 (List.append_eq_nil_iff.1 (wf_nil hw)).2
  simp only [Bool.and_eq_true, decide_eq_true_eq] at hx
  show (some (if fld w 0 3 = 0 then .corectlClrfeat (.of w) else if fld w 0 3 = 1 then .corectlHalt (.of w) else .corectlState (.of w)) : Option Instr) = _
  simp only [La.x_of_bits h 0 3 (by decide), hx.2, La.of_bits h]
  rfl
theorem corectlState (f : La) : Statement (.corectlState f) := by
  refine long_coded rfl rfl (fun _ w hw h => ?_) rfl rfl rfl rfl rfl
  have hx := unlessOk_nil.1 (List.append_eq_nil_iff.1 (wf_nil hw)).2
  simp only [Bool.and_eq_true, decide_eq_true_eq] at hx
  show (some (if fld w 0 3 = 0 then .corectlClrfeat (.of w) else if fld w 0 3 = 1 then .corectlHalt (.of w) else .corectlState (.of w)) : Option Instr) = _
  simp only [La.x_of_bits h 0 3 (by decide), hx.2, La.of_bits h]
  rfl
theorem attest (f : La) : Statement (.attest f) := long_coded rfl rfl (fun _ _ _ h => congrArg (fun x => some (Instr.attest x)) (La.of_bits h)) rfl rfl rfl rfl rfl
theorem seRun (f : Ecmd) : Statement (.seRun f) := engine_coded rfl rfl rfl rfl rfl rfl rfl rfl
theorem seHalt (f : Ecmd) : Statement (.seHalt f) := engine_coded rfl rfl rfl rfl rfl rfl rfl rfl
theorem teRun (f : Ecmd) : Statement (.teRun f) := engine_coded rfl rfl rfl rfl rfl rfl rfl rfl
theorem teHalt (f : Ecmd) : Statement (.teHalt f) := engine_coded rfl rfl rfl rfl rfl rfl rfl rfl
theorem swRoute (f : Ecmd) : Statement (.swRoute f) := engine_coded rfl rfl rfl rfl rfl rfl rfl rfl
theorem swFmt (f : Ecmd) : Statement (.swFmt f) := engine_coded rfl rfl rfl rfl rfl rfl rfl rfl
theorem grCfg (f : Ecmd) : Statement (.grCfg f) := engine_coded rfl rfl rfl rfl rfl rfl rfl rfl
theorem grGo (f : Ecmd) : Statement (.grGo f) := engine_coded rfl rfl rfl rfl rfl rfl rfl rfl
theorem grDrain (f : Ecmd) : Statement (.grDrain f) := engine_coded rfl rfl rfl rfl rfl rfl rfl rfl
theorem grDump (f : Ecmd) : Statement (.grDump f) := engine_coded rfl rfl rfl rfl rfl rfl rfl rfl
theorem grFill (f : Ecmd) : Statement (.grFill f) := engine_coded rfl rfl rfl rfl rfl rfl rfl rfl
theorem scnChunk (f : Ecmd) : Statement (.scnChunk f) := engine_coded rfl rfl rfl rfl rfl rfl rfl rfl
theorem scnCarry (f : Ecmd) : Statement (.scnCarry f) := engine_coded rfl rfl rfl rfl rfl rfl rfl rfl
theorem mxLease (f : Ecmd) : Statement (.mxLease f) := engine_coded rfl rfl rfl rfl rfl rfl rfl rfl
theorem mxMma (f : Ecmd) : Statement (.mxMma f) := engine_coded rfl rfl rfl rfl rfl rfl rfl rfl
theorem mxDrain (f : Ecmd) : Statement (.mxDrain f) := engine_coded rfl rfl rfl rfl rfl rfl rfl rfl
theorem mxFree (f : Ecmd) : Statement (.mxFree f) := engine_coded rfl rfl rfl rfl rfl rfl rfl rfl
theorem mxZero (f : Ecmd) : Statement (.mxZero f) := engine_coded rfl rfl rfl rfl rfl rfl rfl rfl
theorem xfCopy (f : Ecmd) : Statement (.xfCopy f) := engine_coded rfl rfl rfl rfl rfl rfl rfl rfl
theorem xfCopy2d (f : Ecmd) : Statement (.xfCopy2d f) := engine_coded rfl rfl rfl rfl rfl rfl rfl rfl
theorem xfFill (f : Ecmd) : Statement (.xfFill f) := engine_coded rfl rfl rfl rfl rfl rfl rfl rfl
theorem xfGather (f : Ecmd) : Statement (.xfGather f) := engine_coded rfl rfl rfl rfl rfl rfl rfl rfl
theorem slSave (f : Ecmd) : Statement (.slSave f) := engine_coded rfl rfl rfl rfl rfl rfl rfl rfl
theorem slLoad (f : Ecmd) : Statement (.slLoad f) := engine_coded rfl rfl rfl rfl rfl rfl rfl rfl
theorem slSnap (f : Ecmd) : Statement (.slSnap f) := engine_coded rfl rfl rfl rfl rfl rfl rfl rfl
theorem slFork (f : Ecmd) : Statement (.slFork f) := engine_coded rfl rfl rfl rfl rfl rfl rfl rfl
theorem slRoll (f : Ecmd) : Statement (.slRoll f) := engine_coded rfl rfl rfl rfl rfl rfl rfl rfl
theorem slDrop (f : Ecmd) : Statement (.slDrop f) := engine_coded rfl rfl rfl rfl rfl rfl rfl rfl
theorem note (f : Ecmd) : Statement (.note f) := engine_coded rfl rfl rfl rfl rfl rfl rfl rfl
theorem cellCnop (f : CellWord) : Statement (.cellCnop f) := cell_coded rfl rfl rfl rfl rfl rfl rfl rfl
theorem cellPass (f : CellWord) : Statement (.cellPass f) := cell_coded rfl rfl rfl rfl rfl rfl rfl rfl
theorem cellFadd (f : CellWord) : Statement (.cellFadd f) := cell_coded rfl rfl rfl rfl rfl rfl rfl rfl
theorem cellFsub (f : CellWord) : Statement (.cellFsub f) := cell_coded rfl rfl rfl rfl rfl rfl rfl rfl
theorem cellFmul (f : CellWord) : Statement (.cellFmul f) := cell_coded rfl rfl rfl rfl rfl rfl rfl rfl
theorem cellFfma (f : CellWord) : Statement (.cellFfma f) := cell_coded rfl rfl rfl rfl rfl rfl rfl rfl
theorem cellFmax (f : CellWord) : Statement (.cellFmax f) := cell_coded rfl rfl rfl rfl rfl rfl rfl rfl
theorem cellFmin (f : CellWord) : Statement (.cellFmin f) := cell_coded rfl rfl rfl rfl rfl rfl rfl rfl
theorem cellFabs (f : CellWord) : Statement (.cellFabs f) := cell_coded rfl rfl rfl rfl rfl rfl rfl rfl
theorem cellFexp2 (f : CellWord) : Statement (.cellFexp2 f) := cell_coded rfl rfl rfl rfl rfl rfl rfl rfl
theorem cellFrcp (f : CellWord) : Statement (.cellFrcp f) := cell_coded rfl rfl rfl rfl rfl rfl rfl rfl
theorem cellIadd (f : CellWord) : Statement (.cellIadd f) := cell_coded rfl rfl rfl rfl rfl rfl rfl rfl
theorem cellIsub (f : CellWord) : Statement (.cellIsub f) := cell_coded rfl rfl rfl rfl rfl rfl rfl rfl
theorem cellImul (f : CellWord) : Statement (.cellImul f) := cell_coded rfl rfl rfl rfl rfl rfl rfl rfl
theorem cellAnd (f : CellWord) : Statement (.cellAnd f) := cell_coded rfl rfl rfl rfl rfl rfl rfl rfl
theorem cellOr (f : CellWord) : Statement (.cellOr f) := cell_coded rfl rfl rfl rfl rfl rfl rfl rfl
theorem cellXor (f : CellWord) : Statement (.cellXor f) := cell_coded rfl rfl rfl rfl rfl rfl rfl rfl
theorem cellShl (f : CellWord) : Statement (.cellShl f) := cell_coded rfl rfl rfl rfl rfl rfl rfl rfl
theorem cellShr (f : CellWord) : Statement (.cellShr f) := cell_coded rfl rfl rfl rfl rfl rfl rfl rfl
theorem cellSel (f : CellWord) : Statement (.cellSel f) := cell_coded rfl rfl rfl rfl rfl rfl rfl rfl
theorem cellCmplt (f : CellWord) : Statement (.cellCmplt f) := cell_coded rfl rfl rfl rfl rfl rfl rfl rfl
theorem cellCmpeq (f : CellWord) : Statement (.cellCmpeq f) := cell_coded rfl rfl rfl rfl rfl rfl rfl rfl
theorem cellSld (f : CellWord) : Statement (.cellSld f) := cell_coded rfl rfl rfl rfl rfl rfl rfl rfl
theorem cellSst (f : CellWord) : Statement (.cellSst f) := cell_coded rfl rfl rfl rfl rfl rfl rfl rfl
theorem cellAcc2 (f : CellWord) : Statement (.cellAcc2 f) := cell_coded rfl rfl rfl rfl rfl rfl rfl rfl
theorem cellCvt (f : CellWord) : Statement (.cellCvt f) := cell_coded rfl rfl rfl rfl rfl rfl rfl rfl
theorem pend (f : PatLoad) : Statement (.pend f) := pattern_coded rfl rfl (fun _ h => congrArg (fun x => some (Instr.pend x)) (PatLoad.of_bits h)) rfl rfl rfl rfl rfl
theorem pbase (f : PatLoad) : Statement (.pbase f) := pattern_coded rfl rfl (fun _ h => congrArg (fun x => some (Instr.pbase x)) (PatLoad.of_bits h)) rfl rfl rfl rfl rfl
theorem pdst (f : PatLoad) : Statement (.pdst f) := pattern_coded rfl rfl (fun _ h => congrArg (fun x => some (Instr.pdst x)) (PatLoad.of_bits h)) rfl rfl rfl rfl rfl
theorem pmove (f : PatStep) : Statement (.pmove f) := pattern_coded rfl rfl (fun _ h => congrArg (fun x => some (Instr.pmove x)) (PatStep.of_bits h)) rfl rfl rfl rfl rfl
theorem pnest (f : PatStep) : Statement (.pnest f) := pattern_coded rfl rfl (fun _ h => congrArg (fun x => some (Instr.pnest x)) (PatStep.of_bits h)) rfl rfl rfl rfl rfl
theorem pwrap (f : PatStep) : Statement (.pwrap f) := pattern_coded rfl rfl (fun _ h => congrArg (fun x => some (Instr.pwrap x)) (PatStep.of_bits h)) rfl rfl rfl rfl rfl
theorem pfmt (f : PatLoad) : Statement (.pfmt f) := pattern_coded rfl rfl (fun _ h => congrArg (fun x => some (Instr.pfmt x)) (PatLoad.of_bits h)) rfl rfl rfl rfl rfl
theorem pwait (f : PatSync) : Statement (.pwait f) := pattern_coded rfl rfl (fun _ h => congrArg (fun x => some (Instr.pwait x)) (PatSync.of_bits h)) rfl rfl rfl rfl rfl
theorem psig (f : PatSync) : Statement (.psig f) := pattern_coded rfl rfl (fun _ h => congrArg (fun x => some (Instr.psig x)) (PatSync.of_bits h)) rfl rfl rfl rfl rfl
theorem pwin (f : PatSync) : Statement (.pwin f) := pattern_coded rfl rfl (fun _ h => congrArg (fun x => some (Instr.pwin x)) (PatSync.of_bits h)) rfl rfl rfl rfl rfl
theorem pjump (f : PatLoad) : Statement (.pjump f) := pattern_coded rfl rfl (fun _ h => congrArg (fun x => some (Instr.pjump x)) (PatLoad.of_bits h)) rfl rfl rfl rfl rfl
theorem ploop (f : PatStep) : Statement (.ploop f) := pattern_coded rfl rfl (fun _ h => congrArg (fun x => some (Instr.ploop x)) (PatStep.of_bits h)) rfl rfl rfl rfl rfl
theorem pgath (f : PatStep) : Statement (.pgath f) := pattern_coded rfl rfl (fun _ h => congrArg (fun x => some (Instr.pgath x)) (PatStep.of_bits h)) rfl rfl rfl rfl rfl
theorem pfillv (f : PatLoad) : Statement (.pfillv f) := pattern_coded rfl rfl (fun _ h => congrArg (fun x => some (Instr.pfillv x)) (PatLoad.of_bits h)) rfl rfl rfl rfl rfl
theorem pskip (f : PatStep) : Statement (.pskip f) := pattern_coded rfl rfl (fun _ h => congrArg (fun x => some (Instr.pskip x)) (PatStep.of_bits h)) rfl rfl rfl rfl rfl
theorem pnote (f : PatSync) : Statement (.pnote f) := pattern_coded rfl rfl (fun _ h => congrArg (fun x => some (Instr.pnote x)) (PatSync.of_bits h)) rfl rfl rfl rfl rfl
theorem registerWrite (r : RegRef) (v : W64) : Statement (.registerWrite r v) := none_coded rfl rfl rfl rfl rfl rfl
theorem resume (c : CoreId) : Statement (.resume c) := none_coded rfl rfl rfl rfl rfl rfl
theorem resumeAt (c : CoreId) (target : BitVec 61) : Statement (.resumeAt c target) := none_coded rfl rfl rfl rfl rfl rfl
theorem restartTask (c : CoreId) : Statement (.restartTask c) := none_coded rfl rfl rfl rfl rfl rfl
theorem failTask (c : CoreId) : Statement (.failTask c) := none_coded rfl rfl rfl rfl rfl rfl
theorem killPartition (c : CoreId) : Statement (.killPartition c) := none_coded rfl rfl rfl rfl rfl rfl
theorem coreTrapDelivery (c : CoreId) : Statement (.coreTrapDelivery c) := none_coded rfl rfl rfl rfl rfl rfl
theorem watchdogExpiry (c : CoreId) : Statement (.watchdogExpiry c) := none_coded rfl rfl rfl rfl rfl rfl
theorem interruptEntry (k : SysId) : Statement (.interruptEntry k) := none_coded rfl rfl rfl rfl rfl rfl
theorem releaseEvent (a : AgentId) : Statement (.releaseEvent a) := none_coded rfl rfl rfl rfl rfl rfl
theorem pageWalk (a : AgentId) (va : W64) : Statement (.pageWalk a va) := none_coded rfl rfl rfl rfl rfl rfl
theorem l2MissFill (a : AgentId) (va : W64) (store : Bool) : Statement (.l2MissFill a va store) := none_coded rfl rfl rfl rfl rfl rfl
theorem fbcBlockRmw (block : Nat) : Statement (.fbcBlockRmw block) := none_coded rfl rfl rfl rfl rfl rfl
theorem fbcHeldImageEncode (block : Nat) : Statement (.fbcHeldImageEncode block) := none_coded rfl rfl rfl rfl rfl rfl
theorem ticketedAtomic : Statement (.ticketedAtomic) := none_coded rfl rfl rfl rfl rfl rfl
theorem fullEmptyAccess (q : Proc) : Statement (.fullEmptyAccess q) := none_coded rfl rfl rfl rfl rfl rfl
theorem piecePerformed (w : PieceSource) (piece : Nat) : Statement (.piecePerformed w piece) := none_coded rfl rfl rfl rfl rfl rfl
theorem flagAddition (c : CoreId) : Statement (.flagAddition c) := none_coded rfl rfl rfl rfl rfl rfl
theorem flagWaitSuccess (c : CoreId) (f : BitVec 8) : Statement (.flagWaitSuccess c f) := none_coded rfl rfl rfl rfl rfl rfl
theorem tidelineAdmission (t : TideId) (slot : Nat) : Statement (.tidelineAdmission t slot) := none_coded rfl rfl rfl rfl rfl rfl
theorem neighbourPushAccept (c : CoreId) : Statement (.neighbourPushAccept c) := none_coded rfl rfl rfl rfl rfl rfl
theorem neighbourPopComplete (c : CoreId) : Statement (.neighbourPopComplete c) := none_coded rfl rfl rfl rfl rfl rfl
theorem noteReached (c : CoreId) (q : QueueId) : Statement (.noteReached c q) := none_coded rfl rfl rfl rfl rfl rfl
theorem bellRing (c : CoreId) : Statement (.bellRing c) := none_coded rfl rfl rfl rfl rfl rfl
theorem engineCommandStart (c : CoreId) (q : QueueId) : Statement (.engineCommandStart c q) := none_coded rfl rfl rfl rfl rfl rfl
theorem engineCommandComplete (c : CoreId) (q : QueueId) (pos : Nat) : Statement (.engineCommandComplete c q pos) := none_coded rfl rfl rfl rfl rfl rfl
theorem leaseGrant (k : ClusterId) : Statement (.leaseGrant k) := none_coded rfl rfl rfl rfl rfl rfl
theorem leaseCycleLimit (k : ClusterId) : Statement (.leaseCycleLimit k) := none_coded rfl rfl rfl rfl rfl rfl
theorem leaseCommandLimit (k : ClusterId) : Statement (.leaseCommandLimit k) := none_coded rfl rfl rfl rfl rfl rfl
theorem cb3TableTake (c : CoreId) : Statement (.cb3TableTake c) := none_coded rfl rfl rfl rfl rfl rfl
theorem narrowModeChange (k : ClusterId) : Statement (.narrowModeChange k) := none_coded rfl rfl rfl rfl rfl rfl
theorem quayPageRead (c : CoreId) (pos : Nat) : Statement (.quayPageRead c pos) := none_coded rfl rfl rfl rfl rfl rfl
theorem quayPageArrived (c : CoreId) (pos : Nat) : Statement (.quayPageArrived c pos) := none_coded rfl rfl rfl rfl rfl rfl
theorem guardedPageCopy (c : CoreId) (page : Nat) : Statement (.guardedPageCopy c page) := none_coded rfl rfl rfl rfl rfl rfl
theorem tileSourceRead (c : CoreId) (sq : BitVec 5) : Statement (.tileSourceRead c sq) := none_coded rfl rfl rfl rfl rfl rfl
theorem tileSinkFill (c : CoreId) (sq : BitVec 5) : Statement (.tileSinkFill c sq) := none_coded rfl rfl rfl rfl rfl rfl
theorem gridIterationStart (c : CoreId) (ver : Bool) : Statement (.gridIterationStart c ver) := none_coded rfl rfl rfl rfl rfl rfl
theorem gridTokenPush (c : CoreId) (ver : Bool) : Statement (.gridTokenPush c ver) := none_coded rfl rfl rfl rfl rfl rfl
theorem gbarComplete (c : CoreId) : Statement (.gbarComplete c) := none_coded rfl rfl rfl rfl rfl rfl
theorem launchAccept : Statement (.launchAccept) := none_coded rfl rfl rfl rfl rfl rfl
theorem launchPacketTake (part : PartId) : Statement (.launchPacketTake part) := none_coded rfl rfl rfl rfl rfl rfl
theorem dispatch (c : CoreId) : Statement (.dispatch c) := none_coded rfl rfl rfl rfl rfl rfl
theorem stealAnswer (c : CoreId) : Statement (.stealAnswer c) := none_coded rfl rfl rfl rfl rfl rfl
theorem sessionReady (part : PartId) (sid : BitVec 24) : Statement (.sessionReady part sid) := none_coded rfl rfl rfl rfl rfl rfl
theorem timeSliceEnd (c : CoreId) : Statement (.timeSliceEnd c) := none_coded rfl rfl rfl rfl rfl rfl
theorem preemptRequest (c : CoreId) : Statement (.preemptRequest c) := none_coded rfl rfl rfl rfl rfl rfl
theorem contextSave (c : CoreId) : Statement (.contextSave c) := none_coded rfl rfl rfl rfl rfl rfl
theorem contextRestore (c : CoreId) : Statement (.contextRestore c) := none_coded rfl rfl rfl rfl rfl rfl
theorem batchPromotion (part : PartId) (sid : BitVec 24) : Statement (.batchPromotion part sid) := none_coded rfl rfl rfl rfl rfl rfl
theorem forecastUpdate (die : Bool) : Statement (.forecastUpdate die) := none_coded rfl rfl rfl rfl rfl rfl
theorem bar2Read (r : PortRequest) : Statement (.bar2Read r) := none_coded rfl rfl rfl rfl rfl rfl
theorem bar2Write (r : PortRequest) : Statement (.bar2Write r) := none_coded rfl rfl rfl rfl rfl rfl
theorem bar2Fetchadd (r : PortRequest) : Statement (.bar2Fetchadd r) := none_coded rfl rfl rfl rfl rfl rfl
theorem bar2Swap (r : PortRequest) : Statement (.bar2Swap r) := none_coded rfl rfl rfl rfl rfl rfl
theorem bar2Cas (r : PortRequest) : Statement (.bar2Cas r) := none_coded rfl rfl rfl rfl rfl rfl
theorem lqaddr (part : PartId) (v : W64) : Statement (.lqaddr part v) := none_coded rfl rfl rfl rfl rfl rfl
theorem mailboxRequest (part : PartId) (m : MailboxRequest) : Statement (.mailboxRequest part m) := none_coded rfl rfl rfl rfl rfl rfl
theorem functionLevelReset (part : PartId) : Statement (.functionLevelReset part) := none_coded rfl rfl rfl rfl rfl rfl
theorem peerLinkTraining : Statement (.peerLinkTraining) := none_coded rfl rfl rfl rfl rfl rfl
theorem hostLinkDown : Statement (.hostLinkDown) := none_coded rfl rfl rfl rfl rfl rfl
theorem peerLinkDown : Statement (.peerLinkDown) := none_coded rfl rfl rfl rfl rfl rfl
theorem flitReceive (die : Bool) (bytes : List Byte) : Statement (.flitReceive die bytes) := none_coded rfl rfl rfl rfl rfl rfl
theorem replayLimit : Statement (.replayLimit) := none_coded rfl rfl rfl rfl rfl rfl
theorem dieLinkLost : Statement (.dieLinkLost) := none_coded rfl rfl rfl rfl rfl rfl
theorem regulatorInterval : Statement (.regulatorInterval) := none_coded rfl rfl rfl rfl rfl rfl
theorem regulatorSoftAdmit (ctrl : Nat) (part : PartId) : Statement (.regulatorSoftAdmit ctrl part) := none_coded rfl rfl rfl rfl rfl rfl
theorem moduleBoot (b : BootReport) : Statement (.moduleBoot b) := none_coded rfl rfl rfl rfl rfl rfl
theorem powerAlarmRaise : Statement (.powerAlarmRaise) := none_coded rfl rfl rfl rfl rfl rfl
theorem powerAlarmClear : Statement (.powerAlarmClear) := none_coded rfl rfl rfl rfl rfl rfl
theorem checkpointRestore (copies : List CheckpointCopy) : Statement (.checkpointRestore copies) := none_coded rfl rfl rfl rfl rfl rfl
theorem deviceFailover (copies : List CheckpointCopy) : Statement (.deviceFailover copies) := none_coded rfl rfl rfl rfl rfl rfl
theorem hostLinkTraining : Statement (.hostLinkTraining) := none_coded rfl rfl rfl rfl rfl rfl
theorem dieLinkTraining : Statement (.dieLinkTraining) := none_coded rfl rfl rfl rfl rfl rfl

end Sys2Proof.Laws.Coding
end

