-- ==== Sys2Proof/Laws/Stops.lean ====
section
/-! SUPPORT. What a stop of a compute core and an exception of a system core do, in the terms of Safety. -/

namespace Sys2Proof.Machine

open State

/-- Release events change the release numbers, the stamp and the events that wait for writes alone (R97). -/
theorem releaseAll_eq (l : List AgentId) (s : State) :
    ∃ q st r, s.releaseAll l = { s with seqs := q, stamp := st, releases := r } := by
  induction l generalizing s with
  | nil => exact ⟨s.seqs, s.stamp, s.releases, rfl⟩
  | cons a l ih =>
    obtain ⟨q, st, r, h⟩ := ih (s.releaseSoon a)
    refine ⟨q, st, r, ?_⟩
    rw [releaseAll, h]
    unfold releaseSoon
    split <;> rfl

theorem cpDetail_eq (c : CoreId) : detailWord (unitAgent c 0) 7 0 = cpDetail c := by
  unfold detailWord unitAgent cpDetail
  have := c.isLt
  congr 1
  simp
  omega

theorem setNpc_compute {s : State} {c : CoreId} (h : s.cur = .compute c) (n : W64) :
    s.setNpc n = s.setCore c { s.core c with x := { (s.core c).x with npc := n } } := by
  simp [setNpc, modCpu, setCpu, setCpuOf, cpu, cpuOf, h]

/-- The one lemma of a stop: what it leaves, with the next word set first (R220 to R223). -/
theorem stops_stopCore {s : State} {c : CoreId} (h : s.cur = .compute c) (hh : (s.core c).held = none)
    (cls : StopClass) (cause : Nat) (addr detail n : W64) :
    Stops s ((s.setNpc n).stopCore c cls cause addr detail) c cls cause addr detail n := by
  rw [setNpc_compute h]
  generalize hu : s.setCore c { s.core c with x := { (s.core c).x with npc := n } } = u
  have hc : u.core c = { s.core c with x := { (s.core c).x with npc := n } } := by rw [← hu]; simp
  have hheld : ¬(u.core c).held.isSome := by rw [hc]; simp [hh]
  obtain ⟨q, st, r, k⟩ := releaseAll_eq (coreAgents c) (u.modCore c fun k => { k with
    held := some ⟨cls, cause, addr, detail, false, none, []⟩
    dog := if cause = 327 then u.us - k.dog else k.dog })
  unfold stopCore
  rw [if_neg hheld]
  simp only [k]
  subst hu
  refine ⟨?_, ?_, ?_⟩
  · simp [State.core, setCore, modCore]
  · simp [State.core, setCore, modCore]
  · exact sameMemory_of_mem (by simp)

/-- A cause that the current instruction raises at itself: a compute core stops precisely, its PC naming it. -/
theorem stops_trap {s : State} {c : CoreId} (h : s.cur = .compute c) (hh : (s.core c).held = none) (cause : Nat)
    (addr : W64) : Stops s (s.trap cause addr none) c .precise cause addr (cpDetail c) s.cpu.pc := by
  unfold trap
  rw [h]
  simp only [Option.getD_none, cpDetail_eq]
  exact stops_stopCore h hh _ _ _ _ _

theorem setNpc_self (s : State) : s.setNpc s.cpu.npc = s := by
  simp only [setNpc, modCpu]; exact setCpu_self s

/-- A stop after the current instruction: the PC names the next word. -/
theorem stops_stopAfter {s : State} {c : CoreId} (h : s.cur = .compute c) (hh : (s.core c).held = none)
    (cls : StopClass) (cause : Nat) : Stops s (s.stopAfter cls cause) c cls cause 0 (cpDetail c) s.cpu.npc := by
  have k := stops_stopCore h hh cls cause 0 (cpDetail c) s.cpu.npc
  rw [setNpc_self] at k
  unfold stopAfter
  rw [h]
  simp only [cpDetail_eq]
  exact k

/-- An exception with IE = 1 (R407). -/
theorem enters_exceptionEntry {s : State} {k : SysId} (h : (s.sysCore k).ie = true) (cause : Nat) (addr ret : W64) :
    Enters s (s.exceptionEntry k cause addr ret) k cause addr ret := by
  unfold exceptionEntry Enters
  rw [if_pos h, h]
  exact ⟨rfl, sameMemory_of_mem rfl⟩

theorem enters_trap {s : State} {k : SysId} (hk : s.cur = .system k) (h : (s.sysCore k).ie = true) (cause : Nat)
    (addr : W64) : Enters s (s.trap cause addr none) k cause addr s.cpu.pc := by
  unfold trap
  rw [hk]
  exact enters_exceptionEntry h _ _ _

theorem enters_stopAfter {s : State} {k : SysId} (hk : s.cur = .system k) (h : (s.sysCore k).ie = true)
    (cls : StopClass) (cause : Nat) : Enters s (s.stopAfter cls cause) k cause 0 s.cpu.npc := by
  unfold stopAfter
  rw [hk]
  exact enters_exceptionEntry h _ _ _

end Sys2Proof.Machine
end

