-- ==== Sys2Proof/Tests/Slice0.lean ====
section
/-! SUPPORT. Tests. Words written out from the spec's encodings and what they decode to, ill-formed
words that the checks refuse, small runs of one operation with results from the spec, and one witness
for each hypothesis set of the obligations. -/

namespace Sys2Proof.Tests

set_option Elab.async false

open Sys2Proof.Machine

/-! ## Words and what they decode to

The fields are placed as R258, R260, R261, R269 and R271 give and the operation numbers are those of
R263 to R268. -/

theorem test_decode_scalar_slots_a :
    decodeTableWord 64 0x00094C7000000000 = some (.add ⟨5, 6, 7, 0⟩) ∧
    decodeTableWord 64 0x00114C7000000000 = some (.sub ⟨5, 6, 7, 0⟩) ∧
    decodeTableWord 64 0x00194C7000000000 = some (.and ⟨5, 6, 7, 0⟩) ∧
    decodeTableWord 64 0x00214C7000000000 = some (.or ⟨5, 6, 7, 0⟩) ∧
    decodeTableWord 64 0x00294C7000000000 = some (.xor ⟨5, 6, 7, 0⟩) ∧
    decodeTableWord 64 0x00314C7000000000 = some (.andn ⟨5, 6, 7, 0⟩) ∧
    decodeTableWord 64 0x00394DF800000000 = some (.shl ⟨5, 6, 31, 8⟩) ∧
    decodeTableWord 64 0x00414DF800000000 = some (.shr ⟨5, 6, 31, 8⟩) ∧
    decodeTableWord 64 0x00494DF800000000 = some (.sra ⟨5, 6, 31, 8⟩) ∧
    decodeTableWord 64 0x00514C7000000000 = some (.mul ⟨5, 6, 7, 0⟩) ∧
    decodeTableWord 64 0x00594C7000000000 = some (.mulh ⟨5, 6, 7, 0⟩) ∧
    decodeTableWord 64 0x00614C7000000000 = some (.mulhu ⟨5, 6, 7, 0⟩) ∧
    decodeTableWord 64 0x00694C7000000000 = some (.min ⟨5, 6, 7, 0⟩) ∧
    decodeTableWord 64 0x00714C7000000000 = some (.max ⟨5, 6, 7, 0⟩) ∧
    decodeTableWord 64 0x00794C7000000000 = some (.minu ⟨5, 6, 7, 0⟩) ∧
    decodeTableWord 64 0x00814C7000000000 = some (.maxu ⟨5, 6, 7, 0⟩) :=
  ⟨rfl, rfl, rfl, rfl, rfl, rfl, rfl, rfl, rfl, rfl, rfl, rfl, rfl, rfl, rfl, rfl⟩

theorem test_decode_scalar_slots_b :
    decodeTableWord 64 0x008941F800000000 = some (.mov ⟨5, 0, 31, 8⟩) ∧
    decodeTableWord 64 0x00978C8000000000 = some (.addq ⟨30, 6, 8, 0⟩) ∧
    decodeTableWord 64 0x009F8C7800000000 = some (.shlq ⟨30, 6, 7, 8⟩) ∧
    decodeTableWord 64 0x00A78C7800000000 = some (.shrq ⟨30, 6, 7, 8⟩) ∧
    decodeTableWord 64 0x00AF8C7800000000 = some (.sraq ⟨30, 6, 7, 8⟩) ∧
    decodeTableWord 64 0x00B14C0000000000 = some (.clz ⟨5, 6, 0, 0⟩) ∧
    decodeTableWord 64 0x00B94C0000000000 = some (.ctz ⟨5, 6, 0, 0⟩) ∧
    decodeTableWord 64 0x00C14C0000000000 = some (.popc ⟨5, 6, 0, 0⟩) ∧
    decodeTableWord 64 0x00C94DFB00000000 = some (.sel ⟨5, 6, 31, 11⟩) ∧
    decodeTableWord 64 0x00D08DFD00000000 = some (.setp ⟨2, 6, 31, 13⟩) ∧
    decodeTableWord 64 0x00D9CC8300000000 = some (.setpq ⟨7, 6, 8, 3⟩) ∧
    decodeTableWord 64 0x00E1C22800000000 = some (.pand ⟨7, 1, 2, 8⟩) ∧
    decodeTableWord 64 0x00E9C22800000000 = some (.por ⟨7, 1, 2, 8⟩) ∧
    decodeTableWord 64 0x00F1C22800000000 = some (.pxor ⟨7, 1, 2, 8⟩) ∧
    decodeTableWord 64 0x00F9C20000000000 = some (.pnot ⟨7, 1, 0, 0⟩) :=
  ⟨rfl, rfl, rfl, rfl, rfl, rfl, rfl, rfl, rfl, rfl, rfl, rfl, rfl, rfl, rfl⟩

theorem test_decode_vector_slots_1 :
    decodeTableWord 64 0x0000000001123024 = some (.vaddSlot ⟨1, 2, 3, 0, 1, 4⟩) ∧
    decodeTableWord 64 0x0000000002123024 = some (.vsubSlot ⟨1, 2, 3, 0, 1, 4⟩) ∧
    decodeTableWord 64 0x0000000003246088 = some (.vmulSlot ⟨2, 4, 6, 0, 4, 8⟩) ∧
    decodeTableWord 64 0x0000000004123478 = some (.vfmaSlot ⟨1, 2, 3, 4, 3, 24⟩) ∧
    decodeTableWord 64 0x0000000005123000 = some (.vmaxSlot ⟨1, 2, 3, 0, 0, 0⟩) ∧
    decodeTableWord 64 0x0000000006123000 = some (.vminSlot ⟨1, 2, 3, 0, 0, 0⟩) ∧
    decodeTableWord 64 0x00000000071800C4 = some (.vabsSlot ⟨1, 8, 0, 0, 6, 4⟩) ∧
    decodeTableWord 64 0x00000000081800C4 = some (.vnegSlot ⟨1, 8, 0, 0, 6, 4⟩) ∧
    decodeTableWord 64 0x0000000009187040 = some (.vandSlot ⟨1, 8, 7, 0, 2, 0⟩) ∧
    decodeTableWord 64 0x000000000A187040 = some (.vorSlot ⟨1, 8, 7, 0, 2, 0⟩) ∧
    decodeTableWord 64 0x000000000B187040 = some (.vxorSlot ⟨1, 8, 7, 0, 2, 0⟩) ∧
    decodeTableWord 64 0x000000000C187040 = some (.vshlSlot ⟨1, 8, 7, 0, 2, 0⟩) ∧
    decodeTableWord 64 0x000000000D187040 = some (.vshrSlot ⟨1, 8, 7, 0, 2, 0⟩) ∧
    decodeTableWord 64 0x000000000E1237C0 = some (.vcmpSlot ⟨1, 2, 3, 7, 6, 0⟩) ∧
    decodeTableWord 64 0x000000000F151800 = some (.vselSlot ⟨1, 5, 1, 8, 0, 0⟩) ∧
    decodeTableWord 64 0x0000000010121010 = some (.vcvtSlot ⟨1, 2, 1, 0, 0, 16⟩) :=
  ⟨rfl, rfl, rfl, rfl, rfl, rfl, rfl, rfl, rfl, rfl, rfl, rfl, rfl, rfl, rfl, rfl⟩

theorem test_decode_vector_slots_2 :
    decodeTableWord 64 0x0000000011870060 = some (.vmovSlot ⟨8, 7, 0, 0, 3, 0⟩) ∧
    decodeTableWord 64 0x00000000122300A0 = some (.vcaccSlot ⟨2, 3, 0, 0, 5, 0⟩) ∧
    decodeTableWord 64 0x00000000136380A0 = some (.vtwosumSlot ⟨6, 3, 8, 0, 5, 0⟩) ∧
    decodeTableWord 64 0x0000000014120200 = some (.vredSlot ⟨1, 2, 0, 2, 0, 0⟩) :=
  ⟨rfl, rfl, rfl, rfl⟩

theorem test_decode_immediate :
    decodeTableWord 64 0x0400A6FFFFFFFE00 = some (.addi ⟨5, 6, 0xfffffffe, 0⟩) ∧
    decodeTableWord 64 0x0404A6FFFFFFFE00 = some (.andi ⟨5, 6, 0xfffffffe, 0⟩) ∧
    decodeTableWord 64 0x0408A6FFFFFFFE00 = some (.ori ⟨5, 6, 0xfffffffe, 0⟩) ∧
    decodeTableWord 64 0x040CA6FFFFFFFE00 = some (.xori ⟨5, 6, 0xfffffffe, 0⟩) ∧
    decodeTableWord 64 0x0410A60000003F00 = some (.shli ⟨5, 6, 63, 0⟩) ∧
    decodeTableWord 64 0x0414A60000003F00 = some (.shri ⟨5, 6, 63, 0⟩) ∧
    decodeTableWord 64 0x0418A60000003F00 = some (.srai ⟨5, 6, 63, 0⟩) ∧
    decodeTableWord 64 0x041CA6FFFFFFFE00 = some (.muli ⟨5, 6, 0xfffffffe, 0⟩) ∧
    decodeTableWord 64 0x0420A089ABCDEF00 = some (.li ⟨5, 0, 0x89abcdef, 0⟩) ∧
    decodeTableWord 64 0x0424A089ABCDEF00 = some (.lui ⟨5, 0, 0x89abcdef, 0⟩) ∧
    decodeTableWord 64 0x0428A68000000001 = some (.slti ⟨5, 6, 0x80000000, 1⟩) ∧
    decodeTableWord 64 0x042C464000000005 = some (.setpi ⟨2, 6, 0x40000000, 5⟩) :=
  ⟨rfl, rfl, rfl, rfl, rfl, rfl, rfl, rfl, rfl, rfl, rfl, rfl⟩

theorem test_decode_scalar_long :
    decodeTableWord 64 0x0430A63800000000 = some (.div ⟨5, 6, 7, 0, 0, 0⟩) ∧
    decodeTableWord 64 0x0434A63800000000 = some (.divu ⟨5, 6, 7, 0, 0, 0⟩) ∧
    decodeTableWord 64 0x0438A63800000000 = some (.rem ⟨5, 6, 7, 0, 0, 0⟩) ∧
    decodeTableWord 64 0x043CA63800000000 = some (.remu ⟨5, 6, 7, 0, 0, 0⟩) ∧
    decodeTableWord 64 0x0440A63800000001 = some (.fadd ⟨5, 6, 7, 0, 0, 1⟩) ∧
    decodeTableWord 64 0x0444A63800000001 = some (.fsub ⟨5, 6, 7, 0, 0, 1⟩) ∧
    decodeTableWord 64 0x0448A63800000001 = some (.fmul ⟨5, 6, 7, 0, 0, 1⟩) ∧
    decodeTableWord 64 0x044CA63FC0000001 = some (.ffma ⟨5, 6, 7, 31, 0, 1⟩) ∧
    decodeTableWord 64 0x0450A63800000001 = some (.fdiv ⟨5, 6, 7, 0, 0, 1⟩) ∧
    decodeTableWord 64 0x0454A60000000001 = some (.fsqrt ⟨5, 6, 0, 0, 0, 1⟩) ∧
    decodeTableWord 64 0x0458A63800000001 = some (.fmin ⟨5, 6, 7, 0, 0, 1⟩) ∧
    decodeTableWord 64 0x045CA63800000001 = some (.fmax ⟨5, 6, 7, 0, 0, 1⟩) ∧
    decodeTableWord 64 0x046066380000000B = some (.fcmp ⟨3, 6, 7, 0, 0, 11⟩) ∧
    decodeTableWord 64 0x0464A6000000000D = some (.fcvt ⟨5, 6, 0, 0, 0, 13⟩) :=
  ⟨rfl, rfl, rfl, rfl, rfl, rfl, rfl, rfl, rfl, rfl, rfl, rfl, rfl, rfl⟩

theorem test_decode_control :
    decodeTableWord 64 0x048000FFFFFFFF00 = some (.br ⟨0, 0, 0xffffffff, 0⟩) ∧
    decodeTableWord 64 0x048520FFFFFFFF00 = some (.call ⟨9, 0, 0xffffffff, 0⟩) ∧
    decodeTableWord 64 0x0488060000000000 = some (.ret ⟨0, 6, 0, 0, 0, 0⟩) ∧
    decodeTableWord 64 0x048C060000000000 = some (.jmpr ⟨0, 6, 0, 0, 0, 0⟩) ∧
    decodeTableWord 64 0x0490A60000000000 = some (.callr ⟨5, 6, 0, 0, 0, 0⟩) ∧
    decodeTableWord 64 0x049520FFFFFFFF00 = some (.loop ⟨9, 0, 0xffffffff, 0⟩) ∧
    decodeTableWord 64 0x0498000000000000 = some (.halt ⟨0, 0, 0, 0, 0, 0⟩) ∧
    decodeTableWord 64 0x049C000000000000 = some (.yield ⟨0, 0, 0, 0, 0, 0⟩) ∧
    decodeTableWord 64 0x04A000ABCDEF0100 = some (.syscall ⟨0, 0, 0xabcdef01, 0⟩) ∧
    decodeTableWord 64 0x04A400ABCDEF0100 = some (.brk ⟨0, 0, 0xabcdef01, 0⟩) ∧
    decodeTableWord 64 0x04A8000000000000 = some (.wfb ⟨0, 0, 0, 0, 0, 0⟩) :=
  ⟨rfl, rfl, rfl, rfl, rfl, rfl, rfl, rfl, rfl, rfl, rfl⟩

theorem test_decode_memory :
    decodeTableWord 64 0x04C0A4FFFFF84861 = some (.ld ⟨5, 4, 0xfffff8, 2, 2, 0, 3, 1⟩) ∧
    decodeTableWord 64 0x04C4E40000106C80 = some (.st ⟨7, 4, 16, 3, 3, 0, 4, 0⟩) ∧
    decodeTableWord 64 0x04C8C40000108200 = some (.ldp ⟨6, 4, 16, 4, 0, 2, 0, 0⟩) ∧
    decodeTableWord 64 0x04CCC40000108300 = some (.stp ⟨6, 4, 16, 4, 0, 3, 0, 0⟩) ∧
    decodeTableWord 64 0x04D0C47FFFC0A101 = some (.ldv ⟨6, 4, 0x7fffc0, 5, 0, 1, 0, 1⟩) ∧
    decodeTableWord 64 0x04D4E4000040A300 = some (.stv ⟨7, 4, 64, 5, 0, 3, 0, 0⟩) ∧
    decodeTableWord 64 0x04D886000000C118 = some (.ldt ⟨4, 6, 0, 6, 0, 1, 0, 24⟩) ∧
    decodeTableWord 64 0x04DCA6000400C308 = some (.stt ⟨5, 6, 0x400, 6, 0, 3, 0, 8⟩) ∧
    decodeTableWord 64 0x04E0040000080001 = some (.pref ⟨0, 4, 8, 0, 0, 0, 0, 1⟩) ∧
    decodeTableWord 64 0x04E4000000001480 = some (.fence ⟨0, 0, 0, 0, 5, 0, 4, 0⟩) ∧
    decodeTableWord 64 0x04E8A40000087048 = some (.amo ⟨5, 4, 8, 3, 4, 0, 2, 8⟩) ∧
    decodeTableWord 64 0x04ECC40000109868 = some (.cas ⟨6, 4, 16, 4, 6, 0, 3, 8⟩) ∧
    decodeTableWord 64 0x04F0A48000006480 = some (.enq ⟨5, 4, 0x800000, 3, 1, 0, 4, 0⟩) ∧
    decodeTableWord 64 0x04F0A48000006481 = some (.enqCommit ⟨5, 4, 0x800000, 3, 1, 0, 4, 1⟩) ∧
    decodeTableWord 64 0x04F4A48000006480 = some (.deq ⟨5, 4, 0x800000, 3, 1, 0, 4, 0⟩) ∧
    decodeTableWord 64 0x04F4A48000006481 = some (.deqFree ⟨5, 4, 0x800000, 3, 1, 0, 4, 1⟩) :=
  ⟨rfl, rfl, rfl, rfl, rfl, rfl, rfl, rfl, rfl, rfl, rfl, rfl, rfl, rfl, rfl, rfl⟩

theorem test_decode_queues_tiles :
    decodeTableWord 64 0x04F8070000000001 = some (.qpush ⟨0, 7, 0, 0, 0, 1⟩) ∧
    decodeTableWord 64 0x04FCE00000000001 = some (.qpop ⟨7, 0, 0, 0, 0, 1⟩) ∧
    decodeTableWord 64 0x056F8000C0000000 = some (.tclr ⟨28, 0, 0, 3, 0, 0⟩) ∧
    decodeTableWord 64 0x05738000C0000000 = some (.tmark ⟨28, 0, 0, 3, 0, 0⟩) ∧
    decodeTableWord 64 0x05778000C0000001 = some (.twait ⟨28, 0, 0, 3, 0, 1⟩) :=
  ⟨rfl, rfl, rfl, rfl, rfl⟩

theorem test_decode_long_vector_a :
    decodeTableWord 64 0x0502FFE807C0F904 = some (.vadd ⟨0x17ff, 0x807, 0x181f, 1, 4⟩) ∧
    decodeTableWord 64 0x0506FFE807C0F904 = some (.vsub ⟨0x17ff, 0x807, 0x181f, 1, 4⟩) ∧
    decodeTableWord 64 0x050900D123C03418 = some (.vmul ⟨0x806, 0x1123, 0x1806, 4, 24⟩) ∧
    decodeTableWord 64 0x050D003153C03008 = some (.vfma ⟨0x801, 0x1153, 0x1806, 0, 8⟩) ∧
    decodeTableWord 64 0x0510000802824A00 = some (.vmax ⟨0, 0x802, 0x1049, 2, 0⟩) ∧
    decodeTableWord 64 0x0514000802824A00 = some (.vmin ⟨0, 0x802, 0x1049, 2, 0⟩) ∧
    decodeTableWord 64 0x0519003809000300 = some (.vabs ⟨0x801, 0x1809, 0, 3, 0⟩) ∧
    decodeTableWord 64 0x051D003809000300 = some (.vneg ⟨0x801, 0x1809, 0, 3, 0⟩) ∧
    decodeTableWord 64 0x0521002000928E00 = some (.vand ⟨0x801, 0, 0x1251, 6, 0⟩) ∧
    decodeTableWord 64 0x0525002000928E00 = some (.vor ⟨0x801, 0, 0x1251, 6, 0⟩) ∧
    decodeTableWord 64 0x0529002000928E00 = some (.vxor ⟨0x801, 0, 0x1251, 6, 0⟩) ∧
    decodeTableWord 64 0x052D002000928E00 = some (.vshl ⟨0x801, 0, 0x1251, 6, 0⟩) ∧
    decodeTableWord 64 0x0531002000928E00 = some (.vshr ⟨0x801, 0, 0x1251, 6, 0⟩) ∧
    decodeTableWord 64 0x0535002802C01EE0 = some (.vcmp ⟨0x801, 0x802, 0x1803, 6, 224⟩) :=
  ⟨rfl, rfl, rfl, rfl, rfl, rfl, rfl, rfl, rfl, rfl, rfl, rfl, rfl, rfl⟩

theorem test_decode_long_vector_b :
    decodeTableWord 64 0x0539002802401E00 = some (.vsel ⟨0x801, 0x802, 0x803, 6, 0⟩) ∧
    decodeTableWord 64 0x053D003084001010 = some (.vcvt ⟨0x801, 0x1084, 2, 0, 16⟩) ∧
    decodeTableWord 64 0x0542202802000100 = some (.vmov ⟨0x1101, 0x802, 0, 1, 0⟩) ∧
    decodeTableWord 64 0x05450051C0000500 = some (.vcacc ⟨0x802, 0x11c0, 0, 5, 0⟩) ∧
    decodeTableWord 64 0x0549008801C01D00 = some (.vtwosum ⟨0x804, 0x801, 0x1803, 5, 0⟩) ∧
    decodeTableWord 64 0x054D00C803000140 = some (.vred ⟨0x806, 0x803, 0, 1, 64⟩) ∧
    decodeTableWord 64 0x055100C803000310 = some (.vexp2 ⟨0x806, 0x803, 0, 3, 16⟩) ∧
    decodeTableWord 64 0x055500C802000408 = some (.vrcp ⟨0x806, 0x802, 0, 4, 8⟩) ∧
    decodeTableWord 64 0x055900C803000310 = some (.vrsq ⟨0x806, 0x803, 0, 3, 16⟩) ∧
    decodeTableWord 64 0x055D00C803C03900 = some (.vsplat ⟨0x806, 0x803, 0x1807, 1, 0⟩) ∧
    decodeTableWord 64 0x056300E806C00900 = some (.vextr ⟨0x1807, 0x806, 0x1801, 1, 0⟩) ∧
    decodeTableWord 64 0x056500C803403E20 = some (.vperm ⟨0x806, 0x803, 0x807, 6, 32⟩) ∧
    decodeTableWord 64 0x056900D0C4000000 = some (.vquant ⟨0x806, 0x10c4, 0, 0, 0⟩) :=
  ⟨rfl, rfl, rfl, rfl, rfl, rfl, rfl, rfl, rfl, rfl, rfl, rfl, rfl⟩

theorem test_decode_flags :
    decodeTableWord 64 0x0580060300000000 = some (.fwait ⟨0, 6, 3, 0, 0⟩) ∧
    decodeTableWord 64 0x05840009040101FF = some (.fsig ⟨0, 0, 9, 0x401, 0x1ff⟩) ∧
    decodeTableWord 64 0x0588A0FF00000003 = some (.frd ⟨5, 0, 255, 0, 3⟩) ∧
    decodeTableWord 64 0x058C0009FFF20000 = some (.fset ⟨0, 0, 9, 0xfff2, 0⟩) ∧
    decodeTableWord 64 0x0590000C08000000 = some (.fwin ⟨0, 0, 12, 0x800, 0⟩) :=
  ⟨rfl, rfl, rfl, rfl, rfl⟩

theorem test_decode_tasks_system_1 :
    decodeTableWord 64 0x0594A4FFFFFFF800 = some (.spawn ⟨5, 4, 0xfffffff8, 0⟩) ∧
    decodeTableWord 64 0x0598000000000000 = some (.work ⟨0, 0, 0, 0, 0, 0⟩) ∧
    decodeTableWord 64 0x059C000000000000 = some (.done ⟨0, 0, 0, 0, 0, 0⟩) ∧
    decodeTableWord 64 0x05A0000000004300 = some (.gbar ⟨0, 0, 67, 0⟩) ∧
    decodeTableWord 64 0x05A4A00000013700 = some (.rdsr ⟨5, 0, 0x137, 0⟩) ∧
    decodeTableWord 64 0x05A8060000002000 = some (.wrsr ⟨0, 6, 32, 0⟩) ∧
    decodeTableWord 64 0x05ACA00000000000 = some (.featq ⟨5, 0, 0, 0, 0, 0⟩) ∧
    decodeTableWord 64 0x05B0A68123456700 = some (.locq ⟨5, 6, 0x81234567, 0⟩) ∧
    decodeTableWord 64 0x05B4A00000000000 = some (.cycle ⟨5, 0, 0, 0, 0, 0⟩) ∧
    decodeTableWord 64 0x05B80000C0500000 = some (.regpwr ⟨0, 0, 0xc05000, 0⟩) ∧
    decodeTableWord 64 0x05C0000000000000 = some (.trapret ⟨0, 0, 0, 0, 0, 0⟩) ∧
    decodeTableWord 64 0x05D8A60000000000 = some (.attest ⟨5, 6, 0, 0⟩) ∧
    decodeTableWord 64 0x05C4000000002000 = some (.tlbinvAll ⟨0, 0, 32, 0⟩) ∧
    decodeTableWord 64 0x05C4000000001F01 = some (.tlbinvSpace ⟨0, 0, 31, 1⟩) ∧
    decodeTableWord 64 0x05C4050000000302 = some (.tlbinvPage ⟨0, 5, 3, 2⟩) ∧
    decodeTableWord 64 0x05C806000000FF00 = some (.winmap ⟨0, 6, 255, 0⟩) :=
  ⟨rfl, rfl, rfl, rfl, rfl, rfl, rfl, rfl, rfl, rfl, rfl, rfl, rfl, rfl, rfl, rfl⟩

theorem test_decode_tasks_system_2 :
    decodeTableWord 64 0x05C8060000000001 = some (.winmapRoot ⟨0, 6, 0, 1⟩) ∧
    decodeTableWord 64 0x05CCA4FFFFFFF81F = some (.partcfgAssign ⟨5, 4, 0xfffffff8, 31⟩) ∧
    decodeTableWord 64 0x05CCA4000000083F = some (.partcfgRelease ⟨5, 4, 8, 63⟩) ∧
    decodeTableWord 64 0x05D0A600001F1F00 = some (.ttcmdWeight ⟨5, 6, 0x1f1f, 0⟩) ∧
    decodeTableWord 64 0x05D0A60000001F01 = some (.ttcmdClose ⟨5, 6, 31, 1⟩) ∧
    decodeTableWord 64 0x05D0A60000000002 = some (.ttcmdQuiesce ⟨5, 6, 0, 2⟩) ∧
    decodeTableWord 64 0x05D0A60000000003 = some (.ttcmdResume ⟨5, 6, 0, 3⟩) ∧
    decodeTableWord 64 0x05D4A6000000FF00 = some (.corectlClrfeat ⟨5, 6, 255, 0⟩) ∧
    decodeTableWord 64 0x05D4A60000009501 = some (.corectlHalt ⟨5, 6, 149, 1⟩) ∧
    decodeTableWord 64 0x05D4A60000000102 = some (.corectlState ⟨5, 6, 1, 2⟩) :=
  ⟨rfl, rfl, rfl, rfl, rfl, rfl, rfl, rfl, rfl, rfl⟩

theorem test_decode_engine_commands_1 :
    decodeTableWord 128 0x00000000000000670800140040181004 = some (.seRun ⟨5, 16, 6, 1025, 0, 0x67⟩) ∧
    decodeTableWord 128 0x00000000000000400804140040181004 = some (.seHalt ⟨5, 16, 6, 1025, 0, 0x40⟩) ∧
    decodeTableWord 128 0x000000000000001F0820140040181004 = some (.grCfg ⟨5, 16, 6, 1025, 0, 0x1F⟩) ∧
    decodeTableWord 128 0x000000000000001E0824140040181004 = some (.grGo ⟨5, 16, 6, 1025, 0, 0x1E⟩) ∧
    decodeTableWord 128 0x00000000000000000828140040181004 = some (.grDrain ⟨5, 16, 6, 1025, 0, 0x0⟩) ∧
    decodeTableWord 128 0x00000000001F201F082C140040181004 = some (.grDump ⟨5, 16, 6, 1025, 0, 0x1F201F⟩) ∧
    decodeTableWord 128 0x00000000001F201F0830140040181004 = some (.grFill ⟨5, 16, 6, 1025, 0, 0x1F201F⟩) ∧
    decodeTableWord 128 0x0000ABCD728345670840140040181004 = some (.scnChunk ⟨5, 16, 6, 1025, 0, 0xABCD72834567⟩) ∧
    decodeTableWord 128 0x0000ABCD000000650844140040181004 = some (.scnCarry ⟨5, 16, 6, 1025, 0, 0xABCD00000065⟩) ∧
    decodeTableWord 128 0x00000000000000000860140040181004 = some (.mxLease ⟨5, 16, 6, 1025, 0, 0x0⟩) ∧
    decodeTableWord 128 0x0003FFF00FFF29280864140040181004 = some (.mxMma ⟨5, 16, 6, 1025, 0, 0x3FFF00FFF2928⟩) ∧
    decodeTableWord 128 0x00000003FFF303FF0868140040181004 = some (.mxDrain ⟨5, 16, 6, 1025, 0, 0x3FFF303FF⟩) ∧
    decodeTableWord 128 0x0000000000000000086C140040181004 = some (.mxFree ⟨5, 16, 6, 1025, 0, 0x0⟩) ∧
    decodeTableWord 128 0x00000007FFF000000870140040181004 = some (.mxZero ⟨5, 16, 6, 1025, 0, 0x7FFF00000⟩) ∧
    decodeTableWord 128 0x00000000000018850880140040181004 = some (.xfCopy ⟨5, 16, 6, 1025, 0, 0x1885⟩) ∧
    decodeTableWord 128 0x00000000000F18850884140040181004 = some (.xfCopy2d ⟨5, 16, 6, 1025, 0, 0xF1885⟩) :=
  ⟨rfl, rfl, rfl, rfl, rfl, rfl, rfl, rfl, rfl, rfl, rfl, rfl, rfl, rfl, rfl, rfl⟩

theorem test_decode_engine_commands_2 :
    decodeTableWord 128 0x00000000000F0C050888140040181004 = some (.xfFill ⟨5, 16, 6, 1025, 0, 0xF0C05⟩) ∧
    decodeTableWord 128 0x00000000060F1885088C140040181004 = some (.xfGather ⟨5, 16, 6, 1025, 0, 0x60F1885⟩) ∧
    decodeTableWord 128 0x00000000000007A508A0140040181004 = some (.slSave ⟨5, 16, 6, 1025, 0, 0x7A5⟩) ∧
    decodeTableWord 128 0x000000000000048508A4140040181004 = some (.slLoad ⟨5, 16, 6, 1025, 0, 0x485⟩) ∧
    decodeTableWord 128 0x000000000000F48508A8140040181004 = some (.slSnap ⟨5, 16, 6, 1025, 0, 0xF485⟩) ∧
    decodeTableWord 128 0x000000000000900108AC140040181004 = some (.slFork ⟨5, 16, 6, 1025, 0, 0x9001⟩) ∧
    decodeTableWord 128 0x000000000000A00108B0140040181004 = some (.slRoll ⟨5, 16, 6, 1025, 0, 0xA001⟩) ∧
    decodeTableWord 128 0x000000000001F40008B4140040181004 = some (.slDrop ⟨5, 16, 6, 1025, 0, 0x1F400⟩) ∧
    decodeTableWord 128 0x0000000000003F1F08C0140040181004 = some (.teRun ⟨5, 16, 6, 1025, 0, 0x3F1F⟩) ∧
    decodeTableWord 128 0x0000000000003F1F08C4140040181004 = some (.teHalt ⟨5, 16, 6, 1025, 0, 0x3F1F⟩) ∧
    decodeTableWord 128 0x000000000407080208E0140040181004 = some (.swRoute ⟨5, 16, 6, 1025, 0, 0x4070802⟩) ∧
    decodeTableWord 128 0x0000000003000A0F08E4140040181004 = some (.swFmt ⟨5, 16, 6, 1025, 0, 0x3000A0F⟩) ∧
    decodeTableWord 128 0x000000000000000508FC140040181004 = some (.note ⟨5, 16, 6, 1025, 0, 0x5⟩) :=
  ⟨rfl, rfl, rfl, rfl, rfl, rfl, rfl, rfl, rfl, rfl, rfl, rfl, rfl⟩

theorem test_decode_cells_1 :
    decodeCell 0x02D32B569800ABCD = some (.cellCnop ⟨11, 4, 12, 0x15, 0x55, 5, 0, 6, 0, 0xABCD⟩) ∧
    decodeCell 0x06D32B56B800ABCD = some (.cellPass ⟨11, 4, 12, 0x15, 0x55, 5, 1, 6, 0, 0xABCD⟩) ∧
    decodeCell 0x0AD32B56D800ABCD = some (.cellFadd ⟨11, 4, 12, 0x15, 0x55, 5, 2, 6, 0, 0xABCD⟩) ∧
    decodeCell 0x0ED32B569800ABCD = some (.cellFsub ⟨11, 4, 12, 0x15, 0x55, 5, 0, 6, 0, 0xABCD⟩) ∧
    decodeCell 0x12D32B56B800ABCD = some (.cellFmul ⟨11, 4, 12, 0x15, 0x55, 5, 1, 6, 0, 0xABCD⟩) ∧
    decodeCell 0x16D32B56D800ABCD = some (.cellFfma ⟨11, 4, 12, 0x15, 0x55, 5, 2, 6, 0, 0xABCD⟩) ∧
    decodeCell 0x1AD32B569800ABCD = some (.cellFmax ⟨11, 4, 12, 0x15, 0x55, 5, 0, 6, 0, 0xABCD⟩) ∧
    decodeCell 0x1ED32B56B800ABCD = some (.cellFmin ⟨11, 4, 12, 0x15, 0x55, 5, 1, 6, 0, 0xABCD⟩) ∧
    decodeCell 0x22D32B56D800ABCD = some (.cellFabs ⟨11, 4, 12, 0x15, 0x55, 5, 2, 6, 0, 0xABCD⟩) ∧
    decodeCell 0x26D32B569800ABCD = some (.cellFexp2 ⟨11, 4, 12, 0x15, 0x55, 5, 0, 6, 0, 0xABCD⟩) ∧
    decodeCell 0x2AD32B56B800ABCD = some (.cellFrcp ⟨11, 4, 12, 0x15, 0x55, 5, 1, 6, 0, 0xABCD⟩) ∧
    decodeCell 0x2ED32B56D800ABCD = some (.cellIadd ⟨11, 4, 12, 0x15, 0x55, 5, 2, 6, 0, 0xABCD⟩) ∧
    decodeCell 0x32D32B569800ABCD = some (.cellIsub ⟨11, 4, 12, 0x15, 0x55, 5, 0, 6, 0, 0xABCD⟩) ∧
    decodeCell 0x36D32B56B800ABCD = some (.cellImul ⟨11, 4, 12, 0x15, 0x55, 5, 1, 6, 0, 0xABCD⟩) ∧
    decodeCell 0x3AD32B56D800ABCD = some (.cellAnd ⟨11, 4, 12, 0x15, 0x55, 5, 2, 6, 0, 0xABCD⟩) ∧
    decodeCell 0x3ED32B569800ABCD = some (.cellOr ⟨11, 4, 12, 0x15, 0x55, 5, 0, 6, 0, 0xABCD⟩) :=
  ⟨rfl, rfl, rfl, rfl, rfl, rfl, rfl, rfl, rfl, rfl, rfl, rfl, rfl, rfl, rfl, rfl⟩

theorem test_decode_cells_2 :
    decodeCell 0x42D32B56B800ABCD = some (.cellXor ⟨11, 4, 12, 0x15, 0x55, 5, 1, 6, 0, 0xABCD⟩) ∧
    decodeCell 0x46D32B56D800ABCD = some (.cellShl ⟨11, 4, 12, 0x15, 0x55, 5, 2, 6, 0, 0xABCD⟩) ∧
    decodeCell 0x4AD32B569800ABCD = some (.cellShr ⟨11, 4, 12, 0x15, 0x55, 5, 0, 6, 0, 0xABCD⟩) ∧
    decodeCell 0x4ED32B56B800ABCD = some (.cellSel ⟨11, 4, 12, 0x15, 0x55, 5, 1, 6, 0, 0xABCD⟩) ∧
    decodeCell 0x52D32B56D800ABCD = some (.cellCmplt ⟨11, 4, 12, 0x15, 0x55, 5, 2, 6, 0, 0xABCD⟩) ∧
    decodeCell 0x56D32B569800ABCD = some (.cellCmpeq ⟨11, 4, 12, 0x15, 0x55, 5, 0, 6, 0, 0xABCD⟩) ∧
    decodeCell 0x5AD32B56B800ABCD = some (.cellSld ⟨11, 4, 12, 0x15, 0x55, 5, 1, 6, 0, 0xABCD⟩) ∧
    decodeCell 0x5ED32B56D800ABCD = some (.cellSst ⟨11, 4, 12, 0x15, 0x55, 5, 2, 6, 0, 0xABCD⟩) ∧
    decodeCell 0x62D32B569800ABCD = some (.cellAcc2 ⟨11, 4, 12, 0x15, 0x55, 5, 0, 6, 0, 0xABCD⟩) ∧
    decodeCell 0x66D32B56B800ABCD = some (.cellCvt ⟨11, 4, 12, 0x15, 0x55, 5, 1, 6, 0, 0xABCD⟩) :=
  ⟨rfl, rfl, rfl, rfl, rfl, rfl, rfl, rfl, rfl, rfl⟩

theorem test_decode_patterns :
    decodePattern 0x000000000000 = some (.pend ⟨0x0⟩) ∧
    decodePattern 0x06AAAAAAAAAA = some (.pbase ⟨0x2AAAAAAAAAA⟩) ∧
    decodePattern 0x0AAAAAAAAAAA = some (.pdst ⟨0x2AAAAAAAAAA⟩) ∧
    decodePattern 0x0FFFC1123456 = some (.pmove ⟨0x3FFC1, 0x1234, 0x56⟩) ∧
    decodePattern 0x13FFC1123456 = some (.pnest ⟨0x3FFC1, 0x1234, 0x56⟩) ∧
    decodePattern 0x17FFC1123456 = some (.pwrap ⟨0x3FFC1, 0x1234, 0x56⟩) ∧
    decodePattern 0x1AAAAAAAAAAA = some (.pfmt ⟨0x2AAAAAAAAAA⟩) ∧
    decodePattern 0x1E9448CA5400 = some (.pwait ⟨0xA5, 0x1232, 0x95, 0⟩) ∧
    decodePattern 0x229448CA5400 = some (.psig ⟨0xA5, 0x1232, 0x95, 0⟩) ∧
    decodePattern 0x269448CA5400 = some (.pwin ⟨0xA5, 0x1232, 0x95, 0⟩) ∧
    decodePattern 0x2AAAAAAAAAAA = some (.pjump ⟨0x2AAAAAAAAAA⟩) ∧
    decodePattern 0x2FFFC1123456 = some (.ploop ⟨0x3FFC1, 0x1234, 0x56⟩) ∧
    decodePattern 0x33FFC1123456 = some (.pgath ⟨0x3FFC1, 0x1234, 0x56⟩) ∧
    decodePattern 0x36AAAAAAAAAA = some (.pfillv ⟨0x2AAAAAAAAAA⟩) ∧
    decodePattern 0x3BFFC1123456 = some (.pskip ⟨0x3FFC1, 0x1234, 0x56⟩) ∧
    decodePattern 0x3E9448CA5400 = some (.pnote ⟨0xA5, 0x1232, 0x95, 0⟩) :=
  ⟨rfl, rfl, rfl, rfl, rfl, rfl, rfl, rfl, rfl, rfl, rfl, rfl, rfl, rfl, rfl, rfl⟩

/-! ## The spec's own worked words -/

/-- The worked P words of R286, R289, R310 and the fragments of chapters 10, 11 and 17. -/
theorem test_worked_slots :
    decodeWord .full 0x30094C7001123000 0 =
      .ok (.p ⟨false, 3⟩ (.add ⟨5, 6, 7, 0⟩) (.vaddSlot ⟨1, 2, 3, 0, 0, 0⟩)) ∧
    decodeWord .full 0xB0114C7000000000 0 =
      .ok (.p ⟨true, 3⟩ (.sub ⟨5, 6, 7, 0⟩) (.vnop ⟨0, 0, 0, 0, 0, 0⟩)) ∧
    decodeWord .full 0x00D08C0800000000 0 =
      .ok (.p ⟨false, 0⟩ (.setp ⟨2, 6, 0, 8⟩) (.vnop ⟨0, 0, 0, 0, 0, 0⟩)) ∧
    decodeWord .full 0x0000000004123100 0 =
      .ok (.p ⟨false, 0⟩ (.snop ⟨0, 0, 0, 0⟩) (.vfmaSlot ⟨1, 2, 3, 1, 0, 0⟩)) ∧
    decodeWord .full 0x000000000F151600 0 =
      .ok (.p ⟨false, 0⟩ (.snop ⟨0, 0, 0, 0⟩) (.vselSlot ⟨1, 5, 1, 6, 0, 0⟩)) ∧
    decodeWord .full 0 0 =
      .ok (.p ⟨false, 0⟩ (.snop ⟨0, 0, 0, 0⟩) (.vnop ⟨0, 0, 0, 0, 0, 0⟩)) :=
  ⟨rfl, rfl, rfl, rfl, rfl, rfl⟩

/-- The worked L words of chapters 10 and 11. -/
theorem test_worked_scalar :
    decodeWord .full 0x0400C00000002800 0 = .ok (.l .always (.addi ⟨6, 0, 40, 0⟩)) ∧
    decodeWord .full 0x0420A01234567800 0 = .ok (.l .always (.li ⟨5, 0, 0x12345678, 0⟩)) ∧
    decodeWord .full 0x1480000000000300 0 = .ok (.l ⟨false, 1⟩ (.br ⟨0, 0, 3, 0⟩)) ∧
    decodeWord .full 0x049520FFFFFFFF00 0 = .ok (.l .always (.loop ⟨9, 0, 0xFFFFFFFF, 0⟩)) ∧
    decodeWord .full 0xA430E53000000000 0 = .ok (.l ⟨true, 2⟩ (.div ⟨7, 5, 6, 0, 0, 0⟩)) ∧
    decodeWord .full 0x2420E0FFFFFFFF00 0 = .ok (.l ⟨false, 2⟩ (.li ⟨7, 0, 0xFFFFFFFF, 0⟩)) ∧
    decodeWord .full 0x042C474000000000 0 = .ok (.l .always (.setpi ⟨2, 7, 0x40000000, 0⟩)) ∧
    decodeWord .full 0x04A8000000000000 0 = .ok (.l .always (.wfb ⟨0, 0, 0, 0, 0, 0⟩)) :=
  ⟨rfl, rfl, rfl, rfl, rfl, rfl, rfl, rfl⟩

/-- The worked memory, queue and flag words of chapters 13 and 17: size, order and scope codes of R260,
R105 and R106. -/
theorem test_worked_memory :
    decodeWord .full 0x04C0A40000084860 0 = .ok (.l .always (.ld ⟨5, 4, 8, 2, 2, 0, 3, 0⟩)) ∧
    decodeWord .full 0x04C0A40000084001 0 = .ok (.l .always (.ld ⟨5, 4, 8, 2, 0, 0, 0, 1⟩)) ∧
    decodeWord .full 0x04C4E40000106000 0 = .ok (.l .always (.st ⟨7, 4, 16, 3, 0, 0, 0, 0⟩)) ∧
    decodeWord .full 0x04D046000000A200 0 = .ok (.l .always (.ldv ⟨2, 6, 0, 5, 0, 2, 0, 0⟩)) ∧
    decodeWord .full 0x04D886000000C108 0 = .ok (.l .always (.ldt ⟨4, 6, 0, 6, 0, 1, 0, 8⟩)) ∧
    decodeWord .full 0x04E4000000000C60 0 = .ok (.l .always (.fence ⟨0, 0, 0, 0, 3, 0, 3, 0⟩)) ∧
    decodeWord .full 0x04E8A40000004465 0 = .ok (.l .always (.amo ⟨5, 4, 0, 2, 1, 0, 3, 5⟩)) ∧
    decodeWord .full 0x04ECA40000007066 0 = .ok (.l .always (.cas ⟨5, 4, 0, 3, 4, 0, 3, 6⟩)) ∧
    decodeWord .full 0x04F0A40000007061 0 = .ok (.l .always (.enqCommit ⟨5, 4, 0, 3, 4, 0, 3, 1⟩)) ∧
    decodeWord .full 0x04F8030000000000 0 = .ok (.l .always (.qpush ⟨0, 3, 0, 0, 0, 0⟩)) ∧
    decodeWord .full 0x0580000304000000 0 = .ok (.l .always (.fwait ⟨0, 0, 3, 1024, 0⟩)) ∧
    decodeWord .full 0x0584000904000125 0 = .ok (.l .always (.fsig ⟨0, 0, 9, 1024, 293⟩)) ∧
    decodeWord .full 0x0588A00900000000 0 = .ok (.l .always (.frd ⟨5, 0, 9, 0, 0⟩)) :=
  ⟨rfl, rfl, rfl, rfl, rfl, rfl, rfl, rfl, rfl, rfl, rfl, rfl, rfl⟩

/-- The worked vector words of chapters 12 and 21: the specifiers of R254. -/
theorem test_worked_vector :
    decodeWord .full 0x050D003153C03000 0 = .ok (.l .always (.vfma ⟨0x801, 0x1153, 0x1806, 0, 0⟩)) ∧
    Spec.ofLong 0x1153 = some (.tile 5 1 3) ∧ Spec.ofLong 0x801 = some (.reg 1) ∧
    Spec.ofLong 0x1806 = some (.scalar 6) ∧
    decodeWord .full 0x054D00C803000100 0 = .ok (.l .always (.vred ⟨0x806, 0x803, 0, 1, 0⟩)) ∧
    decodeWord .full 0x056300E806C00100 0 = .ok (.l .always (.vextr ⟨0x1807, 0x806, 0x1800, 1, 0⟩)) ∧
    decodeWord .full 0x053D008802002500 0 = .ok (.l .always (.vcvt ⟨0x804, 0x802, 4, 5, 0⟩)) ∧
    decodeWord .full 0x056C800000000000 0 = .ok (.l .always (.tclr ⟨4, 0, 0, 0, 0, 0⟩)) :=
  ⟨rfl, rfl, rfl, rfl, rfl, rfl, rfl, rfl⟩

/-- The worked supervisor words of R405 and R408, which only a system core has. -/
theorem test_worked_system :
    decodeWord .system 0x05C0000000000000 0 = .ok (.l .always (.trapret ⟨0, 0, 0, 0, 0, 0⟩)) ∧
    decodeWord .system 0x05C4050000000302 0 = .ok (.l .always (.tlbinvPage ⟨0, 5, 3, 2⟩)) ∧
    decodeWord .system 0x05C8060000009500 0 = .ok (.l .always (.winmap ⟨0, 6, 149, 0⟩)) ∧
    decodeWord .system 0x05CCA40000000003 0 = .ok (.l .always (.partcfgAssign ⟨5, 4, 0, 3⟩)) ∧
    decodeWord .system 0x05D0A60000000301 0 = .ok (.l .always (.ttcmdClose ⟨5, 6, 3, 1⟩)) ∧
    decodeWord .system 0x05D4000000009501 0 = .ok (.l .always (.corectlHalt ⟨0, 0, 149, 1⟩)) ∧
    decodeWord .system 0x05D8A60000000000 0 = .ok (.l .always (.attest ⟨5, 6, 0, 0⟩)) ∧
    decodeWord .system 0x05A4800000081200 0 = .ok (.l .always (.rdsr ⟨4, 0, 0x812, 0⟩)) :=
  ⟨rfl, rfl, rfl, rfl, rfl, rfl, rfl, rfl⟩

/-- The worked E commands of R353 and chapters 10, 14, 15 and 21. -/
theorem test_worked_engine :
    decodeWord .full 0x0880000000240040 0x1885 =
      .ok (.e .always (.xfCopy ⟨0, 0, 9, 16, 0, 0x1885⟩)) ∧
    decodeWord .full 0x08E0000000000000 0x080F0000 =
      .ok (.e .always (.swRoute ⟨0, 0, 0, 0, 0, 0x080F0000⟩)) ∧
    decodeWord .full 0x0864000000140040 0x7FFFFF02928 =
      .ok (.e .always (.mxMma ⟨0, 0, 5, 16, 0, 0x7FFFFF02928⟩)) ∧
    decodeWord .full 0x08400800400C0040 0x72135A928 =
      .ok (.e .always (.scnChunk ⟨2, 16, 3, 16, 0, 0x72135A928⟩)) ∧
    decodeWord .full 0x08FC000000000000 4 = .ok (.e .always (.note ⟨0, 0, 0, 0, 0, 4⟩)) :=
  ⟨rfl, rfl, rfl, rfl, rfl⟩

/-- The worked cell and pattern words of R271, R279, R280 and chapter 15. -/
theorem test_worked_images :
    decodeCell 0x1219D00000003F00 = some (.cellFmul ⟨8, 6, 7, 8, 0, 0, 0, 0, 0, 0x3F00⟩) ∧
    decodeCell 0x161A500000003F00 = some (.cellFfma ⟨8, 6, 9, 8, 0, 0, 0, 0, 0, 0x3F00⟩) ∧
    decodeCell 0x04DDC20204000000 = some (.cellPass ⟨3, 7, 7, 1, 0, 4, 0, 1, 0, 0⟩) ∧
    decodePattern 0x0C0040001000 = some (.pmove ⟨64, 16, 0⟩) ∧
    decodePattern 0x047FFFFFFC00 = some (.pbase ⟨0x7FFFFFFC00⟩) ∧
    decodePattern 0x243000401400 = some (.pwin ⟨12, 16, 5, 0⟩) ∧
    decodePattern 0x3C0C00400000 = some (.pnote ⟨3, 16, 0, 0⟩) ∧ decodePattern 0 = some (.pend ⟨0⟩) :=
  ⟨rfl, rfl, rfl, rfl, rfl, rfl, rfl, rfl⟩

/-! ## Ill-formed words and the code each is refused with (R226, R254 to R272) -/


theorem test_refuses_common_fields :
    decodeWord .full 0x0C00000000000000 0 = .error 1 ∧
    decodeWord .full 0x8000000000000000 0 = .error 3 ∧
    decodeWord .full 0x8400A60000000100 0 = .error 35 ∧
    decodeWord .full 0x8800000000000000 0 = .error 51 ∧
    decodeWord .full 0x8100000000000000 0 = .error 3 ∧
    decodeWord .full 0x00094C7115000000 0 = .error 2 ∧
    decodeWord .full 0x0100000000000000 0 = .error 0 ∧
    decodeWord .full 0x03F8000000000000 0 = .error 0 ∧
    decodeWord .full 0x0000000015000000 0 = .error 16 ∧
    decodeWord .full 0x00000000FF000000 0 = .error 16 ∧
    decodeWord .full 0x0468000000000000 0 = .error 32 ∧
    decodeWord .full 0x047C000000000000 0 = .error 32 ∧
    decodeWord .full 0x04AC000000000000 0 = .error 32 ∧
    decodeWord .full 0x04BC000000000000 0 = .error 32 ∧
    decodeWord .full 0x0578000000000000 0 = .error 32 ∧
    decodeWord .full 0x057C000000000000 0 = .error 32 ∧
    decodeWord .full 0x05BC000000000000 0 = .error 32 ∧
    decodeWord .full 0x05DC000000000000 0 = .error 32 ∧
    decodeWord .full 0x07FC000000000000 0 = .error 32 :=
  ⟨rfl, rfl, rfl, rfl, rfl, rfl, rfl, rfl, rfl, rfl, rfl, rfl, rfl, rfl, rfl, rfl, rfl, rfl, rfl⟩

theorem test_refuses_engine_commands_1 :
    decodeWord .full 0x0808000000000000 0 = .error 48 ∧
    decodeWord .full 0x0834000000000000 0 = .error 48 ∧
    decodeWord .full 0x0848000000000000 0 = .error 48 ∧
    decodeWord .full 0x0874000000000000 0 = .error 48 ∧
    decodeWord .full 0x0890000000000000 0 = .error 48 ∧
    decodeWord .full 0x08B8000000000000 0 = .error 48 ∧
    decodeWord .full 0x08C8000000000000 0 = .error 48 ∧
    decodeWord .full 0x08E8000000000000 0 = .error 48 ∧
    decodeWord .full 0x0900000000000000 0 = .error 48 ∧
    decodeWord .full 0x0BFC000000000000 0 = .error 48 ∧
    decodeWord .full 0x0800000000000001 0 = .error 50 ∧
    decodeWord .full 0x0800040000000000 0 = .error 50 ∧
    decodeWord .full 0x0800000000040000 0 = .error 50 ∧
    decodeWord .full 0x080003FFFC000000 0 = .error 56 ∧
    decodeWord .full 0x080000000003FFFC 0 = .error 56 ∧
    decodeWord .full 0x0800000000000000 0x80 = .error 50 ∧
    decodeWord .full 0x0804000000000000 0xa0 = .error 50 ∧
    decodeWord .full 0x08C0000000000000 0x20 = .error 50 ∧
    decodeWord .full 0x08C4000000000000 0x81 = .error 50 ∧
    decodeWord .full 0x08E0000000000000 0x20000000 = .error 50 :=
  ⟨rfl, rfl, rfl, rfl, rfl, rfl, rfl, rfl, rfl, rfl, rfl, rfl, rfl, rfl, rfl, rfl, rfl, rfl, rfl, rfl⟩

theorem test_refuses_engine_commands_2 :
    decodeWord .full 0x08E0000000000000 0x80000100 = .error 50 ∧
    decodeWord .full 0x08E0000000000000 0x400 = .error 50 ∧
    decodeWord .full 0x08E0000000000000 0x80800 = .error 50 ∧
    decodeWord .full 0x08E4000000000000 0x1000700 = .error 50 ∧
    decodeWord .full 0x08E4000000000000 0x2050000 = .error 50 ∧
    decodeWord .full 0x0820000000000000 0x20 = .error 50 ∧
    decodeWord .full 0x0824000000000000 0x20 = .error 50 ∧
    decodeWord .full 0x0828000000000000 0x20 = .error 50 ∧
    decodeWord .full 0x082C000000000000 0x203f00 = .error 50 ∧
    decodeWord .full 0x0830000000000000 0x1c03f00 = .error 50 ∧
    decodeWord .full 0x0840000000000000 0x80000000 = .error 50 ∧
    decodeWord .full 0x0840000000000000 0x900000 = .error 50 ∧
    decodeWord .full 0x0840000000000000 0x3000000 = .error 50 ∧
    decodeWord .full 0x0844000000000000 0x80 = .error 50 ∧
    decodeWord .full 0x0860000000000000 0x1 = .error 50 ∧
    decodeWord .full 0x0864000000000000 0x4000000000000 = .error 50 ∧
    decodeWord .full 0x0868000000000000 0x400 = .error 50 ∧
    decodeWord .full 0x086C000000000000 0x1 = .error 50 ∧
    decodeWord .full 0x0870000000000000 0x1 = .error 50 ∧
    decodeWord .full 0x0880000000000000 0x8000 = .error 50 :=
  ⟨rfl, rfl, rfl, rfl, rfl, rfl, rfl, rfl, rfl, rfl, rfl, rfl, rfl, rfl, rfl, rfl, rfl, rfl, rfl, rfl⟩

theorem test_refuses_engine_commands_3 :
    decodeWord .full 0x0884000000000000 0x100000 = .error 50 ∧
    decodeWord .full 0x0888000000000000 0x20 = .error 50 ∧
    decodeWord .full 0x088C000000000000 0x7000000 = .error 50 ∧
    decodeWord .full 0x08A0000000000000 0x1000 = .error 50 ∧
    decodeWord .full 0x08A4000000000000 0x1000 = .error 50 ∧
    decodeWord .full 0x08A8000000000000 0x800 = .error 50 ∧
    decodeWord .full 0x08AC000000000000 0x800 = .error 50 ∧
    decodeWord .full 0x08B0000000000000 0x800 = .error 50 ∧
    decodeWord .full 0x08B4000000000000 0x1000 = .error 50 ∧
    decodeWord .full 0x08FC000000000000 0x6 = .error 50 ∧
    decodeWord .full 0x08FC000000000000 0x8 = .error 50 ∧
    decodeWord ⟨false, 0x3D⟩ 0x0820000000000000 0 = .error 58 ∧
    decodeWord ⟨false, 0x3B⟩ 0x0840000000000000 0 = .error 58 ∧
    decodeWord ⟨false, 0x37⟩ 0x0860000000000000 0 = .error 58 ∧
    decodeWord ⟨false, 0x2F⟩ 0x08A0000000000000 0 = .error 58 ∧
    decodeWord .system 0x0800000000000000 0 = .error 48 :=
  ⟨rfl, rfl, rfl, rfl, rfl, rfl, rfl, rfl, rfl, rfl, rfl, rfl, rfl, rfl, rfl, rfl⟩

theorem test_refuses_scalar_slots_1 :
    decodeWord .full 0x0000000400000000 0 = .error 2 ∧
    decodeWord .full 0x0008000400000000 0 = .error 2 ∧
    decodeWord .full 0x0010000400000000 0 = .error 2 ∧
    decodeWord .full 0x0018000400000000 0 = .error 2 ∧
    decodeWord .full 0x0020000400000000 0 = .error 2 ∧
    decodeWord .full 0x0028000400000000 0 = .error 2 ∧
    decodeWord .full 0x0030000400000000 0 = .error 2 ∧
    decodeWord .full 0x0038000400000000 0 = .error 2 ∧
    decodeWord .full 0x0040000400000000 0 = .error 2 ∧
    decodeWord .full 0x0048000400000000 0 = .error 2 ∧
    decodeWord .full 0x0050000400000000 0 = .error 2 ∧
    decodeWord .full 0x0058000400000000 0 = .error 2 ∧
    decodeWord .full 0x0060000400000000 0 = .error 2 ∧
    decodeWord .full 0x0068000400000000 0 = .error 2 ∧
    decodeWord .full 0x0070000400000000 0 = .error 2 ∧
    decodeWord .full 0x0078000400000000 0 = .error 2 ∧
    decodeWord .full 0x0080000400000000 0 = .error 2 ∧
    decodeWord .full 0x0088000400000000 0 = .error 2 ∧
    decodeWord .full 0x0090000400000000 0 = .error 2 ∧
    decodeWord .full 0x0098000400000000 0 = .error 2 :=
  ⟨rfl, rfl, rfl, rfl, rfl, rfl, rfl, rfl, rfl, rfl, rfl, rfl, rfl, rfl, rfl, rfl, rfl, rfl, rfl, rfl⟩

theorem test_refuses_scalar_slots_2 :
    decodeWord .full 0x00A0000400000000 0 = .error 2 ∧
    decodeWord .full 0x00A8000400000000 0 = .error 2 ∧
    decodeWord .full 0x00B14C1000000000 0 = .error 2 ∧
    decodeWord .full 0x00B94C1000000000 0 = .error 2 ∧
    decodeWord .full 0x00C14C1000000000 0 = .error 2 ∧
    decodeWord .full 0x00D40C8300000000 0 = .error 2 ∧
    decodeWord .full 0x00DA0C8300000000 0 = .error 2 ∧
    decodeWord .full 0x00D84E8300000000 0 = .error 4 ∧
    decodeWord .full 0x00D84C7300000000 0 = .error 4 ∧
    decodeWord .full 0x00E0502000000000 0 = .error 2 ∧
    decodeWord .full 0x00E8502000000000 0 = .error 2 ∧
    decodeWord .full 0x00F0502000000000 0 = .error 2 ∧
    decodeWord .full 0x00F8422000000000 0 = .error 2 ∧
    decodeWord .full 0x0089426000000000 0 = .error 2 ∧
    decodeWord .full 0x0097CC8000000000 0 = .error 4 ∧
    decodeWord .full 0x00978A8000000000 0 = .error 4 ∧
    decodeWord .full 0x009FCC8000000000 0 = .error 4 ∧
    decodeWord .full 0x009F8A8000000000 0 = .error 4 ∧
    decodeWord .full 0x00A7CC8000000000 0 = .error 4 ∧
    decodeWord .full 0x00A78A8000000000 0 = .error 4 :=
  ⟨rfl, rfl, rfl, rfl, rfl, rfl, rfl, rfl, rfl, rfl, rfl, rfl, rfl, rfl, rfl, rfl, rfl, rfl, rfl, rfl⟩

theorem test_refuses_scalar_slots_3 :
    decodeWord .full 0x00AFCC8000000000 0 = .error 4 ∧
    decodeWord .full 0x00AF8A8000000000 0 = .error 4 ∧
    decodeWord .full 0x00978C7000000000 0 = .error 4 :=
  ⟨rfl, rfl, rfl⟩

theorem test_refuses_vector_slots_1 :
    decodeWord .full 0x0000000001900000 0 = .error 22 ∧
    decodeWord .full 0x00000000010F0000 0 = .error 22 ∧
    decodeWord .full 0x0000000001000100 0 = .error 18 ∧
    decodeWord .full 0x00000000010000E0 0 = .error 29 ∧
    decodeWord .full 0x00000000010000A0 0 = .error 29 ∧
    decodeWord .full 0x0000000001000004 0 = .error 29 ∧
    decodeWord .full 0x0000000001000001 0 = .error 29 ∧
    decodeWord .full 0x0000000001000028 0 = .error 29 ∧
    decodeWord .full 0x0000000001100080 0 = .error 20 ∧
    decodeWord .full 0x0000000001800080 0 = .error 22 ∧
    decodeWord .full 0x0000000004000900 0 = .error 22 ∧
    decodeWord .full 0x000000000F000900 0 = .error 22 ∧
    decodeWord .full 0x0000000007001000 0 = .error 18 ∧
    decodeWord .full 0x0000000009000000 0 = .error 29 ∧
    decodeWord .full 0x000000000E000800 0 = .error 29 ∧
    decodeWord .full 0x0000000014000300 0 = .error 29 ∧
    decodeWord .full 0x00000000121000A0 0 = .error 20 ∧
    decodeWord .full 0x0000000012000080 0 = .error 29 ∧
    decodeWord ⟨false, 0x3E⟩ 0x0000000001000080 0 = .error 26 ∧
    decodeWord .full 0x0000000000100000 0 = .error 18 :=
  ⟨rfl, rfl, rfl, rfl, rfl, rfl, rfl, rfl, rfl, rfl, rfl, rfl, rfl, rfl, rfl, rfl, rfl, rfl, rfl, rfl⟩

theorem test_refuses_vector_slots_2 :
    decodeWord .system 0x0000000000100000 0 = .error 18 ∧
    decodeWord .system 0x0000000001000000 0 = .error 16 ∧
    decodeWord .full 0x0000000010000000 0 = .error 29 ∧
    decodeWord .full 0x000000001000B000 0 = .error 29 :=
  ⟨rfl, rfl, rfl, rfl⟩

theorem test_refuses_scalar_long_1 :
    decodeWord .full 0x0400400000000080 0 = .error 34 ∧
    decodeWord .full 0x0404400000000080 0 = .error 34 ∧
    decodeWord .full 0x0408400000000080 0 = .error 34 ∧
    decodeWord .full 0x040C400000000080 0 = .error 34 ∧
    decodeWord .full 0x0410400000000080 0 = .error 34 ∧
    decodeWord .full 0x0414400000000080 0 = .error 34 ∧
    decodeWord .full 0x0418400000000080 0 = .error 34 ∧
    decodeWord .full 0x041C400000000080 0 = .error 34 ∧
    decodeWord .full 0x0420400000000080 0 = .error 34 ∧
    decodeWord .full 0x0424400000000080 0 = .error 34 ∧
    decodeWord .full 0x0428400000000080 0 = .error 34 ∧
    decodeWord .full 0x042C400000000080 0 = .error 34 ∧
    decodeWord .full 0x0410430000004000 0 = .error 34 ∧
    decodeWord .full 0x0414430000004000 0 = .error 34 ∧
    decodeWord .full 0x0418430000004000 0 = .error 34 ∧
    decodeWord .full 0x0420430000000000 0 = .error 34 ∧
    decodeWord .full 0x0424430000000000 0 = .error 34 ∧
    decodeWord .full 0x042D030000000000 0 = .error 34 ∧
    decodeWord .full 0x0430A63840000000 0 = .error 34 ∧
    decodeWord .full 0x0434A63840000000 0 = .error 34 :=
  ⟨rfl, rfl, rfl, rfl, rfl, rfl, rfl, rfl, rfl, rfl, rfl, rfl, rfl, rfl, rfl, rfl, rfl, rfl, rfl, rfl⟩

theorem test_refuses_scalar_long_2 :
    decodeWord .full 0x0438A63840000000 0 = .error 34 ∧
    decodeWord .full 0x043CA63840000000 0 = .error 34 ∧
    decodeWord .full 0x0440A63840000000 0 = .error 34 ∧
    decodeWord .full 0x0444A63840000000 0 = .error 34 ∧
    decodeWord .full 0x0448A63840000000 0 = .error 34 ∧
    decodeWord .full 0x0450A63840000000 0 = .error 34 ∧
    decodeWord .full 0x0458A63840000000 0 = .error 34 ∧
    decodeWord .full 0x045CA63840000000 0 = .error 34 ∧
    decodeWord .full 0x044CA63A00000100 0 = .error 34 ∧
    decodeWord .full 0x0454A63800000000 0 = .error 34 ∧
    decodeWord .full 0x0461063800000000 0 = .error 34 ∧
    decodeWord .full 0x0460263800000010 0 = .error 34 ∧
    decodeWord .full 0x0464A6000000000E 0 = .error 45 ∧
    decodeWord .full 0x0464A60800000000 0 = .error 34 ∧
    decodeWord .full 0x0480200000000000 0 = .error 34 ∧
    decodeWord .full 0x0484210000000000 0 = .error 34 ∧
    decodeWord .full 0x0494000000000000 0 = .error 34 ∧
    decodeWord .full 0x0488260000000000 0 = .error 34 ∧
    decodeWord .full 0x048C060800000000 0 = .error 34 ∧
    decodeWord .full 0x0490A60040000000 0 = .error 34 :=
  ⟨rfl, rfl, rfl, rfl, rfl, rfl, rfl, rfl, rfl, rfl, rfl, rfl, rfl, rfl, rfl, rfl, rfl, rfl, rfl, rfl⟩

theorem test_refuses_scalar_long_3 :
    decodeWord .full 0x0498000000000001 0 = .error 34 ∧
    decodeWord .full 0x049C000000000001 0 = .error 34 ∧
    decodeWord .full 0x04A8000000000001 0 = .error 34 ∧
    decodeWord .full 0x0598000000000001 0 = .error 34 ∧
    decodeWord .full 0x059C000000000001 0 = .error 34 ∧
    decodeWord .full 0x04A0200000000000 0 = .error 34 ∧
    decodeWord .full 0x04A4200000000000 0 = .error 34 :=
  ⟨rfl, rfl, rfl, rfl, rfl, rfl, rfl⟩

theorem test_refuses_memory_1 :
    decodeWord .full 0x04C0A40000008000 0 = .error 39 ∧
    decodeWord .full 0x04C0A4000000E000 0 = .error 39 ∧
    decodeWord .full 0x04C0A40000006C00 0 = .error 39 ∧
    decodeWord .full 0x04C0A40000007C00 0 = .error 39 ∧
    decodeWord .full 0x04C0A40000006300 0 = .error 39 ∧
    decodeWord .full 0x04C0A40000006900 0 = .error 39 ∧
    decodeWord .full 0x04C0A40000006020 0 = .error 39 ∧
    decodeWord .full 0x04C0A400000068A0 0 = .error 39 ∧
    decodeWord .full 0x04C0A40000006002 0 = .error 34 ∧
    decodeWord .full 0x04C4A40000006800 0 = .error 39 ∧
    decodeWord .full 0x04C4A40000006200 0 = .error 39 ∧
    decodeWord .full 0x04C4A40000006001 0 = .error 34 ∧
    decodeWord .full 0x04C8A40000008000 0 = .error 36 ∧
    decodeWord .full 0x04CCA40000008000 0 = .error 36 ∧
    decodeWord .full 0x04D104000000A000 0 = .error 38 ∧
    decodeWord .full 0x04D024000000A001 0 = .error 36 ∧
    decodeWord .full 0x04D424000000A400 0 = .error 39 ∧
    decodeWord .full 0x04D824000000C010 0 = .error 36 ∧
    decodeWord .full 0x04DC24000000A000 0 = .error 39 ∧
    decodeWord .full 0x04E0040000002000 0 = .error 34 :=
  ⟨rfl, rfl, rfl, rfl, rfl, rfl, rfl, rfl, rfl, rfl, rfl, rfl, rfl, rfl, rfl, rfl, rfl, rfl, rfl, rfl⟩

theorem test_refuses_memory_2 :
    decodeWord .full 0x04E0040000000400 0 = .error 39 ∧
    decodeWord .full 0x04E0240000000000 0 = .error 34 ∧
    decodeWord .full 0x04E4010000000C00 0 = .error 34 ∧
    decodeWord .full 0x04E4000000000400 0 = .error 39 ∧
    decodeWord .full 0x04E4000000000CA0 0 = .error 39 ∧
    decodeWord .full 0x04E8A40000006409 0 = .error 34 ∧
    decodeWord .full 0x04E8A40000002400 0 = .error 39 ∧
    decodeWord .full 0x04E8A40000006000 0 = .error 39 ∧
    decodeWord ⟨false, 0x1F⟩ 0x04E8A40000007800 0 = .error 42 ∧
    decodeWord .full 0x04ECA40000008406 0 = .error 36 ∧
    decodeWord .full 0x04ECC40000008407 0 = .error 36 ∧
    decodeWord .full 0x04F0A40000007800 0 = .error 39 ∧
    decodeWord .full 0x04F4A40000006402 0 = .error 34 ∧
    decodeWord .full 0x04F8080000000000 0 = .error 38 ∧
    decodeWord .full 0x04F8010000000002 0 = .error 34 ∧
    decodeWord .full 0x04FD000000000000 0 = .error 38 ∧
    decodeWord .full 0x04FC210000000000 0 = .error 34 ∧
    decodeWord .system 0x04D0000000000000 0 = .error 32 ∧
    decodeWord .system 0x04DC000000000000 0 = .error 32 ∧
    decodeWord .system 0x04F8000000000000 0 = .error 32 :=
  ⟨rfl, rfl, rfl, rfl, rfl, rfl, rfl, rfl, rfl, rfl, rfl, rfl, rfl, rfl, rfl, rfl, rfl, rfl, rfl, rfl⟩

theorem test_refuses_memory_3 :
    decodeWord .system 0x0500000000000000 0 = .error 32 ∧
    decodeWord .system 0x0574000000000000 0 = .error 32 ∧
    decodeWord .system 0x05AC000000000000 0 = .error 32 :=
  ⟨rfl, rfl, rfl⟩

theorem test_refuses_long_vector_1 :
    decodeWord .full 0x0500002801400800 0 = .error 38 ∧
    decodeWord .full 0x0501010801400800 0 = .error 38 ∧
    decodeWord .full 0x0501003820400800 0 = .error 38 ∧
    decodeWord .full 0x0503002801400800 0 = .error 38 ∧
    decodeWord .full 0x0502281100880400 0 = .error 36 ∧
    decodeWord .full 0x0500001100880400 0 = .error 38 ∧
    decodeWord .full 0x0501002801400820 0 = .error 45 ∧
    decodeWord .full 0x0519002801400800 0 = .error 34 ∧
    decodeWord .full 0x053D002801008800 0 = .error 34 ∧
    decodeWord .full 0x054D002801000060 0 = .error 45 ∧
    decodeWord .full 0x054D002801000028 0 = .error 45 ∧
    decodeWord .full 0x0561002802401800 0 = .error 38 ∧
    decodeWord .full 0x0565002802401820 0 = .error 45 ∧
    decodeWord .full 0x05690030D4000000 0 = .error 38 ∧
    decodeWord .full 0x05690030C2000000 0 = .error 38 ∧
    decodeWord .full 0x056A0810C4000000 0 = .error 38 ∧
    decodeWord .full 0x0551002801000100 0 = .error 45 ∧
    decodeWord .full 0x0555002801000004 0 = .error 45 ∧
    decodeWord .full 0x056FC00080000000 0 = .error 37 ∧
    decodeWord .full 0x0573E00040000000 0 = .error 37 :=
  ⟨rfl, rfl, rfl, rfl, rfl, rfl, rfl, rfl, rfl, rfl, rfl, rfl, rfl, rfl, rfl, rfl, rfl, rfl, rfl, rfl⟩

theorem test_refuses_long_vector_2 :
    decodeWord .full 0x0577E00040000000 0 = .error 37 ∧
    decodeWord .full 0x056C010000000000 0 = .error 34 ∧
    decodeWord .full 0x0574000000000002 0 = .error 34 :=
  ⟨rfl, rfl, rfl⟩

theorem test_refuses_flags_tasks_1 :
    decodeWord .full 0x0580200300010000 0 = .error 34 ∧
    decodeWord .full 0x0580060300010000 0 = .error 34 ∧
    decodeWord .full 0x0580000300000001 0 = .error 34 ∧
    decodeWord .full 0x05800003FFFF0000 0 = .error 40 ∧
    decodeWord .full 0x0584000300010200 0 = .error 34 ∧
    decodeWord .full 0x0588A10300000000 0 = .error 34 ∧
    decodeWord .full 0x0588A00300010000 0 = .error 34 ∧
    decodeWord .full 0x0588A00300000004 0 = .error 34 ∧
    decodeWord .full 0x058C000300010101 0 = .error 34 ∧
    decodeWord .full 0x0590000300010001 0 = .error 34 ∧
    decodeWord .full 0x0594A40000000001 0 = .error 34 ∧
    decodeWord .full 0x05A0000000000800 0 = .error 34 ∧
    decodeWord .full 0x05A0000000000500 0 = .error 34 ∧
    decodeWord .full 0x05A0000000000101 0 = .error 34 ∧
    decodeWord .full 0x05A4A10000000300 0 = .error 34 ∧
    decodeWord .full 0x05A4A00000080000 0 = .error 41 ∧
    decodeWord .full 0x05A4A00000000700 0 = .error 46 ∧
    decodeWord .full 0x05A4A00000014000 0 = .error 46 ∧
    decodeWord .full 0x05A8260000000300 0 = .error 34 ∧
    decodeWord .full 0x05A8060000100000 0 = .error 34 :=
  ⟨rfl, rfl, rfl, rfl, rfl, rfl, rfl, rfl, rfl, rfl, rfl, rfl, rfl, rfl, rfl, rfl, rfl, rfl, rfl, rfl⟩

theorem test_refuses_flags_tasks_2 :
    decodeWord .full 0x05ACA10000000000 0 = .error 34 ∧
    decodeWord .full 0x05B0A60000000001 0 = .error 34 ∧
    decodeWord .full 0x05B4A00800000000 0 = .error 34 ∧
    decodeWord .full 0x05B8000100000000 0 = .error 34 ∧
    decodeWord .full 0x05B8000001000300 0 = .error 34 ∧
    decodeWord .full 0x05C0000000000000 0 = .error 41 ∧
    decodeWord .full 0x05C4000000000000 0 = .error 41 ∧
    decodeWord .full 0x05C8000000000000 0 = .error 41 ∧
    decodeWord .full 0x05CC000000000000 0 = .error 41 ∧
    decodeWord .full 0x05D0000000000000 0 = .error 41 ∧
    decodeWord .full 0x05D4000000000000 0 = .error 41 ∧
    decodeWord .full 0x05D8000000000000 0 = .error 41 ∧
    decodeWord .system 0x05C0200000000000 0 = .error 34 ∧
    decodeWord .system 0x05C4000000002100 0 = .error 34 ∧
    decodeWord .system 0x05C4010000000301 0 = .error 34 ∧
    decodeWord .system 0x05C4000000000003 0 = .error 34 ∧
    decodeWord .system 0x05C8060000010000 0 = .error 34 ∧
    decodeWord .system 0x05C8060000000101 0 = .error 34 ∧
    decodeWord .system 0x05CCA40000000040 0 = .error 34 ∧
    decodeWord .system 0x05D0A60000002000 0 = .error 34 :=
  ⟨rfl, rfl, rfl, rfl, rfl, rfl, rfl, rfl, rfl, rfl, rfl, rfl, rfl, rfl, rfl, rfl, rfl, rfl, rfl, rfl⟩

theorem test_refuses_flags_tasks_3 :
    decodeWord .system 0x05D0A60000002001 0 = .error 34 ∧
    decodeWord .system 0x05D0A60000000102 0 = .error 34 ∧
    decodeWord .system 0x05D0A60000000004 0 = .error 34 ∧
    decodeWord .system 0x05D4A60000010000 0 = .error 34 ∧
    decodeWord .system 0x05D4A60000000003 0 = .error 34 ∧
    decodeWord .system 0x05D8A60000000100 0 = .error 34 :=
  ⟨rfl, rfl, rfl, rfl, rfl, rfl⟩

/-- Malformed cell words and pattern words (R269, R272): a reserved operation, a reserved source, a
reserved type, a nonzero zero field, an immediate in PEND. -/
theorem test_refuses_images :
    decodeCell 0x6800000000000000 = none ∧
    (Instr.cellPass ⟨13, 0, 0, 0, 0, 0, 0, 0, 0, 0⟩).wf .full = false ∧
    (Instr.cellFadd ⟨0, 15, 0, 0, 0, 0, 0, 0, 0, 0⟩).wf .full = false ∧
    (Instr.cellFfma ⟨0, 0, 14, 0, 0, 0, 0, 0, 0, 0⟩).wf .full = false ∧
    (Instr.cellIadd ⟨0, 0, 0, 0, 0, 0, 3, 0, 0, 0⟩).wf .full = false ∧
    (Instr.cellSst ⟨0, 0, 0, 0, 0, 0, 0, 0, 1, 0⟩).wf .full = false ∧
    decodePattern 0x400000000000 = none ∧ decodePattern 1 = none ∧
    decodePattern 0x1C0000000001 = none ∧ decodePattern 0x200000000001 = none ∧
    decodePattern 0x240000000001 = none ∧ decodePattern 0x3C0000000001 = none :=
  ⟨rfl, rfl, rfl, rfl, rfl, rfl, rfl, rfl, rfl, rfl, rfl, rfl⟩

/-- Ill-formed terms: the guard !p0, an operation in a slot that is not its own, and one field of each kind at fault. -/
theorem test_refuses_terms :
    Guard.wf ⟨true, 0⟩ = false ∧
    (Fetched.p ⟨true, 0⟩ (.snop ⟨0, 0, 0, 0⟩) (.vnop ⟨0, 0, 0, 0, 0, 0⟩)).wf .full = false ∧
    (Fetched.p .always (.vnop ⟨0, 0, 0, 0, 0, 0⟩) (.vnop ⟨0, 0, 0, 0, 0, 0⟩)).wf .full = false ∧
    (Fetched.l .always (.snop ⟨0, 0, 0, 0⟩)).wf .full = false ∧
    (Fetched.e .always (.halt ⟨0, 0, 0, 0, 0, 0⟩)).wf .full = false ∧
    (Instr.addi ⟨0, 0, 0, 1⟩).wf .full = false ∧ (Instr.ldp ⟨1, 0, 0, 4, 0, 0, 0, 0⟩).wf .full = false ∧
    (Instr.fwait ⟨0, 0, 0, 0xFFFF, 0⟩).wf .full = false ∧ (Instr.trapret ⟨0, 0, 0, 0, 0, 0⟩).wf .full = false ∧
    (Instr.trapret ⟨0, 0, 0, 0, 0, 0⟩).wf .system = true ∧ (Instr.pend ⟨1⟩).wf .full = false :=
  ⟨rfl, rfl, rfl, rfl, rfl, rfl, rfl, rfl, rfl, rfl, rfl⟩

/-! ## Witnesses: each hypothesis set of the obligations is met -/

/-- Core 0 or a system core, at work on the state after reset. -/
def core0 : State := { State.reset with cur := .compute 0, unit := .cp }
def sys0 : State := { (State.reset.setSys 0 { State.reset.sysCore 0 with ie := true, running := true }) with
  cur := .system 0, unit := .cp }

/-- g4 holds an address of the core's own scratchpad window; 0x1000 is in no trap record or port. -/
def atPad : State := core0.setG 4 0xFFFFF00000001000

/-- Core 0 with something of its own state changed. -/
def withCore (f : Core → Core) : State := core0.setCore 0 (f (core0.core 0))

/-- Can the access be performed, over parts of which `ok` holds, as a computation? -/
def reachesNow (ok : List Part → Bool) (s : State) (va : W64) (o : BitVec 3) (k : Kind) (fe : Bool) (acc : Access)
    (read write : Bool) (n : Nat) : Bool :=
  decide (o ≠ 0 → va.toNat % n = 0) && (!orderReleases o.toNat || s.acked s.agent) &&
  match translateRows s.who k fe [(va, n)] (if orderReleases o.toNat then s.release s.agent else s) with
  | .ok (ps, u) => ok ps && (match checkParts s.who acc read write ps u with
    | .ok _ => true
    | .error _ => false)
  | .error _ => false

theorem reaches_with {ok : List Part → Bool} {s : State} {va : W64} {o : BitVec 3} {k : Kind} {fe : Bool} {acc : Access}
    {read write : Bool} {n : Nat} (h : reachesNow ok s va o k fe acc read write n = true) :
    ∃ ps, ok ps = true ∧ Reaches s va o k fe acc read write n ps := by
  simp only [reachesNow, Bool.and_eq_true, decide_eq_true_eq] at h
  obtain ⟨⟨ha, hr⟩, ht⟩ := h
  split at ht
  · next ps u hu =>
    obtain ⟨hp, ht⟩ := (Bool.and_eq_true _ _).mp ht
    split at ht
    · next v hv => exact ⟨ps, hp, ha, fun ho => by simpa [ho] using hr, u, v.2, hu, hv⟩
    · simp at ht
  · simp at ht

theorem reaches_of {s : State} {va : W64} {o : BitVec 3} {k : Kind} {fe : Bool} {acc : Access} {read write : Bool}
    {n : Nat} (h : reachesNow (fun _ => true) s va o k fe acc read write n = true) :
    ∃ ps, Reaches s va o k fe acc read write n ps := (reaches_with h).imp fun _ h => h.2

/-- One part, at home b. -/
def onePart (b : Nat) : List Part → Bool
  | [p] => p.home = .plain b
  | _ => false

theorem onePart_of {b : Nat} {ps : List Part} (h : onePart b ps = true) : ∃ p, ps = [p] ∧ p.home = .plain b := by
  match ps, h with
  | [p], h => exact ⟨p, rfl, by simpa [onePart] using h⟩

theorem witness_Division : (core0.setG 6 3).g (⟨5, 6, 6, 0, 0, 0⟩ : Lb).b ≠ 0 := by decide

theorem witness_RoundingKeepsCodes :
    (0x7F7FFFFF < 2 ^ FFmt.f32.width ∧ (FFmt.f32.decode 0x7F7FFFFF).isNan = false) ∧
    (0x8000000000000001 < 2 ^ FFmt.f64.width ∧ (FFmt.f64.decode 0x8000000000000001).isNan = false) ∧
    (0xFF80 < 2 ^ FFmt.bf16.width ∧ (FFmt.bf16.decode 0xFF80).isNan = false) := by decide

theorem witness_Transfers : ((core0.setG 6 0xFFFFFFFFFFFFFFF8).g (⟨0, 6, 0, 0, 0, 0⟩ : Lb).a).toNat % 8 = 0 := by decide

/-- Both causes: a divisor of 0, a target off by 1 and by 7, on a compute core and on a system core. -/
theorem witness_ScalarTraps :
    core0.g (⟨7, 5, 6, 0, 0, 0⟩ : Lb).b = 0 ∧
    ((core0.setG 6 1).g (⟨0, 6, 0, 0, 0, 0⟩ : Lb).a).toNat % 8 ≠ 0 ∧
    ((core0.setG 6 7).g (⟨0, 6, 0, 0, 0, 0⟩ : Lb).a).toNat % 8 ≠ 0 ∧
    (core0.cur = .compute 0 ∧ (core0.core 0).held = none) ∧
    (sys0.cur = .system 0 ∧ (sys0.sysCore 0).ie = true ∧ sys0.g (⟨7, 5, 6, 0, 0, 0⟩ : Lb).b = 0) := by
  decide +kernel

/-- The queues of HALT: empty, and holding a NOTE that was reached. -/
theorem witness_SystemCalls :
    (core0.cur = .compute 0 ∧ (core0.core 0).held = none) ∧
    (∀ q ∈ allQueues, let u := (core0.core 0).queue q; u.flights = [] ∧ u.waiting = []) ∧
    (let d : Cmd := ⟨.note ⟨0, 0, 0, 0, 0, 0⟩, ⟨0, 0, 0, 0, 0, 0⟩, [], 0, 0, true, .always⟩
     let s := core0.modCore 0 fun k => k.setQueue .copy { Queue.empty with waiting := [d] }
     s.cur = .compute 0 ∧ (s.core 0).held = none ∧ isNote d.instr = true ∧
     ∀ q ∈ allQueues, let u := (s.core 0).queue q
       u.flights = [] ∧ (u.waiting = [] ∨ u.waiting = [d] ∧ d.reached = true)) ∧
    (sys0.cur = .system 0 ∧ (sys0.sysCore 0).ie = true) := by
  decide +kernel

/-- A system core that may enter an interrupt, one with IE = 0, and one at TRAPRET. -/
theorem witness_SystemExceptions :
    let s := sys0.setSys 0 { sys0.sysCore 0 with ctpend := 1 }
    (s.canGo (.system 0) = true ∧ (s.cpuOf (.system 0)).blocked = none ∧ (s.sysCore 0).ie = true ∧
      (pendingCode (s.sysCore 0)).isSome = true) ∧
    (let y := s.sysCore 0; y.ie = true ∧ y.enabled = true ∧ y.running = true ∧ y.x.blocked = none ∧ y.ctpend ≠ 0) ∧
    (let r := sys0.setSys 0 { sys0.sysCore 0 with reports := [3] }
     (r.sysCore 0).ctpend = 0 ∧ (r.sysCore 0).reports ≠ []) ∧
    (let q := sys0.setSys 0 { sys0.sysCore 0 with ie := false }
     q.cur = .system 0 ∧ (q.sysCore 0).ie = false) := by
  decide +kernel

theorem witness_Loads :
    (∃ ps, LmReaches atPad ⟨5, 4, 3, 0, 0, 0, 0, 0⟩ .load false 1 ps) ∧
    (∃ ps, LmReaches atPad ⟨5, 4, 8, 3, 2, 0, 3, 1⟩ .load false 8 ps) ∧
    (∃ ps, LmReaches atPad ⟨6, 4, 16, 4, 0, 0, 0, 0⟩ .load false 16 ps) ∧
    (∃ ps, LmReaches atPad ⟨1, 4, 64, 5, 0, 0, 0, 0⟩ .load false 64 ps) ∧
    (∃ ps, LmReaches atPad ⟨2, 4, 64, 5, 0, 0, 0, 1⟩ .load false 128 ps) := by
  refine ⟨?_, ?_, ?_, ?_, ?_⟩ <;> exact reaches_of (by decide +kernel)

theorem witness_Stores :
    (∃ ps, LmReaches atPad ⟨5, 4, 3, 0, 0, 0, 0, 0⟩ .store true 1 ps) ∧
    (∃ ps, LmReaches atPad ⟨5, 4, 8, 3, 3, 0, 3, 0⟩ .store true 8 ps) ∧
    (∃ ps, LmReaches atPad ⟨6, 4, 16, 4, 0, 1, 0, 0⟩ .store true 16 ps) ∧
    (∃ ps, LmReaches atPad ⟨1, 4, 64, 5, 0, 0, 0, 0⟩ .store true 64 ps) ∧
    (∃ ps, LmReaches atPad ⟨2, 4, 64, 5, 0, 3, 0, 1⟩ .store true 128 ps) := by
  refine ⟨?_, ?_, ?_, ?_, ?_⟩ <;> exact reaches_of (by decide +kernel)

/-- A system core whose g4 names a page of 64 KiB that its TLB holds: readable, writable, FMT 0, CPOL 0. -/
def sysPage : State :=
  { sys0 with tlb := [⟨.sys 0, 32, 0x10000, 16, 0x000000042A31000F⟩] }.setG 4 0x10000

def homePage : Nat := 0x42A310000

theorem witness_PrefetchAndFence :
    (match translateAccess sysPage sysPage.who .load false (accessAddr sysPage ⟨0, 4, 8, 0, 0, 0, 0, 0⟩) 1 with
      | .ok (p :: _, u) => decide (p.isWindow = false ∧ p.home = .plain (homePage + 8) ∧ homePage + 8 < 2 ^ 51 ∧
          aliasConflict u p = false ∧ allocates u sysPage.who {} p = true ∧ p.lines ≠ [])
      | _ => false) = true ∧
    core0.acked core0.agent = true ∧ orderReleases (⟨0, 0, 0, 0, 3, 0, 3, 0⟩ : Lm).order.toNat = true := by
  decide +kernel

theorem witness_Atomics :
    (∃ ps, AtomicReaches sysPage ⟨5, 4, 4, 2, 1, 0, 3, 8⟩ 4 ps) ∧
    (∃ ps, AtomicReaches sysPage ⟨5, 4, 8, 3, 4, 0, 3, 0⟩ 8 ps) ∧
    (∃ ps, AtomicReaches sysPage ⟨6, 4, 16, 4, 5, 0, 0, 8⟩ 16 ps) := by
  refine ⟨?_, ?_, ?_⟩ <;> exact reaches_of (by decide +kernel)

/-- The two clauses of a ticketed atomic: no ticket, and a ticket with its answer. -/
theorem witness_Atomics_ticketed :
    let f : Lm := ⟨5, 4, 8, 3, 6, 0, 3, 1⟩
    f.order = 6 ∧ (accessAddr sysPage f).toNat % 8 = 0 ∧ sysPage.cpu.ticket = none ∧
    (let s := sysPage.setCpu { sysPage.cpu with ticket := some 7, reply := some ⟨5, none⟩ }
     (accessAddr s f).toNat % 8 = 0 ∧ s.cpu.ticket = some 7 ∧ s.cpu.reply = some ⟨5, none⟩) := by
  decide +kernel

/-- A queue header of 16 slots at home 0x42A310000, with its four indices (R339). -/
def queueAt (wi ci ri fi : W64) : State :=
  sysPage.setBytes homePage (leBytes 8 wi.toNat ++ leBytes 8 ci.toNat ++ leBytes 8 ri.toNat ++ leBytes 8 fi.toNat ++
    leBytes 8 0x0400000000020000)

/-- A header that is well-formed, empty, part full and full. -/
theorem witness_UserQueues :
    (∃ p, AtomicReaches (queueAt 26 20 18 10) ⟨5, 4, 0, 3, 4, 0, 3, 0⟩ 64 [p] ∧ p.home = .plain homePage) ∧
    (accessAddr (queueAt 26 20 18 10) ⟨5, 4, 0, 3, 4, 0, 3, 0⟩).toNat % 64 = 0 ∧
    parseHeader (leNat ((queueAt 26 20 18 10).bytes homePage 64)) = some ⟨26, 20, 18, 10, 4, 0x20000⟩ ∧
    parseHeader (leNat ((queueAt 0 0 0 0).bytes homePage 64)) = some ⟨0, 0, 0, 0, 4, 0x20000⟩ := by
  refine ⟨?_, by decide +kernel⟩
  obtain ⟨ps, h, hr⟩ := reaches_with (ok := onePart homePage) (s := queueAt 26 20 18 10) (va := 0x10000) (o := 4) (k := .atomic)
    (fe := false) (acc := ⟨true, true, 0, none, false⟩) (read := true) (write := true) (n := 64) (by decide +kernel)
  obtain ⟨p, rfl, hp⟩ := onePart_of h
  exact ⟨p, hr, hp⟩

theorem witness_AccessTraps :
    let s := core0.setG 4 0x10001
    (s.cur = .compute 0 ∧ (s.core 0).held = none) ∧
    ((⟨5, 4, 0, 3, 2, 0, 3, 0⟩ : Lm).order ≠ 0 ∧ (accessAddr s ⟨5, 4, 0, 3, 2, 0, 3, 0⟩).toNat % 8 ≠ 0) ∧
    (match translateAccess s s.who .load false (accessAddr s ⟨5, 4, 0, 3, 0, 0, 0, 0⟩) 8 with
      | .error c => decide (c = 64)
      | .ok _ => false) = true ∧
    (match translateAccess (s.release s.agent) s.who .atomic false (accessAddr s ⟨5, 4, 7, 3, 3, 0, 0, 0⟩) 8 with
      | .error _ => s.acked s.agent
      | .ok _ => false) = true ∧ (accessAddr s ⟨5, 4, 7, 3, 3, 0, 0, 0⟩).toNat % 8 = 0 := by
  decide +kernel

/-- The first bad word that an access would meet at one plain part, where nothing else stops it. -/
def meetsBad (s : State) (va : W64) (k : Kind) (acc : Access) (n : Nat) : Option (Nat × Flaw) :=
  let write := decide (k ≠ .load)
  match translateRows s.who k false [(va, n)] s with
  | .ok ([p], u) => match p.home with
    | .plain h =>
      if p.len = n ∧ versionOf u s.agent acc p = none ∧ partWaits u s.who acc write p = none ∧
          partRace u s.agent acc write p = none then u.flawIn (decide (k = .store)) h n else none
    | _ => none
  | _ => none

/-- A load, a store of part of a word and an atomic that meet an error; a check value that does not match; a store of
whole words meets none. -/
theorem witness_BadData :
    let s := mishap (.badCheck homePage) ({ withCore (fun k => { k with part := some 0 }) with tlb := [⟨.data 0, 0, 0x10000, 16, 0x000000042A31000F⟩] } : State)
    let pad := mishap (.doubleBit (2 ^ 52 + 0x1000)) atPad
    (pad.cur = .compute 0 ∧ (pad.core 0).held = none ∧
      meetsBad pad 0xFFFFF00000001000 .load {} 8 = some (2 ^ 49 + 0x200, .ecc) ∧
      meetsBad pad 0xFFFFF00000001002 .store {} 2 = some (2 ^ 49 + 0x200, .ecc) ∧
      meetsBad pad 0xFFFFF00000001000 .store {} 8 = none) ∧
    s.cur = .compute 0 ∧ (s.core 0).held = none ∧
    meetsBad s 0x10030 .atomic ⟨true, true, 0, none, false⟩ 8 = some (homePage / 8 + 6, .check) := by
  decide +kernel

/-- A core that runs; the words of the state after reset. -/
theorem witness_StorageErrors :
    ownStorage 0x1000 = true ∧ core0.fbcStores = [] ∧ core0.held = [] ∧
    (let s := withCore fun k => { k with run := .run }
     (s.core 0).run ≠ .off ∧ (s.core 0).held = none) := by
  decide +kernel

/-- R220: a load from a word with a double-bit error stops the core with 324 at its 64-byte unit; a check value gives 325. -/
theorem test_bad_data :
    (match exec (.ld ⟨5, 4, 8, 3, 0, 0, 0, 0⟩) (mishap (.doubleBit (2 ^ 52 + 0x1008)) atPad),
       exec (.ld ⟨5, 4, 0x48, 3, 0, 0, 0, 0⟩) (mishap (.badCheck (2 ^ 52 + 0x1040)) atPad) with
     | .next t, .next u => decide (((t.core 0).held.map fun h => (h.cause, h.addr)) = some (324, 0xFFFFF00000001000)) &&
         decide (((u.core 0).held.map fun h => (h.cause, h.addr)) = some (325, 0xFFFFF00000001040))
     | _, _ => false) = true := by
  decide +kernel

/-- Tiles 4 and 5 full, every other tile empty. -/
def tiles45 : State := withCore fun k => { k with tfull := 0x30 }

/-- A tile pair as a source and an empty one as a destination, in every type of the arithmetic; for the operations on
integers; for a comparison and a conversion; for the short form. -/
theorem witness_VectorArithmetic :
    (∀ op ∈ [VecOp.add, .sub, .mul, .max, .min], ∀ ty ∈ [0, 1, 2, 3, 4, 6],
      let v := VecArgs.ofLong ⟨0x1200, 0x1100, 0x802, BitVec.ofNat 3 ty, 0⟩
      op.accepts v = true ∧ TilesReady tiles45 (vecTiles op v false).1 (vecTiles op v false).2) ∧
    (∀ ty ∈ [0, 1, 2, 3, 4],
      let v := VecArgs.ofLong ⟨0x1100, 0x1100, 0x802, BitVec.ofNat 3 ty, 0⟩
      VecOp.fma.accepts v = true ∧ TilesReady tiles45 (vecTiles .fma v true).1 (vecTiles .fma v true).2) ∧
    (∀ op ∈ [VecOp.abs, .neg], ∀ ty ∈ [0, 1, 3, 4, 6],
      let v := VecArgs.ofSlot ⟨0, 2, 0, 0, BitVec.ofNat 3 ty, 0⟩
      op.accepts v = true ∧ TilesReady tiles45 (vecTiles op v false).1 (vecTiles op v false).2) := by
  simp only [TilesReady]; decide +kernel

theorem witness_VectorBitsAndMoves :
    (∀ op ∈ [VecOp.and, .or, .xor, .shl, .shr], ∀ ty ∈ [1, 2, 6],
      let v := VecArgs.ofLong ⟨0x1200, 0x1100, 0x1801, BitVec.ofNat 3 ty, 0⟩
      op.accepts v = true ∧ TilesReady tiles45 (vecTiles op v false).1 (vecTiles op v false).2) ∧
    (∀ op ∈ [VecOp.cmp, .sel, .mov], ∀ ty ∈ [0, 1, 2, 3, 4, 6],
      let v := VecArgs.ofLong ⟨0x1200, 0x1100, 0x802, BitVec.ofNat 3 ty, 0⟩
      op.accepts v = true ∧ TilesReady tiles45 (vecTiles op v false).1 (vecTiles op v false).2) ∧
    (∀ c ∈ [1, 4, 6, 10],
      let v := VecArgs.ofLong ⟨0x1100, 0x1100, BitVec.ofNat 13 c, 0, 0⟩
      VecOp.cvt.accepts v = true ∧ TilesReady tiles45 (vecTiles .cvt v true).1 (vecTiles .cvt v true).2) := by
  simp only [TilesReady]; decide +kernel

theorem witness_VectorSpecial :
    (∀ op ∈ [VecOp.cacc, .twosum], let v := VecArgs.ofLong ⟨0x1100, 0x1100, 0x801, 5, 0⟩
      op.accepts v = true ∧ TilesReady tiles45 (vecTiles op v true).1 (vecTiles op v true).2) ∧
    (∀ op ∈ [VecOp.red, .exp2, .rcp, .rsq, .splat, .extr, .perm, .quant], ∀ ty ∈ [0, 3],
      let v := VecArgs.ofLong ⟨0x1200, 0x1100, 0x801, BitVec.ofNat 3 ty, 0⟩
      op.accepts v = true ∧ TilesReady tiles45 (vecTiles op v false).1 (vecTiles op v false).2) ∧
    VecOp.perm.accepts (VecArgs.ofLong ⟨0x802, 0x801, 0x803, 6, 0x20⟩) = true := by
  simp only [TilesReady]; decide +kernel

/-- Every format, with every kind of destination, the largest element everywhere. -/
theorem witness_VectorDestinations :
    (∀ ty ∈ List.range 9, let es := List.replicate (fmtElems ty) (2 ^ fmtBits ty - 1)
      es.length = fmtElems ty ∧ ∀ e ∈ es, e < 2 ^ fmtBits ty) ∧
    (∀ ty ∈ [4, 5], (ty = 4 ∨ ty = 5) → (6 : BitVec 3).toNat % 2 = 0 ∧ (30 : BitVec 5).toNat % 2 = 0) ∧
    ¬((8 : Nat) = 4 ∨ (8 : Nat) = 5) := by
  decide +kernel

theorem witness_TileControl :
    (∀ f ∈ [(⟨28, 0, 0, 3, 0, 0⟩ : Lb), ⟨31, 0, 0, 0, 0, 0⟩, ⟨0, 0, 0, 31, 0, 1⟩],
      let tiles := (List.range (f.c.toNat + 1)).map fun i => f.d.toNat + i
      f.d.toNat + f.c.toNat < 32 ∧
      ∀ n ∈ tiles, core0.tilePower core0.here n ≠ 2 ∧ core0.tileBusy core0.here n = false) ∧
    (∀ n ∈ [4, 5], tiles45.tileFull tiles45.here n = !(⟨4, 0, 0, 1, 0, 0⟩ : Lb).x.getLsbD 0) ∧
    (∀ n ∈ [28, 29], tiles45.tileFull tiles45.here n = !(⟨28, 0, 0, 1, 0, 1⟩ : Lb).x.getLsbD 0) := by
  decide +kernel

/-- Core 0 in partition 0, whose rectangle is cores 0 and 1; its flag 3 holds 64. -/
def inPart : State :=
  { withCore (fun k => { k with part := some 0, flags := [(3, { Flag.zero with value := 64 })] }) with
    parts := core0.parts.set 0 { Partition.reset with assigned := true, rect := 0x0100 } }

theorem witness_FlagOperations :
    inPart.cur = .compute 0 ∧ (sys0.cur = .system 0 ∧ (⟨5, 0, 3, 0, 7⟩ : Ls).imm = 7) ∧
    flagAmount inPart ⟨0, 0, 3, 0, 0⟩ = 0 ∧
    (∀ f ∈ [(⟨0, 0, 3, 0x10, 0⟩ : Ls), ⟨0, 0, 3, 0x400, 0⟩],
      0 < flagAmount inPart f ∧ flagAmount inPart f ≤ ((inPart.core 0).flag f.flag).value.toNat) ∧
    (∀ w ∈ (inPart.core 0).waits, w.flag = 3 → 64 < w.threshold) ∧
    inPart.acked inPart.agent = true ∧ sys0.acked sys0.agent = true ∧ (inPart.core 0).held = none ∧
    ((⟨0, 0, 9, 0x10, 0⟩ : Ls).imm.getLsbD 8 = false ∧ (⟨0, 0, 9, 0x10, 0x100⟩ : Ls).imm.getLsbD 8 = true) ∧
    ((inPart.core 0).part = some 0 ∧ rectHas (inPart.part 0).rect 0 = true ∧ rectHas (inPart.part 0).rect 1 = true ∧
      rectHas (inPart.part 0).rect 2 = false) := by
  decide +kernel

theorem witness_NeighbourQueues :
    let s := withCore fun k => { k with
      creditDown := 1, creditUp := 1, down := ⟨[Vector.replicate 16 7], 3, none⟩
      up := ⟨[Vector.replicate 16 1, Vector.replicate 16 2], 0, none⟩ }
    s.cur = .compute 0 ∧ s.acked s.agent = true ∧
    (∀ up, 0 < (if up then (s.core 0).creditUp else (s.core 0).creditDown) ∧
      (s.qDown (ringTarget (s.core 0) 0 up) up).slots.length < 8 ∧ (s.qDown 0 up).slots ≠ [] ∧ (s.qDown 0 up).bad = none) ∧
    ∀ e ∈ [Flaw.ecc, .check], (let t := mishap (.slot 0 true e) s
     t.cur = .compute 0 ∧ (t.qDown 0 true).bad = some e ∧ (t.core 0).held = none) := by
  decide +kernel

def aPiece : Piece := ⟨0, 0, 0, 0, 0, 0, 0, 0, [], false, false, [], [], [], none, [], [], false, 0, 0, 0⟩

/-- SPAWN in a partition from the scratchpad; WORK, DONE and GBAR without and with a piece; YIELD; WFB; a system core. -/
theorem witness_TaskInstructions :
    let f : La := ⟨5, 4, 0xFFFFFFC0, 0⟩
    let s := inPart.setG 4 0xFFFFF00000001000
    (s.cur = .compute 0 ∧ (s.core 0).part = some 0 ∧ s.acked s.agent = true ∧
      (BitVec.ofInt 64 ((s.g f.a).toNat + immInt f)).toNat % 64 = 0 ∧
      (match loadBytes s.who .load {} (BitVec.ofInt 64 ((s.g f.a).toNat + immInt f)) 64 
          (noteFence (released s s.agent) s.agent 4 (s.passes s.agent)) with
        | .ok (bs, _) => decide (bs.length = 64)
        | .error _ => false) = true) ∧
    ((s.core 0).piece = none ∧ ∀ q ∈ allQueues, ((s.core 0).queue q).holdsNote = false ∧
      ((s.core 0).queue q).flights = [] ∧ ((s.core 0).queue q).waiting = []) ∧
    (let t := withCore fun k => { k with piece := some aPiece }
     t.cur = .compute 0 ∧ (t.core 0).piece = some aPiece ∧ t.acked t.agent = true ∧
     (match storeOperands (t.whoCore 0 0) 0 aPiece.opnds t with
      | .ok ((), u) => (let w := (drainFbc u (unitAgent 0 0)).commitVersion 0; w.acked w.agent)
      | .error _ => false) = true) ∧
    (sys0.cur = .system 0 ∧ sys0.acked sys0.agent = true) := by
  decide +kernel

theorem witness_UserSpecialRegisters_SystemSpecialRegisters :
    core0.cur = .compute 0 ∧ sys0.cur = .system 0 ∧
    (∀ n ∈ [0x000, 0x020, 0x037, 0x2F0], (⟨5, 0, BitVec.ofNat 32 n, 0⟩ : La).imm.toNat % 4096 = n) ∧
    (∀ n ∈ [0x008, 0x012, 0x805, 0x813, 0x820], (⟨5, 0, BitVec.ofNat 32 n, 0⟩ : La).imm.toNat % 4096 = n) := by
  decide +kernel

/-- The last byte of an own scratchpad, for LOCQ; the processors of the other clauses. -/
theorem witness_FeatureLocationPower :
    let s := core0.setG 4 0xFFFFF00000000000
    let va := BitVec.ofInt 64 ((s.g 4).toNat + immInt ⟨5, 4, 0xFFFFF, 0⟩)
    core0.cur = .compute 0 ∧ sys0.cur = .system 0 ∧ va.toNat / 2 ^ 44 = 0xFFFFF ∧ va.toNat % 2 ^ 44 = 2 ^ 20 - 1 := by
  decide +kernel

/-- Do the sixteen rows of a tile move translate, and can they be accessed? -/
def rowsReach (s : State) (f : Lm) (write : Bool) : Bool :=
  let acc : Access := ⟨f.order ≠ 0, false, f.fe.toNat, none, false⟩
  let stride : Option W64 := if f.x.toNat % 16 = 0 then none else some (s.g (BitVec.ofNat 5 (f.x.toNat % 16)))
  match tileRows s.who (if write then .store else .load) (f.fe ≠ 0) (f.x.getLsbD 4) (accessAddr s f) stride 16 16 s with
  | .ok (rows, u) => (match checkParts s.who acc (!write) write (rows.flatMap fun r => r.parts) u with
    | .ok _ => rows.length = 16
    | .error _ => false)
  | .error _ => false

/-- One tile and a pair at both ends of the file, with rows that follow each other and with a stride. -/
theorem witness_TileMoves :
    let s := { (((inPart.setG 4 0x10000).setG 8 2048).modHere fun k => { k with tfull := 0xC0000001 }) with
      tlb := [⟨.data 0, 0, 0x10000, 16, 0x000000042A31000F⟩, ⟨.data 0, 0, 0x20000, 16, 0x000000042A32240F⟩] }
    (∀ f ∈ [(⟨4, 4, 0, 6, 0, 0, 0, 0⟩ : Lm), ⟨28, 4, 0x10040, 6, 0, 0, 0, 0x18⟩],
      rowsReach (woken s (if f.x.getLsbD 4 then [f.d.toNat, f.d.toNat + 1] else [f.d.toNat])) f false = true ∧
      f.d.toNat < 31 ∧ TilesReady s [] (if f.x.getLsbD 4 then [f.d.toNat, f.d.toNat + 1] else [f.d.toNat])) ∧
    (∀ f ∈ [(⟨0, 4, 0, 6, 0, 0, 0, 8⟩ : Lm), ⟨30, 4, 0x10040, 6, 0, 0, 0, 0x18⟩],
      rowsReach (woken s (if f.x.getLsbD 4 then [f.d.toNat, f.d.toNat + 1] else [f.d.toNat])) f true = true ∧
      f.d.toNat < 31 ∧ TilesReady s (if f.x.getLsbD 4 then [f.d.toNat, f.d.toNat + 1] else [f.d.toNat]) []) := by
  simp only [TilesReady]; decide +kernel

theorem witness_SupervisorPrivilege : core0.cur = .compute 0 ∧ (core0.core 0).held = none := by decide +kernel

/-- Can ATTEST read its nonce and store the report that it signs? -/
def attestRuns (s : State) (f : La) : Bool :=
  match loadBytes s.who .load {} (s.g f.a) 32 (released s s.agent) with
  | .ok (nonce, u) =>
    let body := attestBody s nonce
    let sig := ecdsaSign identityKey (sha256 body)
    (match storeBytes s.who .store {} (s.g f.d) (body ++ beBytes 32 sig.1 ++ beBytes 32 sig.2) u with
    | .ok _ => true
    | .error _ => false)
  | .error _ => false

/-- The addresses of WINMAP and WINMAP.root that are taken and those that are not. -/
theorem witness_SupervisorTranslationAndCores :
    sys0.cur = .system 0 ∧ sys0.acked sys0.agent = true ∧ (sys0.sysCore 0).ie = true ∧
    ((0xFFFFFFFF0000 : W64).toNat = 0xFFFFFFFF0000 ∧ (0xFFFFFFFF0000 : W64).toNat % 2 ^ 16 = 0 ∧ (0 : W64).toNat = 0) ∧
    ((1 : W64).toNat % 2 ^ 16 = 1 ∧ (0x1000000000000 : W64).toNat = 0x1000000000000) ∧
    sys0.backed 0x1000 4096 = true ∧ (0x1001 : W64).toNat % 4096 = 1 := by
  decide +kernel

theorem witness_Attest :
    let s := (sysPage.setG 6 0x10040).setG 7 0x10FC0
    (s.g 6).toNat % 64 = 0 ∧ (s.g 7).toNat % 64 = 0 ∧ s.acked s.agent = true ∧ attestRuns s ⟨7, 6, 0, 0⟩ = true := by
  decide +kernel

theorem witness_SupervisorPartitions :
    (BitVec.ofInt 64 ((sysPage.g 4).toNat + immInt ⟨5, 4, 128, 0⟩)).toNat % 128 = 0 ∧
    sysPage.cur = .system 0 ∧ sysPage.acked sysPage.agent = true ∧
    (match loadBytes sysPage.who .load {} 0x10080 128 (released sysPage sysPage.agent) with
      | .ok (bs, _) => decide (bs.length = 128)
      | .error _ => false) = true ∧ sys0.steps = [] := by
  decide +kernel

theorem witness_SupervisorPartitions_quiesce (c : CoreId) :
    (State.reset.core c).banks[0] = none ∧ (State.reset.core c).banks[1] = none := by
  simp [State.core, State.reset, Core.reset]

/-- A queue with room, a full one, one that holds a NOTE, and a system core. -/
theorem witness_EngineCommandsEnqueue :
    let d : Cmd := ⟨.note ⟨0, 0, 0, 0, 0, 0⟩, ⟨0, 0, 0, 0, 0, 0⟩, [], 0, 0, false, .always⟩
    let full := withCore fun k => k.setQueue .copy { Queue.empty with waiting := List.replicate 32 d }
    core0.cur = .compute 0 ∧ core0.unit = .cp ∧ ((core0.core 0).queue .stream).holdsNote = false ∧
    ((core0.core 0).queue .stream).flights.length + ((core0.core 0).queue .stream).waiting.length < 32 ∧
    ((full.core 0).queue .copy).waiting.length = 32 ∧ ((full.core 0).queue .copy).holdsNote = true ∧
    sys0.cur = .system 0 ∧ sys0.unit = .cp := by
  decide +kernel

/-- A command in flight, the first of its queue. -/
def flying (q : QueueId) (i : Instr) (f : Ecmd) (ops : List W64) (g : Core → Core) : State :=
  { withCore (fun k => g (k.setQueue q { Queue.empty with flights := [⟨⟨i, f, ops, 0, 0, false, .always⟩, 5, .plain, false, [], [], [], false⟩] })) with
    unit := .queue q 0 }

/-- Does `fl` fly in queue q of core 0? -/
def flies (q : QueueId) (s : State) : Bool :=
  s.cur = .compute 0 && s.unit = .queue q 0 && (s.core 0).held = none && (s.core 0).preempt = false &&
  match s.flight? 0 q 0 with
  | some fl => fl.finished = false && fl.cmd.pos = 0
  | none => false

theorem witness_EngineCommandEffects_stream :
    let w (w1 : W64) : Ecmd := ⟨0, 0, 0, 0, 0, w1⟩
    flies .stream (flying .stream (.seRun (w 7)) (w 7) [] id) = true ∧
    (let s := flying .stream (.seHalt (w 0)) (w 0) [] id
     flies .stream s = true ∧ (∀ e ∈ haltNames (w 0), s.prog? (.stream 0 e) = none) ∧
     (∀ p ∈ s.tideProgs (tideOf (w 0)), p.halting = false)) ∧
    (let s := flying .stream (.swRoute (w 0x00050801)) (w 0x00050801) [] id
     (s.switchQueue 0 1).beats = [] ∧ (s.switchQueue 0 1).out = [] ∧ (w 0x00050801).w1.getLsbD 31 = false ∧
     routeTaken (s.core 0) 1 8 5 0 = false ∧ (w 0x8000001F).w1.getLsbD 31 = true) ∧
    ((w 0x03848A02).w1.getLsbD 24 = true ∧ formatByteFault (fld (w 0x0384040F).w1 8 8) false = false ∧
      (w 0x0385040F).w1.getLsbD 25 = true ∧ formatByteFault (fld (w 0x0385040F).w1 16 8) true = false) := by
  decide +kernel

theorem witness_EngineCommandEffects_grid :
    let w : Ecmd := ⟨0, 0, 0, 0, 0, 12⟩
    let loop : GridLoop := ⟨false, 4, 0, 0, 0, 0, false, false, [], [], false, [], [], 0, 5⟩
    (let s := flying .grid (.grGo w) w [] fun k => { k with loops := [loop] }
     flies .grid s = true ∧ (s.core 0).loops.any (fun l => l.item = 5) = true) ∧
    (let s := flying .grid (.grCfg w) w [0xFFFFF00000001000] id
     flies .grid s = true ∧
     (match engineRead (s.queueWho 0 .grid) .engRead 5 0xFFFFF00000001000 520 s with
      | .ok (bs, _) => bs.length = 520 && imageFault ((List.range 65).map (wordAt bs)) = false
      | .error _ => false) = true ∧ (s.core 0).loops = [] ∧ (s.core 0).gridLast = none) := by
  decide +kernel

theorem witness_EngineCommandEffects_rest :
    let z : Ecmd := ⟨0, 0, 0, 0, 0, 0⟩
    let c : Ecmd := ⟨0, 0, 0, 0, 0, 0x7FF00000040⟩
    (let s := { flying .matrix (.mxLease z) z [] id with arrays := core0.arrays.set 0 { MxArray.reset with holder := some (coreMember 0) } }
     flies .matrix s = true ∧ holdsLease s 0 = true) ∧
    (let s := flying .matrix (.mxFree z) z [] id
     flies .matrix s = true ∧ holdsLease s 0 = false) ∧
    flies .matrix (flying .matrix (.mxZero z) z [] id) = true ∧
    (flies .scan (flying .scan (.scnCarry c) c [] id) = true ∧ c.w1.toNat / 2 ^ 32 % 2 ^ 16 = 2047 ∧ c.w1.getLsbD 6 = true) := by
  decide +kernel

/-- A loop's cell, the first and the last. -/
theorem witness_GridCells :
    let loop : GridLoop := ⟨false, 4, 0, 0, 0, 0, false, false, [], [], false, [], [], 0, 5⟩
    ∀ cell ∈ [0, 63], let s := { withCore fun k => { k with loops := [loop], cellAt := (false, cell, 0) } with unit := .cell }
      s.unit = .cell ∧ s.cur = .compute 0 ∧ (s.core 0).cellAt = (loop.ver, cell, 0) ∧ s.loop? 0 loop.ver = some loop ∧ cell < 64 ∧
      s.flawIn false (laneHome 0 cell 0 0) 4096 = none := by
  decide +kernel

/-- A pattern program at its first word, and the same in a stream engine and in a tide engine. -/
def aProg : Prog :=
  ⟨0, 0, 0, 0, 5, 0, .unset, .unset, .unset, none, none, none, 0, 0, [], [], none, 0, 0, none, [], [], false, false, false, [],
    false, false, false, [], [], []⟩
def streamAt (p : Prog) : State :=
  { inPart.modCore 0 (fun k => { k with engines := k.engines.set 0 (some p) }) with unit := .streamProg 0 }
def tideAt (p : Prog) : State := { inPart with tides := inPart.tides.set 0 [p], unit := .tideProg 0 0 }

/-- Both engines; every clause of the control words. -/
theorem witness_PatternControlWords :
    ((streamAt aProg).curProg = some (.stream 0 0, aProg) ∧ (tideAt aProg).curProg = some (.tide 0 0, aProg) ∧
      aProg.ended = false) ∧
    (∀ imm ∈ [0x7FFFFFFC00, 0x08280008000, 0x100003FFFFF, 0x20000000000],
      (addressField true 0x10000 (BitVec.ofNat 42 imm)).isSome = true) ∧
    (addressField true 0 0x20000000040 = some (.mem 0x40) ∧ (Cursor.mem 0x40).addr = some 0x40) ∧
    ((0x7F01 : BitVec 42).toNat / 64 % 4 = 0 ∧ (0x0F01 : BitVec 42).toNat / 2 ^ 15 = 0 ∧ (0x0F01 : BitVec 42).toNat % 64 ∈ [1, 2, 3, 4, 6, 10]) ∧
    ((⟨64, 16, 1⟩ : PatStep).arg.toNat / 2 = 0 ∧ aProg.nests.length < 3 ∧ aProg.loops.length < 4) ∧
    ({ aProg with d := .mem 0x1000 }.d.addr = some 0x1000 ∧ (0x1000 : W64).toNat % 64 = 0) ∧
    (progQuiet (streamAt aProg) (.stream 0 0) aProg = true ∧ progQuiet (tideAt aProg) (.tide 0 0) aProg = true) ∧
    ((streamAt aProg).waitReady 0 3 64 = true ∧ (streamAt aProg).waitReady 0 3 65 = false) ∧
    (progReaches (tideAt aProg) aProg 1 = true ∧ progReaches (tideAt aProg) aProg 2 = false) := by
  decide +kernel

/-- Does a unit read its bytes, with no failure? -/
def unitReads (r : EngineRef) (p : Prog) (w : Who) (x : Xfer) (s : State) : Bool :=
  match unitRead r p w x { s with nextItem := s.nextItem + 1 } with
  | .ok (b, _) => b.causes = [] && b.bytes.length = x.bytes && b.bytes.all Option.isSome
  | .error _ => false

/-- A stream engine from memory to the switch and from the switch to memory, a tide engine from its cluster memory, a fill, a
gather; units of 1 byte, of 4096, and of a step that runs backwards. -/
theorem witness_PatternTransferWords :
    let p : Prog := { aProg with s := .mem 0xFFFFD00000001000, d := .switch, fill := 0x01020304 }
    let t : Prog := { aProg with s := .mem 0xFFFFC00000001000, d := .mem 0xFFFFD00000001000 }
    let q (p : Prog) : Prog := { p with left := some 16, unitItem := 0, asked := true }
    ((streamAt p).curProg = some (.stream 0 0, p) ∧ p.left = none ∧ p.off = none ∧ p.asked = false ∧ p.nests = []) ∧
    (unitReads (.stream 0 0) (q p) ((streamAt p).whoCore 0 1) ⟨16, .cursor, 64, -64, 64, 0⟩ (streamAt p) = true ∧
      unitReads (.stream 0 0) (q p) ((streamAt p).whoCore 0 1) ⟨16, .fill, 4096, 4096, 64, 0⟩ (streamAt p) = true ∧
      unitReads (.stream 0 0) (q p) ((streamAt p).whoCore 0 1) ⟨16, .fill, 1, 1, 1, 0⟩ (streamAt p) = true) ∧
    (let r : Prog := { aProg with x := .mem 0xFFFFD00000001000, s := .mem 0xFFFFD00000002000, d := .switch }
     unitReads (.stream 0 0) (q r) ((streamAt r).whoCore 0 1) ⟨4, .gather 16, 16, 0, 16, 4⟩ (streamAt r) = true) ∧
    (let w : Prog := { aProg with s := .switch, d := .mem 0xFFFFD00000001000 }
     (streamAt w).curProg = some (.stream 0 0, w) ∧ w.inb = [] ∧ w.d ≠ .unset ∧ w.d ≠ .switch ∧ progConv w = none) ∧
    ((tideAt t).curProg = some (.tide 0 0, t) ∧ t.bound = none ∧ t.s ≠ .switch ∧
      unitReads (.tide 0 0) { t with left := some 16, unitItem := 0 } ((tideAt t).whoTide 0 0) ⟨16, .fill, 64, 64, 64, 0⟩ (tideAt t) = true) := by
  decide +kernel

/-- Core 0 held with a cause, by system core y where its trap was delivered. -/
def heldBy (cause : Nat) (y : Option SysId) (s : State) : State :=
  s.modCore 0 fun k => { k with held := some ⟨.precise, cause, 0, 0, false, y, []⟩ }

theorem witness_TrapActions_held :
    ∀ w ∈ [1, 2, 3, 4, 5], let s : State := { heldBy 256 (some 3) (inPart.modCore 0 fun k => { k with
          piece := some { aPiece with versioned := true } }) with actions := [(0, BitVec.ofNat 64 w)] }
      s.actions = [(0, BitVec.ofNat 64 w)] ∧ (s.core 0).held = some ⟨.precise, 256, 0, 0, false, some 3, []⟩ ∧
      (s.core 0).piece = some { aPiece with versioned := true } ∧ (s.core 0).part = some 0 := by
  decide +kernel

theorem witness_TrapActions_target : (0x1FFA : W64) = (0x3FF : BitVec 61) ++ (2 : BitVec 3) := by decide

theorem witness_TrapActions_delivery :
    (let s := heldBy 256 none core0
     (s.core 0).held = some ⟨.precise, 256, 0, 0, false, none, []⟩ ∧
     (deliveryOrder 0).find? (fun y => (s.sysCore y).enabled) = some 0) ∧
    (let s := { heldBy 256 none core0 with sys := Vector.replicate 16 { Sys.reset with enabled := false } }
     ∀ y, (s.sysCore y).enabled = false) := by
  decide +kernel

theorem witness_TrapActions_watchdog :
    let s := { heldBy 256 none (inPart.modCore 0 fun k => { k with run := .run, dog := 2 }) with
        us := 9, parts := inPart.parts.set 0 { Partition.reset with wdog := 7 } }
    (s.core 0).part = some 0 ∧ 0 < (s.part 0).wdog.toNat ∧ (s.core 0).run = .run ∧
    (s.core 0).dog + (s.part 0).wdog.toNat ≤ s.us := by
  decide +kernel

/-- Core 0 running, its instruction waiting. -/
def waitsFor (i : Instr) (s : State) : State :=
  s.modCore 0 fun k => { k with run := .run, x := { k.x with blocked := some (i, 0) } }

theorem witness_WaitingStepsComplete :
    (let s := withCore fun k => { k with
        signals := [⟨3, 0xFFFFFFFF, 7, []⟩], waits := [⟨3, 4, .cp⟩], flags := [(3, { Flag.zero with value := 4 })] }
     (s.core 0).signals ≠ [] ∧ (∀ g ∈ (s.core 0).signals, s.linkHolds (agentDie g.agent) (dieOf 0) .signal = false) ∧ readyWait (s.core 0) 3 = some ⟨3, 4, .cp⟩ ∧ (s.core 0).held = none ∧ s.acked 7 = true) ∧
    (let p : Prog := { aProg with bound := some (3, 0), off := some 64, asked := true }
     let s := tideAt p
     s.prog? (.tide 0 0) = some p ∧ p.admitted = false ∧ p.ended = false ∧ p.halting = false ∧ progFree s p = true ∧ earlierAsk s p = false ∧ ((s.core 0).flag 3).admits 64 = true) ∧
    (let i : Instr := .qpush ⟨0, 3, 0, 0, 0, 0⟩
     let s := waitsFor i (withCore fun k => { k with creditDown := 1 })
     (s.core 0).x.blocked = some (i, 0) ∧ s.canGo (.compute 0) = true ∧ s.acked (unitAgent 0 0) = true ∧
     0 < (s.core 0).creditDown ∧ (s.qDown (ringTarget (s.core 0) 0 false) false).slots.length < 8 ∧
     s.linkHolds (dieOf 0) (dieOf (ringTarget (s.core 0) 0 false)) .push = false) ∧
    (let i : Instr := .qpop ⟨3, 0, 0, 0, 0, 1⟩
     let s := waitsFor i (withCore fun k => { k with up := ⟨[Vector.replicate 16 1], 0, none⟩ })
     (s.core 0).x.blocked = some (i, 0) ∧ s.canGo (.compute 0) = true ∧ (s.qDown 0 true).slots = [Vector.replicate 16 1] ∧ (s.qDown 0 true).bad = none) ∧
    (let i : Instr := .st ⟨5, 4, 0, 3, 0, 1, 0, 0⟩
     let s := { waitsFor i (core0.setG 4 0xFFFFF00000001000) with feQueue := [.proc (.compute 0)] }
     FeWaiter.proc (.compute 0) ∈ s.feQueue ∧ (performWaiting s (.compute 0)).isSome = true) ∧
    (let i : Instr := .amo ⟨5, 4, 8, 3, 6, 0, 3, 1⟩
     let s := { sysPage with tickets := [(0, .system 0, i, sysPage.cpu.g)] }
     (match ticketAccess i ({ s with cur := .system 0 }.setCpuOf (.system 0) { s.cpuOf (.system 0) with g := s.cpu.g }) with
      | .ok (old, _) => decide (old = 0)
      | .error _ => false) = true) := by
  decide +kernel

/-- A core's flight in queue q, on any state. -/
def flyingOn (s : State) (q : QueueId) (cmd : Cmd) (prog : Progress) (done : Bool) : State :=
  { s.modCore 0 (fun k => k.setQueue q { Queue.empty with flights := [⟨cmd, 5, prog, done, [], [], [], false⟩] }) with unit := .queue q 0 }

/-- Core 0's partition with a page of FMT 0, and its array with pages of FMT 2 and 7. -/
def inPages : State := { inPart with tlb := [⟨.data 0, 0, 0x10000, 16, 0x000000042A31000F⟩, ⟨.quay 0, 0, 0x10000, 16, 0x000000042A31000F⟩,
  ⟨.array 0, 0, 0x10000, 16, 0x000000042A31080F⟩, ⟨.array 0, 0, 0x20000, 16, 0x000000042A321C0F⟩] }

theorem witness_MemorySteps_translation :
    (match agentWho sysPage (sysAgent 0) with
      | some w => decide (w.space = some 32) && sysPage.walks.isEmpty && (match walkGate w .load 0x1FFFF 1 sysPage with
          | .ok _ => true
          | .error _ => false) && (match sysPage.lookup w.holder 32 0x1FFFF with
          | (.leaf l _, _) => decide (l = 0x000000042A31000F)
          | _ => false) &&
        ([Kind.load, .store].all fun k => match translateAccess sysPage w k false 0x1FFFF 1 with
          | .ok (p :: _, t) => decide (p.isWindow = false) && !aliasConflict t p && allocates t w {} p &&
            (match chargeRequests (memoryRequests t w p) t with
              | .ok _ => true
              | .error _ => false)
          | _ => false)
      | none => false) = true := by
  decide +kernel

/-- A store to an FBC block and an image held for encoding, in memory and in a version. -/
theorem witness_MemorySteps_blocks :
    let f (o : Option CoreId) : FbcStore := ⟨0x42A331E0, 0x0E0000042A31204F, ⟨0, 0x10000, 16⟩, 0, [(0, 1)], o⟩
    let h (o : Option CoreId) : HeldImage := ⟨0x42A331E0, 0x0E0000042A31204F, ⟨0, 0x10000, 16⟩, 5, 5, List.replicate 128 0, true, [], o⟩
    ∀ o ∈ [none, some (0 : CoreId)], let s := { core0 with fbcStores := [f o], held := [h o] }
      s.fbcStores.find? (fun g => g.enc = (f o).enc) = some (f o) ∧
      s.held.find? (fun g => g.enc = (h o).enc && g.due) = some (h o) := by
  decide +kernel

/-- A copy of 130 bytes in its own scratchpad, in pieces at both ends; a piece of a tide program. -/
theorem witness_MemorySteps_pieces :
    (let d : Cmd := ⟨.xfCopy ⟨0, 0, 0, 0, 0, 0x1885⟩, ⟨0, 0, 0, 0, 0, 0x1885⟩, [0xFFFFF00000002020, 0xFFFFF00000001000, 130], 0, 0, false, .always⟩
     let s := flyingOn inPart .copy d (.copy (copyPieces d).length [] none false) false
     (copyPieces d).length = 3 ∧ s.engineGoes 0 = true ∧ s.sourceQueue 0 14 = none ∧ s.sinkQueue 0 14 = none ∧
     (match s.flight? 0 .copy 0, (copyPieces d)[2]? with
      | some fl, some p => (match movePiece s 0 fl p [] with
          | .performed _ cs => decide (cs = [] ∧ fl.finished = false ∧ fl.prog = .copy 3 [] none false) && !passesEarlier s 0 fl p
          | _ => false)
      | _, _ => false) = true) ∧
    (let x : TidePiece := ⟨5, .mem 0xFFFFD00000001000, [1, 2, 3], none, 0, false, none⟩
     let p : Prog := { aProg with d := .mem 0xFFFFD00000001003, inflight := [x] }
     let s := tideAt p
     s.prog? (.tide 0 0) = some p ∧ p.inflight[0]? = some x ∧
     (piecesTouch s 0 p [x]).meets (piecesTouch s 0 p (p.inflight.take 0)) = false ∧
     (match cursorWho s p (s.whoTide 0 0) .engWrite x.dst with
      | .ok w => (match pieceStore w 5 5 [] none (x.dst.addr.getD 0) x.bytes (s.setProg (.tide 0 0) { p with inflight := [] }) with
        | .ok (cs, _) => cs.isEmpty
        | .error _ => false)
      | .error _ => false) = true) := by
  decide +kernel

theorem witness_MemorySteps_guarded :
    let q : Piece := { aPiece with guarded := [7, 255] }
    let s := inPart.modCore 0 fun k => { k with piece := some q, guardWait := [255] }
    (s.core 0).part = some 0 ∧ (s.core 0).piece = some q ∧ 255 ∈ (s.core 0).guardWait ∧ 255 ∈ q.guarded := by
  decide +kernel

/-- A bank page into a staging buffer, and one from a frame, the last page of a slate whose size is no multiple of 4096. -/
theorem witness_MemorySteps_quay :
    let j (w : Bool) : QuayJob := ⟨0x8000, true, 0x10000, 0, 4097, w, 1, 1, []⟩
    let d : Cmd := ⟨.slLoad ⟨0, 0, 0, 0, 0, 0⟩, ⟨0, 0, 0, 0, 0, 0⟩, [], 0, 0, false, .always⟩
    ∀ w ∈ [false, true], let s := flyingOn inPages .quay d (.quay (j w)) false
      s.engineGoes 0 = true ∧ (j w).pagesDone < jobPages (j w) ∧ (j w).read < jobPages (j w) ∧ bufferFree (s.core 0) (earlierJobs (s.core 0) 0) = true ∧
      bankDue (s.core 0) (earlierJobs (s.core 0) 0) (j w) 1 = true ∧ frameDue (earlierJobs (s.core 0) 0) (j w) 1 = true ∧
      (w = false ∨ (match loadPage s 0 (quayWho s 0) 5 (j w) 1 with
        | (_, none, none) => true
        | _ => false) = true) := by
  decide +kernel

/-- A tile source at its first and its last row, and a tile sink at its last row. -/
theorem witness_MemorySteps_tiles :
    (∀ r ∈ [none, some 15], let s := tiles45.setSwitch 0 1 { SwitchQueue.empty with src := some 15, tile := 5, srcRow := r }
      s.engineGoes 0 = true ∧ (s.switchQueue 0 1).src = some 15 ∧ s.tileFull 0 5 = true ∧
      (r = none → s.tileBusy 0 5 = false) ∧ s.tilePower 0 5 ≠ 2 ∧ 64 ≤ pushRoom (s.switchQueue 0 1)) ∧
    (let v : SwitchQueue := { SwitchQueue.empty with snk := some 15, tile := 6, snkRow := some 15, out := List.replicate 64 7 }
     let s := tiles45.setSwitch 0 31 v
     (s.switchQueue 0 31).snk = some 15 ∧ (popUpTo (s.switchQueue 0 31) 64).1.length = 64 ∧ s.tilePower 0 6 ≠ 2 ∧ ldtHolds s 0 6 = false ∧
     (s.switchQueue 0 31).snkRow.getD 0 < 16) := by
  decide +kernel

/-- A head that starts, a command that is complete, a NOTE that is reached. -/
theorem witness_EngineSteps_queue :
    let z : Ecmd := ⟨0, 0, 6, 16, 0, 0⟩
    (let d : Cmd := ⟨.swRoute z, z, [0, 0, 0, 0], 0, 0, false, .always⟩
     let s := core0.modCore 0 fun k => k.setQueue .stream { Queue.empty with waiting := [d] }
     ((s.core 0).queue .stream).waiting = [d] ∧ isNote d.instr = false ∧ scaled d.f.waitCount = 0 ∧ s.engineGoes 0 = true ∧
     s.acked (unitAgent 0 0) = true ∧ mayStart s 0 .stream d = true ∧
     (let n := learnIssue { s with nextItem := s.nextItem + 1 } 0 .stream d
      let fl : Flight := ⟨d, s.nextItem, firstProgress n 0 d, false, [], [], n.known (State.queueAgent 0 .stream), false⟩
      match beginCommand 0 fl (n.modCore 0 fun x =>
        x.setQueue .stream { x.queue .stream with waiting := [], flights := [fl], granted := false }) with
      | .ok _ => true
      | .error _ => false) = true) ∧
    (let s := flyingOn core0 .grid ⟨.grDrain z, z, [], 0, 0, false, .always⟩ .plain true
     (match s.flight? 0 .grid 0 with
      | some fl => fl.finished && s.acked (completionAgent s 0 .grid fl.cmd) && s.engineGoes 0 && s.held.isEmpty
      | none => false) = true ∧ QueueId.grid ≠ .quay) ∧
    (let d : Cmd := ⟨.note z, z, [], 0, 0, false, .always⟩
     let s := core0.modCore 0 fun k => k.setQueue .copy { Queue.empty with waiting := [d] }
     ((s.core 0).queue .copy).waiting = [d] ∧ isNote d.instr = true ∧ ((s.core 0).queue .copy).flights = [] ∧
     scaled d.f.waitCount = 0 ∧ s.engineGoes 0 = true) := by
  decide +kernel

theorem witness_EngineSteps_bell :
    let z : Ecmd := ⟨0, 0, 0, 0, 0, 4⟩
    let d : Cmd := ⟨.note z, z, [], 0, 0, true, .always⟩
    let s := waitsFor (.wfb ⟨0, 0, 0, 0, 0, 0⟩) (core0.modCore 0 fun k => k.setQueue .copy { Queue.empty with waiting := [d] })
    inWfb (s.core 0) = true ∧ notingQueues (s.core 0) = [.copy] ∧ ((s.core 0).queue .copy).reachedNote = true ∧
    s.engineGoes 0 = true := by
  decide +kernel

/-- A free array that core 0 asks for; one that it holds idle, with fifteen and with sixteen commands. -/
theorem witness_EngineSteps_lease :
    let z : Ecmd := ⟨0, 0, 0, 0, 0, 0⟩
    (let s := (flyingOn core0 .matrix ⟨.mxLease z, z, [], 0, 0, false, .always⟩ .plain false).modCore 0 fun k => { k with intent := true }
     (s.array 0).holder = none ∧ s.nextHolder 0 = some 0) ∧
    (∀ n ∈ [15, 16], let s := { core0 with arrays := core0.arrays.set 0 ⟨some 0, 3, n, false, false⟩ }
      (s.array 0).holder = some 0 ∧ s.mxRunning (memberCore 0 0) = none ∧
      ((s.core (memberCore 0 0)).queue .matrix).flights = [] ∧ (n = 16 → 16 ≤ (s.array 0).cmds)) := by
  decide +kernel

/-- A product whose operand B is CB3, as its first table is taken from a full granule. -/
theorem witness_EngineSteps_table :
    let f : Ecmd := ⟨0, 0, 0, 0, 0, 0x29C28⟩
    let d : Cmd := ⟨.mxMma f, f, [0x10000, 0x20000, 0, 0xFFFFF00000001000], 0, 0, false, .always⟩
    let s := (flyingOn { inPages with arrays := inPages.arrays.set 0 ⟨some 0, 3, 1, false, false⟩ } .matrix d
      (.matrix 0 0 []) false).setFull (scratchHome 0 0x1000) true
    (match s.mxRunning 0 with
      | some fl => holdsLease s 0 && s.engineGoes 0 &&
        (match mmaStep (s.queueWho 0 .matrix) 0 fl (s.array 0).narrow 0 0 [] true s with
        | .ok ((some (.takes b _), cs), _) => decide (b = 0) && cs.isEmpty
        | _ => false)
      | none => false) = true := by
  decide +kernel

/-- A loop at the start of an iteration it takes and at one past its count, and a token that goes out. -/
theorem witness_EngineSteps_grid :
    let loop : GridLoop := ⟨false, 4, 0, 0, 0, 0, false, false, [], [], false, [], [(0, 0, 0, false, Vector.replicate 8 9)], 0, 5⟩
    (∀ l ∈ [loop, { loop with clock := 4 }], let s := withCore fun k => { k with loops := [l] }
      s.loop? 0 false = some l ∧ (s.core 0).held = none ∧ l.decided = false ∧ l.cell = 0 ∧
      l.clock % imageII (imageHead (s.core 0) false) = 0 ∧
      (popTokens s 0 0 ((List.range 4).filter fun p => (imageIn (imageHead (s.core 0) false)).getLsbD p)).isSome = true) ∧
    (let s := (withCore fun k => { k with loops := [loop] }).setSwitch 0 2 { SwitchQueue.empty with src := some 8 }
     (s.core 0).loops.head? = some loop ∧
     pickMin pushKey (loop.pushes.filter fun p => p.1 ≤ loop.clock) = some (0, 0, 0, false, Vector.replicate 8 9) ∧
     (s.pushWhole 0 8 (tokenBytes (Vector.replicate 8 9))).isSome = true) := by
  decide +kernel

/-- A descriptor of session 1 of a class, its frame in FMT 9, its input queue at 0x10200 (R208). -/
def sessionBytes (cls : Nat) : List Byte :=
  leBytes 8 (0x100000001 + cls * 2 ^ 29) ++ leBytes 8 0x0009000000012000 ++ leBytes 8 64 ++ leBytes 8 0 ++ leBytes 8 0x10200 ++
    leBytes 8 0x10300 ++ leBytes 8 3 ++ leBytes 8 0

/-- A queue header of version v with its slots at `ring` and one packet (R339, R434). -/
def packetQueue (v ring : Nat) : List Byte :=
  leBytes 8 3 ++ leBytes 8 3 ++ leBytes 8 2 ++ leBytes 8 2 ++ leBytes 8 (0x0400000000000000 + v * 2 ^ 48 + ring)

def aNode : Node := ⟨0x8000, 0, 100, 1, [], false, false, false, 0, []⟩
def anInst (x : Option (BitVec 24)) : Inst := ⟨x, [0], [1], [1], [false], 0, true, [], [], [], 0, 0, none⟩
def aLaunch (x : List (BitVec 24)) (i : Inst) : Launch :=
  ⟨0, 1, 0x0100, 0, 0, 0, x, [aNode], [i], [], [], [], 1, none, !x.isEmpty, false, false, [], []⟩

/-- Partition 0 with its session table and launch queue in a page of the Timetable's, and one launch. -/
def inTable (cls : Nat) (x : List (BitVec 24)) (i : Inst) : State :=
  let s : State := { inPart with
    tlb := [⟨.port, 0, 0x10000, 16, 0x000000042A31000F⟩]
    parts := inPart.parts.set 0 { inPart.part 0 with sesstab := 0x10000, lqaddr := 0x11000, ctxbase := 0x50000000, ctxn := 1 }
    launches := [aLaunch x i], us := 20000 }
  ((((s.setBytes 0x42A310040 (sessionBytes cls)).setBytes 0x42A310200 (packetQueue 2 0x10400)).setBytes 0x42A311000
    (packetQueue 1 0x11100)).setBytes 0x42A311180 (leBytes 8 0x101 ++ leBytes 8 0x10800))

theorem witness_TimetableSteps_barrier :
    let b : Barrier := ⟨0, 0x0100, [⟨0, 0, 0, 0⟩, ⟨1, 0, 0, 1⟩], []⟩
    let s := { (core0.modCore 0 fun k => { k with piece := some aPiece, x := { k.x with blocked := some (.gbar ⟨0, 0, 0x0100, 0⟩, 0x40) } }) with
      barriers := [b] }
    (s.barriers.find? fun b => b.arrived.any (fun m => m.core = (0 : CoreId)) && b.arrived.length = rectW b.group * rectH b.group) = some b ∧
    (isGbar (s.core 0).x.blocked = true ∧ (s.core 0).piece = some aPiece ∧ aPiece.member 0 ∈ b.arrived) := by
  decide +kernel

theorem witness_TimetableSteps_launch :
    (let q : QueuedLaunch := ⟨0, 1, List.replicate 64 0, []⟩
     let s := { core0 with launchQueue := [q] }
     s.launchQueue = [q] ∧ (s.launches.filter State.counting).length < 64) ∧
    (let s := inTable 2 [] (anInst none)
     let va := (s.part 0).lqaddr
     let u := (s.poke 0 (va + 16) (leBytes 8 3)).poke 0 (va + 24) (leBytes 8 3)
     va ≠ 0 ∧ (match s.peekAtomic 0 va 64 with
       | some (_, bs) => (match parseHeader (leNat bs) with
         | some h => decide (h = ⟨3, 3, 2, 2, 4, 0x11100⟩) && State.queueVersion bs = 1 &&
           (match s.peek 0 (h.slot h.ri) 64 with
            | some pk => (State.packetFault 1 (BitVec.ofNat 24 (leNat ((pk.drop 4).take 3))) (u.peerWrote 0 (h.slot h.ri)) pk).isNone &&
                pk.getD 1 0 = 1 && (BitVec.ofNat 64 (leNat ((pk.drop 8).take 8)) = 0x10800) && (u.peek 0 0x10800 64).isSome
            | none => false)
         | none => false)
       | none => false) = true) := by
  decide +kernel

/-- A core that seeks work outside every partition; one with nothing to do once its steal is answered; one that finds a node in
the pool; one that splits its neighbour's piece. -/
theorem witness_TimetableSteps_dispatch :
    (let s := withCore fun k => { k with run := .seek }
     (s.core 0).run = .seek ∧ (s.core 0).piece = none ∧ (s.core 0).held = none ∧ (s.core 0).part = none) ∧
    (let s := { inPart.modCore 0 (fun k => { k with run := .seek }) with steals := [0] }
     s.idle 0 = true ∧ (s.candidate 0).isNone ∧ (s.splitVictim 0 (decide (coreDie 0 = 1))).isNone ∧ 0 ∈ s.steals ∧
     s.holdsCore 0 = false) ∧
    (let r : Ready := ⟨0, 0, 0, false, 0⟩
     let s := { inTable 2 [] (anInst none) with pool := [r] }
     s.idle 0 = true ∧ (match s.candidate 0 with
       | some (.node x) => decide (x = r)
       | _ => false) = true) ∧
    (let s := (inTable 2 [] (anInst none)).modCore 1 fun k => { k with
        part := some 0, run := .run, piece := some aPiece, rangeLo := 10, rangeHi := 12 }
     s.idle 0 = true ∧ (s.candidate 0).isNone ∧ s.splitVictim 0 (decide (coreDie 0 = 1)) = some 1) ∧
    (let s := { inPart.modCore 0 (fun k => { k with run := .run }) with steals := [0] }
     0 ∈ s.steals ∧ s.dieLost = false ∧ s.idle 0 = false) := by
  decide +kernel

theorem witness_TimetableSteps_session :
    let s := inTable 2 [1] (anInst none)
    s.sessionLaunch 0 1 = some 0 ∧ ((s.launches[0]?).map fun l => l.closed) = some false ∧ (0, 1) ∉ s.steps ∧
    s.readySessions = [] ∧ s.saved = [] ∧
    (match s.session 0 1 with
      | some x => decide (0 < x.st ∧ x.st < 5 ∧ x.cls = 2 ∧ x.slice = 3) && (match s.peek 0 x.inq 64 with
        | some bs => (match parseHeader (leNat bs) with
          | some h => decide (h.ri.toNat < h.ci.toNat)
          | none => false)
        | none => false)
      | none => false) = true := by
  decide +kernel

/-- A slice that has ended, a real-time session that is ready, a core to be saved with and without a free area. -/
theorem witness_TimetableSteps_slices :
    (let q : Piece := { aPiece with session := some (1, 0x10040) }
     let s := (inTable 2 [1] (anInst (some 1))).modCore 0 fun k => { k with piece := some q, sliceAt := 19997 }
     (s.core 0).piece = some q ∧ (s.core 0).part = some 0 ∧ (match s.session 0 1 with
       | some x => decide (State.restoreTime x.size ≤ x.slice ∧ (s.core 0).sliceAt + x.slice ≤ s.us)
       | none => false) = true) ∧
    (let s := { (inTable 0 [1] (anInst none)).modCore 0 (fun k => { k with piece := some aPiece, run := .run }) with
        readySessions := [⟨0, 1, 0, false⟩] }
     aPiece.rt = false ∧ ((s.readyFor 0).any fun r => r.2.2.cls = 0) = true) ∧
    (let s := (inTable 2 [] (anInst none)).modCore 0 fun k => { k with piece := some { aPiece with ctxbase := 0x50000000, ctxn := 1 }, preempt := true }
     (s.core 0).preempt = true ∧ (s.core 0).held = none ∧ freeArea s 0 { aPiece with ctxbase := 0x50000000, ctxn := 1 } = some 0x50000000 ∧ unitsStopped s 0 = true ∧
     freeArea s 0 aPiece = none ∧ ((s.core 0).loops.all fun l => drained (s.core 0) l) = true) := by
  decide +kernel

theorem witness_TimetableSteps_restore :
    let v : SavedContext := ⟨0, 0x50000000, { Core.reset with piece := some aPiece, part := some 0 }, false, [], []⟩
    let s := { inTable 2 [] (anInst none) with saved := [v] }
    s.idle 0 = true ∧ (match s.candidate 0 with
      | some (.saved x) => decide (x = v)
      | _ => false) = true ∧ (s.core 0).part = some 0 ∧ v.image.piece = some aPiece ∧ v.tides = [] ∧ aPiece.session = none := by
  decide +kernel

/-- A port with its function open, on a page that its TLB holds; a request in it and one above 2^40. -/
def openPort : State :=
  { inPart with
    boot := .up, hostLink := true, tlb := [⟨.port, 0, 0x10000, 16, 0x000000042A31000F⟩]
    parts := inPart.parts.set 0 { inPart.part 0 with vf := true } }

theorem witness_PortEvents :
    let r : PortRequest := ⟨0, none, 0x1FFF8, 8, [5], 7⟩
    let w := portWho r
    let s := openPort
    (portOpen s r = true ∧ vfOpen s 0 = true ∧ s.boot = .up ∧ s.hostLink = true ∧ s.peerLink = true ∧ s.peers < 15 ∧
      s.acked w.agent = true) ∧
    (match loadBytes w .load {} r.va r.size s, loadBytes w .load {} 0x20000 8 s, storeBytes w .store {} r.va (leBytes 8 5) s with
      | .ok _, .error (.trap _ _ _), .ok _ => true
      | _, _, _ => false) = true ∧
    (match translateRows w .atomic false [(r.va, 8)] (released s w.agent) with
      | .ok (p, t) => (match checkParts w ⟨true, true, 0, none, false⟩ true true p t with
        | .ok _ => true
        | .error _ => false)
      | .error _ => false) = true ∧
    portOpen s ⟨0, none, 0x10000000000, 8, [5], 7⟩ = true ∧
    (let x := heldBy 256 none core0
     (x.core 0).held = some ⟨.precise, 256, 0, 0, false, none, []⟩) := by
  decide +kernel

/-- Flits of kinds 3, 0 and 1 of channel 0 with their CRC, the first expected, and one whose CRC is wrong. -/
def flitOf (kind : Byte) : List Byte :=
  let body := [kind, 0] ++ List.replicate 250 0
  body ++ leBytes 4 (crc32c body).toNat

theorem flitOf_crc (kind : Byte) : (flitOf kind).length = 256 ∧ (flitOf kind).getD 0 0 = kind ∧ (flitOf kind).getD 1 0 = 0 ∧
    leNat (((flitOf kind).drop 2).take 2) = 0 ∧ (flitOf kind).drop 252 = leBytes 4 (crc32c ((flitOf kind).take 252)).toNat := by
  have h : ([kind, 0] ++ List.replicate 250 (0 : Byte)).length = 252 := by rw [List.length_append, List.length_replicate]; rfl
  refine ⟨?_, rfl, rfl, rfl, ?_⟩
  · show (_ ++ leBytes 4 _).length = 256
    rw [List.length_append, h]; rfl
  · rw [flitOf, List.drop_left' h, List.take_left' h]

theorem witness_LinkAndPowerEvents_flits :
    core0.dieLink = true ∧ (core0.channels[(channelIndex false 0).val]).seq.toNat = 0 ∧
    (∀ kind, (flitOf kind).length = 256 ∧ (flitOf kind).drop 252 = leBytes 4 (crc32c ((flitOf kind).take 252)).toNat) :=
  ⟨rfl, rfl, fun kind => ⟨(flitOf_crc kind).1, (flitOf_crc kind).2.2.2.2⟩⟩

/-- A flit of one plain line with its check values. -/
theorem witness_LinkAndPowerEvents_plainLine :
    let line : List Byte := List.replicate 128 7
    let checks := leBytes 4 (crc32c (line.take 64)).toNat ++ leBytes 4 (crc32c (line.drop 64)).toNat
    let body : List Byte := ([1, 0] ++ List.replicate 30 0) ++ (line ++ (checks ++ List.replicate 84 0))
    let f := body ++ leBytes 4 (crc32c body).toNat
    f.length = 256 ∧ f.drop 252 = leBytes 4 (crc32c (f.take 252)).toNat ∧ (f.getD 0 0 = 1 ∧ f.getD 1 0 = 0) ∧
    lineChecks ((f.drop 32).take 128) ((f.drop 160).take 8) = true := by
  intro line checks body f
  have h : body.length = 252 := by
    simp only [body, checks, line, List.length_append, List.length_replicate]; rfl
  have h1 : f.drop 32 = (line ++ (checks ++ List.replicate 84 0)) ++ leBytes 4 (crc32c body).toNat := by
    show List.drop 32 ((_ ++ _) ++ _) = _
    rw [List.append_assoc]; exact List.drop_left' (by rw [List.length_append, List.length_replicate]; rfl)
  have h2 : f.drop 160 = (f.drop 32).drop 128 := by rw [List.drop_drop]
  refine ⟨?_, ?_, ⟨rfl, rfl⟩, ?_⟩
  · show (body ++ leBytes 4 _).length = 256
    rw [List.length_append, h]; rfl
  · rw [List.drop_left' h, List.take_left' h]
  · rw [h2, h1, List.append_assoc, List.append_assoc, List.take_left' (by rw [List.length_replicate]),
      List.drop_left' (by rw [List.length_replicate]), List.take_left' (show checks.length = 8 from rfl)]
    exact decide_eq_true rfl

/-- A flit whose CRC is off by one bit. -/
theorem witness_LinkAndPowerEvents_badCrc :
    let body : List Byte := [3, 10] ++ List.replicate 250 0
    let f : List Byte := body ++ leBytes 4 (crc32c body ^^^ 1).toNat
    f.length = 256 ∧ (f.getD 1 0).toNat = 10 ∧ f.drop 252 ≠ leBytes 4 (crc32c (f.take 252)).toNat := by
  intro body f
  have h : body.length = 252 := by
    show (_ ++ List.replicate 250 (0 : Byte)).length = 252
    rw [List.length_append, List.length_replicate]; rfl
  refine ⟨?_, rfl, ?_⟩
  · show (_ ++ leBytes 4 _).length = 256
    rw [List.length_append, h]; rfl
  rw [List.drop_left' h, List.take_left' h]
  intro e
  have := congrArg (fun l : List Byte => (l.headD 0).getLsbD 0) e
  simp [leBytes] at this

theorem witness_LinkAndPowerEvents :
    (let s := { core0 with channels := core0.channels.set 21 { core0.channels[21] with replays := 16 } }
     s.dieLink = true ∧ (s.channels.toList.any fun c => 16 ≤ c.replays) = true) ∧
    (let s := { core0 with dieLink := false }
     s.dieLink = false ∧ s.dieLost = false) ∧
    (let r : Regulator := { Regulator.zero with en := true, throttled := true }
     let x : MemRequest := ⟨some 7, 2, 47 * 32 + 31, 128⟩
     let s := { core0 with regulators := [(47 * 32 + 31, r)], requests := { Requests.none with held := [x] } }
     twf Regulator.zero s.regulators = true ∧ (s.regulator (47 * 32 + 31)).en = true ∧ (s.regulator (47 * 32 + 31)).hard = false ∧
     s.requests.held.find? (fun y => y.reg = 47 * 32 + 31) = some x ∧ s.requests.held.find? (fun y => y.line = x.line) = some x ∧
     ∀ y ∈ s.requests.held, y.reg / 32 = 47 → (s.regulator y.reg).admits = false) := by
  decide +kernel

/-- Memory at reset has its form, and a step from reset answers a next state. -/
theorem witness_StepKeepsMemoryCanonical :
    Memory.wf (State.reset.withFetchWord 64 0x0420A01234567800).mem = true ∧
    (match step (State.reset.withFetchWord 64 0x0420A01234567800) with
      | .next _ => true
      | _ => false) = true := by
  decide +kernel

theorem witness_DecodeOfEncode :
    (Fetched.p ⟨true, 7⟩ (.add ⟨31, 31, 31, 8⟩) (.vfmaSlot ⟨7, 8, 0, 8, 3, 0x18⟩)).wf .full = true ∧
    (Fetched.l ⟨false, 7⟩ (.attest ⟨31, 31, 0, 0⟩)).wf .system = true ∧
    (Fetched.e ⟨false, 0⟩ (.mxMma ⟨255, 0x0010, 255, 0xFFF0, 0, 0x3FFFFFFFFFFFF⟩)).wf .full = true ∧
    (Instr.li ⟨31, 0, 0xFFFFFFFF, 0⟩).wf .full = true ∧ (Instr.li ⟨31, 0, 0xFFFFFFFF, 0⟩).longCode.isSome = true ∧
    (Instr.cellAcc2 ⟨12, 12, 12, 31, 127, 7, 2, 7, 0, 0xFFFF⟩).cellCode.isSome = true ∧
    (Instr.pnote ⟨255, 0xFFFF, 255, 0⟩).reasons .full = [] ∧ (Instr.pnote ⟨255, 0xFFFF, 255, 0⟩).patternCode.isSome = true :=
  ⟨rfl, rfl, rfl, rfl, rfl, rfl, rfl, rfl⟩

/-- A word that a turn of core 0 and of a system core fetches and that decodes, a P word whose vector slot runs, and a word that
does not decode. -/
theorem witness_StepRunsDecoded :
    (∀ w ∈ [0x0420A01234567800, 0x30094C7001123000, 0xFFFFFFFFFFFFFFFF],
      let r := State.reset.withFetchWord 64 0
      let s := { r with mem := State.fetchMemory [] (leBytes 16 w) }
      let u : State := { s.beginTurn.2 with cur := .compute 0, unit := .cp }
      s.boot ≠ .stopped ∧ (urgent s).isNone ∧ s.agenda = [.cp (.compute 0)] ∧ u.canGo (.compute 0) = true ∧
      (u.cpuOf (.compute 0)).blocked = none ∧ heldFrom u.cpu.pc u.cpu.fetched = [] ∧ u.cpu.ahead = 0 ∧
      (match nextFetch u with
        | .ok ((v, _), t) => decide (v.toNat = w ∧ t.env (.compute 0) = .full)
        | .error _ => false) = true) := by
  decide +kernel

theorem witness_FailedBootStops :
    let s := { State.reset with boot := .stopped, agenda := [.cp (.compute 0)] }
    s.boot = .stopped ∧ s.agenda = [.cp (.compute 0)] ∧ (match step s with
      | .fault r => decide (r = .bootStopped)
      | _ => false) = true ∧
    (match step { s with agenda := [.event (.mailboxRequest 0 (.pf 8 5))] } with
      | .next _ => true
      | _ => false) = true := by
  decide +kernel

theorem witness_CoreNumbers : core0.cur = .compute 0 ∧ fld (⟨5, 0, 0, 0⟩ : La).imm 0 12 = 0 := by decide +kernel


/-- The one fault a step can answer, in a state whose boot failed. -/
theorem witness_NothingRefused :
    let s := { State.reset with boot := .stopped, agenda := [.cp (.compute 0)] }
    (match step s with
      | .fault r => decide (r = .bootStopped)
      | _ => false) = true := by
  decide +kernel

/-- A word of one cell, a word of two cells, a grid cell and a pattern word, each of which decodes. -/
theorem witness_EncodeOfDecode :
    (match decodeWord .full 0x0420A01234567800 0 with | .ok _ => true | .error _ => false) = true ∧
    (match decodeWord .full 0x0800140040181004 0x67 with | .ok _ => true | .error _ => false) = true ∧
    (decodeCell 0x02D32B569800ABCD).isSome = true ∧ (decodePattern 0x06AAAAAAAAAA).isSome = true := by
  decide +kernel

/-! ## Witnesses of further clauses -/

/-- No version holds a line where no core runs a piece. -/
theorem noVersion {s : State} (h : (s.cores.toList.all fun k => k.piece.isNone) = true) (hs : s.saved = []) (hf : s.fbcStores = [])
    (hh : s.held = []) (m : Nat) : versionLine s m = false := by
  have hc : (s.cores.toList.any fun k => (k.piece.map fun q => q.holdsLine m).getD false) = false := by
    rw [List.any_eq_false]
    intro k hk
    rw [Option.isNone_iff_eq_none.mp (List.all_eq_true.mp h k hk)]
    exact Bool.false_ne_true
  simp [versionLine, hc, hs, hf, hh]

theorem witness_PrefetchAndFence_lines (m : Nat) : versionLine sysPage m = false := noVersion (by decide +kernel) rfl rfl rfl m

/-- The trap window of core 0, which is held, and the last byte of it but the action word's, under a mapping of system core 0. -/
theorem witness_Stores_window :
    let s := heldBy 256 none ({ sys0 with windows := [(0x20000, 0)] }.setG 4 0x20200)
    (s.core 0).held = some ⟨.precise, 256, 0, 0, false, none, []⟩ ∧
    reachesNow (fun ps => match ps with | [p] => p.home = .window 0 0x200 | _ => false) s
      (accessAddr s ⟨5, 4, 0, 3, 0, 0, 0, 0⟩) 0 .store false ⟨false, false, 0, none, false⟩ false true 8 = true ∧
    reachesNow (fun ps => match ps with | [p] => p.home = .window 0 0xFF00 | _ => false) s
      (accessAddr s ⟨5, 4, 0xFD00, 3, 0, 0, 0, 0⟩) 0 .store false ⟨false, false, 0, none, false⟩ false true 8 = true := by
  decide +kernel

/-- A push that waited for its release event and one whose event is made; no link that holds it; no credit. -/
theorem witness_NeighbourQueues_credit :
    (∀ b, let s := withCore fun k => { k with creditDown := 0, creditUp := 0, x := { k.x with pushing := b } }
      s.cur = .compute 0 ∧ s.acked s.agent = true ∧ ∀ up, (if up then (s.core 0).creditUp else (s.core 0).creditDown) = 0 ∧
        s.linkHolds (dieOf 0) (dieOf (ringTarget (s.core 0) 0 up)) .push = false) := by
  decide +kernel

/-- TLBINV with no store or image outstanding, with a store through a page of its scope, and with a held image. -/
theorem witness_SupervisorTranslationAndCores_invalidate :
    let page : PageId := ⟨0, 0x10000, 16⟩
    (sys0.fbcStores = [] ∧ sys0.held = []) ∧
    (page.space = (⟨0, 4, 0, 0⟩ : La).imm.toNat % 64 ∧ page.base ≤ 0x1FFFF ∧ 0x1FFFF < page.base + 2 ^ page.log2) ∧
    (let s := { sys0 with fbcStores := [⟨0x42A331E0, 0x0E0000042A31204F, page, 0, [(0, 1)], none⟩] }
     s.cur = .system 0 ∧ (∃ b ∈ s.fbcStores, b.page = page)) ∧
    (let s := { sys0 with held := [⟨0x42A331E0, 0x0E0000042A31204F, page, 5, 5, [], false, [], none⟩] }
     s.cur = .system 0 ∧ (∃ h ∈ s.held, h.page = page)) := by
  refine ⟨⟨rfl, rfl⟩, by decide, ⟨rfl, _, List.mem_singleton.mpr rfl, rfl⟩, rfl, _, List.mem_singleton.mpr rfl, rfl⟩

/-- TTCMD.close of a launch that there is and of one that there is not; a quiesce that saves, that has saved, that waits for a step. -/
theorem witness_SupervisorPartitions_timetable :
    (let s := { inTable 2 [1] (anInst none) with cur := .system 0 }
     ∃ l ∈ s.launches, l.part = 0 ∧ l.number = 1 ∧ l.ended = false ∧ l.perSession = true) ∧
    (∀ l ∈ sys0.launches, l.part ≠ 0) ∧
    (let s := { sys0 with saving := some 3 }
     s.steps = [] ∧ s.saving = some 3 ∧ quiesceSaves s = false) ∧
    ({ sys0 with steps := [(0, 1)] }.steps ≠ []) := by
  refine ⟨⟨_, List.mem_singleton.mpr rfl, rfl, rfl, rfl, rfl⟩, by decide +kernel, by decide +kernel, by decide⟩

/-- A slate on its way to its frame stays so while others begin to be saved. -/
theorem saveBank_keeps {s : State} (h : ((s.core 0).moves.any (·.keeps)) = true) (c : CoreId) (b : Bool) :
    (((saveBank s c b).2.core 0).moves.any (·.keeps)) = true := by
  dsimp only [saveBank]
  split
  · split
    · exact h
    · split
      · exact h
      · by_cases hc : c = 0
        · subst hc; simp [State.addMove, State.newItem]
        · rw [State.addMove, State.core_modCore_ne _ _ (Ne.symm hc)]; exact h
  · exact h

theorem saveSlates_keeps {s : State} (h : ((s.core 0).moves.any (·.keeps)) = true) : quiesceSaves (saveSlates s).2 = true := by
  suffices g : ∀ (xs : List (CoreId × Bool)) (r : Nat × State), ((r.2.core 0).moves.any (·.keeps)) = true →
      (((xs.foldl (fun (r : Nat × State) x =>
        let (ok, s) := saveBank r.2 x.1 x.2
        (if ok then r.1 + 1 else r.1, s)) r).2.core 0).moves.any (·.keeps)) = true from
    List.any_eq_true.mpr ⟨(saveSlates s).2.core 0, by simp [State.core], g _ (0, s) h⟩
  intro xs
  induction xs with
  | nil => exact fun _ h => h
  | cons x xs ih => exact fun r h => ih _ (saveBank_keeps h x.1 x.2)

/-- A slate that a quiesce waits for. -/
theorem witness_SupervisorPartitions_saves :
    let m : SlateMove := ⟨0, ⟨0x10040, false, 0x12000, 9, 64, false, 0, 0, []⟩, false, true, false⟩
    let s := { sys0.modCore 0 (fun k => { k with moves := [m] }) with quiesced := true }
    s.steps = [] ∧ s.saving = none ∧ quiesceSaves (saveSlates s).2 = true :=
  ⟨rfl, rfl, saveSlates_keeps (by decide +kernel)⟩

/-- SE.HALT of an engine whose program is not stopping; MX.ZERO under the lease. -/
theorem witness_EngineCommandEffects_halts :
    (let w : Ecmd := ⟨0, 0, 0, 0, 0, 0⟩
     let s := flying .stream (.seHalt w) w [] fun k => { k with engines := k.engines.set 0 (some aProg) }
     flies .stream s = true ∧ ∀ e ∈ haltNames w, ((s.prog? (.stream 0 e)).map fun p => p.halting) = some false) ∧
    (let z : Ecmd := ⟨0, 0, 0, 0, 0, 0⟩
     let s := { flying .matrix (.mxZero z) z [] id with arrays := core0.arrays.set 0 { MxArray.reset with holder := some (coreMember 0) } }
     flies .matrix s = true ∧ holdsLease s 0 = true) := by
  decide +kernel

/-- The only program of a tide engine, whose turn it is. -/
theorem witness_PatternTransferWords_turn : aProg.admitted = false ∧ roundTurn (tideAt aProg) 0 0 aProg = true := by
  decide +kernel

/-- A trap that was delivered to a system core which has stopped since, and the next one that is enabled. -/
theorem witness_TrapActions_again :
    let s := (heldBy 256 (some 3) core0).setSys 3 { core0.sysCore 3 with enabled := false }
    (s.core 0).held = some ⟨.precise, 256, 0, 0, false, some 3, []⟩ ∧ (s.sysCore 3).enabled = false ∧
    (deliveryOrder 0).find? (fun y => (s.sysCore y).enabled) = some 0 := by
  decide +kernel

/-- The watchdog of a piece keeps the limit that its dispatch took. -/
theorem witness_TrapActions_limit :
    let s := { inPart.modCore 0 (fun k => { k with dog := 2, piece := some { aPiece with wdog := 7 } }) with us := 9 }
    (s.core 0).part = some 0 ∧ 0 < (((s.core 0).piece.map (·.wdog)).getD (s.part 0).wdog).toNat ∧ (s.core 0).piece.isSome ∧
    (s.core 0).dog + (((s.core 0).piece.map (·.wdog)).getD (s.part 0).wdog).toNat ≤ s.us ∧ (s.core 0).held = none := by
  decide +kernel

/-- A posted write that waits, and requests of its function and of another; a peer link that comes up again. -/
theorem witness_PortEvents_order :
    let r : PortRequest := ⟨0, none, 0x1FFF8, 8, [5], 7⟩
    let s := { openPort with ports := [(.write, r)] }
    portOpen s r = true ∧ writeAhead s r = true ∧ writeAhead openPort r = false ∧
    writeAhead { openPort with ports := [(.read, r)] } r = false ∧
    ({ openPort with peerLink := false, peers := 15 }.peerLink = false ∧ 0 < { openPort with peers := 15 }.peers) ∧
    ((0 : BitVec 16).toNat / 8 * 8 ≠ 0xFF00) := by
  decide +kernel

/-- An E word that a turn fetches and decodes, under its guard. -/
theorem witness_StepRunsDecoded_engine :
    let r := State.reset.withFetchWord 64 0
    let s := { r with mem := State.fetchMemory [] (leBytes 8 0x0800140040181004 ++ leBytes 8 0x67) }
    let u : State := { s.beginTurn.2 with cur := .compute 0, unit := .cp }
    (urgent s).isNone ∧ u.canGo (.compute 0) = true ∧
    (match nextFetch u with
      | .ok ((w, w1), t) => (match decodeWord (t.env (.compute 0)) w w1 with
        | .ok (.e g _) => decide (g = .always)
        | _ => false)
      | .error _ => false) = true := by
  decide +kernel

/-! ## Witnesses of the work that commands do in flight -/

/-- The hypotheses of `PlainAt`, computed. -/
def plainNow (s : State) (w : Who) (k : Kind) (va : W64) (n h : Nat) : Bool :=
  match translateRows w k false [(va, n)] s with
  | .ok ([p], _) => decide (p.home = .plain h ∧ p.len = n ∧ (k = .engWrite → p.fmt ≠ 5) ∧ versionOf s w.agent {} p = none)
  | _ => false

theorem plainAt_of {s : State} {w : Who} {k : Kind} {va : W64} {n h : Nat} (e : plainNow s w k va n h = true) : PlainAt s w k va n h := by
  unfold plainNow at e
  split at e
  · next p t ht => exact ⟨p, t, ht, by simpa using of_decide_eq_true e⟩
  · simp at e

/-- The home of a byte of core 0's scratchpad. -/
def padHome (a : Nat) : Nat := 2 ^ 52 + a

/-- A read, a write and a piece of two, at both ends of a page of the scratchpad. -/
theorem witness_EngineCommandEffects_accesses :
    let w := inPart.queueWho 0 .copy
    (match engineRead w .engRead 5 0xFFFFF00000001000 64 inPart with
      | .ok (bs, _) => decide (bs.length = 64) && plainNow inPart w .engRead 0xFFFFF00000001000 64 (padHome 0x1000)
      | .error _ => false) = true ∧
    (match engineWrite w 5 [] 0xFFFFF00000001FFF [7] inPart with
      | .ok _ => plainNow inPart w .engWrite 0xFFFFF00000001FFF 1 (padHome 0x1FFF)
      | .error _ => false) = true ∧
    (match storePieces w 5 [] [(0xFFFFF00000001000, 64), (0xFFFFF00000001040, 2)] (List.replicate 66 7) inPart with
      | .ok ([], _) => true
      | _ => false) = true := by
  decide +kernel

/-- The reads of a gather, computed. -/
def gatherNow (w : Who) (item : Nat) (base index : W64) (e : Nat) : List (Nat × Nat × Nat) → State → Option (List Byte × State)
  | [], s => some ([], s)
  | (k, o, m) :: r, s => match engineRead w .engRead item (index + BitVec.ofNat 64 (4 * k)) 4 s with
    | .ok (ib, v) => (match engineRead w .engRead item (base + BitVec.ofNat 64 (leNat ib * e + o)) m v with
      | .ok (bs, x) => (gatherNow w item base index e r x).map fun y => (bs ++ y.1, y.2)
      | .error _ => none)
    | .error _ => none

theorem gather_of {w : Who} {item : Nat} {base index : W64} {e : Nat} : ∀ {r : List (Nat × Nat × Nat)} {s : State} {bs : List Byte}
    {u : State}, gatherNow w item base index e r s = some (bs, u) → GatherReads w item base index e r s bs u
  | [], s, bs, u, h => by simp only [gatherNow, Option.some.injEq, Prod.mk.injEq] at h; exact ⟨h.1.symm, h.2.symm⟩
  | (k, o, m) :: r, s, bs, u, h => by
    simp only [gatherNow] at h
    split at h
    · next ib v h1 =>
      split at h
      · next b x h2 =>
        rw [Option.map_eq_some_iff] at h
        obtain ⟨y, hy, hb⟩ := h
        injection hb with hb hu
        exact ⟨ib, v, b, x, y.1, h1, h2, hu ▸ gather_of hy, hb.symm⟩
      · simp at h
    · simp at h

/-- The bytes that a piece of a copy command takes, computed. -/
def bringsNow (w : Who) (item : Nat) (d : Cmd) (row off n : Nat) (s : State) : Option (List Byte × State) :=
  let read (va : W64) : Option (List Byte × State) := match engineRead w .engRead item va n s with
    | .ok x => some x
    | .error _ => none
  match d.instr with
  | .xfCopy _ => read (d.op 1 + BitVec.ofNat 64 off)
  | .xfCopy2d _ => read (d.op 1 + BitVec.ofNat 64 row * (fld (d.op 3) 0 32).signExtend 64 + BitVec.ofNat 64 off)
  | .xfFill _ => some ((List.range n).map fun b => fld (d.op 3) (8 * ((off + b) % 8)) 8, s)
  | .xfGather f =>
    let e := 2 ^ (fld f.w1 24 3).toNat
    gatherNow w item (d.op 1) (d.op 3) e ((List.range ((off + n - 1) / e - off / e + 1)).map fun i =>
      let k := off / e + i
      (k, max off (k * e) - k * e, min (off + n) ((k + 1) * e) - max off (k * e))) s
  | _ => none

theorem brings_of {w : Who} {item : Nat} {d : Cmd} {row off n : Nat} {s : State} {bs : List Byte} {u : State}
    (h : bringsNow w item d row off n s = some (bs, u)) : CopyBrings w item d row off n s bs u := by
  unfold bringsNow at h
  split at h
  · next hd => dsimp only at h; simp only [CopyBrings, hd]; split at h <;> simp_all
  · next hd => dsimp only at h; simp only [CopyBrings, hd]; split at h <;> simp_all
  · next hd => simp only [CopyBrings, hd]; cases h; exact ⟨rfl, rfl⟩
  · next hd => simp only [CopyBrings, hd]; exact gather_of h
  · cases h

/-- Core 0 with a copy command of which piece 0 is done, and something of its state changed. -/
def copying (i : Instr) (f : Ecmd) (ops : List W64) (g : Core → Core) : State :=
  let d : Cmd := ⟨i, f, ops, 0, 0, false, .always⟩
  (flyingOn inPart .copy d (.copy (copyPieces d).length [0] none false) false).modCore 0 g

/-- Do the conditions on piece 1 hold: its bytes come, and go to memory or into the switch? -/
def pieceGoes (s : State) : Bool :=
  match s.flight? 0 .copy 0 with
  | some fl => (match (copyPieces fl.cmd)[1]? with
    | some (row, off, dst, m) =>
      let shape := copyShape fl.cmd
      let w := s.queueWho 0 .copy
      let later := ((copyPieces fl.cmd).zipIdx.filter fun q => q.2 ≠ 1 && q.2 ≠ 0).map fun q => (q.1.2.2.1, q.1.2.2.2)
      !passesEarlier s 0 fl (row, off, dst, m) &&
      (match (if s.sourceQueue 0 14 = none ∧ (s.sinkQueue 0 14).isSome then s.popWhole 0 14 m else bringsNow w fl.item fl.cmd row off m s) with
       | some (bs, u) => decide (bs.length = m) &&
         (if (s.sourceQueue 0 14).isSome then s.sinkQueue 0 14 = none && (u.pushWhole 0 14 bs).isSome
          else (keptBytes u 0 fl dst m).isEmpty &&
           (match pieceStore w fl.item fl.item later (copyCount 0 fl.cmd m (shape.2.1 * row + off)) dst bs u with
            | .ok ([], _) => plainNow u w .engWrite dst m (padHome (dst.toNat % 2 ^ 20))
            | _ => false))
       | none => false)
    | none => false)
  | none => false

/-- The last piece of a copy of 98 bytes and of a copy of rows, a whole piece of a fill and of a gather, with and without a
flag; a copy into the switch and one out of it. -/
theorem witness_EngineCommandEffects_copies :
    let f : Ecmd := ⟨0, 0, 9, 0x0010, 0, 0x1885⟩
    let g : Ecmd := ⟨0, 0, 0, 0, 0, 0x2001885⟩
    (∀ s ∈ [copying (.xfCopy f) f [0xFFFFF00000002000, 0xFFFFF00000001000, 98] id,
        copying (.xfCopy2d g) g [0xFFFFF00000002000, 0xFFFFF00000001000, 0x0000000200000010, 0x0000010000000020] id,
        copying (.xfFill f) f [0xFFFFF00000002020, 0, 200, 0x0102030405060708] id,
        copying (.xfGather g) g [0xFFFFF00000002000, 0xFFFFF00000001000, 64, 0xFFFFF00000003000] id],
      flies .copy s = true ∧ s.sourceQueue 0 14 = none ∧ s.sinkQueue 0 14 = none ∧ pieceGoes s = true) ∧
    (let s := copying (.xfCopy f) f [0xFFFFF00000002000, 0xFFFFF00000001000, 98] fun k => { k with
        switch := [(3, { SwitchQueue.empty with src := some 14, snk := some 10 })] }
     flies .copy s = true ∧ (s.sourceQueue 0 14).isSome ∧ pieceGoes s = true) ∧
    (let s := copying (.xfCopy f) f [0xFFFFF00000002000, 0xFFFFF00000001000, 98] fun k => { k with
        switch := [(3, { SwitchQueue.empty with src := some 10, snk := some 14, beats := [⟨List.replicate 64 7, 0, true, 0, 0⟩] })] }
     flies .copy s = true ∧ (s.sinkQueue 0 14).isSome ∧ pieceGoes s = true) := by
  decide +kernel

/-- A loop of the grid, a drain that begins, one whose loop runs, one whose loop has drained, with and without an address; the
first piece of a dump and the last of a fill. -/
theorem witness_EngineCommandEffects_slices :
    let loop : GridLoop := ⟨false, 4, 0, 0, 0, 0, false, false, [], [], false, [], [], 0, 8⟩
    let ops : List W64 := [0xFFFFF00000001000]
    let at_ (i : Ecmd → Instr) (w1 : W64) (p : Progress) (g : Core → Core) : State :=
      let f : Ecmd := ⟨0, 0, 0, 0, 0, w1⟩
      (flyingOn inPart .grid ⟨i f, f, ops, 0, 0, false, .always⟩ p false).modCore 0 g
    (let s := at_ .grDrain 0 .plain fun k => { k with loops := [loop] }
     flies .grid s = true ∧ (s.core 0).loops.getLast? = some loop) ∧
    (let s := at_ .grDrain 4 (.drain (some 8) 2) fun k => { k with loops := [loop] }
     flies .grid s = true ∧ ∃ l ∈ (s.core 0).loops, some l.item = some 8) ∧
    (∀ a : Bool, let s := at_ .grDrain (if a then 4 else 0) (.drain (some 8) 2) id
     flies .grid s = true ∧ (s.core 0).loops = [] ∧ (match engineWrite (s.queueWho 0 .grid) 5 [] 0xFFFFF00000001000 (leBytes 8 2) s with
       | .ok _ => true
       | .error _ => false) = true) ∧
    (let s := at_ .grDump 0x3F04 (.pieces 0) id
     flies .grid s = true ∧ (piecesOf 0xFFFFF00000001000 4096)[0]? = some (0xFFFFF00000001000, 64) ∧
     s.flawIn false (laneHome 0 63 0 0) 64 = none ∧
     (match engineWrite (s.queueWho 0 .grid) 5 ((piecesOf 0xFFFFF00000001000 4096).drop 1) 0xFFFFF00000001000 (s.bytes (laneHome 0 63 0 0) 64) s with
       | .ok _ => true
       | .error _ => false) = true) ∧
    (let s := at_ .grFill 0x0004 (.pieces 63) id
     flies .grid s = true ∧ (piecesOf 0xFFFFF00000001000 4096)[63]? = some (0xFFFFF00000001FC0, 64) ∧
     (match engineRead (s.queueWho 0 .grid) .engRead 5 0xFFFFF00000001FC0 64 s with
       | .ok (bs, _) => bs.length = 64
       | .error _ => false) = true) := by
  decide +kernel

/-- Core 0's array, which it holds, on the pages of the array; a matrix command at a row and a group. -/
def multiplying (i : Ecmd → Instr) (w1 : W64) (ops : List W64) (row group : Nat) (tables : List (Nat × BitVec 128)) (g : Flight → Flight)
    (h : Core → Core) : State :=
  let f : Ecmd := ⟨0, 0, 0, 0, 0, w1⟩
  ((flyingOn { inPages with arrays := inPages.arrays.set 0 ⟨some 0, 3, 1, false, false⟩ } .matrix ⟨i f, f, ops, 0, 0, false, .always⟩
    (.matrix row group tables) false).modFlight 0 .matrix 0 g).modCore 0 h

/-- The conditions on a segment of a product at a row and a group. -/
def segmentGoes (s : State) (i g : Nat) (tables : List (Nat × BitVec 128)) : Bool :=
  match s.flight? 0 .matrix 0 with
  | some fl =>
    let w := s.queueWho 0 .matrix
    let cols := (fld fl.cmd.f.w1 27 7).toNat + 1
    let groups := (fld fl.cmd.f.w1 34 16).toNat + 1
    (match mmaArgs w 0 fl.cmd s with
     | .ok (x, s1) =>
       let m := segmentGroups (mxRate (s.array 0).narrow x.a.fmt x.b.fmt) cols groups g
       (mmaFault (s.core 0).accInt (8 * groups) x).isNone && (tablesNeeded x i cols g m).all (fun b => (tfind tables b).isSome) &&
       (match (if x.fromSwitch then
             (if switchRowBytes x.a.fmt (8 * groups) ≤ fl.inb.length then some (switchElems x.a.fmt fl.inb (8 * g) (8 * m), s1) else none)
           else match rowElems w fl.item x.a tables i (8 * g) (8 * m) s1 with
             | .ok y => some y
             | .error _ => none) with
        | some (ea, s2) => ea.causes.isEmpty && (match manyRows w fl.item x.b tables (8 * g) (8 * m) (List.range cols) s2 with
          | .ok ((_, _, []), _) => true
          | _ => false)
        | none => false)
     | .error _ => false)
  | none => false

/-- Do the conditions on row i of a drain to memory hold, in format `form`? -/
def drainGoes (s : State) (i form : Nat) : Bool :=
  match s.flight? 0 .matrix 0 with
  | some fl =>
    let w := s.queueWho 0 .matrix
    let va := fl.cmd.op 0 + BitVec.ofNat 64 (i * (fld (fl.cmd.op 1) 0 32).toNat)
    let rows := (fld fl.cmd.f.w1 20 7).toNat + 1
    let bs := leBytes 2 (FFmt.bf16.round 0 (FFmt.a48.decode 0)).1
    (match pageFormat w .engWrite false va s with
     | .ok (f, s1) => f = form && (match translateRows w .engWrite false (rangeRows va 2) s1 with
       | .ok (ps, s2) => ps.all (fun p => p.fmt = form) &&
         (match storePieces w fl.item (((List.range rows).drop (i + 1)).map fun r =>
             (fl.cmd.op 0 + BitVec.ofNat 64 (r * (fld (fl.cmd.op 1) 0 32).toNat), 2)) (piecesOf va 2) bs s2 with
          | .ok ([], _) => true
          | _ => false)
       | .error _ => false)
     | .error _ => false)
  | none => false

/-- A segment of BF16 operands at the last row and group, one whose operand B is CB3, with its table, and one whose operand A comes
through the switch; a drain to a BF16 page, one whose row goes into the switch, and one whose row waits to go. -/
theorem witness_EngineCommandEffects_products :
    let ops : List W64 := [0x10000, 0x10800, 0x0000001000000010, 0xFFFFF00000001000]
    (let s := multiplying .mxMma 0x404100C28 ops 1 1 [] id id
     flies .matrix s = true ∧ holdsLease s 0 = true ∧ (s.array 0).expired = false ∧ segmentGoes s 1 1 [] = true) ∧
    (let s := multiplying .mxMma 0x29C28 [0x10000, 0x20000, 0, 0xFFFFF00000001000] 0 0 [(0, 7)] id id
     flies .matrix s = true ∧ segmentGoes s 0 0 [(0, 7)] = true) ∧
    (let s := multiplying .mxMma 0x29C28 ops 0 0 [] (fun fl => { fl with inb := List.replicate 16 0x3F })
        fun k => { k with switch := [(2, { SwitchQueue.empty with src := some 14, snk := some 12, snkFmt := 2 })] }
     flies .matrix s = true ∧ segmentGoes s 0 0 [] = true) ∧
    (let s := multiplying .mxDrain 0x100000 [0x10000, 0x40, 0, 0] 1 0 [] id id
     flies .matrix s = true ∧ drainGoes s 1 2 = true ∧ (s.flight? 0 .matrix 0).map (·.outb) = some []) ∧
    (let s := multiplying .mxDrain 0x10000 [0x10000, 0x40, 0, 0] 0 0 [] (fun fl => { fl with outb := [1, 2, 3, 4] })
        fun k => { k with switch := [(2, { SwitchQueue.empty with src := some 13, snk := some 14 })] }
     flies .matrix s = true ∧ (s.pushEnd 0 13 [1, 2, 3, 4]).1 = []) := by
  decide +kernel

/-- A row of a drain: each accumulator rounds to a BF16 value. -/
theorem witness_EngineCommandEffects_row (s : State) (h : (s.core 0).accInt = false) :
    ∃ bs, RowDrains (s.core 0) false 2 0 1 bs :=
  ⟨_, fun j => leBytes 2 (FFmt.bf16.round 0 (FFmt.a48.decode (tget 0 (s.core 0).acc j).toNat)).1,
    fun j _ => by simp [DrainsTo, h], rfl⟩

/-- Elements of the operands: eight BF16 elements, an E2M1 block, a CB3 block. -/
theorem witness_EngineCommandEffects_operands :
    let s := multiplying .mxMma 0 [] 0 0 [] id id
    let t := { s with tlb := s.tlb ++ [⟨.array 0, 0, 0x30000, 16, 0x000000042A33140F⟩] }
    let w := s.queueWho 0 .matrix
    let reads (s : State) (form : Nat) (rows : List (W64 × Nat)) (n : Nat) : Bool :=
      match operandRead w 5 form rows s with
      | .ok (r, _) => r.causes.isEmpty && r.bytes.length = n && r.bytes.all Option.isSome
      | .error _ => false
    reads s 2 [(0x10000, 16)] 16 = true ∧ reads t 5 [(0x30000, 32), (0x303C0, 2)] 34 = true ∧ reads s 7 [(0x20000, 48)] 48 = true := by
  decide +kernel

/-- Core 0 with a scan command, its data in the scratchpad. -/
def scanning (i : Ecmd → Instr) (w1 : W64) (p : Progress) (g : Flight → Flight) (h : Core → Core) : State :=
  let f : Ecmd := ⟨0, 0, 0, 0, 0, w1⟩
  ((flyingOn inPart .scan ⟨i f, f, [0xFFFFF00000001000, 0xFFFFF00000002000, 0xFFFFF00000003000, 0xFFFFF00000004000], 0, 0, false, .always⟩
    p false).modFlight 0 .scan 0 g).modCore 0 h

/-- Does an engine's read of a range answer its bytes? -/
def readsNow (s : State) (q : QueueId) (rows : List (W64 × Nat)) : Bool :=
  (rows.foldl (fun (r : Option State) x => r.bind fun s => match engineRead (s.queueWho 0 q) .engRead 5 x.1 x.2 s with
    | .ok (bs, u) => if bs.length = x.2 then some u else none
    | .error _ => none) (some s)).isSome

/-- The most pairs, the last four of twelve loaded, and the last piece of twelve stored. -/
theorem witness_EngineCommandEffects_carry :
    (let s := scanning .scnCarry 0xB00000000 (.pieces 1) id id
     flies .scan s = true ∧ readsNow s .scan [(0xFFFFF00000001040, 32)] = true) ∧
    (let s := scanning .scnCarry 0xB00000020 (.pieces 1) id id
     flies .scan s = true ∧ (piecesOf 0xFFFFF00000001000 96)[1]? = some (0xFFFFF00000001040, 32) ∧
     (match engineWrite (s.queueWho 0 .scan) 5 [] 0xFFFFF00000001040
        ((((List.range 12).flatMap fun j => pairOut (carryAt (s.core 0) j)).drop 64).take 32) s with
      | .ok _ => true
      | .error _ => false) = true) := by
  decide +kernel

/-- The last block of a chunk of twenty elements and two operators: from memory, diagonal, with its carry in the register; from the
switch, with its carry in memory; a piece of its states that goes out, and its last, which is a piece of the carry. -/
theorem witness_EngineCommandEffects_chunk :
    (let s := scanning .scnChunk 0x1311100000 (.scan 1 0) id fun k => { k with nheld := 20 }
     flies .scan s = true ∧ 20 ≤ (s.core 0).nheld ∧
     readsNow s .scan [(0xFFFFF00000002040, 16), (0xFFFFF00000002090, 16), (0xFFFFF00000003040, 16), (0xFFFFF00000003090, 16)] = true) ∧
    (let s := scanning .scnChunk 0x1304100000 (.scan 1 0) (fun fl => { fl with inb := List.replicate 40 0 }) id
     flies .scan s = true ∧ readsNow s .scan [(0xFFFFF00000004080, 32)] = true ∧
     (s.flight? 0 .scan 0).map (fun y => (y.inb.length, y.outb)) = some (2 * (4 * 1 + 4 * 4), [])) ∧
    (let rows : List (W64 × Nat) := [(0xFFFFF00000001080, 32), (0xFFFFF00000001120, 32), (0xFFFFF00000004080, 32)]
     (rows.flatMap fun r => piecesOf r.1 r.2) = rows ∧
     ∀ n ∈ [1, 3], let s := scanning .scnChunk 0x1320100000 (.scan 1 0) (fun fl => { fl with outb := List.replicate (32 * n) 7 }) id
       flies .scan s = true ∧ (match engineWrite (s.queueWho 0 .scan) 5 (rows.drop (4 - n)) (rows.getD (3 - n) (0, 0)).1 (List.replicate 32 7) s with
         | .ok _ => true
         | .error _ => false) = true) := by
  decide +kernel

/-- A session's descriptor at 0x10040 and another's at 0x10080, whose frames in FMT 9 are at 0x20000 and 0x20100; the one entry of
the first's snapshot table, at 0x11000, has SFRAME 0x20080 and FORKED `forked`. -/
def inSlate (forked : Nat) (d : Cmd) (p : Progress) (g : Core → Core) : State :=
  let one (frame : Nat) : List Byte := leBytes 8 0x140000001 ++ leBytes 8 (0x0009000000000000 + frame) ++ leBytes 8 64 ++
    leBytes 8 0x0001000000011000 ++ leBytes 16 0 ++ leBytes 8 3 ++ leBytes 8 0
  let s : State := { inPart with tlb := [⟨.quay 0, 0, 0x10000, 16, 0x000000042A31000F⟩, ⟨.quay 0, 0, 0x20000, 16, 0x000000042A32240F⟩] }
  let s := ((s.setBytes 0x42A310040 (one 0x20000)).setBytes 0x42A310080 (one 0x20100)).setBytes 0x42A311000
    (leBytes 8 0x20080 ++ leBytes 8 forked)
  (flyingOn s .quay d p false).modCore 0 g

def slateCmd (i : Ecmd → Instr) (w1 : W64) : Cmd :=
  let f : Ecmd := ⟨0, 0, 0, 0, 0, w1⟩
  ⟨i f, f, [0x10040, 0x10080, 0, 0], 0, 0, false, .always⟩

/-- The session, its snapshot's entry, and all entries, as the state gives them; the states after each. -/
def slateReads (s : State) : Option (Session × State × Entry × State × List Entry × State) :=
  let w := quayWho s 0
  match readDescriptor w 5 0x10040 s with
  | .ok (.ok x, s1) => (match readEntry w 5 x 0 s1 with
    | .ok (.ok e, s2) => (match allEntries w 5 x s2 with
      | .ok (.ok es, s3) => some (x, s1, e, s2, es, s3)
      | _ => none)
    | _ => none)
  | _ => none

/-- A load from the session's frame and one of a forked session; a save, a snapshot, a roll; a fork and a drop of the entry. -/
theorem witness_EngineCommandEffects_slateBegins :
    (let s := inSlate 0 (slateCmd .slLoad 0) .plain id
     match slateReads s with
      | some (x, s1, e, s2, es, s3) =>
        let w := quayWho s 0
        (recordOf (s1.core 0) 0x10040).isNone && (frameFault s1 w .engRead x.frame x.ffmt 64).isNone &&
        (frameFault s1 w .engWrite x.frame x.ffmt 64).isNone && e.sframe ≠ 0 && e.forked = 0 && es.all (fun e => e.forked = 0) &&
        (frameFault s2 w .engWrite e.sframe x.ffmt 64).isNone && (frameFault s3 w .engWrite e.sframe x.ffmt 64).isNone &&
        (frameFault s2 w .engRead e.sframe x.ffmt 64).isNone &&
        (match readDescriptor w 5 0x10080 s2 with
         | .ok (.ok y, t) => y.size = x.size && (t.core 0).forks.length < 16 && (match engineWrite w 5 [] (e.addr + 8) (leBytes 8 0x10080) t with
           | .ok _ => true
           | .error _ => false)
         | _ => false) &&
        (match engineWrite w 5 [] e.addr (List.replicate 8 0) s2 with
         | .ok _ => true
         | .error _ => false)
      | none => false) = true ∧
    (let s := inSlate 0x10080 (slateCmd .slLoad 0x400) .plain fun k => { k with forks := [(0x10040, 0x11000)] }
     (match readDescriptor (quayWho s 0) 5 0x10040 s with
      | .ok (.ok _, s1) => recordOf (s1.core 0) 0x10040 = some (0x10040, 0x11000) && (match forkSource (quayWho s 0) 5 (0x10040, 0x11000) s1 with
        | .ok (.ok (f, k), s2) => f = 0x20080 && (frameFault s2 (quayWho s 0) .engRead f k 64).isNone
        | _ => false)
      | _ => false) = true) ∧
    (slateCmd .slDrop 0x10000).f.w1.getLsbD 16 = true := by
  decide +kernel

/-- The copy that a fork has put off, an entry of the table, a page of a load, and a page of a save in both formats. -/
theorem witness_EngineCommandEffects_slateData :
    let s := inSlate 0x10080 (slateCmd .slLoad 0) .plain id
    let w := quayWho s 0
    (match readDescriptor w 5 0x10080 s with
     | .ok (.ok y, s1) => y.ffmt = 9 && (match frameFormat w 0x20080 s1 with
       | .ok (.ok 9, s2) => (match engineRead w .engRead 5 0x20080 y.size s2 with
         | .ok (bs, s3) => (match engineWrite w 5 [] y.frame bs s3 with
           | .ok (_, s4) => (match engineWrite w 5 [] 0x11008 (List.replicate 8 0) s4 with
             | .ok _ => true
             | .error _ => false)
           | .error _ => false)
         | .error _ => false)
       | _ => false)
     | _ => false) = true ∧
    (parseSnaps 0x0001000000011000 = some (0x11000, 1) ∧ readsNow s .quay [(0x11000, 16)] = true) ∧
    (match engineRead w .engRead 5 0x20000 64 s with
     | .ok (bs, u) => bs.length = 64 && (List.range 4).all fun i => (bankRace u 0 true (slateHome 0 (16 * i))).isNone
     | .error _ => false) = true ∧
    (match engineWrite w 5 [] 0x20000 (List.replicate 64 7) s with
     | .ok (_, t) => (match engineWrite w 5 [] 0x20040 [7] t with
       | .ok _ => true
       | .error _ => false)
     | .error _ => false) = true ∧
    (let t := { s with tlb := [⟨.quay 0, 0, 0x20000, 16, 0x0E0000042A31204F⟩] }
     match writeBlocks w 5 0x20000 (List.replicate 128 0) t with
      | .ok _ => true
      | .error _ => false) = true := by
  decide +kernel

/-- The first page of a save, which is staged; the last page of a load; a fork, and a drop of a bank behind a command on the other. -/
theorem witness_EngineCommandEffects_slatePages :
    (∀ i ∈ [Instr.slSave, .slSnap], let j : QuayJob := ⟨0x10040, false, 0x20000, 9, 8192, false, 0, 1, [(List.replicate 64 7, none)]⟩
      let s := inSlate 0 (slateCmd i 0) (.quay j) id
      flies .quay s = true ∧ frameDue (earlierJobs (s.core 0) 0) j 0 = true ∧ j.pagesDone + 1 < jobPages j ∧
      (match writeFrame s (quayWho s 0) 5 9 0x20000 (List.replicate 64 7) with
       | (_, none, none) => true
       | _ => false) = true) ∧
    (∀ i ∈ [Instr.slLoad, .slRoll], let j : QuayJob := ⟨0x10040, true, 0x20000, 9, 64, true, 0, 0, []⟩
      let s := inSlate 0 (slateCmd i 0x400) (.quay j) id
      flies .quay s = true ∧ bankDue (s.core 0) (earlierJobs (s.core 0) 0) j 0 = true ∧ frameDue (earlierJobs (s.core 0) 0) j 0 = true ∧
      (match loadPage s 0 (quayWho s 0) 5 j 0 with
       | (_, none, none) => true
       | _ => false) = true) ∧
    ∀ i ∈ [Instr.slFork, .slDrop], let s := inSlate 0 (slateCmd i 0x400) .plain fun k => { k with
        moves := [⟨1, ⟨0x10080, false, 0x20100, 9, 64, true, 0, 0, []⟩, true, false, false⟩] }
      flies .quay s = true ∧ ∀ e ∈ earlierJobs (s.core 0) 0, e.bank = true → jobPages e ≤ if e.writesBank then e.pagesDone else e.read := by
  decide +kernel

/-! ## Witnesses of values -/

/-- The FP32 value of a code. -/
def valF (n : Nat) : FVal := scalarVal (core0.setG 5 (BitVec.ofNat 64 n)) ⟨0, 5, 0, 0, 0, 0⟩ 5

/-- Quotients and roots: of finite values, by zero, of and by infinities and NaNs, of zeros, of a negative value. -/
theorem witness_ScalarFloatArithmetic :
    valF 0x40800000 = .fin false 0x800000 (-21) ∧ valF 0xC0400000 = .fin true 0xC00000 (-22) ∧
    ((valF 0x80000000).isZero = true ∧ (valF 0).isZero = true) ∧ ((valF 0x7F800000) = .inf false ∧ (valF 0xFF800000).isInf = true) ∧
    (valF 0x7FC00000).isNan = true ∧ (valF 0xC0400000).lt (.fin false 0 0) = true := by decide +kernel

/-- 4, -3 and 2.5 as rational numbers. -/
theorem witness_ScalarFloatArithmetic_finite :
    (FVal.fin false 0x800000 (-21)).rat = some 4 ∧ (FVal.fin true 0xC00000 (-22)).rat = some (-3) ∧
    (FVal.fin false 0x5 (-1)).rat = some (5 / 2) := by norm_num [FVal.rat]

/-- A conversion to an integer, and the last kind. -/
theorem witness_ScalarFloatCompareConvert :
    (fld (⟨0, 5, 0, 0, 0, 2⟩ : Lb).x 1 3).toNat = 1 ∧ (fld (⟨0, 5, 0, 0, 0, 12⟩ : Lb).x 1 3).toNat = 6 := by decide

/-- A value of each sign, zero, one past every format; elements of every format; a pair that FADE makes small. -/
theorem witness_RoundingKeepsCodes_values :
    (FVal.fin true 3 (-2)).rat = some (-3 / 4) ∧ (FVal.fin false 0 0).rat = some 0 ∧ (FVal.fin false 1 2000).rat = some (2 ^ 2000) ∧
    (FFmt.f32.decode 0x45800000).rat = some 4096 ∧ (FFmt.bf16.decode 0xC580).rat = some (-4096) ∧ (FFmt.f32.decode 0x3FC00000).rat = some (3 / 2) ∧
    (FFmt.f32.decode 0x2F800000).rat = some (2 ^ (-32 : Int)) ∧ |(2 : ℚ) ^ (-32 : Int)| < 2 ^ ((0xE201 : W64).extractLsb' 8 8).toInt := by
  have h1 : FFmt.f32.decode 0x45800000 = .fin false 0x800000 (-11) := by decide +kernel
  have h2 : FFmt.bf16.decode 0xC580 = .fin true 0x80 5 := by decide +kernel
  have h3 : FFmt.f32.decode 0x3FC00000 = .fin false 0xC00000 (-23) := by decide +kernel
  have h4 : FFmt.f32.decode 0x2F800000 = .fin false 0x800000 (-55) := by decide +kernel
  have h5 : ((0xE201 : W64).extractLsb' 8 8).toInt = -30 := by decide
  rw [h1, h2, h3, h4, h5]
  norm_num [FVal.rat, abs_of_pos]

/-- The elements of a reduction and of a conversion; operands of a group's sum; accumulators. -/
theorem witness_RoundingKeepsCodes_elements :
    (∀ ty ∈ [0, 1, 2, 3, 4, 6], (List.replicate (fmtElems ty) (2 ^ fmtBits ty - 1)).length = fmtElems ty ∧
      ∀ e ∈ List.replicate (fmtElems ty) (2 ^ fmtBits ty - 1), e < 2 ^ fmtBits ty) ∧
    (∀ p ∈ [(FVal.fin false 3 0, FVal.fin true 5 (-1))], p.1.rat.isSome ∧ p.2.rat.isSome) ∧
    (∃ p ∈ [(FVal.inf true, FVal.fin false 0 0)], p.1.isInf ∧ p.2.isZero) ∧
    ((FFmt.a48.decode 0).rat.isSome ∧ (FFmt.a48.decode (FFmt.a48.infCode true)) = .inf true ∧ (FFmt.a48.decode FFmt.a48.nanCode).isNan) := by
  refine ⟨by decide +kernel, ?_, ?_, ?_⟩
  · simp [FVal.rat]
  · exact ⟨_, List.mem_singleton.mpr rfl, rfl, rfl⟩
  · have h : FFmt.a48.decode 0 = .fin false 0 (FFmt.a48.emin) := by decide +kernel
    exact ⟨by rw [h]; rfl, by decide +kernel, by decide +kernel⟩

/-- Sixty-four values to be quantised: one a NaN, all zero, all of them 5, whose scale is 1. -/
theorem witness_RoundingKeepsCodes_quantiser :
    (∃ v ∈ FVal.nan true :: List.replicate 63 (FVal.fin false 5 0), v.isNan ∨ v.isInf) ∧
    (∀ v ∈ List.replicate 64 (FVal.fin true 0 0), v.isZero) ∧
    (let vs := List.replicate 64 (FVal.fin false 5 0)
     vs.length = 64 ∧ (∀ i < 64, (vs.getD i (.nan false)).rat = some 5) ∧ (2 : ℚ) ^ ((0 : Int) + 2) ≤ |5| ∧ |(5 : ℚ)| < 2 ^ ((0 : Int) + 3) ∧
     (2 : ℚ) ^ (-149 : Int) ≤ |5 / 2 ^ min (max (0 : Int) (-127)) 127|) := by
  refine ⟨⟨_, List.mem_cons_self, .inl rfl⟩, fun v hv => ?_, List.length_replicate, fun i hi => ?_, ?_, ?_, ?_⟩
  · rw [List.eq_of_mem_replicate hv]; rfl
  · rw [List.getD_eq_getElem _ _ (by rwa [List.length_replicate]), List.getElem_replicate]
    norm_num [FVal.rat]
  · norm_num
  · norm_num
  · norm_num

/-- Sources of a cell that the operations read: a neighbour, the immediate, the index. -/
theorem witness_GridCells_sources :
    let f : CellWord := ⟨12, 0, 6, 0, 0, 0, 1, 0, 0, 0xFFFF⟩
    f.srcA.toNat < 13 ∧ f.srcB.toNat < 13 ∧ f.srcC.toNat < 13 := by decide

/-! ## Witnesses of steps -/

/-- A piece of a tide program that lands on plain bytes. -/
theorem witness_MemorySteps_tideBytes :
    let x : TidePiece := ⟨5, .mem 0xFFFFD00000001000, [1, 2, 3], none, 0, false, none⟩
    let p : Prog := { aProg with d := .mem 0xFFFFD00000001003, inflight := [x] }
    let s := tideAt p
    (match cursorWho s p (s.whoTide 0 0) .engWrite x.dst with
      | .ok w => (match translateRows w .engWrite false [(x.dst.addr.getD 0, 3)] s with
        | .ok ([pt], _) => (match pt.home with
          | .plain _ => decide (pt.fmt ≠ 5 ∧ versionOf s w.agent { item := some p.item, fills := true } pt = none)
          | _ => false)
        | _ => false)
      | .error _ => false) = true := by
  decide +kernel

/-- A guarded page whose place in the rollback area lies on a plain page. -/
theorem witness_MemorySteps_guardedBytes :
    let q : Piece := { aPiece with guarded := [7] }
    let s := { inPart.modCore 0 (fun k => { k with piece := some q, guardWait := [7] }) with
      parts := inPart.parts.set 0 { inPart.part 0 with rbase := 0x10000 }
      tlb := [⟨.port, 0, 0x10000, 16, 0x000000042A31000F⟩] }
    (s.core 0).part = some 0 ∧ 7 ∈ (s.core 0).guardWait ∧ 7 ∈ q.guarded ∧ s.flaws = [] ∧
    (match (s.draw 0 .store 0x17000 4096).tableParts 0 .store 0x17000 4096 with
      | some ([pt], _) => decide (pt.home = .plain 0x42A317000)
      | _ => false) = true := by
  decide +kernel

/-- A member of a barrier whose context is saved, and one that waits elsewhere. -/
theorem witness_TimetableSteps_savedMember :
    let v : SavedContext := ⟨1, 0x50000000, { Core.reset with
      piece := some aPiece, part := some 0, x := { Cpu.reset with blocked := some (.gbar ⟨0, 0, 0x0100, 0⟩, 0x40) } }, false, [], []⟩
    let b : Barrier := ⟨0, 0x0100, [⟨0, 0, 0, 1⟩, ⟨1, 0, 0, 0⟩], []⟩
    let s := { core0 with barriers := [b], saved := [v] }
    (s.barriers.find? fun b => b.arrived.any (fun m => m.core = (0 : CoreId)) && b.arrived.length = rectW b.group * rectH b.group) = some b ∧
    s.saved[0]? = some v ∧ isGbar v.image.x.blocked = true ∧ (⟨1, 0, 0, 0⟩ : Member) ∈ b.arrived ∧ isGbar (s.core 2).x.blocked = false := by
  decide +kernel

/-- A queued launch of one node, of which the session list is empty or names one session. -/
theorem witness_TimetableSteps_accept :
    ∀ n ∈ [0, 1], let q : QueuedLaunch := ⟨0, 1, leBytes 8 0x0001000000010800 ++ leBytes 8 0x0100 ++
        leBytes 8 (n * 2 ^ 48 + 0x10900) ++ List.replicate 40 0, []⟩
      let s := { inTable 2 [] (anInst none) with launchQueue := [q], launches := [] }
      s.launchQueue = [q] ∧ (s.launches.filter State.counting).length < 64 ∧ (match parseLaunch s q with
        | .ok l => decide (l.perSession = decide (n = 1) ∧ l.nodes.map (fun n => n.npred) = [0])
        | .error _ => false) = true := by
  decide +kernel

/-- The packet of the launch queue: claimed, read, one that passes, and one of another version. -/
theorem witness_TimetableSteps_packet :
    ∀ v ∈ [1, 2], let s := (inTable 2 [] (anInst none)).setBytes 0x42A311000 (packetQueue v 0x11100)
      let va := (s.part 0).lqaddr
      va ≠ 0 ∧ (match s.peekAtomic 0 va 64, s.queueStep 0 va true false 0 with
       | some (_, bs), some (slot, _, u) => (match parseHeader (leNat bs), s.slotBytes 0 slot with
         | some h, .ok pk =>
           let y := (u.draw 0 .load slot 64).endSlot ⟨0, va, slot, true⟩
           let desc := BitVec.ofNat 64 (leNat ((pk.drop 8).take 8))
           let fault := State.packetFault v (BitVec.ofNat 24 (leNat ((pk.drop 4).take 3))) (y.peerWrote 0 slot) pk
           decide (h.ri.toNat < h.ci.toNat ∧ slot ≠ 0 ∧ ((s.peek 0 va 64).map State.queueVersion).getD 0 = v) &&
           (if v = 1 then decide (fault = none ∧ pk.getD 1 0 = 1 ∧ desc.toNat % 64 = 0) && (y.peek 0 desc 64).isSome else fault = some 374)
         | _, _ => false)
       | _, _ => false) = true := by
  decide +kernel

/-- Can the piece of core v be split for core c, as a computation? -/
def splittableNow (s : State) (c v : CoreId) : Bool :=
  match (s.core v).piece with
  | none => false
  | some q => match s.launches[q.launch]? with
    | none => false
    | some l => match l.nodes[q.node]? with
      | none => false
      | some n => s.mayRun c l && s.dieOk c l q.node && decide (2 * max n.grain 1 ≤ (s.core v).rangeHi.toNat - (s.core v).rangeLo.toNat)

theorem splittable_now {s : State} {c v : CoreId} (h : Splittable s c v) : splittableNow s c v = true := by
  obtain ⟨q, l, n, hq, hl, hn, h1, h2, h3⟩ := h
  simp [splittableNow, hq, hl, hn, h1, h2, h3]

theorem splittable_of {s : State} {c v : CoreId} (h : splittableNow s c v = true) : Splittable s c v := by
  unfold splittableNow at h
  split at h
  · simp at h
  · next q hq =>
    split at h
    · simp at h
    · next l hl =>
      split at h
      · simp at h
      · next n hn =>
        simp only [Bool.and_eq_true, decide_eq_true_eq] at h
        exact ⟨q, l, n, hq, hl, hn, h.1.1, h.1.2, h.2⟩

/-- Core v alone can be split. -/
theorem largest_of {s : State} {c : CoreId} {die : Bool} {v : CoreId} (hd : decide (coreDie v = 1) = die)
    (hv : splittableNow s c v = true) (h : (List.finRange 256).all (fun w => w = v || !splittableNow s c w) = true) :
    LargestRange s c die v := by
  refine ⟨hd, splittable_of hv, fun w _ hw => ?_⟩
  have := List.all_eq_true.mp h w (List.mem_finRange w)
  rw [splittable_now hw] at this
  have : w = v := by simpa using this
  exact .inr ⟨this ▸ rfl, this ▸ le_refl _⟩

/-- No core of the die can be split. -/
theorem no_split {s : State} {c : CoreId} (die : Bool) (h : (List.finRange 256).all (fun w => !splittableNow s c w) = true) :
    ∀ v, decide (coreDie v = 1) = die → ¬Splittable s c v := fun v _ hv => by
  have := List.all_eq_true.mp h v (List.mem_finRange v)
  simp [splittable_now hv] at this

/-- Core 0 idle; core v at work on a range of two indices, or on one that cannot be split. -/
def atWork (v : CoreId) (hi : W64) : State :=
  (inTable 2 [] (anInst none)).modCore v fun k => { k with part := some 0, run := .run, piece := some aPiece, rangeLo := 10, rangeHi := hi }

theorem witness_TimetableSteps_splits :
    ((atWork 1 12).idle 0 = true ∧ (atWork 1 12).candidate 0 = none ∧ LargestRange (atWork 1 12) 0 (decide (coreDie 0 = 1)) 1) ∧
    (let s := { inPart.modCore 0 (fun k => { k with run := .seek }) with steals := [0] }
     s.idle 0 = true ∧ s.candidate 0 = none ∧ 0 ∈ s.steals ∧ (s.core 0).run = .seek ∧ s.holdsCore 0 = false ∧
     ∀ v, decide (coreDie v = 1) = decide (coreDie 0 = 1) → ¬Splittable s 0 v) := by
  refine ⟨⟨by decide +kernel, by decide +kernel, largest_of (by decide +kernel) (by decide +kernel) (by decide +kernel)⟩,
    by decide +kernel, by decide +kernel, by decide +kernel, by decide +kernel, by decide +kernel, no_split _ (by decide +kernel)⟩

/-- A steal that takes a node, one that splits, one that finds nothing. -/
theorem witness_TimetableSteps_steals :
    (let r : Ready := ⟨0, 0, 0, true, 0⟩
     let s := { inTable 2 [] (anInst none) with pool := [r], steals := [0] }
     0 ∈ s.steals ∧ s.dieLost = false ∧ s.idle 0 = true ∧ r ∈ s.pool ∧ r.die = decide (coreDie 0 = 0) ∧
     (match s.launches[r.launch]? with
       | some l => s.mayRun 0 l && s.dieOk 0 l r.node && (l.insts[r.inst]?).map (fun i => i.session) = some none && !(s.part l.part).place
       | none => false) = true) ∧
    (let s := { atWork 200 12 with steals := [0] }
     s.idle 0 = true ∧ s.pool = [] ∧ LargestRange s 0 (decide (coreDie 0 = 0)) 200) ∧
    (let s := { atWork 200 11 with steals := [0] }
     s.idle 0 = true ∧ s.pool = [] ∧ ∀ v, decide (coreDie v = 1) = decide (coreDie 0 = 0) → ¬Splittable s 0 v) := by
  refine ⟨by decide +kernel, ⟨by decide +kernel, by decide +kernel,
    largest_of (by decide +kernel) (by decide +kernel) (by decide +kernel)⟩, by decide +kernel, by decide +kernel, no_split _ (by decide +kernel)⟩

/-- The PF mailbox of a device whose boot has failed, and of one that is up. -/
theorem witness_PortEvents_mailboxes :
    (let s := { State.reset with boot := .stopped }
     s.boot ≠ .cold ∧ s.hostLink = true ∧ s.boot = .stopped ∧ ∀ o v, MailboxRequest.bind 0 true ≠ .pf o v) ∧
    (openPort.boot = .up ∧ openPort.hostLink = true ∧ vfOpen openPort 0 = true ∧ agreedVersion 3 ≠ 0) := by
  refine ⟨⟨by decide, rfl, rfl, fun _ _ => by simp⟩, by decide +kernel⟩

/-- A line whose code just fits in a coded flit, and a channel that has a credit. -/
theorem witness_LinkAndPowerEvents_lines :
    (let bytes : List Byte := List.replicate 128 0
     bytes.length = 128 ∧ firstExponents.length = 8 ∧ (encodeLine false bytes firstExponents).1.length ≤ 112) ∧
    (let s := { core0 with channels := core0.channels.set 0 { core0.channels[0] with returned := 1 } }
     s.dieLink = true ∧ s.channels[(channelIndex (!true) 0).val].used < Config.linkCredits 0 + s.channels[(channelIndex (!true) 0).val].returned) := by
  exact ⟨by decide +kernel, rfl, Nat.succ_pos (Config.linkCredits 0)⟩

/-- A core whose storage may be addressed by the steps of the storage, with no request of the Timetable unpaid. -/
theorem witness_StorageErrors_requests : core0.requests.unpaid = none := by decide +kernel

/-- Special registers of the core's own partition's codec region, and of a session's step. -/
theorem witness_UserSpecialRegisters_regions :
    (let s := { inPart.modCore 0 (fun k => { k with codecsel := 5 }) with regions := inPart.regions.set 5 { Region.zero with space := some 0 } }
     (s.core 0).part = some 0 ∧ (s.regions[(s.core 0).codecsel.toNat]'(s.core 0).codecsel.isLt).space = some (BitVec.ofNat 6 0)) ∧
    (let s := inPart.modCore 0 fun k => { k with piece := some { aPiece with session := some (1, 0x10040) } }
     (s.core 0).part.isSome ∧ ∃ q, (s.core 0).piece = some q ∧ q.session.isSome) := by
  refine ⟨by decide +kernel, by decide +kernel, { aPiece with session := some (1, 0x10040) }, by decide +kernel, rfl⟩

/-! ## Operations on fixed values, each from the manual's own example or by hand from its rule -/

/-- The register that an instruction leaves, where it answers a next state. -/
def leaves (i : Instr) (s : State) (r : BitVec 5) : Option W64 :=
  match exec i s with
  | .next t => some (t.g r)
  | _ => none

/-- R291: li and then lui. -/
theorem test_li_lui :
    leaves (.li ⟨5, 0, 0x12345678, 0⟩) core0 5 = some 0x12345678 ∧ leaves (.li ⟨5, 0, 0xFFFFFFFF, 0⟩) core0 5 = some 0xFFFFFFFFFFFFFFFF ∧
    leaves (.lui ⟨5, 0, 0x9ABCDEF0, 0⟩) (core0.setG 5 0x12345678) 5 = some 0x9ABCDEF012345678 := by decide +kernel

/-- R287: clz of 0x10000 is 47; of 0, clz and ctz give 64. -/
theorem test_counts :
    leaves (.clz ⟨5, 6, 0, 0⟩) (core0.setG 6 0x10000) 5 = some 47 ∧ leaves (.clz ⟨5, 6, 0, 0⟩) core0 5 = some 64 ∧
    leaves (.ctz ⟨5, 6, 0, 0⟩) core0 5 = some 64 ∧ leaves (.popc ⟨5, 6, 0, 0⟩) (core0.setG 6 0xF0F) 5 = some 8 := by
  decide +kernel

/-- R292: 15 / 3 is 5 with remainder 0; -2^63 / -1 is -2^63 with remainder 0; rem takes the sign of g[a]. -/
theorem test_division :
    let s := (core0.setG 5 15).setG 6 3
    let m := (core0.setG 5 0x8000000000000000).setG 6 0xFFFFFFFFFFFFFFFF
    let n := (core0.setG 5 0xFFFFFFFFFFFFFFF9).setG 6 2
    leaves (.div ⟨7, 5, 6, 0, 0, 0⟩) s 7 = some 5 ∧ leaves (.rem ⟨7, 5, 6, 0, 0, 0⟩) s 7 = some 0 ∧
    leaves (.div ⟨7, 5, 6, 0, 0, 0⟩) m 7 = some 0x8000000000000000 ∧ leaves (.rem ⟨7, 5, 6, 0, 0, 0⟩) m 7 = some 0 ∧
    leaves (.div ⟨7, 5, 6, 0, 0, 0⟩) n 7 = some 0xFFFFFFFFFFFFFFFD ∧ leaves (.rem ⟨7, 5, 6, 0, 0, 0⟩) n 7 = some 0xFFFFFFFFFFFFFFFF := by
  decide +kernel

/-- R285: a shift takes B[5:0]; g0 discards its write; a source may be the destination. -/
theorem test_shift_and_g0 :
    let s := (core0.setG 6 1).setG 7 0xFFFFFFFFFFFFFFC3
    leaves (.shl ⟨5, 6, 7, 0⟩) s 5 = some 8 ∧ leaves (.add ⟨0, 6, 7, 0⟩) s 0 = some 0 ∧
    leaves (.sub ⟨6, 7, 6, 0⟩) s 6 = some 0xFFFFFFFFFFFFFFC2 := by decide +kernel

/-- R286: a 128-bit add carries into the high half, and a result in g0:g1 updates g1 only. -/
theorem test_pair_add :
    let s := ((core0.setG 10 0xFFFFFFFFFFFFFFFF).setG 11 1).setG 12 1
    leaves (.addq ⟨10, 10, 12, 0⟩) s 10 = some 0 ∧ leaves (.addq ⟨10, 10, 12, 0⟩) s 11 = some 2 ∧
    leaves (.addq ⟨0, 10, 12, 0⟩) s 0 = some 0 ∧ leaves (.addq ⟨0, 10, 12, 0⟩) s 1 = some 2 := by decide +kernel

/-- R296: fcvt.f64.toi of -2.5 gives -2 under RNE. -/
theorem test_fcvt : leaves (.fcvt ⟨5, 6, 0, 0, 0, 3⟩) (core0.setG 6 0xC004000000000000) 5 = some 0xFFFFFFFFFFFFFFFE := by
  decide +kernel

/-- R293: 1.5 + 2.25 is 3.75 in FP32, with zero upper bits; 2^24 + 1 rounds to 2^24. -/
theorem test_fadd :
    leaves (.fadd ⟨5, 6, 7, 0, 0, 0⟩) ((core0.setG 6 0x3FC00000).setG 7 0x40100000) 5 = some 0x40700000 ∧
    leaves (.fadd ⟨5, 6, 7, 0, 0, 0⟩) ((core0.setG 6 0x4B800000).setG 7 0x3F800000) 5 = some 0x4B800000 := by decide +kernel

/-- R288, R289: sel by a negated predicate, and a signed comparison. -/
theorem test_predicates :
    leaves (.sel ⟨5, 6, 7, 8⟩) ((core0.setG 6 1).setG 7 2) 5 = some 2 ∧
    (match exec (.setp ⟨2, 6, 7, 2⟩) (core0.setG 6 0xFFFFFFFFFFFFFFFF) with
      | .next t => t.p 2
      | _ => false) = true := by decide +kernel

/-- R297: br goes 8 times its offset from its own address, callr reads its target before it writes its link. -/
theorem test_control :
    let s := core0.modCpu fun x => { x with pc := 0x1000, npc := 0x1008 }
    (match exec (.br ⟨0, 0, 0xFFFFFFFF, 0⟩) s with
      | .next t => decide (t.cpu.npc = 0xFF8)
      | _ => false) = true ∧
    (match exec (.callr ⟨6, 6, 0, 0, 0, 0⟩) (s.setG 6 0x2000) with
      | .next t => decide (t.cpu.npc = 0x2000 ∧ t.g 6 = 0x1008)
      | _ => false) = true := by decide +kernel

/-- R331, R1: a store of 8 bytes and loads of its bytes, little-endian and sign-extended. -/
theorem test_store_load :
    (match exec (.st ⟨5, 4, 0, 3, 0, 0, 0, 0⟩) (atPad.setG 5 0x8877665544332211) with
      | .next t => decide (leaves (.ld ⟨6, 4, 7, 0, 0, 0, 0, 1⟩) t 6 = some 0xFFFFFFFFFFFFFF88 ∧
          leaves (.ld ⟨6, 4, 2, 2, 0, 0, 0, 0⟩) t 6 = some 0x66554433)
      | _ => false) = true := by decide +kernel

/-- R337, R338: amo.min is signed at 4 bytes; a cas that fails leaves the old value. -/
theorem test_atomics :
    let s := (sysPage.setBytes homePage (leBytes 4 0xFFFFFFFF)).setG 5 1
    leaves (.amo ⟨5, 4, 0, 2, 1, 0, 3, 5⟩) s 5 = some 0xFFFFFFFF ∧
    (match exec (.amo ⟨5, 4, 0, 2, 1, 0, 3, 5⟩) s, exec (.amo ⟨5, 4, 0, 2, 1, 0, 3, 7⟩) s with
      | .next t, .next u => decide (leNat (t.bytes homePage 4) = 0xFFFFFFFF ∧ leNat (u.bytes homePage 4) = 1)
      | _, _ => false) = true := by decide +kernel

/-- R114, R343: a flag's value saturates, and the first agent that saturates it is kept. -/
theorem test_flag_saturates :
    let s := withCore fun k => { k with flags := [(9, { Flag.zero with value := 0xFFFFFFF0 })] }
    (match exec (.fsig ⟨0, 0, 9, 0x400, 0⟩) s with
      | .next t => decide (((t.core 0).flag 9).value = 0xFFFFFFFF ∧ ((t.core 0).flag 9).overflow = some (unitAgent 0 0))
      | _ => false) = true := by decide +kernel

/-- R113: the scaled counts of the worked words, 0x0400 for 64 and 0x0041 for 16. -/
theorem test_scaled : scaled 0x0400 = 64 ∧ scaled 0x0041 = 16 ∧ scaled 0x0800 = 128 ∧ scaled 0xFFFF > 0xFFFFFFFF := by decide

/-- The manual's causes: a store without W raises 73, a walk that meets a reserved bit 120, a race 160. -/
theorem test_causes : accessCause .store 1 = 73 ∧ walkCause 0 = 120 := by decide

/-- R311: VABS of -2^31 gives -2^31 under wrap and 2^31 - 1 under clamp. -/
theorem test_vabs :
    let s := withCore fun k => { k with v := Vector.replicate 8 (Vector.replicate 16 0x80000000) }
    (match exec (.vabs ⟨0x801, 0x802, 0, 1, 0⟩) s, exec (.vabs ⟨0x801, 0x802, 0, 1, 4⟩) s with
      | .next t, .next u => decide ((t.vreg 1)[3] = 0x80000000 ∧ (u.vreg 1)[3] = 0x7FFFFFFF ∧ u.thisCore.x.fpstat = fSAT)
      | _, _ => false) = true := by decide +kernel

/-- The fragment of chapter 12: row 1 of m4, read as column 1, is element (1, 1) in lane 1; the wrapped diagonal from
(0, 1). -/
theorem test_tile_directions :
    let s := withCore fun k => { k with
      tfull := 0x10, tiles := (List.range 32).map fun j => (1024 + j, BitVec.ofNat 32 (if j < 16 then j + 1 else 84 + j)) }
    (match exec (.vmov ⟨0x803, 0x1111, 0, 1, 0⟩) s, exec (.vmov ⟨0x805, 0x1121, 0, 1, 0⟩) s with
      | .next t, .next u => decide ((t.vreg 3)[0] = 2 ∧ (t.vreg 3)[1] = 101 ∧ (t.vreg 3)[2] = 0 ∧
          (u.vreg 5)[0] = 2 ∧ (u.vreg 5)[1] = 102 ∧ (u.vreg 5)[2] = 0)
      | _, _ => false) = true := by decide +kernel

/-- The worked block of R141 to R144: its encoding at 8 bits a value, and what it decodes to. -/
theorem test_fbc_encode : fbcEncode 8 false [0x3FF8000000000000, 0x3FF4000000000000, 0x3FF0000000000000, 0x3FE8000000000000, 0x3FE0000000000000, 0x3FE0000000000000, 0x3FD0000000000000, 0x0, 0xBFD0000000000000, 0xBFE0000000000000, 0xBFE0000000000000, 0xBFE8000000000000, 0xBFF0000000000000, 0xBFF0000000000000, 0xBFF4000000000000, 0xBFF8000000000000] = 0x000800820C080C1016068320FC001FF8 := by decide +kernel

theorem test_fbc_decode : fbcDecode 8 false 0x000800820C080C1016068320FC001FF8 = [0x3FF8000000000000, 0x3FF4000000000000, 0x3FF0000000000000, 0x3FE8000000000000, 0x3FE0000000000000, 0x3FE0000000000000, 0x3FD0000000000000, 0x0, 0xBFD8000000000000, 0xBFD8000000000000, 0xBFE4000000000000, 0xBFE4000000000000, 0xBFF0000000000000, 0xBFF0000000000000, 0xBFF6000000000000, 0xBFF6000000000000] := by decide +kernel

/-- R176: with byte 3 = 0xC0 and byte 4 = 1, index 10 is 7. -/
theorem test_cb3_index : cb3Index 0x01C0000000 10 = 7 := by decide

/-- R407, R408: brk enters the handler with the next word's address, trapret goes back. -/
theorem test_exception :
    let s := sys0.modSys 0 fun y => { y with svec := 0x1000, x := { y.x with pc := 0x40, npc := 0x48 } }
    (match exec (.brk ⟨0, 0, 0, 0⟩) s with
      | .next t => decide ((t.sysCore 0).scause = 321 ∧ (t.sysCore 0).sepc = 9 ∧ (t.sysCore 0).ie = false ∧
          (t.sysCore 0).pie = true ∧ (t.sysCore 0).x.npc = 0x8000) && (match exec (.trapret ⟨0, 0, 0, 0, 0, 0⟩) t with
        | .next u => decide ((u.sysCore 0).x.npc = 0x48 ∧ (u.sysCore 0).ie = true)
        | _ => false)
      | _ => false) = true := by decide +kernel

/-- R220, R292: a division by zero holds the trap of cause 256 and leaves g[d]. -/
theorem test_divide_by_zero :
    (match exec (.div ⟨7, 5, 6, 0, 0, 0⟩) (core0.setG 7 9) with
      | .next t => decide (((t.core 0).held.map fun h => h.cause) = some 256 ∧ t.g 7 = 9)
      | _ => false) = true := by decide +kernel

/-- R342: qpush takes a credit and fills its neighbour's queue, last. -/
theorem test_qpush :
    let s := withCore fun k => { k with creditDown := 2, v := Vector.replicate 8 (Vector.replicate 16 7) }
    (match exec (.qpush ⟨0, 2, 0, 0, 0, 0⟩) s with
      | .next t => decide ((t.core 0).creditDown = 1 ∧ (t.core 0).down.slots.length = 1) &&
          ((t.core 0).down.slots.head?.any fun v => v[15] = 7)
      | _ => false) = true := by decide +kernel

/-- R392: a cell's IMUL keeps the low 32 bits; its result is ready two cycles on. -/
theorem test_cell_imul :
    let loop : GridLoop := ⟨false, 4, 0, 0, 0, 0, false, false, [], [], false, [], [], 0, 5⟩
    let s := { withCore fun k => { k with loops := [loop], cellAt := (false, 9, 3) } with unit := .cell }
    (match exec (.cellImul ⟨6, 12, 7, 0, 0, 0, 1, 0, 0, 0xFFFF⟩) s with
      | .next t => ((t.core 0).loops.head?.bind fun l => l.results.head?).any fun r => decide (r = ⟨9, 2, Vector.replicate 8 0xFFFFFFFD⟩)
      | _ => false) = true := by decide +kernel

/-- R399, R400: pbase takes an address relative to the program; pmove's loop of pjump goes back. -/
theorem test_pattern :
    (match exec (.pbase ⟨0x7FFFFFFC00⟩) (streamAt { aProg with start := 0x2000 }) with
      | .next t => decide ((t.prog? (.stream 0 0)).map (fun p => p.s) = some (.mem 0x1C00))
      | _ => false) = true ∧
    (match exec (.pjump ⟨0x3FFFFFFFFFF⟩) (streamAt { aProg with index := 5 }) with
      | .next t => decide ((t.prog? (.stream 0 0)).map (fun p => p.index) = some 4)
      | _ => false) = true := by decide +kernel

/-- Memory at reset lists nothing and has its form; writing what an unlisted byte reads as lists nothing. -/
theorem test_reset_memory : Memory.wf State.reset.mem = true ∧ (State.reset.setBytes 16 [0, 5, 0]).mem = [(17, 5)] ∧
    ((State.reset.setBytes 16 [0, 5, 0]).setBytes 17 [0]).mem = [] := by decide +kernel

end Sys2Proof.Tests
end

section
/-! SUPPORT. The scalar slot and the long integer operations (R284 to R291): a bit vector of the model as the number of the
manual, the codes of operations by their reasons, and the obligations O1, O2, O3, O4 and O6. -/

namespace Sys2Proof.Machine

section
/-! ## Words as numbers -/

variable {w : Nat}

theorem eq_ofNat_iff {x : BitVec w} {n : Nat} : x = BitVec.ofNat w n ↔ x.toNat = n % 2 ^ w := by
  rw [← BitVec.toNat_inj, BitVec.toNat_ofNat]

theorem eq_ofNat_of_toNat {x : BitVec w} {n : Nat} (h : x.toNat = n) : x = BitVec.ofNat w n := by
  rw [← h, BitVec.ofNat_toNat, BitVec.setWidth_eq]

theorem eq_ofInt_of_toInt {x : BitVec w} {i : Int} (h : x.toInt = i) : x = BitVec.ofInt w i := by
  rw [← h, BitVec.ofInt_toInt]

theorem sub_eq_ofInt (a b : BitVec w) : a - b = BitVec.ofInt w ((a.toNat : Int) - b.toNat) := by
  have self (x : BitVec w) : BitVec.ofInt w x.toNat = x := by
    rw [BitVec.ofInt_natCast, BitVec.ofNat_toNat, BitVec.setWidth_eq]
  rw [sub_eq_iff_eq_add]
  calc a = BitVec.ofInt w ((a.toNat : Int) - b.toNat + b.toNat) := by rw [sub_add_cancel, self]
    _ = BitVec.ofInt w ((a.toNat : Int) - b.toNat) + b := by rw [BitVec.ofInt_add, self]

theorem add_eq_ofInt (a b : BitVec w) : a + b = BitVec.ofInt w (a.toInt + b.toInt) := by
  rw [BitVec.ofInt_add, BitVec.ofInt_toInt, BitVec.ofInt_toInt]

theorem mul_eq_ofInt (a b : BitVec w) : a * b = BitVec.ofInt w (a.toInt * b.toInt) := by
  rw [BitVec.ofInt_mul, BitVec.ofInt_toInt, BitVec.ofInt_toInt]

theorem mul_eq_ofNat (a b : BitVec w) : a * b = BitVec.ofNat w (a.toNat * b.toNat) :=
  eq_ofNat_iff.2 (BitVec.toNat_mul a b)

theorem and_not_eq_ofNat (a b : BitVec w) : a &&& ~~~b = BitVec.ofNat w (Nat.land a.toNat (2 ^ w - 1 - b.toNat)) :=
  eq_ofNat_of_toNat (by rw [BitVec.toNat_and, BitVec.toNat_not]; rfl)

theorem shiftLeft_eq_ofNat (a : BitVec w) (n : Nat) : a <<< n = BitVec.ofNat w (a.toNat * 2 ^ n) :=
  eq_ofNat_iff.2 (by rw [BitVec.toNat_shiftLeft, Nat.shiftLeft_eq])

theorem ushiftRight_eq_ofNat (a : BitVec w) (n : Nat) : a >>> n = BitVec.ofNat w (a.toNat / 2 ^ n) :=
  eq_ofNat_of_toNat (by rw [BitVec.toNat_ushiftRight, Nat.shiftRight_eq_div_pow])

theorem sshiftRight_eq_ofInt (a : BitVec w) (n : Nat) : a.sshiftRight n = BitVec.ofInt w (a.toInt / 2 ^ n) := by
  rw [BitVec.sshiftRight_eq, Int.shiftRight_eq_div_pow]; norm_cast

theorem ite_slt_eq_min (a b : BitVec w) : (if a.slt b then a else b) = BitVec.ofInt w (min a.toInt b.toInt) := by
  apply eq_ofInt_of_toInt
  by_cases h : a.toInt < b.toInt
  · rw [if_pos (BitVec.slt_iff_toInt_lt.2 h), min_eq_left h.le]
  · rw [if_neg (mt BitVec.slt_iff_toInt_lt.1 h), min_eq_right (not_lt.1 h)]

theorem ite_slt_eq_max (a b : BitVec w) : (if a.slt b then b else a) = BitVec.ofInt w (max a.toInt b.toInt) := by
  apply eq_ofInt_of_toInt
  by_cases h : a.toInt < b.toInt
  · rw [if_pos (BitVec.slt_iff_toInt_lt.2 h), max_eq_right h.le]
  · rw [if_neg (mt BitVec.slt_iff_toInt_lt.1 h), max_eq_left (not_lt.1 h)]

theorem ite_ult_eq_min (a b : BitVec w) : (if a.ult b then a else b) = BitVec.ofNat w (min a.toNat b.toNat) := by
  apply eq_ofNat_of_toNat
  by_cases h : a.toNat < b.toNat
  · rw [if_pos (BitVec.ult_iff_toNat_lt.2 h), min_eq_left h.le]
  · rw [if_neg (mt BitVec.ult_iff_toNat_lt.1 h), min_eq_right (not_lt.1 h)]

theorem ite_ult_eq_max (a b : BitVec w) : (if a.ult b then b else a) = BitVec.ofNat w (max a.toNat b.toNat) := by
  apply eq_ofNat_of_toNat
  by_cases h : a.toNat < b.toNat
  · rw [if_pos (BitVec.ult_iff_toNat_lt.2 h), max_eq_right h.le]
  · rw [if_neg (mt BitVec.ult_iff_toNat_lt.1 h), max_eq_left (not_lt.1 h)]

theorem toNat_append_eq {m n : Nat} (x : BitVec m) (y : BitVec n) : (x ++ y).toNat = x.toNat * 2 ^ n + y.toNat := by
  rw [BitVec.toNat_append, ← Nat.shiftLeft_add_eq_or_of_lt y.isLt, Nat.shiftLeft_eq]

theorem toNat_fld_low (x : BitVec w) (len : Nat) : (fld x 0 len).toNat = x.toNat % 2 ^ len := by
  rw [fld, BitVec.extractLsb'_toNat, Nat.shiftRight_zero]

/-! ## 128-bit values in two words -/

theorem fld_low_eq_lowWord (v : BitVec 128) : fld v 0 64 = lowWord v.toNat := eq_ofNat_iff.2 (toNat_fld_low v 64)

theorem lowWord_mod (n : Nat) : lowWord (n % 2 ^ 128) = lowWord n := by
  apply eq_ofNat_iff.2
  rw [lowWord, BitVec.toNat_ofNat]
  omega

theorem fld_high_eq_highWord (v : BitVec 128) : fld v 64 64 = highWord v.toNat := by
  apply eq_ofNat_iff.2
  rw [fld, BitVec.extractLsb'_toNat, Nat.shiftRight_eq_div_pow]

theorem fld_high_mul_setWidth (a b : W64) :
    fld (a.setWidth 128 * b.setWidth 128) 64 64 = BitVec.ofNat 64 (a.toNat * b.toNat / 2 ^ 64) := by
  have hlt : a.toNat * b.toNat < 2 ^ 128 := (Nat.mul_lt_mul'' a.isLt b.isLt).trans_eq (Nat.pow_add 2 64 64).symm
  rw [fld_high_eq_highWord, BitVec.toNat_mul, BitVec.toNat_setWidth_of_le (by decide),
    BitVec.toNat_setWidth_of_le (by decide), Nat.mod_eq_of_lt hlt]
  rfl

theorem fld_high_ofInt (i : Int) : fld (BitVec.ofInt 128 i) 64 64 = BitVec.ofInt 64 (i / 2 ^ 64) := by
  rw [fld_high_eq_highWord]
  apply BitVec.eq_of_toNat_eq
  rw [highWord, BitVec.toNat_ofNat, BitVec.toNat_ofInt, BitVec.toNat_ofInt]
  omega

theorem fld_high_mul_signExtend (a b : W64) :
    fld (a.signExtend 128 * b.signExtend 128) 64 64 = BitVec.ofInt 64 (a.toInt * b.toInt / 2 ^ 64) := by
  rw [mul_eq_ofInt, BitVec.toInt_signExtend_of_le (by decide), BitVec.toInt_signExtend_of_le (by decide), fld_high_ofInt]

/-! ## Comparisons -/

theorem toInt_eq_ite {w : Nat} (hw : 0 < w) (x : BitVec w) :
    x.toInt = if x.toNat < 2 ^ (w - 1) then (x.toNat : Int) else x.toNat - 2 ^ w := by
  obtain ⟨k, rfl⟩ : ∃ k, w = k + 1 := ⟨w - 1, by omega⟩
  rw [BitVec.toInt_eq_toNat_cond, Nat.add_sub_cancel]
  have : 2 * x.toNat < 2 ^ (k + 1) ↔ x.toNat < 2 ^ k := by rw [Nat.pow_succ]; omega
  simp only [this]
  norm_cast

theorem and_eq_zero_iff (a b : BitVec w) : a &&& b = 0 ↔ Nat.land a.toNat b.toNat = 0 := by
  rw [← BitVec.toNat_inj, BitVec.toNat_and]; rfl

theorem intCond_eq_condOf {w : Nat} (hw : 0 < w) (c : BitVec 3) (a b : BitVec w) :
    intCond c a b = condOf c w a.toNat b.toNat := by
  have hlt : a.slt b = decide (a.toInt < b.toInt) := BitVec.slt_eq_decide
  rw [toInt_eq_ite hw, toInt_eq_ite hw] at hlt
  unfold intCond condOf
  generalize c.toNat = k
  match k with
  | 0 => exact decide_eq_decide.2 BitVec.toNat_inj.symm
  | 1 => exact decide_eq_decide.2 (not_congr BitVec.toNat_inj.symm)
  | 2 => exact hlt
  | 3 => exact (congrArg not hlt).trans (decide_not.symm.trans (decide_eq_decide.2 not_lt))
  | 4 => exact BitVec.ult_eq_decide
  | 5 => exact decide_not.symm.trans (decide_eq_decide.2 not_lt)
  | 6 => exact decide_eq_decide.2 (not_congr (and_eq_zero_iff a b))
  | _ + 7 => exact decide_eq_decide.2 (and_eq_zero_iff a b)

/-- SLTI's two comparisons, as numbers (R291). -/
theorem ite_ult_slt_eq (u : Bool) (a k : W64) :
    (if (if u then a.ult k else a.slt k) then (1 : W64) else 0) =
      if (if u then a.toNat < k.toNat else a.toInt < k.toInt) then 1 else 0 := by
  cases u with
  | true => simp only [if_true, BitVec.ult_iff_toNat_lt]
  | false => simp only [Bool.false_eq_true, if_false, BitVec.slt_iff_toInt_lt]

/-! ## Bit counts -/

/-- Below bit n: j leading zeros leave a number of n - j bits, whose top bit is one unless j is n. -/
theorem leadingZeros_spec (v : W64) (n : Nat) :
    leadingZeros v n ≤ n ∧ v.toNat % 2 ^ n < 2 ^ (n - leadingZeros v n) ∧
    (leadingZeros v n < n → 2 ^ (n - 1 - leadingZeros v n) ≤ v.toNat % 2 ^ n) := by
  induction n with
  | zero => simp [leadingZeros, Nat.mod_one]
  | succ n ih =>
    obtain ⟨hle, hlt, hge⟩ := ih
    have hsplit : v.toNat % 2 ^ (n + 1) = v.toNat % 2 ^ n + 2 ^ n * (v.getLsbD n).toNat := by
      rw [BitVec.getLsbD, Nat.toNat_testBit, Nat.pow_succ, Nat.mod_mul]
    rw [hsplit, leadingZeros]
    cases hb : v.getLsbD n with
    | true =>
      have := Nat.mod_lt v.toNat (Nat.two_pow_pos n)
      simp only [if_true, Bool.toNat_true, Nat.sub_zero, Nat.pow_succ, Nat.add_sub_cancel]
      omega
    | false =>
      have e1 : n + 1 - (1 + leadingZeros v n) = n - leadingZeros v n := by omega
      have e2 : n - (1 + leadingZeros v n) = n - 1 - leadingZeros v n := by omega
      simp only [Bool.false_eq_true, if_false, Bool.toNat_false, Nat.mul_zero, Nat.add_zero, Nat.add_sub_cancel, e1, e2]
      exact ⟨by omega, hlt, fun h => hge (by omega)⟩

/-- From bit i on: j trailing zeros are a factor 2^j, and the bit above them is one unless they fill the n bits. -/
theorem trailingZeros_spec (v : W64) (n i : Nat) :
    trailingZeros v n i ≤ n ∧ v.toNat / 2 ^ i % 2 ^ trailingZeros v n i = 0 ∧
    (trailingZeros v n i < n → v.toNat / 2 ^ i / 2 ^ trailingZeros v n i % 2 = 1) := by
  induction n generalizing i with
  | zero => simp [trailingZeros, Nat.mod_one]
  | succ n ih =>
    obtain ⟨hle, hzero, hone⟩ := ih (i + 1)
    have hbit : v.getLsbD i = decide (v.toNat / 2 ^ i % 2 = 1) := Nat.testBit_eq_decide_div_mod_eq
    have hdiv : v.toNat / 2 ^ i / 2 = v.toNat / 2 ^ (i + 1) := by rw [Nat.div_div_eq_div_mul, ← Nat.pow_succ]
    rw [trailingZeros]
    cases hb : v.getLsbD i with
    | true =>
      rw [hb] at hbit
      simpa [Nat.mod_one] using hbit.symm
    | false =>
      rw [hb] at hbit
      have heven : v.toNat / 2 ^ i % 2 = 0 := by simpa using hbit
      simp only [Bool.false_eq_true, if_false, Nat.add_comm 1]
      refine ⟨by omega, ?_, fun h => ?_⟩
      · rw [Nat.pow_succ', Nat.mod_mul, heven, hdiv, hzero]
      · rw [Nat.pow_succ', ← Nat.div_div_eq_div_mul, hdiv]
        exact hone (by omega)

theorem length_filter_getLsbD_eq_countP (v : W64) :
    ((List.range 64).filter v.getLsbD).length = (List.range 64).countP fun i => v.toNat / 2 ^ i % 2 = 1 := by
  rw [← List.countP_eq_length_filter]
  congr 1
  funext i
  exact Nat.testBit_eq_decide_div_mod_eq
end

section
/-! ## Encodings of one operation -/

theorem wf_iff_reasons {e : DecodeEnv} {i : Instr} : i.wf e = true ↔ i.reasons e = [] := decide_eq_true_iff

/-- The lowest of reasons that are all one reason is that one (R257). -/
theorem lowest_eq_some {l : List Nat} {r : Nat} (hne : l ≠ []) (h : ∀ x ∈ l, x = r) : lowest l = some r := by
  induction l with
  | nil => exact absurd rfl hne
  | cons x xs ih =>
    obtain rfl := h x (List.mem_cons_self ..)
    cases xs with
    | nil => rfl
    | cons y ys =>
      rw [lowest, ih (List.cons_ne_nil y ys) fun z hz => h z (List.mem_cons_of_mem _ hz)]
      exact congrArg some (min_self x)

/-- Fields that raise one reason, once or more, refuse the slot with its code (R226, R257). -/
theorem slotResult_eq_error {e : DecodeEnv} {i : Instr} {r : Nat} (slot : Nat) (hne : i.reasons e ≠ [])
    (h : ∀ x ∈ i.reasons e, x = r) : slotResult e slot (some i) = .error (16 * slot + r) := by
  rw [slotResult, lowest_eq_some hne h]

section
variable {n : Nat} {c : SlotS → Instr} {zero : SlotS → Bool} {ok : SlotS → Prop}

/-- The code of a scalar-slot operation whose one rule is that fields are zero. -/
theorem slotCode_zeroFields (hdec : ∀ f, scalarOfOp n f = some (c f)) (henc : ∀ f, (c f).scalarCode = some (n, f))
    (hreasons : ∀ e f, (c f).reasons e = unlessOk (zero f) 2) (hok : ∀ f, zero f = true ↔ ok f) : SlotCode n c ok :=
  fun e f => ⟨hdec f, henc f, by rw [wf_iff_reasons, hreasons, Laws.Coding.unlessOk_nil, hok]⟩

/-- The code of a two-operand operation (R285): sx[2:0] is zero. -/
theorem slotCode_twoOperand (hdec : ∀ f, scalarOfOp n f = some (c f)) (henc : ∀ f, (c f).scalarCode = some (n, f))
    (hreasons : ∀ e f, (c f).reasons e = unlessOk (fld f.sx 0 3 = 0) 2) : SlotCode n c fun f => fld f.sx 0 3 = 0 :=
  slotCode_zeroFields hdec henc hreasons fun _ => decide_eq_true_iff

end

/-- MOV's code (R285): it reads no g[a], so sa is zero too. -/
theorem slotCode_mov : SlotCode 0x11 .mov fun f => fld f.sx 0 3 = 0 ∧ f.sa = 0 := by
  refine fun e f => ⟨rfl, rfl, ?_⟩
  have h : (Instr.mov f).reasons e = unlessOk (fld f.sx 0 3 = 0) 2 ++ unlessOk (f.sa = 0) 2 := rfl
  rw [wf_iff_reasons, h, List.append_eq_nil_iff, Laws.Coding.unlessOk_nil, Laws.Coding.unlessOk_nil, decide_eq_true_iff,
    decide_eq_true_iff]

/-- Registers that name pairs raise no reason exactly where each is even (R250). -/
theorem oddPairs_eq_nil {l : List (BitVec 5)} : l.flatMap oddPair = [] ↔ ∀ r ∈ l, evenReg r := by
  simp [oddPair, Laws.Coding.unlessOk_nil, evenReg]

theorem eq_four_of_mem_oddPairs {l : List (BitVec 5)} : ∀ x ∈ l.flatMap oddPair, x = 4 := by
  intro x hx
  obtain ⟨r, -, hr⟩ := List.mem_flatMap.1 hx
  unfold oddPair unlessOk at hr
  split at hr
  · exact absurd hr List.not_mem_nil
  · exact List.mem_singleton.1 hr

/-- The register of a second pair operand: none where B is the immediate sb (R284). -/
def pairB (f : SlotS) : List (BitVec 5) := if f.sx.getLsbD 3 then [] else [f.sb]

theorem pairB_even (f : SlotS) : (∀ r ∈ pairB f, evenReg r) ↔ f.sx.getLsbD 3 = true ∨ evenReg f.sb := by
  unfold pairB
  cases f.sx.getLsbD 3 <;> simp

theorem flatMap_pairB (f : SlotS) : (pairB f).flatMap oddPair = if f.sx.getLsbD 3 then [] else oddPair f.sb := by
  unfold pairB
  cases f.sx.getLsbD 3 <;> simp

section
variable {n : Nat} {c : SlotS → Instr} {zero : SlotS → Bool} {pairs : SlotS → List (BitVec 5)} {z even : SlotS → Prop}
  (hreasons : ∀ e f, (c f).reasons e = unlessOk (zero f) 2 ++ (pairs f).flatMap oddPair)
  (hz : ∀ f, zero f = true ↔ z f) (heven : ∀ f, (∀ r ∈ pairs f, evenReg r) ↔ even f)
include hreasons hz heven

/-- The code of an operation on register pairs: fields are zero, and every register that names a pair is even (R286). -/
theorem slotCode_pairs (hdec : ∀ f, scalarOfOp n f = some (c f)) (henc : ∀ f, (c f).scalarCode = some (n, f)) :
    SlotCode n c fun f => z f ∧ even f :=
  fun e f => ⟨hdec f, henc f, by
    rw [wf_iff_reasons, hreasons, List.append_eq_nil_iff, Laws.Coding.unlessOk_nil, oddPairs_eq_nil, hz, heven]⟩

/-- An odd register where a pair is named raises code 4 (R250, R286). -/
theorem slotResult_oddPair (e : DecodeEnv) (f : SlotS) (hzero : z f) (hodd : ¬even f) :
    slotResult e 0 (some (c f)) = .error 4 := by
  have hr : (c f).reasons e = (pairs f).flatMap oddPair := by
    rw [hreasons, Laws.Coding.unlessOk_nil.2 ((hz f).2 hzero), List.nil_append]
  refine slotResult_eq_error (r := 4) 0 ?_ ?_
  · rw [hr]; exact mt oddPairs_eq_nil.1 (mt (heven f).1 hodd)
  · rw [hr]; exact eq_four_of_mem_oddPairs

end

/-- The code of a long operation in the LA layout whose one rule is that fields are zero, and code 34 elsewhere. -/
theorem longCode_zeroFields {n : Nat} {c : La → Instr} {zero : La → Bool} {ok : La → Prop}
    (hdec : ∀ w, longOfOp n w = some (c (.of w))) (henc : ∀ f, (c f).longCode = some (n, f.bits))
    (hreasons : ∀ e f, (c f).reasons e = unlessOk (zero f) 2) (hok : ∀ f, zero f = true ↔ ok f) : LongCode n c ok := by
  intro e f
  have hwf : (c f).reasons e = [] ↔ ok f := by rw [hreasons, Laws.Coding.unlessOk_nil, hok]
  refine ⟨henc f, fun w hw => by rw [hdec, La.of_bits hw], wf_iff_reasons.trans hwf, fun hbad => ?_⟩
  refine slotResult_eq_error (r := 2) 2 (mt hwf.1 hbad) ?_
  rw [hreasons, Bool.eq_false_iff.2 (mt (hok f).1 hbad)]
  exact fun x hx => List.mem_singleton.1 hx

/-- The code of a long operation whose x field alone must be zero (R291). -/
theorem longCode_zeroX {n : Nat} {c : La → Instr} (hdec : ∀ w, longOfOp n w = some (c (.of w)))
    (henc : ∀ f, (c f).longCode = some (n, f.bits)) (hreasons : ∀ e f, (c f).reasons e = unlessOk (f.x = 0) 2) :
    LongCode n c fun f => f.x = 0 :=
  longCode_zeroFields hdec henc hreasons fun _ => decide_eq_true_iff

end

section
/-! ## Operands -/

open State

variable (s : State) (f : SlotS)

theorem opB_eq_slotB : s.opB f = slotB s f := by
  rw [opB, slotB, BitVec.ofNat_toNat]

theorem toNat_gPair (r : BitVec 5) : (s.gPair r).toNat = pairNat s r := by
  rw [gPair, toNat_append_eq, pairNat, pairHi, Nat.mul_comm, Nat.add_comm]

theorem toNat_opBQ : (s.opBQ f).toNat = slotBQ s f := by
  unfold opBQ slotBQ
  split
  · exact BitVec.toNat_setWidth_of_le (by decide)
  · exact toNat_gPair s f.sb

theorem shiftQ_eq : shiftQ s f = if f.sx.getLsbD 3 then f.sb.toNat else (s.g f.sb).toNat % 128 := by
  rw [shiftQ, toNat_fld_low]; rfl

theorem toInt_gPair (r : BitVec 5) :
    (s.gPair r).toInt = if pairNat s r < 2 ^ 127 then (pairNat s r : Int) else pairNat s r - 2 ^ 128 := by
  rw [toInt_eq_ite (by decide), toNat_gPair]

theorem toInt_imm64 (f : La) : (imm64 f).toInt = immInt f := BitVec.toInt_signExtend_of_le (by decide)

end

section
/-! ## Completions that write one register, one pair or one predicate -/

variable {i : Instr} {s : State}

theorem completes_setG {r : BitVec 5} {v v' : W64} (h : exec i s = .next (s.setG r v)) (hv : v = v') :
    Completes i s fun t => WritesG s t r v' := ⟨_, h, hv ▸ writesG_setG s r v⟩

theorem completes_setP {r : BitVec 3} {b b' : Bool} (h : exec i s = .next (s.setP r b)) (hb : b = b') :
    Completes i s fun t => WritesP s t r b' := ⟨_, h, hb ▸ writesP_setP s r b⟩

theorem completes_setGPair {r : BitVec 5} {v : BitVec 128} {n : Nat} (h : exec i s = .next (s.setGPair r v))
    (hv : v.toNat = n) : Completes i s fun t => WritesPair s t r (lowWord n) (highWord n) :=
  ⟨_, h, by rw [← hv, ← fld_low_eq_lowWord, ← fld_high_eq_highWord]; exact writesPair_setGPair s r v⟩

/-- A 128-bit result that wraps. -/
theorem completes_setGPair_mod {r : BitVec 5} {v : BitVec 128} {n : Nat} (h : exec i s = .next (s.setGPair r v))
    (hv : v.toNat = n % 2 ^ 128) : Completes i s fun t => WritesPair s t r (lowWord n) (highWord (n % 2 ^ 128)) := by
  rw [← lowWord_mod]; exact completes_setGPair h hv

end

/-! ## The counts at 64 bits (R287) -/

theorem leadingZeros_counts (a : W64) :
    if a = 0 then leadingZeros a 64 = 64
    else leadingZeros a 64 < 64 ∧ 2 ^ (63 - leadingZeros a 64) ≤ a.toNat ∧ a.toNat < 2 ^ (64 - leadingZeros a 64) := by
  obtain ⟨hle, hlt, hge⟩ := leadingZeros_spec a 64
  rw [Nat.mod_eq_of_lt a.isLt] at hlt hge
  split
  case isTrue h =>
    subst h
    by_contra hne
    exact absurd (hge (by omega)) (not_le.2 (Nat.two_pow_pos _))
  case isFalse h =>
    have hlz : leadingZeros a 64 < 64 := by
      by_contra hnot
      rw [show leadingZeros a 64 = 64 by omega, Nat.sub_self, Nat.pow_zero, Nat.lt_one_iff] at hlt
      exact h (BitVec.eq_of_toNat_eq hlt)
    exact ⟨hlz, hge hlz, hlt⟩

theorem trailingZeros_counts (a : W64) :
    if a = 0 then trailingZeros a 64 0 = 64
    else trailingZeros a 64 0 < 64 ∧ a.toNat % 2 ^ trailingZeros a 64 0 = 0 ∧
      a.toNat / 2 ^ trailingZeros a 64 0 % 2 = 1 := by
  obtain ⟨hle, hzero, hone⟩ := trailingZeros_spec a 64 0
  rw [Nat.pow_zero, Nat.div_one] at hzero hone
  split
  case isTrue h =>
    subst h
    by_contra hne
    exact absurd (hone (by omega)) (by simp)
  case isFalse h =>
    have htz : trailingZeros a 64 0 < 64 := by
      by_contra hnot
      rw [show trailingZeros a 64 0 = 64 by omega, Nat.mod_eq_of_lt a.isLt] at hzero
      exact h (BitVec.eq_of_toNat_eq hzero)
    exact ⟨htz, hzero, hone htz⟩

/-! ## The obligations -/

/-- Settles O3: a count of the model is the count that its recursion over the bits keeps, at 64 bits. -/
theorem countAndSelect : Obligations.CountAndSelect := by
  iterate 3 refine ⟨slotCode_zeroFields (fun _ => rfl) (fun _ => rfl) (fun _ _ => rfl) fun _ => by simp, ?_⟩
  refine ⟨slotCode_zeroFields (zero := fun _ => true) (fun _ => rfl) (fun _ => rfl) (fun _ _ => rfl) fun _ => by simp,
    fun f s => ⟨?_, ?_, ?_, ?_⟩⟩
  · exact ⟨_, rfl, _, writesG_setG s f.sd _, leadingZeros_counts (s.g f.sa)⟩
  · exact ⟨_, rfl, _, writesG_setG s f.sd _, trailingZeros_counts (s.g f.sa)⟩
  · exact completes_setG rfl (congrArg (BitVec.ofNat 64) (length_filter_getLsbD_eq_countP (s.g f.sa)))
  · exact completes_setG rfl rfl

/-- Settles O1: each result of the model, a bit vector, is the number that R285 gives. -/
theorem scalarArithmetic : Obligations.ScalarArithmetic := by
  iterate 16 refine ⟨slotCode_twoOperand (fun _ => rfl) (fun _ => rfl) (fun _ _ => rfl), ?_⟩
  refine ⟨slotCode_mov, fun f s => ?_⟩
  have hn : (fld (slotB s f) 0 6).toNat = (slotB s f).toNat % 64 := toNat_fld_low _ 6
  refine ⟨completes_setG rfl ?add, completes_setG rfl ?sub, completes_setG rfl ?and, completes_setG rfl ?or,
    completes_setG rfl ?xor, completes_setG rfl ?andn, completes_setG rfl ?shl, completes_setG rfl ?shr,
    completes_setG rfl ?sra, completes_setG rfl ?mul, completes_setG rfl ?mulh, completes_setG rfl ?mulhu,
    completes_setG rfl ?min, completes_setG rfl ?max, completes_setG rfl ?minu, completes_setG rfl ?maxu,
    completes_setG rfl ?mov⟩
  all_goals rw [opB_eq_slotB]
  case add => exact BitVec.add_def _ _
  case sub => exact sub_eq_ofInt _ _
  case and => exact eq_ofNat_of_toNat (BitVec.toNat_and _ _)
  case or => exact eq_ofNat_of_toNat (BitVec.toNat_or _ _)
  case xor => exact eq_ofNat_of_toNat (BitVec.toNat_xor _ _)
  case andn => exact and_not_eq_ofNat _ _
  case shl => rw [hn]; exact shiftLeft_eq_ofNat _ _
  case shr => rw [hn]; exact ushiftRight_eq_ofNat _ _
  case sra => rw [hn]; exact sshiftRight_eq_ofInt _ _
  case mul => exact mul_eq_ofNat _ _
  case mulh => exact fld_high_mul_signExtend _ _
  case mulhu => exact fld_high_mul_setWidth _ _
  case min => exact ite_slt_eq_min _ _
  case max => exact ite_slt_eq_max _ _
  case minu => exact ite_ult_eq_min _ _
  case maxu => exact ite_ult_eq_max _ _

/-- Settles O2: the pair's 128-bit vector as a number, and a vector's two words as those of its number. -/
theorem pairArithmetic : Obligations.PairArithmetic := by
  have hz (f : SlotS) : decide (fld f.sx 0 3 = 0) = true ↔ fld f.sx 0 3 = 0 := decide_eq_true_iff
  have heven (f : SlotS) : (∀ r ∈ [f.sd, f.sa], evenReg r) ↔ evenReg f.sd ∧ evenReg f.sa := by simp
  have hevenB (f : SlotS) : (∀ r ∈ f.sd :: f.sa :: pairB f, evenReg r) ↔
      (evenReg f.sd ∧ evenReg f.sa) ∧ (f.sx.getLsbD 3 = true ∨ evenReg f.sb) := by
    rw [List.forall_mem_cons, List.forall_mem_cons, pairB_even, and_assoc]
  have haddq (e : DecodeEnv) (f : SlotS) : (Instr.addq f).reasons e =
      unlessOk (fld f.sx 0 3 = 0) 2 ++ (f.sd :: f.sa :: pairB f).flatMap oddPair := by
    rw [List.flatMap_cons, List.flatMap_cons, flatMap_pairB, ← List.append_assoc, ← List.append_assoc]; rfl
  have hshift {c : SlotS → Instr}
    (h : ∀ e f, (c f).reasons e = unlessOk (fld f.sx 0 3 = 0) 2 ++ oddPair f.sd ++ oddPair f.sa) (e : DecodeEnv) (f : SlotS) :
      (c f).reasons e = unlessOk (fld f.sx 0 3 = 0) 2 ++ [f.sd, f.sa].flatMap oddPair := by
    rw [h]; simp
  refine ⟨slotCode_pairs haddq hz hevenB (fun _ => rfl) fun _ => rfl,
    slotCode_pairs (hshift fun _ _ => rfl) hz heven (fun _ => rfl) fun _ => rfl,
    slotCode_pairs (hshift fun _ _ => rfl) hz heven (fun _ => rfl) fun _ => rfl,
    slotCode_pairs (hshift fun _ _ => rfl) hz heven (fun _ => rfl) fun _ => rfl,
    fun e f hzero => ⟨fun hodd => slotResult_oddPair haddq hz hevenB e f hzero hodd,
      fun hodd => ⟨slotResult_oddPair (hshift fun _ _ => rfl) hz heven e f hzero hodd,
        slotResult_oddPair (hshift fun _ _ => rfl) hz heven e f hzero hodd,
        slotResult_oddPair (hshift fun _ _ => rfl) hz heven e f hzero hodd⟩⟩,
    fun f s => ⟨completes_setGPair_mod rfl ?_, completes_setGPair_mod rfl ?_, completes_setGPair rfl ?_,
      completes_setGPair rfl ?_⟩⟩
  · rw [BitVec.toNat_add, toNat_gPair, toNat_opBQ]
  · rw [BitVec.toNat_shiftLeft, Nat.shiftLeft_eq, toNat_gPair, shiftQ_eq]
  · rw [BitVec.toNat_ushiftRight, Nat.shiftRight_eq_div_pow, toNat_gPair, shiftQ_eq]
  · rw [sshiftRight_eq_ofInt, BitVec.toNat_ofInt, toInt_gPair, shiftQ_eq]; rfl

/-- Settles O4: the conditions of R289 on bit vectors are those on numbers; the logic is the model's own. -/
theorem predicateResults : Obligations.PredicateResults := by
  have hz (f : SlotS) : decide (fld f.sd 3 2 = 0) = true ↔ fld f.sd 3 2 = 0 := decide_eq_true_iff
  have hevenAB (f : SlotS) : (∀ r ∈ f.sa :: pairB f, evenReg r) ↔
      evenReg f.sa ∧ (f.sx.getLsbD 3 = true ∨ evenReg f.sb) := by
    rw [List.forall_mem_cons, pairB_even]
  have hsetpq (e : DecodeEnv) (f : SlotS) : (Instr.setpq f).reasons e =
      unlessOk (fld f.sd 3 2 = 0) 2 ++ (f.sa :: pairB f).flatMap oddPair := by
    rw [List.flatMap_cons, flatMap_pairB, ← List.append_assoc]; rfl
  refine ⟨slotCode_zeroFields (fun _ => rfl) (fun _ => rfl) (fun _ _ => rfl) hz,
    slotCode_pairs hsetpq hz hevenAB (fun _ => rfl) fun _ => rfl,
    slotResult_oddPair hsetpq hz hevenAB, ?_⟩
  iterate 5 refine ⟨slotCode_zeroFields (fun _ => rfl) (fun _ => rfl) (fun _ _ => rfl) fun _ => by simp [and_assoc], ?_⟩
  refine fun f s => ⟨completes_setP rfl ?_, completes_setP rfl ?_, completes_setP rfl rfl, completes_setP rfl rfl,
      completes_setP rfl rfl, completes_setP rfl rfl, rfl⟩
  · rw [opB_eq_slotB, intCond_eq_condOf (by decide)]
  · rw [intCond_eq_condOf (by decide), toNat_gPair, toNat_opBQ]

/-- Settles O6: I32 as the number its 32 bits give, and each result as a number. -/
theorem immediateArithmetic : Obligations.ImmediateArithmetic := by
  iterate 4 refine ⟨longCode_zeroX (fun _ => rfl) (fun _ => rfl) (fun _ _ => rfl), ?_⟩
  iterate 3 refine ⟨longCode_zeroFields (fun _ => rfl) (fun _ => rfl) (fun _ _ => rfl) (fun _ => by simp), ?_⟩
  refine ⟨longCode_zeroX (fun _ => rfl) (fun _ => rfl) (fun _ _ => rfl), ?_⟩
  iterate 4 refine ⟨longCode_zeroFields (fun _ => rfl) (fun _ => rfl) (fun _ _ => rfl) (fun _ => by simp), ?_⟩
  intro f s
  have hn : (fld f.imm 0 6).toNat = f.imm.toNat % 64 := toNat_fld_low _ 6
  refine ⟨completes_setG rfl ?addi, completes_setG rfl ?andi, completes_setG rfl ?ori, completes_setG rfl ?xori,
    completes_setG rfl ?shli, completes_setG rfl ?shri, completes_setG rfl ?srai, completes_setG rfl ?muli,
    completes_setG rfl rfl, completes_setG rfl ?lui, completes_setG rfl ?slti, completes_setP rfl ?setpi⟩
  case addi => rw [add_eq_ofInt, toInt_imm64]
  case andi => exact eq_ofNat_of_toNat (BitVec.toNat_and _ _)
  case ori => exact eq_ofNat_of_toNat (BitVec.toNat_or _ _)
  case xori => exact eq_ofNat_of_toNat (BitVec.toNat_xor _ _)
  case shli => rw [hn]; exact shiftLeft_eq_ofNat _ _
  case shri => rw [hn]; exact ushiftRight_eq_ofNat _ _
  case srai => rw [hn]; exact sshiftRight_eq_ofInt _ _
  case muli => rw [mul_eq_ofInt, toInt_imm64]
  case lui => exact eq_ofNat_of_toNat (by rw [toNat_append_eq, toNat_fld_low])
  case slti => rw [ite_ult_slt_eq, toInt_imm64]; rfl
  case setpi => exact intCond_eq_condOf (by decide) _ _ _

end Sys2Proof.Machine
end

section
/-! SUPPORT. The exceptions and interrupts of a system core (R407, R408): which interrupt is pending, the turn and the step
that take it, an exception with IE clear, and the obligation O14. -/

namespace Sys2Proof.Machine

/-! ## The pending interrupt (R407) -/

theorem keyLt_singleton (a b : Nat) : keyLt [a] [b] = decide (a < b) := by
  by_cases h : a = b <;> simp [keyLt, h]

/-- The element that `pickMin` takes from numbers keyed by themselves is the least of them. -/
theorem pickMin_singleton {l : List Nat} {m : Nat} (h : pickMin (fun r => [r]) l = some m) :
    m ∈ l ∧ ∀ q ∈ l, m ≤ q := by
  induction l generalizing m with
  | nil => cases h
  | cons a r ih =>
    rw [pickMin] at h
    split at h
    next hnone =>
      obtain rfl : a = m := Option.some.inj h
      cases r with
      | nil => simp
      | cons b r =>
        rw [pickMin] at hnone
        split at hnone
        · cases hnone
        · split at hnone <;> cases hnone
    next b hb =>
      obtain ⟨hmem, hle⟩ := ih hb
      rw [keyLt_singleton] at h
      split at h
      next hlt =>
        obtain rfl : b = m := Option.some.inj h
        have := of_decide_eq_true hlt
        exact ⟨List.mem_cons_of_mem _ hmem, List.forall_mem_cons.2 ⟨by omega, hle⟩⟩
      next hge =>
        obtain rfl : a = m := Option.some.inj h
        have : a ≤ b := by simpa using hge
        exact ⟨List.mem_cons_self .., List.forall_mem_cons.2 ⟨le_rfl, fun q hq => this.trans (hle q hq)⟩⟩

theorem pickMin_eq_none_iff {α : Type} {key : α → List Nat} {l : List α} : pickMin key l = none ↔ l = [] := by
  cases l with
  | nil => exact iff_of_true rfl rfl
  | cons a r =>
    refine iff_of_false ?_ (List.cons_ne_nil a r)
    rw [pickMin]
    split
    · exact Option.some_ne_none _
    · split <;> exact Option.some_ne_none _

/-- A core-trap interrupt is taken before any other, and the others by ascending code. -/
theorem exists_pendingCode {y : Sys} (h : y.ctpend ≠ 0 ∨ y.reports ≠ []) :
    ∃ code, pendingCode y = some code ∧
      if y.ctpend ≠ 0 then code = 0 else code ∈ y.reports ∧ ∀ q ∈ y.reports, code ≤ q := by
  unfold pendingCode
  by_cases hct : y.ctpend ≠ 0
  · exact ⟨0, if_pos hct, by rw [if_pos hct]⟩
  · simp only [if_neg hct]
    have hne : pickMin (fun r => [r]) y.reports ≠ none := mt pickMin_eq_none_iff.1 (h.resolve_left hct)
    obtain ⟨code, hcode⟩ := Option.ne_none_iff_exists'.1 hne
    exact ⟨code, hcode, pickMin_singleton hcode⟩

/-! ## Taking an interrupt -/

/-- In the turn of a system core that may go on and has no waiting instruction, a pending interrupt comes before the next
word. -/
theorem issue_pending {s : State} {k : SysId} (hgo : s.canGo (.system k) = true)
    (hfree : (s.cpuOf (.system k)).blocked = none) (hie : (s.sysCore k).ie = true)
    (hpend : (pendingCode (s.sysCore k)).isSome = true) :
    issue (.system k) s = execInterruptEntry k { s with cur := .system k, unit := .cp } := by
  have hgo' : (!State.canGo { s with cur := .system k, unit := .cp } (.system k)) = false := by
    rw [show State.canGo { s with cur := .system k, unit := .cp } (.system k) = true from hgo]; rfl
  have hpend' : ((s.sysCore k).ie && (pendingCode (s.sysCore k)).isSome) = true := by rw [hie, hpend]; rfl
  unfold issue
  simp only [hgo', Bool.false_eq_true, if_false]
  rw [show State.cpuOf { s with cur := .system k, unit := .cp } (.system k) = s.cpuOf (.system k) from rfl, hfree]
  exact if_pos hpend'

/-- A system core that may enter an interrupt enters the pending one, and its report waits no longer. -/
theorem execInterruptEntry_pending {s : State} {k : SysId} {code : Nat}
    (hcode : pendingCode (s.sysCore k) = some code) (hie : (s.sysCore k).ie = true)
    (hen : (s.sysCore k).enabled = true) (hrun : (s.sysCore k).running = true)
    (hfree : (s.sysCore k).x.blocked = none) :
    execInterruptEntry k s = .next
      ((s.setSys k { s.sysCore k with reports := (s.sysCore k).reports.erase code }).interruptEntry k code) := by
  simp [execInterruptEntry, hcode, hie, hen, hrun, hfree]

/-! ## An exception with IE clear (R407, R443) -/

/-- A system core that its exception has stopped: disabled until the next boot. -/
def shutDown (y : Sys) : Sys := { y with enabled := false, running := false, x := { y.x with blocked := none } }

/-- System core k takes an exception with IE = 0: it is shut down, and is reported if its die has another that is enabled;
no other core and no byte of memory changes. -/
structure ShutsDown (s t : State) (k : SysId) : Prop where
  self : t.sysCore k = shutDown (s.sysCore k)
  others : ∀ h, h ≠ k → t.sysCore h = s.sysCore h
  cores : t.cores = s.cores
  memory : SameMemory s t
  report : .systemCore k ∈ t.pfEvents ∨ ∀ h : SysId, h.val / 8 = k.val / 8 → (t.sysCore h).enabled = false

theorem shutsDown_exceptionEntry {s : State} {k : SysId} (hie : (s.sysCore k).ie = false) (cause : Nat) (addr ret : W64) :
    ShutsDown s (s.exceptionEntry k cause addr ret) k := by
  have hie' : ¬(s.sysCore k).ie = true := by rw [hie]; decide
  have hself := State.sysCore_setSys s k (shutDown (s.sysCore k))
  have hothers (h : SysId) (hne : h ≠ k) := State.sysCore_setSys_ne s (shutDown (s.sysCore k)) hne
  unfold State.exceptionEntry
  rw [if_neg hie']
  dsimp only
  split
  case isTrue =>
    exact ⟨hself, hothers, rfl, sameMemory_of_mem rfl, .inl (List.mem_append_right _ (List.mem_singleton_self _))⟩
  case isFalse hnone =>
    refine ⟨hself, hothers, rfl, sameMemory_of_mem rfl, .inr fun h hdie => Bool.eq_false_iff.2 fun hen => hnone ?_⟩
    exact List.any_eq_true.2 ⟨h, List.mem_finRange h, Bool.and_eq_true_iff.2 ⟨decide_eq_true hdie, hen⟩⟩

/-! ## TRAPRET and BRK on a system core (R408, R304) -/

theorem trapret_wf (e : DecodeEnv) (f : Lb) : (Instr.trapret f).wf e = true ↔ e.sys = true ∧ lbZero f = true := by
  rw [wf_iff_reasons, show (Instr.trapret f).reasons e = unlessOk e.sys 9 ++ unlessOk (lbZero f) 2 from rfl,
    List.append_eq_nil_iff, Laws.Coding.unlessOk_nil, Laws.Coding.unlessOk_nil]

theorem exec_trapret {s : State} {k : SysId} (hk : s.cur = .system k) (f : Lb) :
    exec (.trapret f) s = .next (s.exceptionReturn k) := by
  change supervisor _ _ s = _
  unfold supervisor
  rw [hk]
  rfl

theorem exec_brk {s : State} {k : SysId} (hk : s.cur = .system k) (j : La) :
    exec (.brk j) s = .next (s.exceptionEntry k 321 0 s.cpu.npc) := by
  change Host.Outcome.next (s.stopAfter .precise 321) = _
  unfold State.stopAfter
  rw [hk]

/-- Settles O14: TRAPRET by its meaning, the interrupt as the least pending code, and the exception with IE clear as a
shutdown of the core alone. -/
theorem systemExceptions : Obligations.SystemExceptions := by
  refine ⟨rfl, trapret_wf, fun s k => issue_pending, fun f s k => ⟨fun hk => ?trapret,
    fun j hk hie => ?disabled, fun hie hen hrun hfree hpend => ?interrupt⟩⟩
  case trapret => exact ⟨_, exec_trapret hk f, rfl, sameMemory_of_mem rfl⟩
  case disabled =>
    obtain ⟨hself, hothers, hcores, hmem, hreport⟩ := shutsDown_exceptionEntry hie 321 0 s.cpu.npc
    refine ⟨_, exec_brk hk j, ?_⟩
    beta_reduce
    rw [hself]
    exact ⟨rfl, rfl, rfl, rfl, rfl, hothers, hcores, hmem, hreport⟩
  case interrupt =>
    obtain ⟨code, hcode, hleast⟩ := exists_pendingCode hpend
    refine ⟨_, execInterruptEntry_pending hcode hie hen hrun hfree, code, hleast, ?_, ?_, sameMemory_of_mem rfl⟩
    · simp [State.interruptEntry, hie, hfree]
    · simpa [State.interruptEntry] using fun q => List.mem_of_mem_erase

end Sys2Proof.Machine
end
